-- ==== Sys2Proof/Word.lean ====
section
/-! DEFINITION. The word types of the TS-616 and their plainest arithmetic.
What the manual treats as bits is a bit vector: character codes and bytes on the links, local frame
times that wrap at 2^32 (R1, R5), segment numbers that wrap at 256, the 16-bit saturating counters
(R50) and the ages carried on the cue line. Lengths, durations and timer counts are natural numbers. -/

namespace Sys2Proof

/-- One byte on a link, and one character code of a text. -/
abbrev Byte := BitVec 8

/-- A text: its character codes in order (Formats: one byte per character, no terminator). -/
abbrev Text := List Byte

/-- A local frame time: 32-bit unsigned, formed and compared modulo 2^32 (R1, R5). -/
abbrev Frame := BitVec 32

/-- A 16-bit counter of the COUNTERS window (R50), and a cue number (R143). -/
abbrev Counter := BitVec 16

/-- An age on the cue line: 16 bits, saturating at 65535 (R15). -/
abbrev Age := BitVec 16

/-- A station number, 0 to 7, as the straps give it. -/
abbrev Station := Fin 8

/-- The 24 sticky flags, laid out as the three flag bytes of the status word (Formats). -/
abbrev FlagWord := BitVec 24

/-- A 16-bit field most significant byte first (Formats: every number on every link). -/
def beBytes16 (n : Nat) : List Byte := [BitVec.ofNat 8 (n / 256), BitVec.ofNat 8 n]

/-- A 32-bit frame time, most significant byte first (Formats). -/
def beBytes32 (f : Frame) : List Byte :=
  [f.extractLsb' 24 8, f.extractLsb' 16 8, f.extractLsb' 8 8, f.extractLsb' 0 8]

/-- The number two bytes spell, most significant byte first. -/
def ofBytes16 (hi lo : Byte) : Nat := hi.toNat * 256 + lo.toNat

end Sys2Proof
end

