-- ==== Sys2Proof/Config.lean ====
section
/-! DEFINITION. What the configuration image fixes (R169) and the values the manual leaves open.
`Configuration` is the configuration in force, one field per row of R169's table, with the defaults of
that table. The `opaque` constants are FREE VALUES: nothing in Lean can evaluate them. -/

namespace Sys2Proof.Machine

/-- The three roles (R169; the role codes of Formats are 1, 2 and 3). -/
inductive Role where
  | writer
  | output
  | both
  deriving DecidableEq, Repr

/-- An edge of FP: the configuration selects the active one (R1). -/
inductive FpEdge where
  | rising
  | falling
  deriving DecidableEq, Repr

/-- The line rate of the cue line (R169). -/
inductive LineRate where
  | kbaud500
  | mbaud1
  | mbaud2
  deriving DecidableEq, Repr

/-- The rate of an asynchronous link (R169): writer link and inserter link. -/
inductive LinkRate where
  | baud9600
  | baud19200
  | baud38400
  | baud57600
  | baud115200
  deriving DecidableEq, Repr

/-- The amend weight w: 1, 2 or 4, or STRICT (R24). -/
inductive AmendWeight where
  | ratio (w : Nat)
  | strict
  deriving DecidableEq, Repr

/-- One rung of the reading-rate ladder: a queue lateness in frames and a rate in tenths of a
character per second (R129). -/
structure Rung where
  threshold : Nat
  rate : Nat
  deriving DecidableEq, Repr

/-- The default ladder (Timing Arithmetic). -/
def defaultLadder : List Rung :=
  [⟨0, 150⟩, ⟨25, 160⟩, ⟨50, 170⟩, ⟨100, 180⟩, ⟨150, 200⟩, ⟨200, 220⟩, ⟨300, 250⟩, ⟨400, 300⟩]

/-- The configuration in force: one field per row of R169's table, each at its default there. -/
structure Configuration where
  role : Role := .output
  frameRate : Nat := 25
  fpEdge : FpEdge := .rising
  tallyPeriod : Nat := 20
  lineRate : LineRate := .mbaud1
  maxBody : Nat := 192
  admission : BitVec 8 := 255#8
  quality : Nat := 2
  amendWeight : AmendWeight := .ratio 2
  beatInterval : Nat := 25
  timeoutMultiple : Nat := 4
  lapseInterval : Nat := 250
  overlapLimit : Nat := 750
  autoClaim : Bool := false
  writerRate : LinkRate := .baud38400
  writerLag : Nat := 75
  pauseInterval : Nat := 38
  softLimit : Nat := 60
  hardLimit : Nat := 120
  trimMargin : Nat := 10
  rowWidth : Nat := 37
  delay : Nat := 0
  onsetGap : Nat := 6
  dMin : Nat := 30
  dMax : Nat := 150
  ladder : List Rung := defaultLadder
  rows : Nat := 2
  lamDrop : Nat := 500
  visibleAmends : Bool := true
  zoneHold : Nat := 12
  inserterRate : LinkRate := .baud38400
  alertMask : FlagWord := 16777215#24
  deriving DecidableEq, Repr

/-- Every value at its default (R169). -/
def Configuration.default : Configuration := {}

end Sys2Proof.Machine

namespace Sys2Proof

/-- FREE VALUE (log entry 3): what a one-byte field of a window record shows for a number above 255.
Formats gives such a field one byte and says nothing of a larger number. -/
opaque Config.wideByte : Nat → Byte

/-- FREE VALUE (log entry 4): the key bytes (segment number, first word index, first piece) that the
SCHEDULE window shows for a record whose key is retired: the manual says the key is then 'none' and
gives those bytes no value. The arguments are the cue number and which of the three bytes. -/
opaque Config.retiredKeyByte : Nat → Nat → Byte

/-- FREE VALUE (log entry 44): the check bytes that follow a block's data bytes on the cue line. R175 gives
their number, and the manual does not give the code that makes them. The arguments are the block's data bytes and
which of the four. -/
opaque Config.checkByte : List Byte → Nat → Byte

end Sys2Proof
end

