-- ==== Sys2Proof/Syntax.lean ====
section
/-! DEFINITION. The commands of the station: one constructor of `Instr` per row of spec/opcode_table.json,
with the operands the row's event carries, and the contents of the frames and records they carry.
A command is an event at the station: a frame that ends on the cue line, a writer record that completes,
an edge of FP, a supervisory transfer, a step of the line controller, or one piece of a tick's work. -/

namespace Sys2Proof.Machine

/-- The successor an OFFER names: a station, or ANY (R15). -/
inductive Successor where
  | station (n : Station)
  | any
  deriving DecidableEq, Repr

/-- A floor view: a state with its holder and second station (R51). -/
inductive View where
  | vacant
  | held (h : Station)
  | offered (h : Station) (s : Successor)
  | overlap (h t : Station)
  deriving DecidableEq, Repr

/-- One word of a SEGMENT body: its offset and its text (R15). -/
structure FrameWord where
  offset : Byte
  text : Text
  deriving DecidableEq, Repr

/-- The body of a SEGMENT (R15, R100). -/
structure SegmentBody where
  number : Byte
  restart : Bool
  newSpeaker : Bool
  firstAge : Age
  words : List FrameWord
  deriving DecidableEq, Repr

/-- The operation of an AMEND (R15). -/
inductive AmendOp where
  | delete (count : Byte)
  | replace (words : List Text)
  deriving DecidableEq, Repr

/-- The body of an AMEND (R15). -/
structure AmendBody where
  segment : Byte
  index : Byte
  op : AmendOp
  deriving DecidableEq, Repr

/-- The body of a BEAT (R43). -/
structure BeatBody where
  role : Role
  ready : Bool
  view : View
  last : Byte
  start : Bool
  deriving DecidableEq, Repr

/-- The body of a cue frame, by its kind (R15). -/
inductive FrameBody where
  | claim
  | offer (s : Successor)
  | take (h : Station)
  | release (point : Age) (last : Byte)
  | yield
  | amend (b : AmendBody)
  | segment (b : SegmentBody)
  | beat (b : BeatBody)
  deriving DecidableEq, Repr

/-- How a frame whose blocks were all correctable reached this receiver: its source, the worst
corrected-flip count over its blocks (R28), and, for an own frame, whether the station read a wrong
bit back while it sent it (R27). -/
structure Rx where
  source : Station
  worst : Fin 4
  readback : Bool
  deriving DecidableEq, Repr

/-- The three data bytes of a header block (R175). -/
structure HeaderBytes where
  byte0 : Byte
  kind : Byte
  length : Byte
  deriving DecidableEq, Repr

/-- A frame end as the receiver has it before judging it (R28): the header block's data bytes with
its corrected flips, or none where it is uncorrectable; for each body block its corrected flips, or
none where it is UNCORRECTABLE (a block that did not arrive may be left out of the list); the body
bytes; and the readback mark of an own frame (R27). -/
structure RawFrame where
  header : Option HeaderBytes
  headerFlips : Fin 4
  blocks : List (Option (Fin 4))
  body : List Byte
  readback : Bool
  deriving DecidableEq, Repr

/-- A piece of one tick's work that FRAME_TICK, FLYWHEEL_TICK or ENTRY_INTO_FLYWHEEL may leave to a
step of its own, so that events at the same instant can be taken before it (R7, R41, R148): one for
each row of the table that is such a piece; and `zone`, which leaves the screen unit's zone stage until
the schedule has made its comparison at the same tick (R148, R149). -/
inductive TickEvent where
  | tallyOnPartEnd
  | tallyBlink
  | pause
  | lapse
  | overlap
  | beat
  | running
  | peerAgeOut
  | cueExpires
  | showCue
  | zone
  deriving DecidableEq, Repr

end Sys2Proof.Machine

namespace Sys2Proof

open Machine

/-- The commands: one constructor per row of spec/opcode_table.json. -/
inductive Instr where
  /-- POWER_ON, with the levels of the straps SN0 to SN2. -/
  | powerOn (straps : Station)
  /-- RESETN_ASSERTION. -/
  | resetnAssertion
  /-- RESETN_RELEASE, with the levels of the straps. -/
  | resetnRelease (straps : Station)
  /-- IMAGE_LOADED, with the bytes read from the configuration memory, first byte first. -/
  | imageLoaded (image : List Byte)
  /-- STARTUP_BLANK_BEGINS. -/
  | startupBlankBegins
  /-- ENTRY_INTO_RUNNING. -/
  | entryIntoRunning
  /-- FRAME_TICK: an edge of FP, the levels of GZL and GZU at it, and the work left to later steps. -/
  | frameTick (edge : FpEdge) (gzl gzu : Bool) (later : List TickEvent)
  /-- ENTRY_INTO_FLYWHEEL: the loss watch runs out. -/
  | entryIntoFlywheel (gzl gzu : Bool) (later : List TickEvent)
  /-- FLYWHEEL_TICK: a tick of the internal generator. -/
  | flywheelTick (gzl gzu : Bool) (later : List TickEvent)
  /-- ORDER_SENT. -/
  | orderSent
  /-- PEER_AGE_OUT, naming the station of the entry. -/
  | peerAgeOut (x : Station)
  /-- PAUSE_TIMER_EXPIRY. -/
  | pauseTimerExpiry
  /-- LAPSE_TIMER_EXPIRY. -/
  | lapseTimerExpiry
  /-- OVERLAP_TIMER_EXPIRY. -/
  | overlapTimerExpiry
  /-- BEAT_TIMER_EXPIRY. -/
  | beatTimerExpiry
  /-- TALLY_BLINK_EXPIRY. -/
  | tallyBlinkExpiry
  /-- TALLY_ON_PART_END. -/
  | tallyOnPartEnd
  /-- SHOW_CUE. -/
  | showCue
  /-- CUE_EXPIRES. -/
  | cueExpires
  /-- CONTENTION_START: the gap has run and the controller may begin. -/
  | contentionStart
  /-- ARBITRATION_LOSS, with the mark of a readback fault before the loss (R27). -/
  | arbitrationLoss (readback : Bool)
  /-- FRAME_WIN: the frame under arbitration here wins (own), or another station's frame does. -/
  | frameWin (own readback : Bool)
  /-- FRAME_NOT_ACCEPTED: a frame end, raw, for the receiver to judge. -/
  | frameNotAccepted (raw : RawFrame)
  /-- BEAT_RECEIVED. -/
  | beatReceived (rx : Rx) (b : BeatBody)
  /-- CLAIM_RECEIVED. -/
  | claimReceived (rx : Rx)
  /-- OFFER_RECEIVED. -/
  | offerReceived (rx : Rx) (s : Successor)
  /-- TAKE_RECEIVED. -/
  | takeReceived (rx : Rx) (h : Station)
  /-- RELEASE_RECEIVED. -/
  | releaseReceived (rx : Rx) (point : Age) (last : Byte)
  /-- YIELD_RECEIVED. -/
  | yieldReceived (rx : Rx)
  /-- SEGMENT_RECEIVED. -/
  | segmentReceived (rx : Rx) (b : SegmentBody)
  /-- DRAIN_COMPLETE. -/
  | drainComplete
  /-- AMEND_RECEIVED. -/
  | amendReceived (rx : Rx) (b : AmendBody)
  /-- WORD, with its text field. -/
  | word (text : Text)
  /-- BREAK. -/
  | speakerBreak
  /-- FLUSH. -/
  | flush
  /-- DELETE, with its count byte n. -/
  | delete (n : Byte)
  /-- REPLACE, with its bytes k and m. -/
  | replace (k m : Byte)
  /-- REPWORD, with its text field. -/
  | repword (text : Text)
  /-- READY. -/
  | ready
  /-- UNREADY. -/
  | unready
  /-- FLOOR_TAKE. -/
  | floorTake
  /-- FLOOR_HAND, with its successor byte (0 to 7, or 15 for ANY). -/
  | floorHand (successor : Byte)
  /-- FLOOR_DONE. -/
  | floorDone
  /-- FLOOR_LEAVE. -/
  | floorLeave
  /-- MALFORMED_RECORD: a record as its bytes (kind and content) and its framing-error mark, for the
  parser to judge. -/
  | malformedRecord (kind : Byte) (content : List Byte) (framing : Bool)
  /-- RECORD_GAP_TIMEOUT: the bytes received on the writer link since the parser last waited for a
  start byte, followed by a gap of more than 10 character times. -/
  | recordGapTimeout (received : List Byte)
  /-- NOTICE_SENT. -/
  | noticeSent
  /-- SELECT_STATUS_WORD: command byte 0. -/
  | selectStatusWord
  /-- SELECT_CONFIGURATION_BLOCK: command byte 1. -/
  | selectConfigurationBlock
  /-- SELECT_WINDOW_READS: command byte 2. -/
  | selectWindowReads
  /-- WINDOW_SELECT: command byte 3, a table byte and an index byte. -/
  | windowSelect (table index : Byte)
  /-- CLEAR_COUNTERS: command byte 4. -/
  | clearCounters
  /-- RESTART: command byte 5. -/
  | restart
  /-- INVALID_WRITE: a supervisory write, as its bytes. -/
  | invalidWrite (bytes : List Byte)
  /-- STATUS_WORD_READ: a supervisory read of the given number of bytes. -/
  | statusWordRead (count : Nat)
  /-- WINDOW_READ: a supervisory read of the given number of bytes. -/
  | windowRead (count : Nat)
  /-- LINE_IDLE_FOR_GAP. -/
  | lineIdleForGap
  deriving DecidableEq, Repr

end Sys2Proof
end

