-- ==== Sys2Proof/Decode.lean ====
section
/-! DEFINITION. The command a word of the opcode table spells. No row of this hardware's table gives bits:
its commands are events at the station's pins and links, so no word spells one. -/

namespace Sys2Proof

/-- The command that a word of so many bits spells by the table: none, since no row gives bits. -/
def decodeTableWord (_nbits _w : Nat) : Option Instr := none

end Sys2Proof
end

