-- ==== Sys2Proof/Machine/State.lean ====
section
/-! DEFINITION. The state of the station: every register, queue, buffer, counter, timer, mode and pin
the manual gives it, block by block, and the queue of waiting commands. Plain data throughout.
`State.reset` is the station right after power-on, in LOADING, before its image is read. -/

namespace Sys2Proof.Machine

/-! ### Start-up and frame clock -/

/-- The start states (R168). -/
inductive StartState where
  | loading
  | listening
  | running
  deriving DecidableEq, Repr

/-- The reference states (R2, R3). -/
inductive RefState where
  | locked
  | flywheel
  deriving DecidableEq, Repr

/-- The load result (R169). -/
structure LoadResult where
  defaultsUsed : Bool
  clamped : Bool
  deriving DecidableEq, Repr

/-- The frame clock: the local frame count, the reference state, and the graphics tally levels as the
latest tick read them (R1, R3, R162). -/
structure Clock where
  count : Frame
  ref : RefState
  gzl : Bool
  gzu : Bool
  deriving DecidableEq, Repr

/-- A one-shot timer (R6): `none` is STOPPED, `some r` is RUNNING with remaining count r. -/
abbrev OneShot := Option Nat

/-- Which one-shot timers have still to take the present frame tick, with the expiry it may bring: a stop or
a reload taken before a timer's own tick is R7's "stop taken first" or "reload taken first", one taken
after it R7's "tick taken first" (log entry 6). -/
structure TicksDue where
  pause : Bool
  lapse : Bool
  overlap : Bool
  deriving DecidableEq, Repr

/-- A continuous timer (R8): its remaining count (`none` when STOPPED), its period and its staged period. -/
structure ContTimer where
  remaining : Option Nat
  period : Nat
  staged : Option Nat
  deriving DecidableEq, Repr

/-- The tally patterns (R10). -/
inductive Pattern where
  | off
  | steady
  | slow
  | fast
  deriving DecidableEq, Repr

/-- The tally blink generator and the TALLY pin it drives (R10 to R12). -/
structure Tally where
  pattern : Pattern
  staged : Option Pattern
  timer : ContTimer
  position : Nat
  lamp : Bool
  deriving DecidableEq, Repr

/-! ### Segment assembler -/

/-- A word of the open segment (R95). -/
structure OpenWord where
  text : Text
  arrival : Frame
  speech : Frame
  deriving DecidableEq, Repr

/-- A word of a closed segment (R99). -/
structure SpokenWord where
  text : Text
  speech : Frame
  deriving DecidableEq, Repr

/-- A closed segment in the segment queue (R99). -/
structure QueuedSegment where
  number : Byte
  newSpeaker : Bool
  words : List SpokenWord
  deriving DecidableEq, Repr

/-- Where a word of the recent-word history stands (R103). -/
inductive Place where
  | opened (i : Nat)
  | queued (m : Byte) (i : Nat)
  | sent (m : Byte) (i : Nat)
  deriving DecidableEq, Repr

/-- One entry of the recent-word history (R103). -/
structure HistoryEntry where
  text : Text
  speech : Frame
  place : Place
  deriving DecidableEq, Repr

/-- One record of the amend window (R104). -/
structure WindowRecord where
  number : Byte
  count : Nat
  deriving DecidableEq, Repr

/-- The drain (R110): `reported` is DRAINING after drain complete has been reported. -/
inductive Drain where
  | idle
  | draining
  | reported
  deriving DecidableEq, Repr

/-- The last sent number and the last sent speech time (R100). -/
structure SentMark where
  number : Byte
  speech : Frame
  deriving DecidableEq, Repr

/-- The segment assembler (R95). The character count of the open segment is that of its words, and
segment in flight is read from the line controller's frame in flight. -/
structure Assembler where
  words : List OpenWord
  newSpeaker : Bool
  nextNumber : Byte
  restartPending : Bool
  lastSent : Option SentMark
  history : List HistoryEntry
  window : List WindowRecord
  drain : Drain
  deriving DecidableEq, Repr

/-! ### Writer port -/

/-- The writer states (R79). -/
inductive WriterState where
  | absent
  | idle
  | claiming
  | onAir
  | offering
  | incoming
  | outgoing
  | draining
  deriving DecidableEq, Repr

/-- The OUTCOME values (Writer Port; codes in Formats). -/
inductive Answer where
  | granted
  | refusedHeld
  | refusedState
  | badSuccessor
  | aborted
  | lapsed
  | lostFloor
  | starting
  deriving DecidableEq, Repr

/-- The REFUSE values (Writer Port; codes in Formats). -/
inductive RefuseReason where
  | notOnAir
  | tooOld
  | badRecord
  deriving DecidableEq, Repr

/-- The notices sent to the workstation (Writer Port). -/
inductive Notice where
  | state (w : WriterState)
  | outcome (o : Answer)
  | refuse (r : RefuseReason)
  deriving DecidableEq, Repr

/-- A well-formed writer record (Writer Port), its text clipped under R77. -/
inductive WriterRecord where
  | word (text : Text)
  | speakerBreak
  | flush
  | delete (n : Nat)
  | replace (k m : Nat)
  | repword (text : Text)
  | ready
  | unready
  | floorTake
  | floorHand (s : Successor)
  | floorDone
  | floorLeave
  deriving DecidableEq, Repr

/-- The replacement in progress (R83): its counts and the words collected so far. -/
structure Replacement where
  k : Nat
  m : Nat
  words : List Text
  deriving DecidableEq, Repr

/-- The writer port (R75, R78, R79). `leaves` holds one mark per leave that waits for the end report of
an own floor frame in flight (R91), telling whether that leave aborted a pending request; `splitIdle`
is line 3 of R79 after a split. The pending floor request is the frame in the floor queue, or the
drain before its RELEASE is deposited. -/
structure WriterPort where
  ready : Bool
  wstate : WriterState
  leaves : List Bool
  splitIdle : Bool
  replacement : Option Replacement
  sending : Option Notice
  notices : List Notice
  deriving DecidableEq, Repr

/-! ### Floor unit -/

/-- What changed the floor view (R65). -/
inductive ViewCause where
  | claim
  | implicitClaim
  | offer
  | take
  | release (point : Age)
  | yield (x : Station)
  | lapse
  | overlapTimer
  | gone (x : Station)
  | adoption
  | split
  deriving DecidableEq, Repr

/-- The floor unit (R51, R52): its view and its three counters. Its timers are `State.lapse` and
`State.overlap`. `lapsed` is the model's own: whether the view is HELD by a lapse taken at this frame, with no
frame having won the line since, so that an OFFER of the holder that ends now was under way at the expiry, and is a
re-offer taken after it, which is stray (R61; log entry 32). -/
structure Floor where
  view : View
  strays : Counter
  lateClaims : Counter
  adoptions : Counter
  lapsed : Bool
  deriving DecidableEq, Repr

/-! ### Cue line controller -/

/-- A frame in the floor queue (R19); a RELEASE is filled at its win (R111). -/
inductive FloorFrame where
  | claim
  | offer (s : Successor)
  | take (h : Station)
  | release
  | yield
  deriving DecidableEq, Repr

/-- The beat slot's frame: its loss count and its promotion (R22). -/
structure BeatSlot where
  losses : Nat
  promoted : Bool
  deriving DecidableEq, Repr

/-- The four transmit queues (R19). -/
inductive QueueName where
  | floor
  | amend
  | segment
  | beat
  deriving DecidableEq, Repr

/-- The own frame in flight (R18): its header block as sent (R14, R175), its body, its transmission frame,
whether it has had a readback fault (R27), and, for a CLAIM or TAKE, whether the writer has left since its
request (R79). -/
structure InFlight where
  header : HeaderBytes
  body : FrameBody
  txFrame : Frame
  faulted : Bool
  left : Bool
  deriving DecidableEq, Repr

/-- Work held until the arbitration field ends, because it would change or withdraw the frame under
arbitration (R26), and the writer records that wait behind such work (R75). -/
inductive HeldWork where
  /-- A writer record, to be taken when the field has ended: none for a malformed one; and whether its text
  was cut by R77. -/
  | record (r : Option WriterRecord) (clipped : Bool)
  /-- The rest of a DELETE: the remaining groups, newest first, each a segment number and a count (R108). -/
  | deleteGroups (groups : List WindowRecord)
  /-- A REPLACE of one word of the segment under arbitration (R108). -/
  | replaceWord (m : Byte) (index : Nat) (words : List Text)
  /-- The withdrawal of the segment under arbitration (R91, R102), and whether a writer record made it, which is
  then not finished before the field ends (R75). -/
  | withdrawSegment (m : Byte) (byRecord : Bool)
  /-- The leave of an UNREADY whose abort must wait (R84, R91). -/
  | leave (wasIdle : Bool)
  /-- The writer port's reaction to a change of view that withdraws the floor frame (R86, R90, R92, R93). -/
  | viewChange (old new : View) (cause : ViewCause)
  deriving DecidableEq, Repr

/-- The cue line controller (R16 to R35). `footing` says that the line has been idle for the gap since
the reset (R35); `foreign` that another station's frame is under way here, and `winCounted` that its win
has been counted at the beat slot (R25); `beatReplace` that a replacement beat waits for the arbitration field to end (R22); `firstBeat`
that no beat has won since the reset (R43). -/
structure Line where
  footing : Bool
  foreign : Bool
  winCounted : Bool
  floorQ : Option FloorFrame
  amendQ : List AmendBody
  segQ : List QueuedSegment
  beat : Option BeatSlot
  arb : Option QueueName
  beatReplace : Bool
  inFlight : Option InFlight
  ratio : Nat
  firstBeat : Bool
  held : List HeldWork
  deriving DecidableEq, Repr

/-! ### Peer table -/

/-- The last outcome of a peer entry (R36). -/
inductive LastOutcome where
  | none
  | clean
  | corrected
  | marginal
  | lost
  | malformed
  deriving DecidableEq, Repr

/-- The eight counters of a peer entry (R48). -/
structure PeerCounters where
  accepted : Counter
  corrected : Counter
  marginal : Counter
  lost : Counter
  missed : Counter
  stale : Counter
  offFloor : Counter
  amends : Counter
  deriving DecidableEq, Repr

/-- A peer entry (R36); `none` is 'not reported', and UNKNOWN for the expected segment. -/
structure PeerEntry where
  present : Bool
  lastHeard : Frame
  role : Option Role
  ready : Option Bool
  view : Option View
  reportedLast : Option Byte
  expected : Option Byte
  worst : Fin 4
  lastOutcome : LastOutcome
  counters : PeerCounters
  deriving DecidableEq, Repr

/-- The station-wide counters of the peer table (R49). -/
structure StationCounters where
  anonymous : Counter
  refused : Counter
  oversize : Counter
  malformed : Counter
  arbLosses : Counter
  promotions : Counter
  readbacks : Counter
  drops : Counter
  deriving DecidableEq, Repr

/-- The peer table: eight entries and the station-wide counters (R36, R49). Its beat timer is
`State.beatTimer`. -/
structure Peers where
  entries : Vector PeerEntry 8
  counters : StationCounters
  deriving DecidableEq, Repr

/-! ### Intake -/

/-- A word of a held segment or of a cue: its text, speech time, word index and piece number (R112, R143). -/
structure TimedWord where
  text : Text
  speech : Frame
  index : Nat
  piece : Nat
  deriving DecidableEq, Repr

/-- A held segment (R112); its words are whole, so their piece number is 0. -/
structure HeldSegment where
  source : Station
  number : Byte
  newSpeaker : Bool
  rxFrame : Frame
  words : List TimedWord
  deriving DecidableEq, Repr

/-- A local frame and the station it belongs to: the outgoing last-word time and the armed trim (R112). -/
structure Stamp where
  time : Frame
  station : Station
  deriving DecidableEq, Repr

/-- Intake (R112). -/
structure Intake where
  hold : List HeldSegment
  lastWord : Option Stamp
  armed : Option Stamp
  trimmed : Counter
  emptied : Counter
  discarded : Counter
  overflows : Counter
  deriving DecidableEq, Repr

/-! ### Timing engine and cue schedule -/

/-- The attributes of a cue (R125, R143). -/
structure Attrs where
  newspk : Bool
  amended : Bool
  trimmed : Bool
  deriving DecidableEq, Repr

/-- The source and segment number of a cue's key (R143); its first word index and first piece are
those of the record's first word. -/
structure SegKey where
  source : Station
  segment : Byte
  deriving DecidableEq, Repr

/-- A cue record (R143). A retired key is `none` (R144). The word count and n are those of `words`. -/
structure Cue where
  number : Counter
  key : Option SegKey
  words : List TimedWord
  s : Frame
  e : Frame
  k : Frame
  tIdeal : Frame
  tOn : Frame
  d : Nat
  tOff : Frame
  rung : Nat
  lamQ : Nat
  lam : Nat
  shown : Bool
  attrs : Attrs
  deriving DecidableEq, Repr

/-- The cue schedule (R143, R144) and its five counters (R157). R_eff is read from the zone in force
and the ladder in force from the configuration (R128). -/
structure Schedule where
  cues : List Cue
  nextCue : Counter
  catchUps : Counter
  overflows : Counter
  lateAmends : Counter
  amendsRefused : Counter
  amendsDiscarded : Counter
  deriving DecidableEq, Repr

/-! ### Screen unit and inserter link -/

/-- The zones (R158). -/
inductive Zone where
  | top
  | bottom
  | conflict
  deriving DecidableEq, Repr

/-- A visible cue (R158). -/
structure VisibleCue where
  number : Counter
  text : Text
  attrs : Attrs
  countdown : Nat
  deriving DecidableEq, Repr

/-- The last order composed (R158). -/
inductive LastOrder where
  | none
  | page
  | blank
  deriving DecidableEq, Repr

/-- The screen unit (R158) with its two counters (R167). -/
structure Screen where
  visible : List VisibleCue
  zone : Zone
  lastChange : Option Frame
  mark : Bool
  lastOrder : LastOrder
  zoneChanges : Counter
  conflicts : Counter
  deriving DecidableEq, Repr

/-- One row of a PAGE (R164). -/
structure PageRow where
  attrs : Attrs
  text : Text
  deriving DecidableEq, Repr

/-- An order to the inserter (R164). -/
inductive Order where
  | page (zone : Zone) (rows : List PageRow)
  | blank
  deriving DecidableEq, Repr

/-- The inserter link (R165) with its two counters (R167). `startWait` says that the order being sent
is the start-up BLANK and waits for the line to have been idle for two character times (R166). -/
structure Link where
  sending : Option Order
  startWait : Bool
  waiting : Option Order
  sent : Counter
  replaced : Counter
  deriving DecidableEq, Repr

/-- The stages of the screen's handling of the present tick (R159) that are still to come: none; stages
2 to 4 as one step; stage 2 as a step of its own and then 3 and 4; or stages 3 and 4. -/
inductive ScreenDue where
  | done
  | expiry
  | expiryThenShow
  | showing
  deriving DecidableEq, Repr

/-! ### Supervisory port -/

/-- What the next reads return (R173). -/
inductive ReadSelect where
  | status
  | config
  | window
  deriving DecidableEq, Repr

/-- The window's tables (R172). -/
inductive Table where
  | peer
  | counters
  | schedule
  | visible
  | hold
  deriving DecidableEq, Repr

/-- The supervisory port (R171 to R173): the read selection and the window selection; and, the model's
own fields, the bytes the latest read returned and whether the latest transfer was acknowledged. -/
structure Supervisory where
  select : ReadSelect
  table : Table
  index : Nat
  response : List Byte
  acked : Bool
  deriving DecidableEq, Repr

/-! ### The state -/

/-- The whole station, and the queue of waiting commands, first in, first out. -/
structure State where
  pending : List Instr
  start : StartState
  resetHeld : Bool
  number : Station
  cfg : Configuration
  load : LoadResult
  listenCount : Nat
  flags : FlagWord
  clock : Clock
  pause : OneShot
  lapse : OneShot
  overlap : OneShot
  beatTimer : ContTimer
  tally : Tally
  line : Line
  peers : Peers
  floor : Floor
  port : WriterPort
  asm : Assembler
  intake : Intake
  sched : Schedule
  screen : Screen
  link : Link
  sup : Supervisory
  screenDue : ScreenDue
  ticksDue : TicksDue
  deriving DecidableEq, Repr

/-- Reasons for a fault. None: no rule of the manual stops the station. -/
inductive Fault where
  deriving DecidableEq, Repr

/-- Reasons for a refusal. -/
inductive Refusal where
  /-- Raised by `exec` alone, for a command that has no meaning yet: safe, since nothing can be proved of
  its effect. No arm raises it in this model. -/
  | notModelled (mnemonic : String)
  deriving DecidableEq, Repr

/-! ### Reset values, block by block -/

/-- A stopped continuous timer with no staged period (R2, R9). Its period is a DESIGN CHOICE: 0 for a timer
that has never run, and 0 too after a reset of either kind for one that had run (log entry 1). -/
def ContTimer.stopped : ContTimer := ⟨none, 0, none⟩

/-- The frame clock held at 0 (R2). The tally levels before the first tick are a DESIGN CHOICE (log entry 1). -/
def Clock.initial : Clock := ⟨0#32, .locked, false, false⟩

/-- No one-shot timer has a tick to take. -/
def TicksDue.none : TicksDue := ⟨false, false, false⟩

/-- The blink generator after a reset (R12). Its position there, where no period runs, is a DESIGN CHOICE
(log entry 1). -/
def Tally.initial : Tally := ⟨.off, none, .stopped, 0, false⟩

/-- The cue line controller after a reset (R35). -/
def Line.initial : Line :=
  ⟨false, false, false, none, [], [], none, none, false, none, 0, true, []⟩

/-- Every counter of a peer entry at 0 (R36). -/
def PeerCounters.zero : PeerCounters := ⟨0, 0, 0, 0, 0, 0, 0, 0⟩

/-- A peer entry after a reset (R36). -/
def PeerEntry.initial : PeerEntry :=
  ⟨false, 0#32, none, none, none, none, none, 0, .none, .zero⟩

/-- Every station-wide counter of the peer table at 0 (R50). -/
def StationCounters.zero : StationCounters := ⟨0, 0, 0, 0, 0, 0, 0, 0⟩

/-- The peer table after a reset (R36). -/
def Peers.initial : Peers := ⟨Vector.replicate 8 .initial, .zero⟩

/-- The floor unit after a reset (R52). -/
def Floor.initial : Floor := ⟨.vacant, 0, 0, 0, false⟩

/-- The writer port after a reset (R75). -/
def WriterPort.initial : WriterPort := ⟨false, .absent, [], false, none, none, []⟩

/-- The segment assembler after a reset (R95). -/
def Assembler.initial : Assembler := ⟨[], false, 0#8, true, none, [], [], .idle⟩

/-- Intake after a reset (R112). -/
def Intake.initial : Intake := ⟨[], none, none, 0, 0, 0, 0⟩

/-- The cue schedule after a reset (R143). -/
def Schedule.initial : Schedule := ⟨[], 0, 0, 0, 0, 0, 0⟩

/-- The screen unit after a reset (R158). -/
def Screen.initial : Screen := ⟨[], .bottom, none, false, .none, 0, 0⟩

/-- The inserter link after a reset (R166). -/
def Link.initial : Link := ⟨none, false, none, 0, 0⟩

/-- The supervisory port after a reset (R170, R173). The response bytes and the acknowledge mark are the
model's own fields, and their values here are a DESIGN CHOICE (log entry 1). -/
def Supervisory.initial : Supervisory := ⟨.status, .peer, 0, [], false⟩

/-- Every block at its reset value (R170), in LOADING, with the given station number, configuration and
load result, and the queue of waiting commands as it stands. The listen count in LOADING, before the entry
into LISTENING loads it (R168), is a DESIGN CHOICE: 0 (log entry 1). -/
def State.blank (number : Station) (cfg : Configuration) (load : LoadResult)
    (pending : List Instr) : State :=
  { pending := pending, start := .loading, resetHeld := false, number := number, cfg := cfg,
    load := load, listenCount := 0, flags := 0#24, clock := .initial, pause := none, lapse := none,
    overlap := none, beatTimer := .stopped, tally := .initial, line := .initial, peers := .initial,
    floor := .initial, port := .initial, asm := .initial, intake := .initial, sched := .initial,
    screen := .initial, link := .initial, sup := .initial, screenDue := .done,
    ticksDue := .none }

/-- The station right after power-on (R168, R170): in LOADING, every block reset, its image not yet
read. The station number before the straps are read, and the configuration and load result before an
image is read, are DESIGN CHOICES (log entry 1). -/
def State.reset : State := State.blank 0 .default ⟨false, false⟩ []

end Sys2Proof.Machine
end

