-- ==== Sys2Proof/Machine/Flags.lean ====
section
/-! DEFINITION. The sticky flags (R171, R174): their places in the three flag bytes of the status word
(Formats), setting one, and the ALERT level. -/

namespace Sys2Proof.Machine

/-- The sticky flags, in the order of the flag bytes (Formats). -/
inductive Flag where
  | lineLost
  | lineMarginal
  | lineReadback
  | lineOversize
  | lineRefused
  | peerGone
  | seqGap
  | floorSplit
  | floorLapse
  | floorStray
  | wrBadRecord
  | wrPartial
  | wrAborted
  | wrClipped
  | wrNotOnAir
  | srcDrop
  | outCatchup
  | outOverflow
  | outLateAmend
  | outZoneConflict
  | outPageReplaced
  | refLoss
  | cfgDefault
  | cfgClamped
  deriving DecidableEq, Repr

/-- The bit of a flag: the first flag byte is bits 23 to 16, and flags stand from its bit 7 onwards (Formats). -/
def Flag.bit : Flag → Nat
  | .lineLost => 23
  | .lineMarginal => 22
  | .lineReadback => 21
  | .lineOversize => 20
  | .lineRefused => 19
  | .peerGone => 18
  | .seqGap => 17
  | .floorSplit => 16
  | .floorLapse => 15
  | .floorStray => 14
  | .wrBadRecord => 13
  | .wrPartial => 12
  | .wrAborted => 11
  | .wrClipped => 10
  | .wrNotOnAir => 9
  | .srcDrop => 8
  | .outCatchup => 7
  | .outOverflow => 6
  | .outLateAmend => 5
  | .outZoneConflict => 4
  | .outPageReplaced => 3
  | .refLoss => 2
  | .cfgDefault => 1
  | .cfgClamped => 0

/-- The word in which one flag alone is set. -/
def Flag.mask (f : Flag) : FlagWord := 1#24 <<< f.bit

/-- A flag of a flag word. -/
def hasFlag (w : FlagWord) (f : Flag) : Bool := w.getLsbD f.bit

/-- The flags of a mask, where the condition holds. -/
def flagIf (c : Bool) (f : Flag) : FlagWord := if c then f.mask else 0#24

/-- Setting every flag of a mask; a flag already set stays set (R174). -/
def State.raiseMask (w : FlagWord) (s : State) : State := { s with flags := s.flags ||| w }

/-- Setting one sticky flag. -/
def State.raise (f : Flag) (s : State) : State := s.raiseMask f.mask

/-- The ALERT pin: asserted while a sticky flag that the alert mask names is set, and not through
LOADING (R174). -/
def State.alert (s : State) : Bool :=
  s.start != .loading && (s.flags &&& s.cfg.alertMask) != 0#24

end Sys2Proof.Machine
end

