-- ==== Sys2Proof/Machine/Ops.lean ====
section
/-! DEFINITION. The named operations every block shares: comparing frame times (R5), raising a 16-bit
counter (R50), the general timers (R6 to R9) and the tally blink generator (R10 to R12). -/

namespace Sys2Proof.Machine

/-- What a command answers. -/
abbrev Result := Host.Outcome State Fault Refusal

/-! ### Frame times (R5) -/

/-- The interval from b to a: a − b modulo 2^32, read as a signed number (R5). -/
def interval (a b : Frame) : Int := (a - b).toInt

/-- a is later than b (R5). -/
def later (a b : Frame) : Bool := decide (0 < interval a b)

/-- a is at or after b: later, or the same frame (R5). -/
def atOrAfter (a b : Frame) : Bool := decide (0 ≤ interval a b)

/-- The later of two times, or either where they are the same (R130). -/
def laterOf (a b : Frame) : Frame := if later b a then b else a

/-- A time n frames after a, formed modulo 2^32 (R5). -/
def plusFrames (a : Frame) (n : Nat) : Frame := a + BitVec.ofNat 32 n

/-- The number of frames from b to a, for an a that stands at or after b. -/
def framesBetween (a b : Frame) : Nat := (a - b).toNat

/-- A count that saturates at 65535 (ages, R100; lateness, R133). -/
def sat16 (n : Nat) : Nat := min n 65535

/-! ### Counters (R50) -/

/-- A 16-bit counter raised by n; it stays at 65535 once it is there (R50). -/
def rise (c : Counter) (n : Nat) : Counter := BitVec.ofNat 16 (min (c.toNat + n) 65535)

/-! ### Roles -/

/-- Whether the station serves a writer: WRITER or BOTH. -/
def State.hasWriter (s : State) : Bool := s.cfg.role != .output

/-- Whether the station serves an output: OUTPUT or BOTH. -/
def State.hasOutput (s : State) : Bool := s.cfg.role != .writer

/-! ### General timers (R6 to R9) -/

/-- One frame tick at a one-shot timer: a RUNNING count falls by one, a STOPPED timer takes it without
effect (R6). -/
def OneShot.tick (t : OneShot) : OneShot := t.map (· - 1)

/-- Whether a one-shot timer's count has reached 0 at its tick, so that it expires (R6). -/
def OneShot.due (t : OneShot) : Bool := t == some 0

/-- Starting a continuous timer with period p (R8). -/
def ContTimer.start (p : Nat) : ContTimer := ⟨some p, p, none⟩

/-- One frame tick at a continuous timer (R8). -/
def ContTimer.tick (t : ContTimer) : ContTimer := { t with remaining := t.remaining.map (· - 1) }

/-- Whether a continuous timer has reached 0 and its expiry is still to be delivered. -/
def ContTimer.due (t : ContTimer) : Bool := t.remaining == some 0

/-- The reload at an expiry: a staged period becomes the period, and the count is the period (R8). -/
def ContTimer.reload (t : ContTimer) : ContTimer :=
  let p := t.staged.getD t.period
  ⟨some p, p, none⟩

/-- A new period: staged while RUNNING, taken at once while STOPPED (R8). -/
def ContTimer.writePeriod (p : Nat) (t : ContTimer) : ContTimer :=
  match t.remaining with
  | some _ => { t with staged := some p }
  | none => { t with period := p }

/-- Stopping a continuous timer: a staged period becomes its period (R9). -/
def ContTimer.stop (t : ContTimer) : ContTimer := ⟨none, t.staged.getD t.period, none⟩

/-! ### The tally blink generator (R10 to R12) -/

/-- Whether a pattern blinks. -/
def Pattern.blinks : Pattern → Bool
  | .slow => true
  | .fast => true
  | _ => false

/-- The blink period of a pattern under tally period P: P for SLOW, half of it rounded down for FAST (R10). -/
def Pattern.period (p : Nat) : Pattern → Nat
  | .slow => p
  | .fast => p / 2
  | _ => 0

/-- The length of the on part of a blink period (R10). -/
def onPart (period : Nat) : Nat := period / 2

/-- A pattern taking force: OFF and STEADY stop the blink timer and set the lamp; SLOW and FAST start it
and begin a period with TALLY on (R11). Under OFF and STEADY no period runs, and the position 0 is a
DESIGN CHOICE (log entry 1). -/
def Tally.takeForce (P : Nat) (p : Pattern) (t : Tally) : Tally :=
  match p with
  | .off => ⟨.off, none, t.timer.stop, 0, false⟩
  | .steady => ⟨.steady, none, t.timer.stop, 0, true⟩
  | .slow => ⟨.slow, none, .start (Pattern.period P .slow), 0, true⟩
  | .fast => ⟨.fast, none, .start (Pattern.period P .fast), 0, true⟩

/-- A request for a pattern (R11): staged while the pattern in force blinks, with the period it will
bring written into the blink timer; otherwise taken at once, and nothing where it is in force already. -/
def Tally.request (P : Nat) (p : Pattern) (t : Tally) : Tally :=
  if t.pattern.blinks then
    { t with
      staged := some p
      timer := t.timer.writePeriod (if p.blinks then p.period P else t.timer.period) }
  else if p = t.pattern then t
  else t.takeForce P p

/-- One frame tick at the blink generator: in SLOW and FAST the position rises and the blink timer
takes the tick (R10). -/
def Tally.tick (t : Tally) : Tally :=
  if t.pattern.blinks then { t with timer := t.timer.tick, position := t.position + 1 } else t

/-- Whether the on part of the period has ended with TALLY still on (R10). -/
def Tally.onPartDue (t : Tally) : Bool :=
  t.pattern.blinks && t.lamp && decide (onPart t.timer.period ≤ t.position)

/-- The end of the on part: TALLY goes off for the rest of the period (R10). -/
def Tally.endOnPart (t : Tally) : Tally := if t.onPartDue then { t with lamp := false } else t

/-- The blink timer's expiry: the staged pattern takes force, or a new period of the pattern in force
begins with TALLY on (R11). A staged blinking pattern runs with the period just reloaded. The position under
OFF and STEADY is a DESIGN CHOICE (log entry 1). -/
def Tally.expire (t : Tally) : Tally :=
  let timer := t.timer.reload
  match t.staged with
  | none => { t with timer := timer, position := 0, lamp := true }
  | some .off => ⟨.off, none, timer.stop, 0, false⟩
  | some .steady => ⟨.steady, none, timer.stop, 0, true⟩
  | some .slow => ⟨.slow, none, timer, 0, true⟩
  | some .fast => ⟨.fast, none, timer, 0, true⟩

/-- The tally pattern requested of the frame clock (R13). -/
def State.requestTally (p : Pattern) (s : State) : State :=
  { s with tally := s.tally.request s.cfg.tallyPeriod p }

end Sys2Proof.Machine
end

