-- ==== Sys2Proof/Machine/Operands.lean ====
section
/-! DEFINITION. The operand forms: the byte layouts of cue frame bodies and writer records (Formats, R175,
R176), encoded and parsed, and the receiver's judgement of a frame end (R28 to R31). -/

namespace Sys2Proof.Machine

/-! ### Texts -/

/-- Whether a text is non-empty and holds no code below 32 (R31, R76). -/
def plainText (t : Text) : Bool := !t.isEmpty && t.all fun c => 32 ≤ c.toNat

/-- Whether a text is a word text: 1 to 32 characters, none below 32 (R31). -/
def wordText (t : Text) : Bool := plainText t && decide (t.length ≤ 32)

/-- A text as sent: its length byte and its codes (Formats). -/
def textBytes (t : Text) : List Byte := BitVec.ofNat 8 t.length :: t

/-- Reads one text from the front of some bytes. -/
def takeText : List Byte → Option (Text × List Byte)
  | [] => none
  | n :: rest =>
    if n.toNat ≤ rest.length then some (rest.take n.toNat, rest.drop n.toNat) else none

/-- Reads n texts from the front of some bytes. -/
def takeTexts : Nat → List Byte → Option (List Text × List Byte)
  | 0, bs => some ([], bs)
  | n + 1, bs =>
    match takeText bs with
    | none => none
    | some (t, rest) =>
      match takeTexts n rest with
      | none => none
      | some (ts, rest') => some (t :: ts, rest')

/-- Reads n words of a SEGMENT, each an offset and a text, from the front of some bytes. -/
def takeFrameWords : Nat → List Byte → Option (List FrameWord × List Byte)
  | 0, bs => some ([], bs)
  | _ + 1, [] => none
  | n + 1, off :: bs =>
    match takeText bs with
    | none => none
    | some (t, rest) =>
      match takeFrameWords n rest with
      | none => none
      | some (ws, rest') => some (⟨off, t⟩ :: ws, rest')

/-! ### Codes -/

/-- The byte of a station. -/
def stationByte (x : Station) : Byte := BitVec.ofNat 8 x.val

/-- The station a byte names, 0 to 7. -/
def byteStation (b : Byte) : Option Station :=
  if h : b.toNat < 8 then some ⟨b.toNat, h⟩ else none

/-- The byte of a successor: 15 is ANY (Formats). -/
def successorByte : Successor → Byte
  | .station x => stationByte x
  | .any => 15#8

/-- The successor a byte names: 0 to 7, or 15 for ANY. -/
def byteSuccessor (b : Byte) : Option Successor :=
  if b = 15#8 then some .any else (byteStation b).map .station

/-- The role codes of the BEAT and the image (Formats). -/
def roleByte : Role → Byte
  | .writer => 1#8
  | .output => 2#8
  | .both => 3#8

/-- The role a code names. -/
def byteRole (b : Byte) : Option Role :=
  if b = 1#8 then some .writer
  else if b = 2#8 then some .output
  else if b = 3#8 then some .both
  else none

/-- The three bytes of a view: its state, holder and second station, 255 where it names none (Formats). -/
def viewBytes : View → List Byte
  | .vacant => [0#8, 255#8, 255#8]
  | .held h => [1#8, stationByte h, 255#8]
  | .offered h s => [2#8, stationByte h, successorByte s]
  | .overlap h t => [3#8, stationByte h, stationByte t]

/-- The view three bytes spell; a holder or second byte for a station that the state does not name must
hold 255 (R175). -/
def bytesView (st h s : Byte) : Option View :=
  if st = 0#8 then (if h = 255#8 ∧ s = 255#8 then some .vacant else none)
  else if st = 1#8 then (if s = 255#8 then (byteStation h).map .held else none)
  else if st = 2#8 then
    match byteStation h, byteSuccessor s with
    | some h, some s => some (.offered h s)
    | _, _ => none
  else if st = 3#8 then
    match byteStation h, byteStation s with
    | some h, some t => some (.overlap h t)
    | _, _ => none
  else none

/-- Two flags as bits 0 and 1 of a byte. -/
def flagPair (b0 b1 : Bool) : Byte := (if b0 then 1#8 else 0#8) ||| (if b1 then 2#8 else 0#8)

/-! ### Cue frame bodies (Formats) -/

/-- The kind code of a body (Formats). -/
def FrameBody.code : FrameBody → Byte
  | .claim => 1#8
  | .offer _ => 2#8
  | .take _ => 3#8
  | .release _ _ => 4#8
  | .yield => 5#8
  | .amend _ => 6#8
  | .segment _ => 7#8
  | .beat _ => 8#8

/-- The bytes of a body, in the order Formats gives. -/
def FrameBody.bytes : FrameBody → List Byte
  | .claim => []
  | .offer s => [successorByte s]
  | .take h => [stationByte h]
  | .release p m => beBytes16 p.toNat ++ [m]
  | .yield => []
  | .amend b =>
    match b.op with
    | .delete q => [b.segment, b.index, 1#8, q]
    | .replace ws =>
      [b.segment, b.index, 2#8, BitVec.ofNat 8 ws.length] ++ ws.flatMap textBytes
  | .segment b =>
    [b.number, flagPair b.restart b.newSpeaker] ++ beBytes16 b.firstAge.toNat ++
      [BitVec.ofNat 8 b.words.length, BitVec.ofNat 8 (b.words.map (·.text.length)).sum] ++
      b.words.flatMap fun w => w.offset :: textBytes w.text
  | .beat b =>
    [roleByte b.role, flagPair b.ready b.start] ++ viewBytes b.view ++ [b.last]

/-- The body length in bytes. -/
def FrameBody.length (b : FrameBody) : Nat := b.bytes.length

/-- The class a body's kind is sent at, for a beat that is not promoted (R15). -/
def FrameBody.cls : FrameBody → Nat
  | .amend _ => 1
  | .segment _ => 2
  | .beat _ => 3
  | _ => 0

/-- Whether a view names one station as both holder and second station (R31). -/
def View.doubled : View → Bool
  | .offered h s => s == .station h
  | .overlap h t => h == t
  | _ => false

/-- Whether offsets never decrease from word to word (R31). -/
def risingOffsets : List FrameWord → Bool
  | a :: b :: rest => decide (a.offset.toNat ≤ b.offset.toNat) && risingOffsets (b :: rest)
  | _ => true

/-- The checks of R31 on the contents of a body whose layout has been read. -/
def FrameBody.parses : FrameBody → Bool
  | .beat b => !b.view.doubled
  | .segment b =>
    decide (1 ≤ b.words.length) && decide (b.words.length ≤ 20) &&
      (b.words.head?.map (·.offset) == some 0#8) && risingOffsets b.words &&
      b.words.all fun w => wordText w.text
  | .amend b =>
    decide (b.index.toNat ≤ 19) &&
      match b.op with
      | .delete q => decide (1 ≤ q.toNat) && decide (q.toNat ≤ 8)
      | .replace ws =>
        decide (1 ≤ ws.length) && decide (ws.length ≤ 4) && ws.all wordText
  | _ => true

/-- The layout of a SEGMENT body: its flag bits 2 to 7 are 0, its counts agree with its bytes (R31, R175). -/
def segmentLayout : List Byte → Option SegmentBody
  | n :: fl :: a1 :: a0 :: wc :: tl :: rest =>
    if fl.toNat < 4 then
      match takeFrameWords wc.toNat rest with
      | some (ws, []) =>
        if (ws.map (·.text.length)).sum = tl.toNat then
          some ⟨n, fl.getLsbD 0, fl.getLsbD 1, BitVec.ofNat 16 (ofBytes16 a1 a0), ws⟩
        else none
      | _ => none
    else none
  | _ => none

/-- The layout of an AMEND body (Formats). -/
def amendLayout : List Byte → Option AmendBody
  | m :: i :: op :: rest =>
    if op = 1#8 then
      match rest with
      | [q] => some ⟨m, i, .delete q⟩
      | _ => none
    else if op = 2#8 then
      match rest with
      | k :: bs =>
        match takeTexts k.toNat bs with
        | some (ts, []) => some ⟨m, i, .replace ts⟩
        | _ => none
      | [] => none
    else none
  | _ => none

/-- The layout of a BEAT body (Formats, R175). -/
def beatLayout : List Byte → Option BeatBody
  | [r, fl, st, h, s, last] =>
    match byteRole r, bytesView st h s with
    | some role, some view =>
      if fl.toNat < 4 then some ⟨role, fl.getLsbD 0, view, last, fl.getLsbD 1⟩ else none
    | _, _ => none
  | _ => none

/-- The body a kind code and body bytes spell, by the layouts of Formats; none where they agree with none. -/
def layoutOf (kind : Byte) (bs : List Byte) : Option FrameBody :=
  if kind = 1#8 then (if bs = [] then some .claim else none)
  else if kind = 2#8 then
    match bs with
    | [c] => (byteSuccessor c).map .offer
    | _ => none
  else if kind = 3#8 then
    match bs with
    | [c] => (byteStation c).map .take
    | _ => none
  else if kind = 4#8 then
    match bs with
    | [p1, p0, m] => some (.release (BitVec.ofNat 16 (ofBytes16 p1 p0)) m)
    | _ => none
  else if kind = 5#8 then (if bs = [] then some .yield else none)
  else if kind = 6#8 then (amendLayout bs).map .amend
  else if kind = 7#8 then (segmentLayout bs).map .segment
  else if kind = 8#8 then (beatLayout bs).map .beat
  else none

/-- The parse of R31: the body, or none for a MALFORMED frame. -/
def parseBody (kind : Byte) (bs : List Byte) : Option FrameBody :=
  (layoutOf kind bs).filter FrameBody.parses

/-! ### The header block and the arbitration field (R14, R17, R175) -/

/-- The five-bit arbitration field: class first, then the station number (R17). -/
def arbitrationField (cls : Nat) (x : Station) : Nat := cls * 8 + x.val

/-- The header block's data bytes for a body sent at a class by a station (R175). -/
def headerBytes (cls : Nat) (x : Station) (b : FrameBody) : HeaderBytes :=
  ⟨BitVec.ofNat 8 (arbitrationField cls x * 8), b.code, BitVec.ofNat 8 b.length⟩

/-- The source station a header names: bits 5 to 3 of its first byte; bits 2 to 0 are ignored (R175). -/
def headerSource (h : HeaderBytes) : Station := ⟨h.byte0.toNat / 8 % 8, Nat.mod_lt _ (by decide)⟩

/-- The number of body blocks a body length announces: 48 bytes a block (R14). -/
def blockCount (len : Nat) : Nat := (len + 47) / 48

/-! ### Judging a frame end (R28 to R31) -/

/-- The grade of a frame with no UNCORRECTABLE block (R29). -/
inductive Grade where
  | clean
  | corrected
  | marginal
  deriving DecidableEq, Repr

/-- The disposition of a frame end (R32); an accepted or MALFORMED frame has a grade and a worst c. -/
inductive Judgement where
  | accepted (source : Station) (grade : Grade) (worst : Fin 4) (body : FrameBody)
  | malformed (source : Station) (grade : Grade) (worst : Fin 4)
  | lost (source : Station)
  | anonymous
  | refused (source : Station)
  | oversize (source : Station)
  deriving DecidableEq, Repr

/-- The source of a judged frame, absent for an ANONYMOUS one (R32). -/
def Judgement.source? : Judgement → Option Station
  | .accepted x _ _ _ => some x
  | .malformed x _ _ => some x
  | .lost x => some x
  | .anonymous => none
  | .refused x => some x
  | .oversize x => some x

/-- The grade of a worst corrected-flip count against the quality threshold Q (R29). -/
def gradeOf (q : Nat) (worst : Fin 4) : Grade :=
  if worst.val = 0 then .clean else if worst.val < q then .corrected else .marginal

/-- Whether a source is admitted: it is in the mask, or it is the station itself (R30). -/
def admitted (cfg : Configuration) (self x : Station) : Bool :=
  x == self || cfg.admission.getLsbD x.val

/-- The checks of R30, in their order, and then what follows for a frame that passes both. -/
def judgeHeader (cfg : Configuration) (self x : Station) (len : Nat) (graded : Judgement) : Judgement :=
  if !admitted cfg self x then .refused x
  else if cfg.maxBody < len then .oversize x
  else graded

/-- The judgement of a frame whose blocks were all correctable and whose body layout is that of a body (R29 to R31). -/
def judgeBody (cfg : Configuration) (self : Station) (rx : Rx) (b : FrameBody) : Judgement :=
  judgeHeader cfg self rx.source b.length
    (if b.parses then .accepted rx.source (gradeOf cfg.quality rx.worst) rx.worst b
     else .malformed rx.source (gradeOf cfg.quality rx.worst) rx.worst)

/-- The worst corrected-flip count over the blocks of a raw frame, or none where one of the blocks its
header announces is missing or UNCORRECTABLE (R28). -/
def worstFlips (headerFlips : Fin 4) (announced : Nat) (blocks : List (Option (Fin 4))) : Option (Fin 4) :=
  if blocks.length < announced then none
  else (blocks.take announced).foldl
    (fun acc b =>
      match acc, b with
      | some m, some c => some (max m c)
      | _, _ => none)
    (some headerFlips)

/-- The judgement of a raw frame end (R28 to R31). -/
def judgeRaw (cfg : Configuration) (self : Station) (raw : RawFrame) : Judgement :=
  match raw.header with
  | none => .anonymous
  | some h =>
    let x := headerSource h
    let len := h.length.toNat
    judgeHeader cfg self x len
      (match worstFlips raw.headerFlips (blockCount len) raw.blocks with
       | none => .lost x
       | some worst =>
         if raw.body.length < len then .lost x
         else
           match parseBody h.kind (raw.body.take len) with
           | some b => .accepted x (gradeOf cfg.quality worst) worst b
           | none => .malformed x (gradeOf cfg.quality worst) worst)

/-! ### Writer records (R76, R77, R176) -/

/-- A number byte within a range, as a record carries it. -/
def byteWithin (lo hi : Nat) (b : Byte) : Option Nat :=
  if lo ≤ b.toNat ∧ b.toNat ≤ hi then some b.toNat else none

/-- The record a kind byte and its content spell, its text clipped to 32 characters; none for a
malformed one (R76, R77, R176). -/
def parseRecord (kind : Byte) (content : List Byte) : Option WriterRecord :=
  if kind = 1#8 then (if plainText content then some (.word (content.take 32)) else none)
  else if kind = 2#8 then (if content = [] then some .speakerBreak else none)
  else if kind = 3#8 then (if content = [] then some .flush else none)
  else if kind = 4#8 then
    match content with
    | [n] => (byteWithin 1 8 n).map .delete
    | _ => none
  else if kind = 5#8 then
    match content with
    | [k, m] =>
      match byteWithin 1 8 k, byteWithin 1 4 m with
      | some k, some m => some (.replace k m)
      | _, _ => none
    | _ => none
  else if kind = 6#8 then (if plainText content then some (.repword (content.take 32)) else none)
  else if kind = 7#8 then (if content = [] then some .ready else none)
  else if kind = 8#8 then (if content = [] then some .unready else none)
  else if kind = 9#8 then (if content = [] then some .floorTake else none)
  else if kind = 10#8 then
    match content with
    | [c] => (byteSuccessor c).map .floorHand
    | _ => none
  else if kind = 11#8 then (if content = [] then some .floorDone else none)
  else if kind = 12#8 then (if content = [] then some .floorLeave else none)
  else none

/-- Whether a record's text is cut by R77. -/
def clips (kind : Byte) (content : List Byte) : Bool :=
  (kind == 1#8 || kind == 6#8) && decide (32 < content.length)

/-- Whether the bytes received since the parser last waited for a start byte hold a record that has
begun and is not complete: a start byte 1, and then fewer bytes than its kind, its length and its
content take; bytes other than 1 before it are discarded (R176). -/
def partialRecord : List Byte → Bool
  | [] => false
  | b :: rest =>
    if b = 1#8 then
      match rest with
      | _ :: n :: content => decide (content.length < n.toNat)
      | _ => true
    else partialRecord rest

/-! ### Codes of the notices (Formats) -/

/-- The code of a writer state (Formats, STATE). -/
def WriterState.code : WriterState → Byte
  | .absent => 0#8
  | .idle => 1#8
  | .claiming => 2#8
  | .onAir => 3#8
  | .offering => 4#8
  | .incoming => 5#8
  | .outgoing => 6#8
  | .draining => 7#8

/-- The code of an OUTCOME (Formats). -/
def Answer.code : Answer → Byte
  | .granted => 1#8
  | .refusedHeld => 2#8
  | .refusedState => 3#8
  | .badSuccessor => 4#8
  | .aborted => 5#8
  | .lapsed => 6#8
  | .lostFloor => 7#8
  | .starting => 8#8

/-- The code of a REFUSE (Formats). -/
def RefuseReason.code : RefuseReason → Byte
  | .notOnAir => 1#8
  | .tooOld => 2#8
  | .badRecord => 3#8

/-- A notice as sent on the writer link: start byte, kind, length 1 and its value (R176). -/
def Notice.bytes : Notice → List Byte
  | .state w => [1#8, 64#8, 1#8, w.code]
  | .outcome o => [1#8, 65#8, 1#8, o.code]
  | .refuse r => [1#8, 66#8, 1#8, r.code]

/-- The code of a zone (Formats, PAGE). -/
def Zone.code : Zone → Byte
  | .top => 1#8
  | .bottom => 2#8
  | .conflict => 3#8

/-- The attributes byte of a row (Formats, PAGE). -/
def Attrs.byte (a : Attrs) : Byte :=
  flagPair a.newspk a.amended ||| (if a.trimmed then 4#8 else 0#8)

/-- The kind byte of an order (R176). -/
def Order.kind : Order → Byte
  | .page _ _ => 80#8
  | .blank => 81#8

/-- The content of an order (Formats). -/
def Order.content : Order → List Byte
  | .page z rows =>
    [z.code, BitVec.ofNat 8 rows.length] ++ rows.flatMap fun r => r.attrs.byte :: textBytes r.text
  | .blank => []

/-- An order as sent on the inserter link: start byte 1, kind, length, content, the sum modulo 256 of the
kind, the length and the content, and the end byte 4 (R176). -/
def Order.bytes (o : Order) : List Byte :=
  let len := BitVec.ofNat 8 o.content.length
  [1#8, o.kind, len] ++ o.content ++ [o.content.foldl (· + ·) (o.kind + len), 4#8]

end Sys2Proof.Machine
end

