-- ==== Sys2Proof/Machine/Line.lean ====
section
/-! DEFINITION. The cue line controller's transmit queues (R19 to R26): deposits, withdrawals, the choice
of the frame to offer, the ratio counter and the starvation guard. -/

namespace Sys2Proof.Machine

/-! ### Capacities (R19) -/

/-- The capacity of the amend queue (R19). -/
def amendCapacity : Nat := 4

/-- The capacity of the segment queue (R19). -/
def segmentCapacity : Nat := 8

/-- The loss count at which a beat is promoted (R25). -/
def promotionLosses : Nat := 16

/-! ### Counting -/

/-- The source-drop counter after n more drops: it moves in RUNNING alone (R49). -/
def State.dropsAfter (n : Nat) (s : State) : Counter :=
  if s.start = .running then rise s.peers.counters.drops n else s.peers.counters.drops

/-- n source drops: the counter rises by n in RUNNING (R49), and SRC_DROP is set where n is not 0, out of
RUNNING too, since R21 and R102 set it at each drop (log entry 35). -/
def State.countDrops (n : Nat) (s : State) : State :=
  if n = 0 then s
  else { s with peers.counters.drops := s.dropsAfter n }.raise .srcDrop

/-! ### The ratio counter (R24) -/

/-- The ratio counter returns to 0 when either queue is empty (R24). -/
def Line.settleRatio (l : Line) : Line :=
  if l.amendQ.isEmpty || l.segQ.isEmpty then { l with ratio := 0 } else l

/-- The ratio counter after an AMEND of this station has won and left its queue: it rises by one while
the segment queue holds a frame, unless the weight is STRICT, and returns to 0 where a queue is empty (R24). -/
def Line.ratioAfterAmend (w : AmendWeight) (l : Line) : Line :=
  match w with
  | .ratio n => Line.settleRatio { l with ratio := if l.segQ.isEmpty then l.ratio else min (l.ratio + 1) n }
  | .strict => l.settleRatio

/-! ### Which frame is under arbitration -/

/-- Whether the floor queue's frame is under arbitration. -/
def Line.floorUnderArb (l : Line) : Bool := l.arb == some .floor

/-- The number of the queued segment that is under arbitration, if one is. -/
def Line.segmentUnderArb (l : Line) : Option Byte :=
  if l.arb = some .segment then l.segQ.head?.map (·.number) else none

/-- Whether an own SEGMENT is between its win and its end report (R95). -/
def Line.segmentInFlight (l : Line) : Bool :=
  match l.inFlight with
  | some f => match f.body with
    | .segment _ => true
    | _ => false
  | none => false

/-- Whether an own floor frame is in flight. -/
def Line.floorInFlight (l : Line) : Bool :=
  match l.inFlight with
  | some f => match f.body with
    | .claim | .offer _ | .take _ | .release _ _ | .yield => true
    | _ => false
  | none => false

/-! ### Deposits -/

/-- A deposit into the floor queue, on behalf of the writer port (R19, R20). -/
def State.depositFloor (f : FloorFrame) (s : State) : State := { s with line.floorQ := some f }

/-- A deposit into the amend queue: refused where the body exceeds the station's maximum (R19) or the
queue is full (R20), with a source drop; the answer says whether it was taken. -/
def State.depositAmend (b : AmendBody) (s : State) : State × Bool :=
  if s.cfg.maxBody < FrameBody.length (.amend b) || amendCapacity ≤ s.line.amendQ.length then
    (s.countDrops 1, false)
  else ({ s with line.amendQ := s.line.amendQ ++ [b] }, true)

/-- The length of the SEGMENT body a queued segment will be sent with (R100, Formats). -/
def QueuedSegment.bodyLength (g : QueuedSegment) : Nat :=
  6 + (g.words.map fun w => w.text.length + 2).sum

/-- The place of the oldest queued segment that is not under arbitration (R21). -/
def Line.discardable (l : Line) : Nat := if l.arb = some .segment then 1 else 0

/-- A beat deposited into the slot (R22): into an empty one with loss count 0, unpromoted; a held beat is
replaced and its loss count and promotion kept; a held beat under arbitration is replaced when the
arbitration field has ended. -/
def State.depositBeat (s : State) : State :=
  match s.line.beat with
  | none => { s with line.beat := some ⟨0, false⟩ }
  | some _ => if s.line.arb = some .beat then { s with line.beatReplace := true } else s

/-! ### The offer (R23, R24) -/

/-- The choice between amend queue and segment queue by the amend weight (R24). -/
def Line.weighted (w : AmendWeight) (l : Line) : QueueName :=
  match w with
  | .strict => .amend
  | .ratio n => if l.ratio < n then .amend else .segment

/-- The frame the controller offers when it begins one, as the queue it heads (R23). -/
def Line.offer (w : AmendWeight) (l : Line) : Option QueueName :=
  if l.floorQ.isSome then some .floor
  else if (l.beat.map (·.promoted)).getD false then some .beat
  else if !l.amendQ.isEmpty && !l.segQ.isEmpty then some (l.weighted w)
  else if !l.amendQ.isEmpty then some .amend
  else if !l.segQ.isEmpty then some .segment
  else if l.beat.isSome then some .beat
  else none

/-- The class the head of a queue is sent at: floor frames and a promoted beat at 0, an AMEND at 1, a
SEGMENT at 2, another beat at 3 (R15, R25). -/
def Line.classOf (l : Line) : QueueName → Nat
  | .floor => 0
  | .amend => 1
  | .segment => 2
  | .beat => if (l.beat.map (·.promoted)).getD false then 0 else 3

/-! ### The starvation guard (R25) -/

/-- A frame other than the queued beat has won the line: the beat's loss count rises by one up to 16, and
at 16 the beat is promoted and the promotion counted (R25). It counts in RUNNING only. -/
def State.countBeatLoss (s : State) : State :=
  match s.line.beat with
  | none => s
  | some b =>
    if s.start != .running || b.promoted then s
    else if b.losses + 1 < promotionLosses then { s with line.beat := some ⟨b.losses + 1, false⟩ }
    else
      { s with
        line.beat := some ⟨promotionLosses, true⟩
        peers.counters.promotions := rise s.peers.counters.promotions 1 }

/-! ### Readback (R27) -/

/-- A readback fault counted: the counter rises by one and LINE_READBACK is set (R27). -/
def State.countReadback (s : State) : State :=
  { s with peers.counters.readbacks := rise s.peers.counters.readbacks 1 }.raise .lineReadback

/-- A readback fault of the own frame in flight: the first one of the frame counts, later ones add
nothing (R27). -/
def State.readbackInFlight (fault : Bool) (s : State) : State :=
  match s.line.inFlight with
  | some f =>
    if fault && !f.faulted then { s.countReadback with line.inFlight := some { f with faulted := true } }
    else s
  | none => s

end Sys2Proof.Machine
end

