-- ==== Sys2Proof/Machine/Assembler.lean ====
section
/-! DEFINITION. The segment assembler (R95 to R111): building and closing the open segment, filling a
SEGMENT and a RELEASE at their wins, losing the right to send, the recent-word history, corrections
and the drain. -/

namespace Sys2Proof.Machine

/-- The most words a segment holds (R96). -/
def maxWords : Nat := 20

/-- The most entries the history holds (R103). -/
def historyCapacity : Nat := 32

/-- The most records the amend window holds (R104). -/
def windowCapacity : Nat := 4

/-- The last n entries of a list. -/
def lastN {α : Type} (n : Nat) (l : List α) : List α := l.drop (l.length - n)

/-- The character count of a run of texts, with the single space between adjacent words (Conventions). -/
def charCount (ts : List Text) : Nat := (ts.map List.length).sum + (ts.length - 1)

/-- The texts of the open segment's words. -/
def Assembler.texts (a : Assembler) : List Text := a.words.map (·.text)

/-! ### The recent-word history (R103) -/

/-- The segment a place stands in: none for the open segment. -/
def Place.segment : Place → Option Byte
  | .opened _ => none
  | .queued m _ => some m
  | .sent m _ => some m

/-- The index a place gives. -/
def Place.index : Place → Nat
  | .opened i => i
  | .queued _ i => i
  | .sent _ i => i

/-- A place with another index. -/
def Place.withIndex (i : Nat) : Place → Place
  | .opened _ => .opened i
  | .queued m _ => .queued m i
  | .sent m _ => .sent m i

/-- Whether two places stand in the same segment, and so in the same group of a correction. -/
def Place.sameGroup : Place → Place → Bool
  | .opened _, .opened _ => true
  | .queued m _, .queued m' _ => m == m'
  | .sent m _, .sent m' _ => m == m'
  | _, _ => false

/-- The entry of a new word; the oldest entries go where there would be more than 32 (R103). -/
def addEntry (e : HistoryEntry) (h : List HistoryEntry) : List HistoryEntry :=
  lastN historyCapacity (h ++ [e])

/-- The history without the words of the queued segment m. -/
def dropQueued (m : Byte) (h : List HistoryEntry) : List HistoryEntry :=
  h.filter fun e => match e.place with
    | .queued m' _ => m' != m
    | _ => true

/-- The history without the words of the open segment. -/
def dropOpened (h : List HistoryEntry) : List HistoryEntry :=
  h.filter fun e => match e.place with
    | .opened _ => false
    | _ => true

/-- The places after the first n words of the open segment close as segment m (R99). -/
def closeEntries (m : Byte) (n : Nat) (h : List HistoryEntry) : List HistoryEntry :=
  h.map fun e => match e.place with
    | .opened i => { e with place := if i < n then .queued m i else .opened (i - n) }
    | _ => e

/-- The places after segment m wins the line (R100). -/
def sendEntries (m : Byte) (h : List HistoryEntry) : List HistoryEntry :=
  h.map fun e => match e.place with
    | .queued m' i => if m' = m then { e with place := .sent m i } else e
    | _ => e

/-- A list without the first n elements that meet a condition. -/
def eraseFirst {α : Type} (p : α → Bool) : Nat → List α → List α
  | _, [] => []
  | 0, l => l
  | n + 1, a :: l => if p a then eraseFirst p n l else a :: eraseFirst p (n + 1) l

/-- The history without the q newest entries of the segment a place stands in (R106; equal numbers: log entry 20). -/
def eraseNewest (p : Place) (q : Nat) (h : List HistoryEntry) : List HistoryEntry :=
  (eraseFirst (fun e : HistoryEntry => e.place.sameGroup p) q h.reverse).reverse

/-- The history after the word at a place became the words of a REPLACE: entries at its position with its
speech time, later words of the same segment moved on, and the oldest removed beyond 32 (R103, R107). Where
two sent segments of the history have one number, their entries are not told apart (log entry 20). -/
def replaceEntries (p : Place) (ws : List Text) (h : List HistoryEntry) : List HistoryEntry :=
  lastN historyCapacity <| h.flatMap fun e =>
    if e.place.sameGroup p then
      if e.place.index = p.index then
        ws.mapIdx fun j t => ⟨t, e.speech, p.withIndex (p.index + j)⟩
      else if p.index < e.place.index then
        [{ e with place := e.place.withIndex (e.place.index + ws.length - 1) }]
      else [e]
    else [e]

/-! ### The segment queue at the assembler -/

/-- The queued segment with a number; of two with one number, the oldest (log entry 20). -/
def Line.queuedSegment (m : Byte) (l : Line) : Option QueuedSegment := l.segQ.find? (·.number == m)

/-- A segment taken out of the queue with its words' history entries; frames behind it move up (R26), and
the ratio counter returns to 0 where the queue is empty (R24). Of two with one number both go (log entry 20). -/
def State.removeSegment (m : Byte) (s : State) : State :=
  { s with
    line := Line.settleRatio { s.line with segQ := s.line.segQ.filter (·.number != m) }
    asm.history := dropQueued m s.asm.history }

/-- The discard that makes room in a full segment queue: the oldest segment not under arbitration goes,
its words leave the history, and a source drop is counted (R21, R99). -/
def State.makeSegmentRoom (s : State) : State :=
  if s.line.segQ.length < segmentCapacity then s
  else
    match s.line.segQ[s.line.discardable]? with
    | none => s
    | some g =>
      { s with
        line.segQ := s.line.segQ.eraseIdx s.line.discardable
        asm.history := dropQueued g.number s.asm.history }.countDrops 1

/-- A closed segment deposited in the segment queue (R19, R21). A body beyond the station's maximum is
refused, and its words leave the history; the limits of R96 and R107 keep that from arising. -/
def State.depositSegment (g : QueuedSegment) (s : State) : State :=
  if s.cfg.maxBody < g.bodyLength then
    { s with asm.history := dropQueued g.number s.asm.history }.countDrops 1
  else
    let s := s.makeSegmentRoom
    { s with line.segQ := s.line.segQ ++ [g] }

/-! ### Drain (R110) -/

/-- Whether a drain in progress is complete and not yet reported (R110). -/
def State.drainDone (s : State) : Bool :=
  s.asm.drain == .draining && s.line.segQ.isEmpty && !s.line.segmentInFlight

/-- The check of R110: a complete drain is reported, and the floor unit deposits the RELEASE (R89). -/
def State.checkDrain (s : State) : State :=
  if s.drainDone then { s with asm.drain := .reported }.depositFloor .release else s

/-! ### Closing (R99) -/

/-- The first n words of the open segment close as a segment: it takes the next number, carries the
new-speaker mark, and is deposited; the words behind them stay open (R99, R107). -/
def State.closeFirst (n : Nat) (s : State) : State :=
  let m := s.asm.nextNumber
  let g : QueuedSegment :=
    ⟨m, s.asm.newSpeaker, (s.asm.words.take n).map fun w => ⟨w.text, w.speech⟩⟩
  { s with
    asm.words := s.asm.words.drop n
    asm.newSpeaker := false
    asm.nextNumber := m + 1#8
    asm.history := closeEntries m n s.asm.history }.depositSegment g

/-- Closing the open segment; an empty one makes no segment and takes no number (R99). -/
def State.closeOpen (s : State) : State :=
  if s.asm.words.isEmpty then s
  else { s.closeFirst s.asm.words.length with pause := none }

/-! ### Building the open segment (R96 to R98) -/

/-- Whether the open segment has room for one more text (R96, step 1). -/
def Assembler.hasRoom (hard : Nat) (t : Text) (a : Assembler) : Bool :=
  a.words.isEmpty ||
    (decide (a.words.length < maxWords) && decide (charCount (a.texts ++ [t]) ≤ hard))

/-- Whether a text ends a sentence: a full stop, a question mark or an exclamation mark (R96; the codes
are log entry 5's). -/
def endsSentence (t : Text) : Bool :=
  match t.getLast? with
  | some c => c == 46#8 || c == 63#8 || c == 33#8
  | none => false

/-- Whether a text ends in a comma (R96; the code is log entry 5's). -/
def endsClause (t : Text) : Bool := t.getLast? == some 44#8

/-- Step 2 of R96: the word joins with its arrival frame and its speech time, a history entry is made, and
the pause timer is loaded. -/
def State.joinWord (t : Text) (s : State) : State :=
  let now := s.clock.count
  let speech := now - BitVec.ofNat 32 s.cfg.writerLag
  { s with
    asm.history := addEntry ⟨t, speech, .opened s.asm.words.length⟩ s.asm.history
    asm.words := s.asm.words ++ [⟨t, now, speech⟩]
    pause := some s.cfg.pauseInterval }

/-- Step 3 of R96: whether the word just joined closes the open segment. -/
def Assembler.closesAfter (soft : Nat) (t : Text) (a : Assembler) : Bool :=
  endsSentence t || (endsClause t && decide (soft ≤ charCount a.texts))

/-- A WORD taken into the open segment (R96). -/
def State.addWord (t : Text) (s : State) : State :=
  let s := if s.asm.hasRoom s.cfg.hardLimit t then s else s.closeOpen
  let s := s.joinWord t
  if s.asm.closesAfter s.cfg.softLimit t then s.closeOpen else s

/-- A BREAK: the open segment closes if it holds words, and the mark is set on the one now empty (R98). -/
def State.breakSegment (s : State) : State := { s.closeOpen with asm.newSpeaker := true }

/-- The present tick at the pause timer, where it has still to take it (R6, R7): the count falls by one, and
at 0 the timer expires and closes the open segment (R97). -/
def State.pauseExpiry (s : State) : State :=
  if s.ticksDue.pause then
    let s := { s with ticksDue.pause := false, pause := s.pause.tick }
    if s.pause.due then { s with pause := none }.closeOpen else s
  else s

/-! ### Filling at the win (R100, R111) -/

/-- The SEGMENT body of a queued segment that wins at a transmission frame (R100). -/
def QueuedSegment.fill (g : QueuedSegment) (t : Frame) (restart : Bool) : SegmentBody :=
  let s0 := (g.words.head?.map (·.speech)).getD t
  { number := g.number
    restart := restart
    newSpeaker := g.newSpeaker
    firstAge := BitVec.ofNat 16 (sat16 (framesBetween t s0))
    words := g.words.map fun w => ⟨BitVec.ofNat 8 (min (framesBetween w.speech s0) 255), w.text⟩ }

/-- The assembler after its segment g has won the line (R100, R104). -/
def Assembler.segmentWon (g : QueuedSegment) (a : Assembler) : Assembler :=
  { a with
    restartPending := false
    lastSent := (g.words.getLast?.map fun w => ⟨g.number, w.speech⟩)
    history := sendEntries g.number a.history
    window := lastN windowCapacity (a.window ++ [⟨g.number, g.words.length⟩]) }

/-- The last segment number sent, or 255 while none has been (R43, R95). -/
def Assembler.lastNumber (a : Assembler) : Byte := (a.lastSent.map (·.number)).getD 255#8

/-- The point of a RELEASE that wins at a transmission frame: the age of the last sent speech time, or
65535 while no own SEGMENT has won (R111). -/
def Assembler.point (t : Frame) (a : Assembler) : Age :=
  match a.lastSent with
  | some m => BitVec.ofNat 16 (sat16 (framesBetween t m.speech))
  | none => 65535#16

/-! ### Losing the right to send (R102) -/

/-- The open segment discarded: its words leave the history, the pause timer stops, the mark is cleared
and a source drop is counted; an open segment with no words is left, and its new-speaker mark with it (R91,
R102, steps 1 and 2). DEDUCED (log entry 47): a FLOOR_LEAVE or an UNREADY taken outside the sending states
keeps the mark that a BREAK set on the empty open segment; leaving a sending state clears it in
`State.loseRight`. -/
def State.discardOpen (s : State) : State :=
  if s.asm.words.isEmpty then s
  else
    { s with
      asm.words := []
      asm.newSpeaker := false
      asm.history := dropOpened s.asm.history
      pause := none }.countDrops 1

/-- The history without the words of each of some queued segments. -/
def dropAllQueued (gs : List QueuedSegment) (h : List HistoryEntry) : List HistoryEntry :=
  gs.foldl (fun h g => dropQueued g.number h) h

/-- The held work with the withdrawal of segment m, once for what asks for it: a leave that also loses the right
to send withdraws each segment once (R91, R102). -/
def holdWithdrawal (m : Byte) (byRecord : Bool) (ws : List HeldWork) : List HeldWork :=
  if ws.contains (.withdrawSegment m true) || ws.contains (.withdrawSegment m byRecord) then ws
  else ws ++ [.withdrawSegment m byRecord]

/-- Every queued segment withdrawn with a source drop for each; one under arbitration waits for the
arbitration field to end (R26, R102 step 3), and with it a record whose effect the withdrawal is (R75). -/
def State.withdrawSegments (byRecord : Bool) (s : State) : State :=
  match s.line.segmentUnderArb with
  | none =>
    State.countDrops s.line.segQ.length
      { s with
        line := Line.settleRatio { s.line with segQ := [] }
        asm.history := dropAllQueued s.line.segQ s.asm.history }
  | some m =>
    State.countDrops (s.line.segQ.length - 1)
      { s with
        line.segQ := s.line.segQ.take 1
        line.held := holdWithdrawal m byRecord s.line.held
        asm.history := dropAllQueued (s.line.segQ.drop 1) s.asm.history }

/-- The withdrawal held for segment m, once the arbitration field has ended: withdrawn with a source drop
if it lost, a removal at which a drain checks whether it is complete (R110); in flight, and so unchanged,
if it won (R26, R102). -/
def State.withdrawHeld (m : Byte) (s : State) : State :=
  match s.line.queuedSegment m with
  | some _ => ((s.removeSegment m).countDrops 1).checkDrain
  | none => s

/-- The assembler's four actions when the writer state leaves the sending states (R102). A leave has made its own
withdrawals before this (R91), so those made here are a change of view's. -/
def State.loseRight (s : State) : State :=
  let s := s.discardOpen
  let s := { s with asm.newSpeaker := false }.withdrawSegments false
  { s with asm.drain := .idle }

/-! ### Corrections (R105 to R109) -/

/-- The current word count of the amend window's record of m; the newest record where the numbering has
wrapped onto one still held. -/
def Assembler.windowCount (m : Byte) (a : Assembler) : Option Nat :=
  (a.window.reverse.find? (·.number == m)).map (·.count)

/-- The amend window with the record of m at another word count (R104). -/
def setWindow (m : Byte) (c : Nat) (w : List WindowRecord) : List WindowRecord :=
  w.map fun r => if r.number = m then { r with count := c } else r

/-- The targets of a DELETE grouped by segment, from a list of places newest first: each group its newest
place and its count (R106). -/
def groupPlaces : List Place → List (Place × Nat)
  | [] => []
  | p :: rest =>
    match groupPlaces rest with
    | (p', n) :: gs => if p.sameGroup p' then (p, n + 1) :: gs else (p, 1) :: (p', n) :: gs
    | [] => [(p, 1)]

/-- Whether a sent segment's AMEND at a word index can be made: its number is in the amend window and the
index is at most 19 (R105). -/
def Assembler.reaches (m : Byte) (index : Nat → Nat) (a : Assembler) : Bool :=
  match a.windowCount m with
  | some c => decide (index c ≤ 19)
  | none => false

/-- The check of R105 on one group of a DELETE. -/
def Assembler.deletable (a : Assembler) (g : Place × Nat) : Bool :=
  match g.1 with
  | .sent m _ => a.reaches m (· - g.2)
  | _ => true

/-- A DELETE's group in the open segment: its q newest words go, and an open segment left empty stops the
pause timer; the mark stays (R106). -/
def State.deleteOpen (q : Nat) (s : State) : State :=
  let ws := s.asm.words.take (s.asm.words.length - q)
  { s with
    asm.words := ws
    asm.history := eraseNewest (.opened 0) q s.asm.history
    pause := if ws.isEmpty then none else s.pause }

/-- A DELETE's group in a queued segment, in place; a segment left with no words is withdrawn, and no
source drop is counted (R106). -/
def State.deleteQueued (g : QueuedSegment) (q : Nat) (s : State) : State :=
  let ws := g.words.take (g.words.length - q)
  let s := { s with asm.history := eraseNewest (.queued g.number 0) q s.asm.history }
  if ws.isEmpty then (s.removeSegment g.number).checkDrain
  else
    { s with line.segQ :=
        s.line.segQ.map fun g' => if g'.number = g.number then { g' with words := ws } else g' }

/-- A DELETE's group in a sent segment: one AMEND (R106). The answer says whether the correction goes on, which
a refused deposit ends (R109). A group that was held until its segment had been withdrawn, or until its
record had left the amend window, has no word left to reach: nothing is made for it, and the correction
goes on with its older groups (log entry 36). -/
def State.deleteSent (m : Byte) (q : Nat) (s : State) : State × Bool :=
  match s.asm.windowCount m with
  | none => (s, true)
  | some c =>
    match s.depositAmend ⟨m, BitVec.ofNat 8 (c - q), .delete (BitVec.ofNat 8 q)⟩ with
    | (s, false) => (s, false)
    | (s, true) =>
      ({ s with
          asm.window := setWindow m (c - q) s.asm.window
          asm.history := eraseNewest (.sent m 0) q s.asm.history }, true)

/-- The groups of a DELETE in closed segments, from the newest to the oldest: in place while queued, as
an AMEND once sent; a group under arbitration holds the rest until the field ends (R108), and a refused
deposit ends the correction (R109). A group whose segment was withdrawn meanwhile is passed over (log entry 36). -/
def State.deleteGroups : List WindowRecord → State → State
  | [], s => s
  | r :: rest, s =>
    if s.line.segmentUnderArb = some r.number then
      { s with line.held := s.line.held ++ [.deleteGroups (r :: rest)] }
    else
      match s.line.queuedSegment r.number with
      | some g => State.deleteGroups rest (s.deleteQueued g r.count)
      | none =>
        match s.deleteSent r.number r.count with
        | (s, true) => State.deleteGroups rest s
        | (s, false) => s

/-- The groups of a DELETE: the open segment's, if it has one, is the newest (R106). -/
def State.applyDelete (gs : List (Place × Nat)) (s : State) : State :=
  let closed := gs.filterMap fun g => (g.1.segment).map fun m => (⟨m, g.2⟩ : WindowRecord)
  let opened := (gs.filter fun g => g.1.segment.isNone).map (·.2)
  State.deleteGroups closed (opened.foldl (fun s q => s.deleteOpen q) s)

/-- The number of words of the open segment, from the oldest, that stay within both limits, and at least
one (R107). -/
def fitPrefix (hard : Nat) (ts : List Text) : Nat :=
  max 1 (((List.range (min ts.length maxWords + 1)).filter fun n =>
    decide (charCount (ts.take n) ≤ hard)).foldl max 0)

/-- The split of an open segment that a REPLACE took beyond a limit: runs from its oldest words close
until what remains is within both limits (R107; log entry 14). The fuel bounds the number of closes. -/
def State.splitOpen : Nat → State → State
  | 0, s => s
  | fuel + 1, s =>
    if decide (s.asm.words.length ≤ maxWords) && decide (charCount s.asm.texts ≤ s.cfg.hardLimit) then s
    else State.splitOpen fuel (s.closeFirst (fitPrefix s.cfg.hardLimit s.asm.texts))

/-- A REPLACE in the open segment (R107). -/
def State.replaceOpen (i : Nat) (ws : List Text) (s : State) : State :=
  match s.asm.words[i]? with
  | none => s
  | some w =>
    let words := s.asm.words.take i ++ ws.map (fun t => { w with text := t }) ++ s.asm.words.drop (i + 1)
    let s := { s with
      asm.words := words
      asm.history := replaceEntries (.opened i) ws s.asm.history }
    s.splitOpen words.length

/-- A queued segment's words after a REPLACE of the word at an index (R107). -/
def QueuedSegment.replaced (g : QueuedSegment) (i : Nat) (ws : List Text) : List SpokenWord :=
  match g.words[i]? with
  | none => g.words
  | some w => g.words.take i ++ ws.map (fun t => ⟨t, w.speech⟩) ++ g.words.drop (i + 1)

/-- Whether a REPLACE keeps a queued segment within 20 words and the hard limit (R105). -/
def QueuedSegment.admits (g : QueuedSegment) (hard i : Nat) (ws : List Text) : Bool :=
  decide ((g.replaced i ws).length ≤ maxWords) &&
    decide (charCount ((g.replaced i ws).map (·.text)) ≤ hard)

/-- A REPLACE in a queued segment, in place (R107). -/
def State.replaceQueued (g : QueuedSegment) (i : Nat) (ws : List Text) (s : State) : State :=
  { s with
    line.segQ := s.line.segQ.map fun g' =>
      if g'.number = g.number then { g' with words := g.replaced i ws } else g'
    asm.history := replaceEntries (.queued g.number i) ws s.asm.history }

/-- A REPLACE in a sent segment: one AMEND (R107); a refused deposit leaves all as it was (R109). One that was
held until its segment had been withdrawn has no word left to reach (log entry 36). -/
def State.replaceSent (m : Byte) (i : Nat) (ws : List Text) (s : State) : State :=
  match s.asm.windowCount m with
  | none => s
  | some c =>
    match s.depositAmend ⟨m, BitVec.ofNat 8 i, .replace ws⟩ with
    | (s, false) => s
    | (s, true) =>
      { s with
        asm.window := setWindow m (c + ws.length - 1) s.asm.window
        asm.history := replaceEntries (.sent m i) ws s.asm.history }

/-- A REPLACE of word i of the closed segment m: in place while it is queued, held while it is under
arbitration, as an AMEND once it is sent (R107, R108). -/
def State.replaceClosed (m : Byte) (i : Nat) (ws : List Text) (s : State) : State :=
  if s.line.segmentUnderArb = some m then
    { s with line.held := s.line.held ++ [.replaceWord m i ws] }
  else
    match s.line.queuedSegment m with
    | some g => s.replaceQueued g i ws
    | none => s.replaceSent m i ws

/-- The check of R105 on a REPLACE whose target stands at a place. -/
def State.replaceable (p : Place) (ws : List Text) (s : State) : Bool :=
  match p with
  | .opened _ => true
  | .queued m i =>
    match s.line.queuedSegment m with
    | some g => g.admits s.cfg.hardLimit i ws
    | none => false
  | .sent m i => s.asm.reaches m (fun _ => i)

/-- A DELETE n: none where it is refused TOO_OLD (R105), and the state it leaves otherwise (R106). -/
def State.correctDelete (n : Nat) (s : State) : Option State :=
  let gs := groupPlaces ((lastN n s.asm.history).map (·.place)).reverse
  if s.asm.history.length < n || !gs.all s.asm.deletable then none else some (s.applyDelete gs)

/-- A REPLACE of the k-th newest word: none where it is refused TOO_OLD (R105), and the state it leaves
otherwise (R107). -/
def State.correctReplace (k : Nat) (ws : List Text) (s : State) : Option State :=
  if s.asm.history.length < k then none
  else
    match s.asm.history[s.asm.history.length - k]? with
    | none => none
    | some e =>
      if !s.replaceable e.place ws then none
      else
        match e.place with
        | .opened i => some (s.replaceOpen i ws)
        | .queued m i => some (s.replaceClosed m i ws)
        | .sent m i => some (s.replaceSent m i ws)

end Sys2Proof.Machine
end

