-- ==== Sys2Proof/Machine/Views.lean ====
section
/-! DEFINITION. Floor views (R51): whom a view names, whom it gives the right to send segments, what the
floor check finds (R72), and what a change of view means to intake (R64). -/

namespace Sys2Proof.Machine

/-- The holder a view names (R51). -/
def View.holder : View → Option Station
  | .vacant => none
  | .held h => some h
  | .offered h _ => some h
  | .overlap h _ => some h

/-- Whether a view names a station as its holder. -/
def View.heldBy (x : Station) (v : View) : Bool := v.holder == some x

/-- Whether a view is OVERLAP with a station as the incoming one. -/
def View.incomingIs (x : Station) : View → Bool
  | .overlap _ t => t == x
  | _ => false

/-- Whether a view gives a station the right to send segments (R51). -/
def View.right (x : Station) (v : View) : Bool := v.heldBy x || v.incomingIs x

/-- Whether a view's state is OFFERED. -/
def View.isOffered : View → Bool
  | .offered _ _ => true
  | _ => false

/-- Whether a view's state is OVERLAP. -/
def View.isOverlap : View → Bool
  | .overlap _ _ => true
  | _ => false

/-- The sender's part in the view, as the floor check marks a segment for intake (R72). -/
inductive Mark where
  | holder
  | outgoing
  | incoming
  deriving DecidableEq, Repr

/-- The floor check: the mark of an on-floor segment from a station, none for an off-floor one (R72). -/
def View.mark (x : Station) : View → Option Mark
  | .vacant => none
  | .held h => if h = x then some .holder else none
  | .offered h _ => if h = x then some .holder else none
  | .overlap h t => if h = x then some .outgoing else if t = x then some .incoming else none

/-- The overlap events the floor unit sends to intake (R64). A release merge carries the point, and a merge
the outgoing station and the one that became holder. -/
inductive IntakeEvent where
  | opened (h : Station)
  | releaseMerge (h t : Station) (point : Age)
  | fallbackMerge (h t : Station)
  | discard
  deriving DecidableEq, Repr

/-- What a change of view hands to intake (R64). -/
def intakeEvents (old new : View) (cause : ViewCause) : List IntakeEvent :=
  let opening := match new with
    | .overlap h _ => [IntakeEvent.opened h]
    | _ => []
  match old with
  | .overlap h t =>
    if new = .held t then
      match cause with
      | .release p => [.releaseMerge h t p]
      | _ => [.fallbackMerge h t]
    else .discard :: opening
  | _ => opening

/-- The tally request an OUTPUT station's change of view makes (R13). -/
def outputTally (old new : View) : Option Pattern :=
  if new = .vacant then some .off else if old = .vacant then some .steady else none

end Sys2Proof.Machine
end

