-- ==== Sys2Proof/Machine/WriterPort.lean ====
section
/-! DEFINITION. The writer port (R75 to R94): its notices, the writer state, the floor requests and their
answers, leaving and losing the floor, auto-claim, and the taking of writer records. -/

namespace Sys2Proof.Machine

/-! ### Notices (R78) -/

/-- The capacity of the notice queue, besides the notice being sent (R78). -/
def noticeCapacity : Nat := 8

/-- Whether a notice is a STATE notice. -/
def Notice.isState : Notice → Bool
  | .state _ => true
  | _ => false

/-- The notice queue with room made: the oldest STATE notice goes, or the oldest notice where none is a
STATE notice (R78). -/
def makeNoticeRoom (q : List Notice) : List Notice :=
  if q.any Notice.isState then eraseFirst Notice.isState 1 q else q.drop 1

/-- A notice queued (R78): on an idle link it is sent at once; into a full queue it makes room first. -/
def WriterPort.enqueue (n : Notice) (p : WriterPort) : WriterPort :=
  match p.sending with
  | none => { p with sending := some n }
  | some _ =>
    { p with notices :=
        (if p.notices.length < noticeCapacity then p.notices else makeNoticeRoom p.notices) ++ [n] }

/-- The end of the notice being sent: the next queued notice begins (R78). -/
def WriterPort.noticeSent (p : WriterPort) : WriterPort :=
  match p.sending with
  | none => p
  | some _ => { p with sending := p.notices.head?, notices := p.notices.tail }

/-- A notice queued at the port. -/
def State.notify (n : Notice) (s : State) : State := { s with port := s.port.enqueue n }

/-- An OUTCOME queued. -/
def State.answer (o : Answer) (s : State) : State := s.notify (.outcome o)

/-- A REFUSE queued, with its flag (R76, R82, R83). -/
def State.refuseWith (r : RefuseReason) (f : Flag) (s : State) : State := (s.notify (.refuse r)).raise f

/-- OUTCOME ABORTED queued and WR_ABORTED set (R84, R90, R93). -/
def State.answerAborted (s : State) : State := (s.answer .aborted).raise .wrAborted

/-! ### The writer state (R79, R80) -/

/-- Whether a queued floor frame is a CLAIM or TAKE. -/
def FloorFrame.claims : FloorFrame → Bool
  | .claim => true
  | .take _ => true
  | _ => false

/-- Whether a CLAIM or TAKE of the writer's is queued or in flight, the writer not having left since (R79, line 2). -/
def State.claimOut (s : State) : Bool :=
  (s.line.floorQ.map FloorFrame.claims).getD false ||
    match s.line.inFlight with
    | some f => !f.left && match f.body with
      | .claim | .take _ => true
      | _ => false
    | none => false

/-- Whether a leave has not yet been answered: its YIELD is queued or in flight, or it waits for an end
report (R79, line 3). -/
def State.leaveOut (s : State) : Bool :=
  !s.port.leaves.isEmpty || s.line.floorQ == some .yield ||
    (s.line.inFlight.map (·.body)) == some .yield

/-- The writer state the view gives a station (R79, line 5). -/
def View.writerState (x : Station) : View → WriterState
  | .vacant => .idle
  | .held h => if h = x then .onAir else .idle
  | .offered h _ => if h = x then .offering else .idle
  | .overlap h t => if h = x then .outgoing else if t = x then .incoming else .idle

/-- The writer state, by the five lines of R79 in their order. A drain whose RELEASE is in flight lasts until
its end, also where the floor is lost meanwhile (log entry 41); the IDLE of a split yielded lasts until the
next change of view, also where a YIELD is lost meanwhile (log entry 42). -/
def State.workState (s : State) : WriterState :=
  if !s.port.ready then .absent
  else if s.claimOut then .claiming
  else if s.leaveOut || s.port.splitIdle then .idle
  else if s.asm.drain != .idle then .draining
  else s.floor.view.writerState s.number

/-- The sending states (R102). -/
def WriterState.sending : WriterState → Bool
  | .onAir => true
  | .offering => true
  | .incoming => true
  | .outgoing => true
  | .draining => true
  | _ => false

/-- The tally pattern of a writer state (Writer Port). -/
def WriterState.pattern : WriterState → Pattern
  | .absent => .off
  | .idle => .off
  | .claiming => .fast
  | .onAir => .steady
  | .offering => .slow
  | .incoming => .slow
  | .outgoing => .slow
  | .draining => .slow

/-- A change of writer state: its STATE notice, its tally request (R80), and what the assembler does where
the state leaves the sending states (R102). -/
def State.changeWriterState (w : WriterState) (s : State) : State :=
  let old := s.port.wstate
  let s := ({ s with port.wstate := w }.notify (.state w)).requestTally w.pattern
  if old.sending && !w.sending then s.loseRight else s

/-- The writer state worked out afresh; finding no different state does nothing (R80). -/
def State.workOut (s : State) : State :=
  if s.workState = s.port.wstate then s else s.changeWriterState s.workState

/-! ### Requests -/

/-- The pending floor request: the frame in the floor queue, or a drain whose RELEASE is not yet deposited. -/
inductive PendingRequest where
  | frame (f : FloorFrame)
  | drain
  deriving DecidableEq, Repr

/-- The request pending at the port (R84). -/
def State.pendingRequest (s : State) : Option PendingRequest :=
  match s.line.floorQ with
  | some f => some (.frame f)
  | none => if s.asm.drain = .draining then some .drain else none

/-- The abort of a pending request (R84): its frame is withdrawn, a drain ends with its queue kept, ABORTED
is answered, and the writer state is worked out afresh. The withdrawn floor frame is no source drop (log
entry 40). -/
def State.abortRequest (p : PendingRequest) (s : State) : State :=
  let s := match p with
    | .frame .release => { s with line.floorQ := none, asm.drain := .idle }
    | .frame _ => { s with line.floorQ := none }
    | .drain => { s with asm.drain := .idle }
  s.answerAborted.workOut

/-- The abort of whatever request is pending, and whether there was one (R84). -/
def State.abortPending (s : State) : State × Bool :=
  match s.pendingRequest with
  | some p => (s.abortRequest p, true)
  | none => (s, false)

/-- A FLOOR_TAKE with no request pending (R85). -/
def State.takeFloor (s : State) : State :=
  if s.port.wstate != .idle then s.answer .refusedState
  else
    match s.floor.view with
    | .vacant => (s.depositFloor .claim).workOut
    | .offered h sc =>
      if sc = .station s.number ∨ sc = .any then (s.depositFloor (.take h)).workOut
      else s.answer .refusedHeld
    | _ => s.answer .refusedHeld

/-- Whether a named successor cannot be accepted: this station itself, or a station whose entry is ABSENT (R87). -/
def State.badSuccessor (sc : Successor) (s : State) : Bool :=
  match sc with
  | .any => false
  | .station x => x == s.number || !(s.peers.entries[x]).present

/-- A FLOOR_HAND with no request pending (R87). -/
def State.handFloor (sc : Successor) (s : State) : State :=
  if s.port.wstate != .onAir && s.port.wstate != .offering then s.answer .refusedState
  else if s.badSuccessor sc then s.answer .badSuccessor
  else (s.depositFloor (.offer sc)).workOut

/-- The decision of a leave (R91, steps 3 and 4): it waits while an own floor frame is in flight; it
deposits a YIELD where the view gives the right to send, after aborting a request still queued; and
otherwise it is complete, answered unless it aborted a request, REFUSED_STATE where it was taken in IDLE
with nothing outstanding. In LISTENING there is nothing to yield (R84). -/
def State.decideLeave (aborted wasIdle : Bool) (s : State) : State :=
  if s.line.floorInFlight then { s with port.leaves := s.port.leaves ++ [aborted] }
  else if s.floor.view.right s.number && s.start == .running then
    (s.abortPending.1).depositFloor .yield
  else if aborted then s
  else if wasIdle then s.answer .refusedState
  else s.answer .granted

/-- A CLAIM or TAKE in flight marked as one whose writer has left (R79, line 2). -/
def Line.markLeft (l : Line) : Line :=
  { l with inFlight := l.inFlight.map fun f => { f with left := true } }

/-- A leave, after any abort (R91): the assembler's text is discarded, the writer has left, the port
decides whether to yield, and the writer state is worked out. The mark of an empty open segment is cleared
where that leaves a sending state, and kept elsewhere (R102; DEDUCED, log entry 47). -/
def State.leaveFloor (aborted wasIdle : Bool) (s : State) : State :=
  let s := s.discardOpen.withdrawSegments true
  let s := { s with line := s.line.markLeft }
  (s.decideLeave aborted wasIdle).workOut

/-- Whether a leave is taken in IDLE with no request pending and no floor frame in flight (R91, step 4). -/
def State.idleForLeave (s : State) : Bool :=
  s.port.wstate == .idle && s.pendingRequest.isNone && !s.line.floorInFlight

/-- A FLOOR_DONE with no request pending (R89): in OUTGOING the open segment closes and the drain begins;
in ON_AIR and OFFERING it is a leave. -/
def State.doneFloor (aborted : Bool) (s : State) : State :=
  match s.port.wstate with
  | .outgoing => (State.workOut { s.closeOpen with asm.drain := .draining }).checkDrain
  | .onAir => s.leaveFloor aborted false
  | .offering => s.leaveFloor aborted false
  | _ => s.answer .refusedState

/-! ### Auto-claim (R94) -/

/-- Auto-claim: a FLOOR_TAKE of the port's own where it is configured on, the station is RUNNING, the view
is VACANT, the writer state is IDLE, and no request is pending or in flight (R94). -/
def State.autoClaim (s : State) : State :=
  if s.cfg.autoClaim && s.hasWriter && s.start == .running && s.floor.view == .vacant &&
      s.port.wstate == .idle && s.pendingRequest.isNone && !s.line.floorInFlight
  then s.takeFloor
  else s

/-! ### Changes of view at the port (R86, R88, R90, R92, R93) -/

/-- Whether a change of view ends the handover this station was outgoing in: an OVERLAP with it as holder
passes to HELD of the incoming station (R90, R93). -/
def View.handsOver (x : Station) (old new : View) : Bool :=
  match old with
  | .overlap h t => h == x && new == .held t
  | _ => false

/-- Whether a change of view is a loss of the floor that the port tells the writer of (R71, R93): every split;
or a GONE event or an adoption that takes the right to send away, but for the passage of an OVERLAP with this
station outgoing to HELD of the incoming station (R90); and not while a leave is unanswered (R92). That a
split is one also where it makes that passage is log entry 33's. A loss that finds the RELEASE in flight is
told at once, before the drain's answer at the RELEASE's end (log entry 41). -/
def State.lossOfFloor (old new : View) (cause : ViewCause) (s : State) : Bool :=
  let x := s.number
  let taken := old.right x && !new.right x && !old.handsOver x new
  !s.leaveOut &&
    match cause with
    | .split => true
    | .adoption => taken
    | .gone _ => taken
    | _ => false

/-- What a change of view does to the request pending at the port. -/
inductive ViewAnswer where
  /-- The request stands. -/
  | stands
  /-- Its frame, or its drain, is withdrawn and answered. -/
  | withdrawn (o : Answer)
  deriving DecidableEq, Repr

/-- The answer of a change of view to the pending request: a CLAIM or TAKE whose station the view now names
is GRANTED (R86); a YIELD whose floor has gone is GRANTED (R92); a drain whose OVERLAP passed to the
incoming station is GRANTED, and after any other change, a split among them, ABORTED (R90, R93; log entry 33);
an OFFER of a lost floor is ABORTED (R93). A queued YIELD stands where the new view gives this station the right to
send, as its second station too, also after a split (log entry 43). -/
def State.viewAnswer (old new : View) (cause : ViewCause) (s : State) : ViewAnswer :=
  let x := s.number
  let drainAnswer := match old with
    | .overlap h t =>
      if h = x then
        (if new = .held t ∧ cause ≠ .split then .withdrawn .granted else .withdrawn .aborted)
      else .stands
    | _ => ViewAnswer.stands
  match s.pendingRequest with
  | some (.frame .claim) => if new.heldBy x then .withdrawn .granted else .stands
  | some (.frame (.take _)) =>
    if new.heldBy x || new.incomingIs x then .withdrawn .granted else .stands
  | some (.frame .yield) => if new.right x then .stands else .withdrawn .granted
  | some (.frame (.offer _)) =>
    if s.lossOfFloor old new cause then .withdrawn .aborted else .stands
  | some (.frame .release) => drainAnswer
  | some .drain => drainAnswer
  | none => .stands

/-- The pending request withdrawn: its frame leaves the floor queue, and a drain ends (R90). The withdrawn
floor frame is no source drop (log entry 40). -/
def State.withdrawRequest (s : State) : State :=
  match s.pendingRequest with
  | some (.frame .release) => { s with line.floorQ := none, asm.drain := .idle }
  | some (.frame _) => { s with line.floorQ := none }
  | some .drain => { s with asm.drain := .idle }
  | none => s

/-- The port's answers to a change of view, in their order: the pending request's, LOST_FLOOR (R93), and
LAPSED where this station's offer lapsed (R88). Each change of view settles whether the IDLE of a split stands
(R79); nothing else ends it (log entry 42). -/
def State.answerView (old new : View) (cause : ViewCause) (s : State) : State :=
  let lost := s.lossOfFloor old new cause
  let ans := s.viewAnswer old new cause
  let s := { s with port.splitIdle := cause == .split }
  let s := match ans with
    | .withdrawn .aborted => s.withdrawRequest.answerAborted
    | .withdrawn o => s.withdrawRequest.answer o
    | .stands => s
  let s := if lost then s.answer .lostFloor else s
  if cause = .lapse ∧ old.heldBy s.number then s.answer .lapsed else s

/-- Whether a change of view lets auto-claim be considered: the view became VACANT through another
station's YIELD, a GONE event or an adoption (R94). -/
def ViewCause.freesFloor (x : Station) : ViewCause → Bool
  | .yield y => y != x
  | .gone _ => true
  | .adoption => true
  | _ => false

/-- The port's whole reaction to a change of view: its answers, the writer state (R79) and auto-claim (R94). -/
def State.reactToView (old new : View) (cause : ViewCause) (s : State) : State :=
  let s := (s.answerView old new cause).workOut
  if new = .vacant ∧ cause.freesFloor s.number then s.autoClaim else s

/-- A change of view handed to the port (R65). Where its reaction would withdraw the floor frame that is
under arbitration, it is held until the arbitration field ends (R26). -/
def State.portView (old new : View) (cause : ViewCause) (s : State) : State :=
  if !s.hasWriter then s
  else if s.line.floorUnderArb && s.viewAnswer old new cause != .stands then
    { s with line.held := s.line.held ++ [.viewChange old new cause] }
  else s.reactToView old new cause

/-! ### The end report of an own frame (R34, R86, R88, R90, R91) -/

/-- The port's answer to the end of an own floor frame, from the view as it stands. -/
def State.answerEnd (b : FrameBody) (s : State) : State :=
  let x := s.number
  let v := s.floor.view
  match b with
  | .claim => s.answer (if v.heldBy x then .granted else .refusedHeld)
  | .take _ => s.answer (if v.heldBy x || v.incomingIs x then .granted else .refusedHeld)
  | .offer sc => s.answer (if v = .offered x sc then .granted else .refusedState)
  | .release _ _ =>
    { s with asm.drain := .idle }.answer (if v.heldBy x then .refusedState else .granted)
  | .yield => s.answer (if v.right x then .refusedState else .granted)
  | _ => s

/-- The leaves that waited for the end report, decided in their order against the view as it stands (R91). -/
def State.decideLeaves (s : State) : State :=
  let ls := s.port.leaves
  ls.foldl (fun s ab => s.decideLeave ab false) { s with port.leaves := [] }

/-- What changed the view when an own frame was taken at its sender. -/
def FrameBody.cause (x : Station) : FrameBody → ViewCause
  | .claim => .claim
  | .offer _ => .offer
  | .take _ => .take
  | .release p _ => .release p
  | .yield => .yield x
  | .segment _ => .implicitClaim
  | _ => .adoption

/-- The end report of an own frame (R34): it leaves flight; the port answers it, answers the change of view
it made, if it made one, and decides any waiting leave; the writer state is worked out; and the end of a
SEGMENT lets a drain check whether it is complete (R101, R110). A YIELD lost at its sender leaves the IDLE of
a split as it is (log entry 42). -/
def State.endReport (f : InFlight) (before : View) (s : State) : State :=
  let s := { s with line.inFlight := none }
  if !s.hasWriter then s
  else
    let s := s.answerEnd f.body
    let s := if before = s.floor.view then s
      else s.answerView before s.floor.view (f.body.cause s.number)
    s.decideLeaves.workOut.checkDrain

/-! ### Taking records (R75, R82 to R91) -/

/-- Whether the port is busy with a record whose work is held until the arbitration field ends (R26, R75): a
record, a correction, an abort, or the withdrawal of a leave or an UNREADY. A withdrawal and a reaction held for
a change of view are no record's effects, and the next record does not wait for them (log entry 38). -/
def HeldWork.busiesPort : HeldWork → Bool
  | .record _ _ => true
  | .deleteGroups _ => true
  | .replaceWord _ _ _ => true
  | .leave _ => true
  | .withdrawSegment _ byRecord => byRecord
  | .viewChange _ _ _ => false

/-- A record other than a REPWORD ends a waiting REPLACE, which is dropped whole with WR_PARTIAL (R83). -/
def State.dropReplacement (s : State) : State :=
  match s.port.replacement with
  | none => s
  | some _ => { s with port.replacement := none }.raise .wrPartial

/-- A malformed record: it ends a waiting REPLACE, and is refused with BAD_RECORD (R76, R83). -/
def State.badRecord (s : State) : State := s.dropReplacement.refuseWith .badRecord .wrBadRecord

/-- The answer to a correction: TOO_OLD where the assembler refused it whole (R83, R105). -/
def State.corrected (r : Option State) (s : State) : State :=
  match r with
  | some s' => s'
  | none => s.notify (.refuse .tooOld)

/-- Refused with NOT_ON_AIR (R82, R83). -/
def State.notOnAir (s : State) : State := s.refuseWith .notOnAir .wrNotOnAir

/-- Whether words are taken in a writer state (R82). -/
def WriterState.takesWords : WriterState → Bool
  | .onAir => true
  | .offering => true
  | .incoming => true
  | .outgoing => true
  | _ => false

/-- A WORD (R82, R96). -/
def State.takeWord (t : Text) (s : State) : State :=
  if s.port.wstate.takesWords then s.addWord t else s.notOnAir

/-- A BREAK (R82, R98). -/
def State.takeBreak (s : State) : State :=
  if s.port.wstate = .absent then s.notOnAir else s.breakSegment

/-- A FLUSH (R82, R98). -/
def State.takeFlush (s : State) : State :=
  if s.port.wstate = .absent then s.notOnAir else s.closeOpen

/-- A DELETE (R83, R105, R106). -/
def State.takeDelete (n : Nat) (s : State) : State :=
  if s.port.wstate = .absent then s.notOnAir else s.corrected (s.correctDelete n)

/-- A REPLACE becomes the replacement in progress (R83). -/
def State.takeReplace (k m : Nat) (s : State) : State :=
  if s.port.wstate = .absent then s.notOnAir
  else { s with port.replacement := some ⟨k, m, []⟩ }

/-- A REPWORD (R76, R83): without a waiting REPLACE it is malformed; the m-th hands the replacement on. -/
def State.takeRepword (t : Text) (s : State) : State :=
  match s.port.replacement with
  | none => s.badRecord
  | some r =>
    let ws := r.words ++ [t]
    if ws.length < r.m then { s with port.replacement := some { r with words := ws } }
    else
      let s := { s with port.replacement := none }
      s.corrected (s.correctReplace r.k ws)

/-- A READY (R81): in ABSENT the writer becomes ready, and auto-claim may apply (R94). -/
def State.takeReady (s : State) : State :=
  if s.port.ready then s else (State.workOut { s with port.ready := true }).autoClaim

/-- Whether a floor request must wait, because the request it would abort is under arbitration (R26, R84). -/
def State.abortWaits (s : State) : Bool := s.line.floorUnderArb && s.line.floorQ.isSome

/-- A floor request (R84): answered STARTING in LISTENING; in RUNNING a pending request is aborted first,
and the request waits where that one's frame is under arbitration. -/
def State.floorRequest (r : WriterRecord) (act : Bool → State → State) (s : State) : State :=
  if s.start != .running then s.answer .starting
  else if s.abortWaits then { s with line.held := s.line.held ++ [.record (some r) false] }
  else
    let (s, aborted) := s.abortPending
    act aborted s

/-- The leave of an UNREADY whose abort waited, once the arbitration field has ended (R84, R91). -/
def State.unreadyLeave (wasIdle : Bool) (s : State) : State :=
  let (s, aborted) := s.abortPending
  s.leaveFloor aborted wasIdle

/-- An UNREADY (R91): no effect in ABSENT; otherwise the writer is no longer ready, and the record acts as a
leave, with its abort of any pending request, whose answer is queued as a FLOOR_LEAVE's. An OUTCOME stands
before the STATE ABSENT (R78; log entry 12). -/
def State.takeUnready (s : State) : State :=
  if !s.port.ready then s
  else
    let wasIdle := s.idleForLeave
    let s := { s with port.ready := false }
    if s.abortWaits then State.workOut { s with line.held := s.line.held ++ [.leave wasIdle] }
    else s.unreadyLeave wasIdle

/-- A well-formed record other than REPWORD ends a waiting REPLACE (R83); then each record is taken by its
own rule. -/
def State.performWell (r : WriterRecord) (s : State) : State :=
  match r with
  | .word t => s.dropReplacement.takeWord t
  | .speakerBreak => s.dropReplacement.takeBreak
  | .flush => s.dropReplacement.takeFlush
  | .delete n => s.dropReplacement.takeDelete n
  | .replace k m => s.dropReplacement.takeReplace k m
  | .repword t => s.takeRepword t
  | .ready => s.dropReplacement.takeReady
  | .unready => s.dropReplacement.takeUnready
  | .floorTake => s.dropReplacement.floorRequest r fun _ s => s.takeFloor
  | .floorHand sc => s.dropReplacement.floorRequest r fun _ s => s.handFloor sc
  | .floorDone => s.dropReplacement.floorRequest r fun ab s => s.doneFloor ab
  | .floorLeave =>
    s.dropReplacement.floorRequest r fun ab s => s.leaveFloor ab (!ab && s.idleForLeave)

/-- Whether a record's text is used at the port: a WORD's always, and a REPWORD's while a REPLACE waits;
without one a REPWORD is malformed (R76). -/
def State.usesText (s : State) : WriterRecord → Bool
  | .word _ => true
  | .repword _ => s.port.replacement.isSome
  | _ => false

/-- A record taken (R76, R77): none is a malformed one; one whose text was cut sets WR_CLIPPED. -/
def State.performRecord (r : Option WriterRecord) (clipped : Bool) (s : State) : State :=
  match r with
  | none => s.badRecord
  | some r => (if clipped && s.usesText r then s.raise .wrClipped else s).performWell r

/-- A record taken, or waiting behind one whose work is held (R75). -/
def State.takeRecord (r : Option WriterRecord) (clipped : Bool) (s : State) : State :=
  if s.line.held.any HeldWork.busiesPort then
    { s with line.held := s.line.held ++ [.record r clipped] }
  else s.performRecord r clipped

/-- Whether the port takes records: in a WRITER or BOTH station, out of LOADING (R75). -/
def State.portTakes (s : State) : Bool :=
  s.hasWriter && s.start != .loading && !s.resetHeld

/-- A record that completes on the writer link, by its kind, its content and its framing-error mark (R75
to R77): malformed ones are refused, and a text longer than 32 characters is cut. -/
def State.recordIn (kind : Byte) (content : List Byte) (framing : Bool) (s : State) : State :=
  if !s.portTakes then s
  else s.takeRecord (if framing then none else parseRecord kind content) (clips kind content)

/-- A gap of more than 10 character times inside a record ends it as malformed (R176). -/
def State.recordGap (received : List Byte) (s : State) : State :=
  if s.portTakes && partialRecord received then s.takeRecord none false else s

/-! ### Work held for the arbitration field (R26) -/

/-- One piece of held work, once the arbitration field has ended. -/
def State.performHeld (w : HeldWork) (s : State) : State :=
  match w with
  | .record r clipped => s.performRecord r clipped
  | .deleteGroups gs => s.deleteGroups gs
  | .replaceWord m i ws => s.replaceClosed m i ws
  | .withdrawSegment m _ => s.withdrawHeld m
  | .leave wasIdle => s.unreadyLeave wasIdle
  | .viewChange old new cause => s.reactToView old new cause

/-- All held work, in the order it came (R26). -/
def State.performAllHeld (s : State) : State :=
  s.line.held.foldl (fun s w => s.performHeld w) { s with line.held := [] }

/-! ### The commands -/

/-- DRAIN_COMPLETE (R89, R110). -/
def execDrainComplete (s : State) : Result := .next s.checkDrain

/-- WORD (R82, R96). -/
def execWord (text : Text) (s : State) : Result := .next (s.recordIn 1#8 text false)

/-- BREAK (R82, R98). -/
def execSpeakerBreak (s : State) : Result := .next (s.recordIn 2#8 [] false)

/-- FLUSH (R82, R98). -/
def execFlush (s : State) : Result := .next (s.recordIn 3#8 [] false)

/-- DELETE (R83, R105, R106). -/
def execDelete (n : Byte) (s : State) : Result := .next (s.recordIn 4#8 [n] false)

/-- REPLACE (R83). -/
def execReplace (k m : Byte) (s : State) : Result := .next (s.recordIn 5#8 [k, m] false)

/-- REPWORD (R76, R83, R107). -/
def execRepword (text : Text) (s : State) : Result := .next (s.recordIn 6#8 text false)

/-- READY (R81, R94). -/
def execReady (s : State) : Result := .next (s.recordIn 7#8 [] false)

/-- UNREADY (R91). -/
def execUnready (s : State) : Result := .next (s.recordIn 8#8 [] false)

/-- FLOOR_TAKE (R84, R85). -/
def execFloorTake (s : State) : Result := .next (s.recordIn 9#8 [] false)

/-- FLOOR_HAND (R84, R87). -/
def execFloorHand (successor : Byte) (s : State) : Result := .next (s.recordIn 10#8 [successor] false)

/-- FLOOR_DONE (R84, R89). -/
def execFloorDone (s : State) : Result := .next (s.recordIn 11#8 [] false)

/-- FLOOR_LEAVE (R84, R91). -/
def execFloorLeave (s : State) : Result := .next (s.recordIn 12#8 [] false)

/-- MALFORMED_RECORD (R76): a record by its bytes, judged by the parser. -/
def execMalformedRecord (kind : Byte) (content : List Byte) (framing : Bool) (s : State) : Result := .next (s.recordIn kind content framing)

/-- RECORD_GAP_TIMEOUT (R76, R176). -/
def execRecordGapTimeout (received : List Byte) (s : State) : Result := .next (s.recordGap received)

/-- NOTICE_SENT (R78). -/
def execNoticeSent (s : State) : Result := .next { s with port := s.port.noticeSent }

end Sys2Proof.Machine
end

