-- ==== Sys2Proof/Machine/Contention.lean ====
section
/-! DEFINITION. The cue line controller's contention (R16 to R18, R25 to R27, R35): beginning a frame, losing
and winning the arbitration field, filling a frame at its win, and gaining footing after a reset. -/

namespace Sys2Proof.Machine

/-- Whether the receiver takes frames: out of LOADING, not held in reset, and once the line has been idle
for the gap since the reset (R28, R35). -/
def State.receiving (s : State) : Bool := s.start != .loading && !s.resetHeld && s.line.footing

/-- The line recessive for the interframe gap (R35). -/
def State.gainFooting (s : State) : State :=
  if s.start != .loading && !s.resetHeld then { s with line.footing := true } else s

/-! ### Beginning a frame (R16, R23) -/

/-- Whether the controller may begin a frame: in RUNNING, with no frame under way and none of its own
under arbitration or in flight (R16). -/
def State.mayBegin (s : State) : Bool :=
  s.start == .running && s.receiving && !s.line.foreign && s.line.arb.isNone && s.line.inFlight.isNone

/-- The controller begins the frame the offer order yields, which is then under arbitration (R16, R23). -/
def State.beginFrame (s : State) : State :=
  if s.mayBegin then { s with line.arb := s.line.offer s.cfg.amendWeight } else s

/-- The arbitration field the controller contends with, while a frame of its own is under arbitration: its
class and the station number (R17, R25). -/
def State.contendingField (s : State) : Option Nat :=
  s.line.arb.map fun q => arbitrationField (s.line.classOf q) s.number

/-! ### Losing (R17) -/

/-- An arbitration loss (R17): the frame stays queued, the loss is counted, and the station is a receiver. A
beat that lost counts the winner's win against itself here (R25); a beat waiting to replace it keeps its
loss count and promotion, so it takes its place as it stands (R22). Held work follows (R26). No OFFER that was
under way at a lapse is so any more (log entry 32). -/
def State.loseArbitration (readback : Bool) (s : State) : State :=
  match s.line.arb with
  | none => s
  | some q =>
    let s : State := { s with
      line.arb := none
      line.foreign := true
      line.winCounted := q == .beat
      line.beatReplace := false
      floor.lapsed := false
      peers.counters.arbLosses := rise s.peers.counters.arbLosses 1 }
    let s := if readback then s.countReadback else s
    let s := if q = .beat then s.countBeatLoss else s
    s.performAllHeld

/-! ### Winning (R18) -/

/-- The body of a floor frame at its win (R18, R111). -/
def FloorFrame.fill (t : Frame) (a : Assembler) : FloorFrame → FrameBody
  | .claim => .claim
  | .offer sc => .offer sc
  | .take h => .take h
  | .release => .release (a.point t) a.lastNumber
  | .yield => .yield

/-- The body of a BEAT at its win (R43). -/
def State.beatBody (s : State) : BeatBody :=
  { role := s.cfg.role
    ready := s.hasWriter && s.port.wstate != .absent
    view := s.floor.view
    last := s.asm.lastNumber
    start := s.line.firstBeat }

/-- The frame of a queue, filled at its win and gone from its queue, with what its owner does then (R18, R22,
R24, R43, R100); none where the queue is empty. -/
def State.takeWinner (q : QueueName) (s : State) : Option (FrameBody × State) :=
  match q with
  | .floor =>
    match s.line.floorQ with
    | none => none
    | some f => some (f.fill s.clock.count s.asm, { s with line.floorQ := none })
  | .amend =>
    match s.line.amendQ with
    | [] => none
    | b :: rest =>
      some (.amend b,
        { s with line := Line.ratioAfterAmend s.cfg.amendWeight { s.line with amendQ := rest } })
  | .segment =>
    match s.line.segQ with
    | [] => none
    | g :: rest =>
      some (.segment (g.fill s.clock.count s.asm.restartPending),
        { s with line.segQ := rest, line.ratio := 0, asm := s.asm.segmentWon g })
  | .beat =>
    match s.line.beat with
    | none => none
    | some _ =>
      some (.beat s.beatBody,
        { s with
          line.beat := if s.line.beatReplace then some ⟨0, false⟩ else none
          line.firstBeat := false })

/-- The win of the frame under arbitration (R18): it is in flight with the header block of the class it
contended at (R15, R25, R175) and its transmission frame, a win other than the beat's counts against a
queued beat (R25), and held work follows (R26). No OFFER that was under way at a lapse is so any more (log entry
32). -/
def State.winArbitration (readback : Bool) (s : State) : State :=
  match s.line.arb with
  | none => s
  | some q =>
    let t := s.clock.count
    let cls := s.line.classOf q
    match s.takeWinner q with
    | none => { s with line.arb := none, line.beatReplace := false }
    | some (b, s) =>
      let s : State := { s with
        line.arb := none
        line.beatReplace := false
        floor.lapsed := false
        line.inFlight := some ⟨headerBytes cls s.number b, b, t, readback, false⟩ }
      let s := if readback then s.countReadback else s
      let s := if q = .beat then s else s.countBeatLoss
      s.performAllHeld

/-- The win of another station's frame (R18): it counts once against a queued beat (R25), and no OFFER that was
under way at a lapse is so any more (log entry 32). -/
def State.foreignWin (s : State) : State :=
  if s.receiving && s.line.arb.isNone && s.line.inFlight.isNone then
    let s := if s.line.winCounted then s else s.countBeatLoss
    { s with line.foreign := true, line.winCounted := true, floor.lapsed := false }
  else s

/-- A block as sent: its data bytes, followed by its 4 check bytes (R175), whose values the manual does not give
(log entry 44). -/
def blockBytes (data : List Byte) : List Byte := data ++ (List.range 4).map (Config.checkByte data)

/-- The data bytes of the body blocks: 48 bytes a block, the last holding the remainder (R14). -/
def FrameBody.blockData (b : FrameBody) : List (List Byte) :=
  (List.range (blockCount b.length)).map fun j => (b.bytes.drop (48 * j)).take 48

/-- The blocks the frame in flight is sent in, each with its check bytes: its header block, and its body blocks
(R14, R175). -/
def InFlight.blocks (f : InFlight) : List (List Byte) :=
  ([f.header.byte0, f.header.kind, f.header.length] :: f.body.blockData).map blockBytes

/-! ### The commands -/

/-- CONTENTION_START (R16, R23). -/
def execContentionStart (s : State) : Result := .next s.beginFrame

/-- ARBITRATION_LOSS (R17). -/
def execArbitrationLoss (readback : Bool) (s : State) : Result := .next (s.loseArbitration readback)

/-- FRAME_WIN (R18, R25): of the frame under arbitration here, or of another station's. -/
def execFrameWin (own readback : Bool) (s : State) : Result :=
  .next (if own then s.winArbitration readback else s.foreignWin)

/-- LINE_IDLE_FOR_GAP (R35). -/
def execLineIdleForGap (s : State) : Result := .next s.gainFooting

end Sys2Proof.Machine
end

