-- ==== Sys2Proof/Machine/Timing.lean ====
section
/-! DEFINITION. The timing arithmetic (R127 to R142): the seven stages of a computation in their order, in
the full form and in the duration-only form, and the recompute of the PENDING records (R148). -/

namespace Sys2Proof.Machine

/-- The texts of some timed words. -/
def wordTexts (ws : List TimedWord) : List Text := ws.map (·.text)

/-- The row's text: its words joined by single spaces (R143; the space's code is log entry 5's). -/
def joinText : List Text → Text
  | [] => []
  | [t] => t
  | t :: ts => t ++ 32#8 :: joinText ts

/-- The length of the joined text of some words: the character count n of a row (R125, R143). -/
def rowLength (ws : List TimedWord) : Nat := (joinText (wordTexts ws)).length

/-- The character count n of a cue (R143). -/
def Cue.n (c : Cue) : Nat := rowLength c.words

/-- The row's text of a cue. -/
def Cue.text (c : Cue) : Text := joinText (wordTexts c.words)

/-- What a computation reads besides the cue and the schedule: the configuration values of R127 and the
rows in effect R_eff (R128). -/
structure TimingEnv where
  cfg : Configuration
  reff : Nat
  deriving DecidableEq, Repr

/-- R_eff follows the zone: 1 in CONFLICT, the configured R otherwise (R128). -/
def rowsInEffect (cfg : Configuration) (z : Zone) : Nat := if z = .conflict then 1 else cfg.rows

/-! ### The stages -/

/-- Stage 1, the ideal time: s + D (R131). -/
def stage1 (delay : Nat) (s : Frame) : Frame := plusFrames s delay

/-- The terms of stage 2 that exist: T_ideal, K + 1, the onset before plus g, and the onset R_eff places
before plus d_min (R132). -/
def onsetTerms (g dMin : Nat) (tIdeal k : Frame) (before rBefore : Option Frame) : List Frame :=
  [tIdeal, plusFrames k 1] ++ (before.map (plusFrames · g)).toList ++
    (rBefore.map (plusFrames · dMin)).toList

/-- The largest of some times, at least the given one (R130). -/
def latest (t : Frame) (ts : List Frame) : Frame := ts.foldl laterOf t

/-- Stage 2, the onset: the largest of its terms (R132). -/
def stage2 (g dMin : Nat) (tIdeal k : Frame) (before rBefore : Option Frame) : Frame :=
  latest tIdeal (onsetTerms g dMin tIdeal k before rBefore)

/-- Stage 3, the queue lateness: T_on less the larger of T_ideal and K + 1, recorded up to 65535 (R133). -/
def queueLateness (tOn tIdeal k : Frame) : Nat :=
  sat16 (framesBetween tOn (laterOf tIdeal (plusFrames k 1)))

/-- Stage 3, the total lateness: T_on less T_ideal, recorded up to 65535 (R133). -/
def totalLateness (tOn tIdeal : Frame) : Nat := sat16 (framesBetween tOn tIdeal)

/-- Stage 4, the rung: the highest rung whose threshold is at or below λ_q (R134). -/
def rungOf (ladder : List Rung) (lamQ : Nat) : Nat :=
  ((List.range ladder.length).filter fun i =>
    match ladder[i]? with
    | some r => decide (r.threshold ≤ lamQ)
    | none => false).foldl max 0

/-- The reading rate of a rung. -/
def rateOf (ladder : List Rung) (rung : Nat) : Nat := (ladder[rung]?.map (·.rate)).getD 0

/-- A quotient in whole numbers, rounded up (R135, Conventions). -/
def ceilDiv (a b : Nat) : Nat := (a + b - 1) / b

/-- Stage 5, the reading duration: n × F × 10 divided by r, rounded up (R135). -/
def stage5 (frameRate n r : Nat) : Nat := ceilDiv (n * frameRate * 10) r

/-- Stage 6, the duration: the smallest of d_max and the largest of d_min, d_read and the speech span (R136). -/
def stage6 (dMin dMax dRead span : Nat) : Nat := min dMax (max dMin (max dRead span))

/-- Stage 7, the scheduled end: T_on + d (R137). -/
def stage7 (tOn : Frame) (d : Nat) : Frame := plusFrames tOn d

/-- Stages 5 to 7 for a cue, from its recorded rung and T_on (R138): the duration-only form. -/
def Cue.durationOnly (cfg : Configuration) (c : Cue) : Cue :=
  let d := stage6 cfg.dMin cfg.dMax (stage5 cfg.frameRate c.n (rateOf cfg.ladder c.rung))
    (framesBetween c.e c.s)
  { c with d := d, tOff := stage7 c.tOn d }

/-- The full form of the computation with placement frame K (R130): `ahead` holds the records ahead of the
cue, the nearest first. -/
def Cue.compute (env : TimingEnv) (k : Frame) (ahead : List Cue) (c : Cue) : Cue :=
  let cfg := env.cfg
  let tIdeal := stage1 cfg.delay c.s
  let tOn := stage2 cfg.onsetGap cfg.dMin tIdeal k (ahead[0]?.map (·.tOn))
    (ahead[env.reff - 1]?.map (·.tOn))
  let lamQ := queueLateness tOn tIdeal k
  Cue.durationOnly cfg
    { c with
      k := k
      tIdeal := tIdeal
      tOn := tOn
      lamQ := lamQ
      lam := totalLateness tOn tIdeal
      rung := rungOf cfg.ladder lamQ }

/-- The recompute of some records with the records ahead of them, the nearest first: every PENDING one
again in the full form, reading the results just left; SHOWN ones keep their times (R148). -/
def recomputeFrom (env : TimingEnv) (k : Frame) : List Cue → List Cue → List Cue
  | _, [] => []
  | ahead, c :: rest =>
    let c' := if c.shown then c else c.compute env k ahead
    c' :: recomputeFrom env k (c' :: ahead) rest

/-- The recompute of a schedule's records with placement frame K (R148). -/
def recompute (env : TimingEnv) (k : Frame) (cs : List Cue) : List Cue := recomputeFrom env k [] cs

end Sys2Proof.Machine
end

