-- ==== Sys2Proof/Machine/Breaking.lean ====
section
/-! DEFINITION. Cue breaking (R124): the words of a segment, or of a record that a REPLACE took beyond the
row width, built into rows of at most W characters. -/

namespace Sys2Proof.Machine

/-- A text cut into pieces of w characters from its start, the last holding the remainder; the fuel
bounds the number of pieces (R124, step 3). -/
def cutText : Nat → Nat → Text → List Text
  | 0, _, t => [t]
  | fuel + 1, w, t => if t.length ≤ w then [t] else t.take w :: cutText fuel w (t.drop w)

/-- A word longer than w as its pieces, numbered from its own piece number, each with the word's speech
time and word index (R124, R143). -/
def cutWord (w : Nat) (word : TimedWord) : List TimedWord :=
  (cutText word.text.length w word.text).mapIdx fun j t => { word with text := t, piece := word.piece + j }

/-- The rows so far with the current row closed, if it holds any text. -/
def closeRow (rows : List (List TimedWord)) (cur : List TimedWord) : List (List TimedWord) :=
  if cur.isEmpty then rows else rows ++ [cur]

/-- Building rows of at most w characters: the rows closed so far, the current row, and the words still to
come (R124). A word of at most w joins the current row where it fits and otherwise begins a new one; a
longer word closes the current row, its full pieces are rows by themselves, and its last piece begins a row. -/
def buildRows (w : Nat) : List (List TimedWord) → List TimedWord → List TimedWord → List (List TimedWord)
  | rows, cur, [] => closeRow rows cur
  | rows, cur, word :: rest =>
    if word.text.length ≤ w then
      if cur.isEmpty || decide (rowLength (cur ++ [word]) ≤ w) then buildRows w rows (cur ++ [word]) rest
      else buildRows w (closeRow rows cur) [word] rest
    else
      let pieces := cutWord w word
      buildRows w (closeRow rows cur ++ pieces.dropLast.map fun p => [p]) pieces.getLast?.toList rest

/-- The rows a run of words is broken into (R124). -/
def breakRows (w : Nat) (ws : List TimedWord) : List (List TimedWord) := buildRows w [] [] ws

end Sys2Proof.Machine
end

