-- ==== Sys2Proof/Machine/Schedule.lean ====
section
/-! DEFINITION. The cue schedule (R143 to R157): placing cues, the overflow and catch-up drops, the
recompute, removals, and the pure part of the amends. -/

namespace Sys2Proof.Machine

/-- The most records the schedule holds (R144). -/
def scheduleCapacity : Nat := 64

/-- A cue as intake hands it over (R125); n, s and e are those of its words, and K is the placement frame. -/
structure NewCue where
  key : SegKey
  words : List TimedWord
  attrs : Attrs
  deriving DecidableEq, Repr

/-- What the engine reads at an event: the timing environment and the local frame count. -/
def State.timingEnv (s : State) : TimingEnv := ⟨s.cfg, rowsInEffect s.cfg s.screen.zone⟩

/-! ### Keys (R143, R144) -/

/-- The whole key of a record: source and segment number, the first word's index and its piece. -/
def Cue.fullKey (c : Cue) : Option (SegKey × Nat × Nat) :=
  match c.key, c.words.head? with
  | some k, some w => some (k, w.index, w.piece)
  | _, _ => none

/-- Any record holding the key that a new record's words begin has its key retired (R144, R145 step 1). -/
def retireKey (key : SegKey) (words : List TimedWord) (cs : List Cue) : List Cue :=
  match words.head? with
  | none => cs
  | some w => cs.map fun c => if c.fullKey = some (key, w.index, w.piece) then { c with key := none } else c

/-- Whether a record is one of the segment m of source x (R152, step 1). -/
def Cue.ofSegment (x : Station) (m : Byte) (c : Cue) : Bool := c.key == some ⟨x, m⟩

/-! ### Drops (R146, R147) -/

/-- The records without the oldest PENDING one other than a record to pass over; none where there is none. -/
def removeOldestPending (keep : Option Counter) : List Cue → Option (List Cue)
  | [] => none
  | c :: rest =>
    if !c.shown && some c.number != keep then some rest
    else (removeOldestPending keep rest).map (c :: ·)

/-- Room for a record that is about to join: in a full schedule the oldest PENDING record is dropped, the
drop counted, and the PENDING records recomputed (R146). Also the flags it sets. -/
def Schedule.makeRoom (env : TimingEnv) (now : Frame) (keep : Option Counter) (h : Schedule) :
    Schedule × FlagWord :=
  if h.cues.length < scheduleCapacity then (h, 0#24)
  else
    match removeOldestPending keep h.cues with
    | none => (h, 0#24)
    | some cs =>
      ({ h with cues := recompute env now cs, overflows := rise h.overflows 1 }, Flag.mask .outOverflow)

/-- The catch-up loop of R147 for the new cue, the last record: while its queue lateness exceeds λ_drop and
it is not the only PENDING record, the oldest PENDING record is dropped and the rest recomputed. The fuel
bounds the passes by the number of records. Also the flags it sets. -/
def Schedule.catchUp (env : TimingEnv) (now : Frame) : Nat → Schedule → Schedule × FlagWord
  | 0, h => (h, 0#24)
  | fuel + 1, h =>
    match h.cues.getLast? with
    | none => (h, 0#24)
    | some c =>
      if c.lamQ ≤ env.cfg.lamDrop then (h, 0#24)
      else
        match removeOldestPending (some c.number) h.cues with
        | none => (h, 0#24)
        | some cs =>
          let r := Schedule.catchUp env now fuel
            { h with cues := recompute env now cs, catchUps := rise h.catchUps 1 }
          (r.1, r.2 ||| Flag.mask .outCatchup)

/-! ### Placing (R145) -/

/-- The first and last speech times of some words. -/
def firstSpeech (ws : List TimedWord) (d : Frame) : Frame := (ws.head?.map (·.speech)).getD d

/-- The last speech time of some words. -/
def lastSpeech (ws : List TimedWord) (d : Frame) : Frame := (ws.getLast?.map (·.speech)).getD d

/-- A new record, before its computation. -/
def NewCue.record (n : Counter) (now : Frame) (c : NewCue) : Cue :=
  { number := n, key := some c.key, words := c.words, s := firstSpeech c.words now,
    e := lastSpeech c.words now, k := now, tIdeal := now, tOn := now, d := 0, tOff := now,
    rung := 0, lamQ := 0, lam := 0, shown := false, attrs := c.attrs }

/-- The placement of a cue from intake (R145): its key retired elsewhere, room made, the record made and
computed at the tail, and the catch-up drop where it is too late. Also the flags it sets. -/
def Schedule.place (env : TimingEnv) (now : Frame) (c : NewCue) (h : Schedule) : Schedule × FlagWord :=
  let h := { h with cues := retireKey c.key c.words h.cues }
  let (h, f1) := h.makeRoom env now none
  let r := (c.record h.nextCue now).compute env now h.cues.reverse
  let h := { h with cues := h.cues ++ [r], nextCue := h.nextCue + 1 }
  let (h, f2) := h.catchUp env now h.cues.length
  (h, f1 ||| f2)

/-- Cues placed one after another (R145). -/
def Schedule.placeAll (env : TimingEnv) (now : Frame) : List NewCue → Schedule → Schedule × FlagWord
  | [], h => (h, 0#24)
  | c :: cs, h =>
    let (h, f1) := h.place env now c
    let (h, f2) := Schedule.placeAll env now cs h
    (h, f1 ||| f2)

/-- Cues handed to the timing engine by intake, in order, at this event (R145). -/
def State.placeCues (cs : List NewCue) (s : State) : State :=
  let r := s.sched.placeAll s.timingEnv s.clock.count cs
  { s with sched := r.1 }.raiseMask r.2

/-- The recompute that an event calls for, with K equal to the local frame count (R148). -/
def State.recomputeNow (s : State) : State :=
  { s with sched.cues := recompute s.timingEnv s.clock.count s.sched.cues }

/-- The record of a cue number removed; the other records keep their order (R144, R150). -/
def Schedule.remove (n : Counter) (h : Schedule) : Schedule :=
  { h with cues := h.cues.filter (·.number != n) }

/-- The record of a cue number. -/
def Schedule.find (n : Counter) (h : Schedule) : Option Cue := h.cues.find? (·.number == n)

/-- One record changed. -/
def Schedule.update (n : Counter) (f : Cue → Cue) (h : Schedule) : Schedule :=
  { h with cues := h.cues.map fun c => if c.number = n then f c else c }

/-- A late amend counted (R123, R152). -/
def State.countLateAmend (s : State) : State :=
  { s with sched.lateAmends := rise s.sched.lateAmends 1 }.raise .outLateAmend

/-! ### Showing (R149) -/

/-- The first PENDING record, if the count has reached its onset (R149). -/
def Schedule.dueCue (now : Frame) (h : Schedule) : Option Cue :=
  match h.cues.find? (fun c => !c.shown) with
  | some c => if atOrAfter now c.tOn then some c else none
  | none => none

/-! ### The words of an amend (R152, R153) -/

/-- The last target index of an amend at word index i (R152). -/
def AmendOp.lastTarget (i : Nat) : AmendOp → Nat
  | .delete q => i + q.toNat - 1
  | .replace _ => i

/-- Whether a word is a target (R152, step 2). -/
def AmendOp.targets (i : Nat) (op : AmendOp) (w : TimedWord) : Bool :=
  decide (i ≤ w.index) && decide (w.index ≤ op.lastTarget i)

/-- A word that is no target, renumbered: an index above the last target falls by q for a DELETE and rises
by k − 1 for a REPLACE (R152, step 5). -/
def AmendOp.renumber (i : Nat) (op : AmendOp) (w : TimedWord) : TimedWord :=
  if w.index ≤ op.lastTarget i then w
  else
    match op with
    | .delete q => { w with index := w.index - q.toNat }
    | .replace ws => { w with index := w.index + ws.length - 1 }

/-- The replacement words of a REPLACE at index i: each the target's speech time, an index from i on, and
piece number 0 (R153). -/
def replacementWords (i : Nat) (ts : List Text) (w : TimedWord) : List TimedWord :=
  ts.mapIdx fun j t => ⟨t, w.speech, i + j, 0⟩

/-- A record's words with the amend applied and the others renumbered: a DELETE removes the targets; a
REPLACE puts its words in the place of the target's piece 0 and removes its piece 1 (R152, R153). -/
def AmendOp.apply (i : Nat) (op : AmendOp) (ws : List TimedWord) : List TimedWord :=
  ws.flatMap fun w =>
    if op.targets i w then
      match op with
      | .delete _ => []
      | .replace ts => if w.piece = 0 then replacementWords i ts w else []
    else [op.renumber i w]

/-- A record's words with the amend not applied and the others renumbered (R152, step 5). -/
def AmendOp.renumberAll (i : Nat) (op : AmendOp) (ws : List TimedWord) : List TimedWord :=
  ws.map fun w => if op.targets i w then w else op.renumber i w

/-- A cue record marked AMENDED with other words. -/
def Cue.amendWords (ws : List TimedWord) (c : Cue) : Cue :=
  { c with words := ws, attrs := { c.attrs with amended := true } }

/-! ### Re-breaking (R154) -/

/-- A record joined directly after the record of a cue number. -/
def joinAfter (n : Counter) (r : Cue) : List Cue → List Cue
  | [] => [r]
  | c :: rest => if c.number = n then c :: r :: rest else c :: joinAfter n r rest

/-- The row a further row joins after: the latest of the rows joined so far (latest first) that the overflow
drops have left, and otherwise the re-broken record itself, which they pass over (R144, R146, R154). -/
def Schedule.rowBefore (broken : Counter) (joined : List Counter) (h : Schedule) : Counter :=
  (joined.find? fun n => h.cues.any (·.number == n)).getD broken

/-- The further rows of a re-broken record joined after the record before them, in row order: each has its
key retired elsewhere, is given room with the re-broken record passed over, and takes the next cue number;
the recompute that follows gives its times (R154). The rows of a record whose key an earlier re-break of the same
amend has retired have no key (log entry 46). Also the flags it sets. -/
def Schedule.joinRows (env : TimingEnv) (now : Frame) (broken : Cue) :
    List Counter → List (List TimedWord) → Schedule → Schedule × FlagWord
  | _, [], h => (h, 0#24)
  | joined, row :: rows, h =>
    let h := match broken.key with
      | some k => { h with cues := retireKey k row h.cues }
      | none => h
    let (h, f1) := h.makeRoom env now (some broken.number)
    let r : Cue := { broken with
      number := h.nextCue, words := row, s := firstSpeech row now, e := lastSpeech row now,
      attrs := ⟨false, true, false⟩ }
    let h := { h with
      cues := joinAfter (h.rowBefore broken.number joined) r h.cues, nextCue := h.nextCue + 1 }
    let (h, f2) := Schedule.joinRows env now broken (r.number :: joined) rows h
    (h, f1 ||| f2)

/-- A PENDING record re-broken with its words after the replacement (R154), before the recompute that
follows. Also the flags it sets. -/
def Schedule.rebreak (env : TimingEnv) (now : Frame) (c : Cue) (ws : List TimedWord) (h : Schedule) :
    Schedule × FlagWord :=
  match breakRows env.cfg.rowWidth ws with
  | [] => (h, 0#24)
  | row :: rows =>
    let c' := { c.amendWords row with e := lastSpeech row c.e }
    (h.update c.number fun _ => c').joinRows env now c' [] rows

end Sys2Proof.Machine
end

