-- ==== Sys2Proof/Machine/Screen.lean ====
section
/-! DEFINITION. The screen unit and the inserter link (R158 to R167), the amends as they reach the schedule
and the screen (R152 to R156), and the four stages of a tick at the screen (R159). -/

namespace Sys2Proof.Machine

/-! ### The inserter link (R165) -/

/-- An order handed to the link (R165). Also the flags it sets. -/
def Link.hand (o : Order) (l : Link) : Link × FlagWord :=
  match l.sending with
  | none => ({ l with sending := some o }, 0#24)
  | some _ =>
    match l.waiting with
    | none => ({ l with waiting := some o }, 0#24)
    | some _ =>
      ({ l with waiting := some o, replaced := rise l.replaced 1 }, Flag.mask .outPageReplaced)

/-- The order being sent has been sent whole (R165); nothing is being sent while the start-up BLANK waits
for the line (R166). -/
def Link.orderSent (l : Link) : Link :=
  if l.startWait then l
  else
    match l.sending with
    | none => l
    | some _ => { l with sending := l.waiting, waiting := none, sent := rise l.sent 1 }

/-- The start-up BLANK handed at the start of LISTENING: it is the order being sent, and its sending waits
for the line to have been idle for two character times (R166). -/
def Link.startBlank (l : Link) : Link := { l with sending := some .blank, startWait := true }

/-! ### The visible list (R158 to R161) -/

/-- Whether a visible cue is the one of a cue number. -/
def VisibleCue.is (n : Counter) (v : VisibleCue) : Bool := v.number == n

/-- Some cues leave the screen, from the top down; each leaving is reported and its record removed (R150, R160). -/
def State.reportLeft (gone : List VisibleCue) (s : State) : State :=
  { s with sched := gone.foldl (fun h v => h.remove v.number) s.sched }

/-- Stage 2 of a tick (R159, R160): every countdown falls by one, and the cues that reach 0 leave. -/
def State.expireCues (s : State) : State :=
  let vs := s.screen.visible.map fun v => { v with countdown := v.countdown - 1 }
  let gone := vs.filter fun v => v.countdown == 0
  let s : State := { s with
    screen.visible := vs.filter fun v => v.countdown != 0
    screen.mark := s.screen.mark || !gone.isEmpty }
  s.reportLeft gone

/-- A shown cue joins the bottom of the list with its countdown loaded, the oldest scrolling off where the
list already holds R_eff cues (R160). -/
def State.joinVisible (c : Cue) (s : State) : State :=
  let cap := rowsInEffect s.cfg s.screen.zone
  let excess := s.screen.visible.length + 1 - cap
  let gone := s.screen.visible.take excess
  let s : State := { s with
    screen.visible := s.screen.visible.drop excess ++
      [⟨c.number, c.text, c.attrs, framesBetween c.tOff c.tOn⟩]
    screen.mark := true }
  s.reportLeft gone

/-- The schedule's comparison at a tick (R149): the first PENDING record whose onset the count has reached
becomes SHOWN. -/
def State.compareOnset (s : State) : State :=
  match s.sched.dueCue s.clock.count with
  | none => s
  | some c => { s with sched := s.sched.update c.number fun c => { c with shown := true } }

/-- The record that has become SHOWN and that the screen unit has not yet taken in. -/
def State.awaited (s : State) : Option Cue :=
  s.sched.cues.find? fun c => c.shown && !s.screen.visible.any (VisibleCue.is c.number)

/-- The show and stage 3 of a tick (R149, R159): the schedule's comparison, unless it has found a cue at this
tick already, and the shown cue is taken in. -/
def State.showDue (s : State) : State :=
  let s := if s.awaited.isSome then s else s.compareOnset
  match s.awaited with
  | none => s
  | some c => s.joinVisible c

/-- Take off (R161): the cue of an emptied record leaves at once, the mark is set, and its record is removed. -/
def State.takeOff (n : Counter) (s : State) : State :=
  { s with
    screen.visible := s.screen.visible.filter fun v => !v.is n
    screen.mark := true
    sched := s.sched.remove n }

/-- Rewrite (R161): a visible cue's text is replaced and AMENDED set on it, and the mark is set. -/
def State.rewriteVisible (n : Counter) (t : Text) (s : State) : State :=
  { s with
    screen.visible := s.screen.visible.map fun v =>
      if v.number = n then { v with text := t, attrs := { v.attrs with amended := true } } else v
    screen.mark := true }

/-! ### Zones (R162, R163) -/

/-- The zone the tally levels ask for (R162). -/
def zoneAsked (gzl gzu : Bool) : Zone :=
  if gzl then (if gzu then .conflict else .top) else .bottom

/-- Whether a zone change may be taken: none has been since the reset, or the zone hold has passed (R162). -/
def Screen.holdPassed (now : Frame) (hold : Nat) (c : Screen) : Bool :=
  match c.lastChange with
  | none => true
  | some f => decide ((hold : Int) ≤ interval now f)

/-- A zone change taken (R162). -/
def Screen.takeZone (z : Zone) (now : Frame) (c : Screen) : Screen :=
  { c with zone := z, lastChange := some now, mark := true, zoneChanges := rise c.zoneChanges 1 }

/-- Entering CONFLICT (R163): every visible cue but the newest leaves, OUT_ZONE_CONFLICT is set, the entry
is counted, and the PENDING records are recomputed under R_eff = 1. -/
def State.enterConflict (s : State) : State :=
  let excess := s.screen.visible.length - 1
  let gone := s.screen.visible.take excess
  let s : State := { s with
    screen.visible := s.screen.visible.drop excess
    screen.conflicts := rise s.screen.conflicts 1 }.raise .outZoneConflict
  (s.reportLeft gone).recomputeNow

/-- Stage 1 of a tick (R159, R162, R163): the zone from the levels of GZL and GZU. -/
def State.zoneStage (s : State) : State :=
  let asked := zoneAsked s.clock.gzl s.clock.gzu
  let old := s.screen.zone
  if asked = old || !s.screen.holdPassed s.clock.count s.cfg.zoneHold then s
  else
    let s : State := { s with screen := s.screen.takeZone asked s.clock.count }
    if asked = .conflict then s.enterConflict
    else if old = .conflict then s.recomputeNow
    else s

/-! ### Pages (R164) -/

/-- The PAGE that states the whole screen (R164). -/
def Screen.page (c : Screen) : Order := .page c.zone (c.visible.map fun v => ⟨v.attrs, v.text⟩)

/-- The order a set change mark composes: a PAGE, a BLANK, or none over a screen that is already clear (R164). -/
def Screen.composed (c : Screen) : Option Order :=
  if !c.visible.isEmpty then some c.page
  else if c.lastOrder = .blank then none
  else some .blank

/-- The kind of an order, as the last order composed. -/
def Order.last : Order → LastOrder
  | .page _ _ => .page
  | .blank => .blank

/-- An order composed and handed to the inserter link (R164, R165). -/
def State.handOrder (o : Order) (s : State) : State :=
  let r := s.link.hand o
  { s with screen.lastOrder := o.last, link := r.1 }.raiseMask r.2

/-- Stage 4 of a tick (R159, R164): with the change mark set, one order at most is composed and the mark
cleared. -/
def State.compose (s : State) : State :=
  if !s.screen.mark then s
  else
    let s : State := { s with screen.mark := false }
    match s.screen.composed with
    | some o => s.handOrder o
    | none => s

/-- The rest of a tick at the screen from a stage on. -/
def State.screenFrom3 (s : State) : State := { s.showDue.compose with screenDue := .done }

/-- Stages 2 to 4 of a tick at the screen. -/
def State.screenFrom2 (s : State) : State := s.expireCues.screenFrom3

/-! ### Amends at the output (R152 to R156) -/

/-- The course of an amend through the records it touches: the state, whether its application to a record
was refused or discarded, and whether a recompute is due at its end. -/
structure AmendCourse where
  state : State
  refused : Bool
  recompute : Bool
  deriving DecidableEq, Repr

/-- An amend applied to a SHOWN record, given the record's words with it applied (R156); `counted` is off
for a piece 1 whose piece 0 no record holds (R152). -/
def State.amendShown (c : Cue) (ws : List TimedWord) (counted : Bool) (s : State) : State × Bool :=
  if !s.cfg.visibleAmends then
    ((if counted then { s with sched.amendsDiscarded := rise s.sched.amendsDiscarded 1 } else s), true)
  else if ws.isEmpty then (s.takeOff c.number, false)
  else if s.cfg.rowWidth < rowLength ws then
    ({ s with sched.amendsRefused := rise s.sched.amendsRefused 1 }, true)
  else
    (State.rewriteVisible c.number (joinText (wordTexts ws))
      { s with sched := s.sched.update c.number (Cue.amendWords ws) }, false)

/-- An amend applied to a PENDING record, given the record's words with it applied: emptied (R155), in
place with the duration-only form (R153), or re-broken (R154). Also whether a recompute is due. No key is
retired but at the further rows of a re-break, which are new records (R144; log entry 39). -/
def State.amendPending (c : Cue) (ws : List TimedWord) (s : State) : State × Bool :=
  if ws.isEmpty then ({ s with sched := s.sched.remove c.number }, true)
  else if rowLength ws ≤ s.cfg.rowWidth then
    ({ s with sched := s.sched.update c.number fun c => (c.amendWords ws).durationOnly s.cfg }, false)
  else
    let r := s.sched.rebreak s.timingEnv s.clock.count c ws
    ({ s with sched := r.1 }.raiseMask r.2, true)

/-- One record of an amend's targets: its cue number, its words with the amend applied, and whether it
holds a whole target or piece 0 of one. -/
structure AmendTarget where
  number : Counter
  words : List TimedWord
  first : Bool
  deriving DecidableEq, Repr

/-- An amend applied to one record that holds a target word, by the rule of the record's place (R152, step
4). A record that holds only piece 1 of a REPLACE's target is left where the application to piece 0 was
refused or discarded. -/
def AmendCourse.step (anyFirst : Bool) (a : AmendCourse) (t : AmendTarget) : AmendCourse :=
  if !t.first && a.refused then a
  else
    match a.state.sched.find t.number with
    | none => a
    | some c =>
      if c.shown then
        let r := a.state.amendShown c t.words (t.first || anyFirst)
        { a with state := r.1, refused := a.refused || (t.first && r.2) }
      else
        let r := a.state.amendPending c t.words
        { a with state := r.1, recompute := a.recompute || r.2 }

/-- Whether a record holds a target of an amend that is whole, or the piece 0 of one; of a DELETE every
target counts so, since it removes each piece by itself (R152). -/
def AmendOp.holdsFirst (i : Nat) (op : AmendOp) (ws : List TimedWord) : Bool :=
  ws.any fun w => op.targets i w && match op with
    | .delete _ => true
    | .replace _ => w.piece == 0

/-- The records that hold a target word, in schedule order (R152, steps 1 to 3). -/
def Schedule.amendTargets (x : Station) (m : Byte) (i : Nat) (op : AmendOp) (h : Schedule) :
    List AmendTarget :=
  (h.cues.filter fun c => c.ofSegment x m && c.words.any (op.targets i)).map fun c =>
    ⟨c.number, op.apply i c.words, op.holdsFirst i c.words⟩

/-- Every record of the segment renumbered (R152, step 5). Where two numberings of one segment are held, or
where a DELETE discarded on a SHOWN record leaves its words their indices, two records can so come to one key,
and both keep it (log entry 39). -/
def Schedule.renumber (x : Station) (m : Byte) (i : Nat) (op : AmendOp) (h : Schedule) : Schedule :=
  { h with cues := h.cues.map fun c =>
      if c.ofSegment x m then { c with words := op.renumberAll i c.words } else c }

/-- An amend at the cue schedule (R152). The words of the segment's records that are no targets are
renumbered before the amend is applied, so that the keys compared in step 4 are those of the new
numbering (log entry 16). -/
def State.scheduleAmend (x : Station) (b : AmendBody) (s : State) : State :=
  let i := b.index.toNat
  let targets := s.sched.amendTargets x b.segment i b.op
  let s : State := { s with sched := s.sched.renumber x b.segment i b.op }
  if targets.isEmpty then s.countLateAmend
  else
    let anyFirst := targets.any (·.first)
    let r := targets.foldl (AmendCourse.step anyFirst) ⟨s, false, false⟩
    if r.recompute then r.state.recomputeNow else r.state

/-! ### The commands -/

/-- ORDER_SENT (R165). -/
def execOrderSent (s : State) : Result := .next { s with link := s.link.orderSent }

end Sys2Proof.Machine
end

