-- ==== Sys2Proof/Machine/Intake.lean ====
section
/-! DEFINITION. Intake (R112 to R126): taking segments by their mark, the hold list, trimming and the
merges, the armed trim, and the amends that reach a held segment. -/

namespace Sys2Proof.Machine

/-- The most segments the hold list holds (R112). -/
def holdCapacity : Nat := 6

/-- The most words a held segment holds (R112). -/
def heldWordCapacity : Nat := 32

/-! ### Speech times (R113) -/

/-- The words of a carried segment with their local speech times and word indices (R113). -/
def SegmentBody.timed (f : Frame) (b : SegmentBody) : List TimedWord :=
  let s0 := f - BitVec.ofNat 32 b.firstAge.toNat
  b.words.mapIdx fun i w => ⟨w.text, plusFrames s0 w.offset.toNat, i, 0⟩

/-- A carried segment as a record of intake's, received at a frame (R112, R113). -/
def SegmentBody.held (x : Station) (f : Frame) (b : SegmentBody) : HeldSegment :=
  ⟨x, b.number, b.newSpeaker, f, b.timed f⟩

/-! ### Going on (R114, R124, R125) -/

/-- The cues a segment is broken into: NEWSPK and TRIMMED stand on the first alone (R125). -/
def HeldSegment.cues (w : Nat) (trimmed : Bool) (g : HeldSegment) : List NewCue :=
  (breakRows w g.words).mapIdx fun j row =>
    ⟨⟨g.source, g.number⟩, row, ⟨g.newSpeaker && j == 0, false, trimmed && j == 0⟩⟩

/-- A segment goes on, its placement frame the local frame count: its cues are handed to the timing engine,
and an armed trim for another station ends (R114, R120). -/
def State.goOn (trimmed : Bool) (g : HeldSegment) (s : State) : State :=
  { s with intake.armed := s.intake.armed.filter fun a => a.station == g.source }.placeCues
    (g.cues s.cfg.rowWidth trimmed)

/-! ### Trimming (R119) -/

/-- Whether a word stays under a trim: its speech time is later than P + M (R119). -/
def survives (margin : Nat) (P : Frame) (w : TimedWord) : Bool := later w.speech (plusFrames P margin)

/-- A segment trimmed against P and sent on with the words that stay, the removed words counted (R119).
The answer of an emptied segment is that of `emptied`. -/
def State.trimAndGo (P : Frame) (emptied : State → State) (g : HeldSegment) (s : State) : State :=
  let kept := g.words.filter (survives s.cfg.trimMargin P)
  let removed := g.words.length - kept.length
  let s := { s with intake.trimmed := rise s.intake.trimmed removed }
  if kept.isEmpty then emptied s
  else s.goOn (decide (removed ≠ 0)) { g with words := kept }

/-- A held segment merged: trimmed where there is a trim point, and counted as emptied where every word
goes (R116 to R119). -/
def State.mergeHeld (P : Option Frame) (s : State) (g : HeldSegment) : State :=
  match P with
  | none => s.goOn false g
  | some P => s.trimAndGo P (fun s => { s with intake.emptied := rise s.intake.emptied 1 }) g

/-! ### Taking a segment (R114, R116) -/

/-- The outgoing last-word time where it belongs to a station (R116, R118). -/
def Intake.lastWordOf (h : Station) (k : Intake) : Option Frame :=
  (k.lastWord.filter fun m => m.station == h).map (·.time)

/-- A segment marked holder or outgoing sets the outgoing last-word time, as it was received (R114). -/
def State.stampLastWord (g : HeldSegment) (s : State) : State :=
  { s with intake.lastWord := some ⟨lastSpeech g.words g.rxFrame, g.source⟩ }

/-- A holder's segment under the armed trim (R114, R120): trimmed while its first word is at or before
P + M; the first later one goes on untouched and ends the trim. -/
def State.takeHolder (g : HeldSegment) (s : State) : State :=
  match s.intake.armed with
  | none => s.goOn false g
  | some a =>
    if a.station ≠ g.source then s.goOn false g
    else if later (firstSpeech g.words g.rxFrame) (plusFrames a.time s.cfg.trimMargin) then
      { s with intake.armed := none }.goOn false g
    else s.trimAndGo a.time id g

/-- A hold overflow: the oldest held segment is merged alone against the outgoing last-word time, where
that is the view's outgoing station's (R116). -/
def State.holdOverflow (s : State) : State :=
  match s.intake.hold with
  | [] => s
  | g :: rest =>
    let s := { s with
      intake.hold := rest
      intake.overflows := rise s.intake.overflows 1 }
    s.mergeHeld (s.floor.view.holder.bind fun h => s.intake.lastWordOf h) g

/-- A segment marked incoming joins the tail of the hold list (R116). -/
def State.takeIncoming (g : HeldSegment) (s : State) : State :=
  let s := if s.intake.hold.length < holdCapacity then s else s.holdOverflow
  { s with intake.hold := s.intake.hold ++ [g] }

/-- A SEGMENT taken by its mark (R114). -/
def State.takeSegment (x : Station) (b : SegmentBody) (m : Mark) (s : State) : State :=
  let g := b.held x s.clock.count
  match m with
  | .holder => (s.stampLastWord g).takeHolder g
  | .outgoing => (s.stampLastWord g).goOn false g
  | .incoming => s.takeIncoming g

/-! ### Overlap events (R115, R117, R118, R121) -/

/-- Every held segment merged in hold-list order, and the hold list left empty (R117, R118). -/
def State.mergeAll (P : Option Frame) (s : State) : State :=
  s.intake.hold.foldl (fun s g => s.mergeHeld P g) { s with intake.hold := [] }

/-- Trimming armed for the station that became holder, with the merge's trim point if it had one (R117,
R118, R120). -/
def State.arm (P : Option Frame) (t : Station) (s : State) : State :=
  { s with intake.armed := P.map fun P => ⟨P, t⟩ }

/-- One overlap event at intake: open (R115), release merge (R117), fallback merge (R118), discard (R121). -/
def State.takeIntakeEvent (s : State) (e : IntakeEvent) : State :=
  match e with
  | .opened h =>
    { s with
      intake.hold := []
      intake.armed := none
      intake.lastWord := s.intake.lastWord.filter fun m => m.station == h }
  | .releaseMerge _ t p =>
    let P := s.clock.count - BitVec.ofNat 32 p.toNat
    (s.mergeAll (some P)).arm (some P) t
  | .fallbackMerge h t =>
    let P := s.intake.lastWordOf h
    (s.mergeAll P).arm P t
  | .discard =>
    { s with
      intake.hold := []
      intake.armed := none
      intake.discarded := rise s.intake.discarded s.intake.hold.length }

/-! ### Amends at intake (R122, R123) -/

/-- The words of a held segment after an amend; none where it is not applied (R123). -/
def amendHeldWords (b : AmendBody) (ws : List TimedWord) : Option (List TimedWord) :=
  let i := b.index.toNat
  if !ws.any (fun w => w.index == i) then none
  else
    match b.op with
    | .delete _ =>
      let kept := ws.filter fun w => !b.op.targets i w
      let removed := ws.length - kept.length
      some (kept.map fun w => if i < w.index then { w with index := w.index - removed } else w)
    | .replace ts =>
      if heldWordCapacity < ws.length - 1 + ts.length then none
      else
        some (ws.flatMap fun w =>
          if w.index = i then replacementWords i ts w
          else if i < w.index then [{ w with index := w.index + ts.length - 1 }]
          else [w])

/-- The newest held segment from a station with a number, changed by a function that may drop it; none
where the list holds no such segment (R122). -/
def changeNewest (x : Station) (m : Byte) (f : HeldSegment → List HeldSegment) (hs : List HeldSegment) :
    List HeldSegment :=
  match hs.reverse.span fun g => !(g.source == x && g.number == m) with
  | (newer, g :: older) => older.reverse ++ f g ++ newer.reverse
  | (_, []) => hs

/-- The newest held segment from a station with a number (R122). -/
def Intake.heldSegment (x : Station) (m : Byte) (k : Intake) : Option HeldSegment :=
  k.hold.reverse.find? fun g => g.source == x && g.number == m

/-- A held segment with other words, or gone where it has none left (R123). -/
def HeldSegment.withWords (ws : List TimedWord) (g : HeldSegment) : List HeldSegment :=
  if ws.isEmpty then [] else [{ g with words := ws }]

/-- An AMEND at intake: applied to the held segment it names, and otherwise handed to the cue schedule (R122, R123). -/
def State.intakeAmend (x : Station) (b : AmendBody) (s : State) : State :=
  match s.intake.heldSegment x b.segment with
  | none => s.scheduleAmend x b
  | some g =>
    match amendHeldWords b g.words with
    | none => s.countLateAmend
    | some ws =>
      { s with intake.hold := changeNewest x b.segment (HeldSegment.withWords ws) s.intake.hold }

end Sys2Proof.Machine
end

