-- ==== Sys2Proof/Machine/Peers.lean ====
section
/-! DEFINITION. The peer table (R36 to R50): reception reports, learning and refreshing, the sequence
checks of beats and segments, and ageing. -/

namespace Sys2Proof.Machine

/-! ### Entries -/

/-- The peer entry of a station. -/
def State.peer (x : Station) (s : State) : PeerEntry := s.peers.entries[x]

/-- The peer entry of a station changed. -/
def State.updatePeer (x : Station) (f : PeerEntry → PeerEntry) (s : State) : State :=
  { s with peers.entries := s.peers.entries.set x (f (s.peer x)) }

/-! ### Reception reports (R32, R37, R38) -/

/-- The last outcome a grade gives (R37). -/
def Grade.outcome : Grade → LastOutcome
  | .clean => .clean
  | .corrected => .corrected
  | .marginal => .marginal

/-- A counter that rises by one where a condition holds. -/
def riseIf (c : Bool) (n : Counter) : Counter := if c then rise n 1 else n

/-- An entry made PRESENT at a reception frame (R38): refreshed where it was PRESENT; learned, with its
expected segment UNKNOWN, where it was ABSENT. -/
def PeerEntry.hear (now : Frame) (e : PeerEntry) : PeerEntry :=
  if e.present then { e with lastHeard := now }
  else { e with present := true, lastHeard := now, expected := none }

/-- An entry after an ACCEPTED report from its station (R37, R38). -/
def PeerEntry.accept (now : Frame) (g : Grade) (worst : Fin 4) (e : PeerEntry) : PeerEntry :=
  let e := e.hear now
  { e with
    lastOutcome := g.outcome
    worst := max e.worst worst
    counters := { e.counters with
      accepted := rise e.counters.accepted 1
      corrected := riseIf (g == .corrected) e.counters.corrected
      marginal := riseIf (g == .marginal) e.counters.marginal } }

/-- An entry after a MALFORMED report from its station (R37). -/
def PeerEntry.malform (worst : Fin 4) (e : PeerEntry) : PeerEntry :=
  { e with lastOutcome := .malformed, worst := max e.worst worst }

/-- An entry after a LOST report from its station (R37). -/
def PeerEntry.lose (e : PeerEntry) : PeerEntry :=
  { e with lastOutcome := .lost, counters := { e.counters with lost := rise e.counters.lost 1 } }

/-- The flags that a judgement sets (R29, R30). -/
def Judgement.flags : Judgement → FlagWord
  | .accepted _ g _ _ => flagIf (g == .marginal) .lineMarginal
  | .malformed _ g _ => flagIf (g == .marginal) .lineMarginal
  | .lost _ => Flag.mask .lineLost
  | .anonymous => Flag.mask .lineLost
  | .refused _ => Flag.mask .lineRefused
  | .oversize _ => Flag.mask .lineOversize

/-- The reception report taken by the peer table, with the flags the controller sets (R29 to R32, R37). -/
def State.report (j : Judgement) (s : State) : State :=
  let s := s.raiseMask j.flags
  match j with
  | .accepted x g w _ => s.updatePeer x (PeerEntry.accept s.clock.count g w)
  | .malformed x _ w =>
    let s := s.updatePeer x (PeerEntry.malform w)
    { s with peers.counters.malformed := rise s.peers.counters.malformed 1 }
  | .lost x => s.updatePeer x PeerEntry.lose
  | .anonymous => { s with peers.counters.anonymous := rise s.peers.counters.anonymous 1 }
  | .refused _ => { s with peers.counters.refused := rise s.peers.counters.refused 1 }
  | .oversize _ => { s with peers.counters.oversize := rise s.peers.counters.oversize 1 }

/-! ### Sequence (R45, R46) -/

/-- The number of segments a number is ahead of an expected one, modulo 256; 128 to 255 is behind. -/
def ahead (m expected : Byte) : Nat := (m - expected).toNat

/-- Segments missed from a station: its counter rises by that many and SEQ_GAP is set (R45, R46). -/
def State.countMissed (x : Station) (n : Nat) (s : State) : State :=
  (s.updatePeer x fun e => { e with counters := { e.counters with missed := rise e.counters.missed n } }).raise
    .seqGap

/-- The expected segment of a station set. -/
def State.expect (x : Station) (m : Byte) (s : State) : State :=
  s.updatePeer x fun e => { e with expected := some m }

/-- The comparison of a last segment number sent with the expected segment (R45; R59 for a RELEASE, with
the start flag taken as clear). -/
def State.compareLast (x : Station) (last : Byte) (start : Bool) (s : State) : State :=
  let next := last + 1#8
  match (s.peer x).expected with
  | none => s.expect x next
  | some e =>
    if start then s.expect x next
    else if ahead next e = 0 then s
    else if ahead next e < 128 then (s.countMissed x (ahead next e)).expect x next
    else s

/-- The sequence check of a SEGMENT (R46): the state it leaves, and whether the segment goes on. -/
def State.checkSequence (x : Station) (b : SegmentBody) (s : State) : State × Bool :=
  let next := b.number + 1#8
  match (s.peer x).expected with
  | none => (s.expect x next, true)
  | some e =>
    if b.restart then (s.expect x next, true)
    else if ahead b.number e = 0 then (s.expect x next, true)
    else if ahead b.number e < 128 then ((s.countMissed x (ahead b.number e)).expect x next, true)
    else
      (s.updatePeer x fun e =>
        { e with counters := { e.counters with stale := rise e.counters.stale 1 } }, false)

/-- A BEAT at the peer table: what it reports is recorded, and its last segment number compared (R44, R45). -/
def State.recordBeat (x : Station) (b : BeatBody) (s : State) : State :=
  (s.updatePeer x fun e => { e with
    role := some b.role, ready := some b.ready, view := some b.view
    reportedLast := some b.last }).compareLast x b.last b.start

/-- An AMEND counted at the peer table (R33, R48). -/
def State.countAmend (x : Station) (s : State) : State :=
  s.updatePeer x fun e => { e with counters := { e.counters with amends := rise e.counters.amends 1 } }

/-- An off-floor SEGMENT counted against its source (R48, R73). -/
def State.countOffFloor (x : Station) (s : State) : State :=
  s.updatePeer x fun e =>
    { e with counters := { e.counters with offFloor := rise e.counters.offFloor 1 } }

/-! ### Ageing (R40, R41) -/

/-- The peer timeout: k beat intervals of this station (R40). -/
def Configuration.peerTimeout (cfg : Configuration) : Nat := cfg.timeoutMultiple * cfg.beatInterval

/-- Whether an entry's silence exceeds the peer timeout (R40). -/
def State.agedOut (x : Station) (s : State) : Bool :=
  (s.peer x).present &&
    decide ((s.cfg.peerTimeout : Int) < interval s.clock.count (s.peer x).lastHeard)

/-- An entry that becomes ABSENT (R40). -/
def PeerEntry.forget (e : PeerEntry) : PeerEntry :=
  { e with
    present := false, role := none, ready := none, view := none, reportedLast := none
    expected := none }

/-- The passage of an entry from PRESENT to ABSENT, with PEER_GONE (R40, R41). -/
def State.forgetPeer (x : Station) (s : State) : State := (s.updatePeer x PeerEntry.forget).raise .peerGone

end Sys2Proof.Machine
end

