-- ==== Sys2Proof/Machine/FloorUnit.lean ====
section
/-! DEFINITION. The floor unit (R51 to R74): changes of view and what follows them, the five floor frames,
the implicit claim and the floor check, the two timers, GONE events, adoption and the split. -/

namespace Sys2Proof.Machine

/-! ### Changes of view (R53, R64, R65) -/

/-- The two timers after the view changes from one to a different one (R53). -/
def State.runFloorTimers (old new : View) (s : State) : State :=
  { s with
    lapse := if new.isOffered then some s.cfg.lapseInterval
      else if old.isOffered then none else s.lapse
    overlap := if new.isOverlap then some s.cfg.overlapLimit
      else if old.isOverlap then none else s.overlap }

/-- The overlap events of a change of view at intake, in OUTPUT and BOTH stations (R64). -/
def State.tellIntake (old new : View) (cause : ViewCause) (s : State) : State :=
  if s.hasOutput then (intakeEvents old new cause).foldl State.takeIntakeEvent s else s

/-- The lamp of an OUTPUT station at a change of view (R13). -/
def State.tellLamp (old new : View) (s : State) : State :=
  if s.cfg.role = .output then
    match outputTally old new with
    | some p => s.requestTally p
    | none => s
  else s

/-- A change of view with its cause: the view, the timers, intake, the lamp, and the writer port (R53, R64,
R65). Where an own frame makes the change, the port answers at that frame's end report (R34), which
follows at once. A view equal to the one held is no change. -/
def State.changeView (own : Bool) (new : View) (cause : ViewCause) (s : State) : State :=
  let old := s.floor.view
  if new = old then s
  else
    let s := { s with floor.view := new, floor.lapsed := false }.runFloorTimers old new
    let s := (s.tellIntake old new cause).tellLamp old new
    if own then s else s.portView old new cause

/-! ### Floor frames (R54 to R60) -/

/-- A stray floor frame (R54). -/
def State.strayFrame (s : State) : State :=
  { s with floor.strays := rise s.floor.strays 1 }.raise .floorStray

/-- A CLAIM from c (R55). -/
def State.takeClaim (own : Bool) (c : Station) (s : State) : State :=
  match s.floor.view with
  | .vacant => s.changeView own (.held c) .claim
  | _ => { s with floor.lateClaims := rise s.floor.lateClaims 1 }

/-- An OFFER that is taken: the view becomes OFFERED, and the lapse timer is loaded in full, also where a
re-offer names the same successor (R57). -/
def State.makeOffer (own : Bool) (h : Station) (sc : Successor) (s : State) : State :=
  let s := s.changeView own (.offered h sc) .offer
  { s with lapse := some s.cfg.lapseInterval, floor.lapsed := false }

/-- An OFFER from x (R57). A re-offer, under way when its offer lapsed at this frame, is stray in HELD (R61); one
that won the line after the lapse begins a fresh offer (R57, R88; log entry 32). -/
def State.takeOffer (own : Bool) (x : Station) (sc : Successor) (s : State) : State :=
  match s.floor.view with
  | .held h =>
    if x = h ∧ sc ≠ .station h ∧ s.floor.lapsed = false then s.makeOffer own h sc else s.strayFrame
  | .offered h _ => if x = h ∧ sc ≠ .station h then s.makeOffer own h sc else s.strayFrame
  | _ => s.strayFrame

/-- A TAKE from x naming hx (R58). -/
def State.takeTake (own : Bool) (x hx : Station) (s : State) : State :=
  match s.floor.view with
  | .offered h sc =>
    if hx = h ∧ x ≠ h ∧ (sc = .station x ∨ sc = .any) then s.changeView own (.overlap h x) .take
    else s.strayFrame
  | _ => s.strayFrame

/-- A RELEASE from x (R59): its last segment number is compared first, and then the overlap passes to the
incoming station. -/
def State.takeRelease (own : Bool) (x : Station) (p : Age) (m : Byte) (s : State) : State :=
  match s.floor.view with
  | .overlap h t =>
    if x = h then (s.compareLast h m false).changeView own (.held t) (.release p) else s.strayFrame
  | _ => s.strayFrame

/-- The view after a YIELD from x, or none where it is stray (R60). -/
def View.afterYield (x : Station) : View → Option View
  | .vacant => none
  | .held h => if x = h then some .vacant else none
  | .offered h _ => if x = h then some .vacant else none
  | .overlap h t => if x = h then some (.held t) else if x = t then some (.held h) else none

/-- A YIELD from x (R60). -/
def State.takeYield (own : Bool) (x : Station) (s : State) : State :=
  match s.floor.view.afterYield x with
  | some v => s.changeView own v (.yield x)
  | none => s.strayFrame

/-! ### Segments (R56, R72, R73) -/

/-- The implicit claim of a SEGMENT from x (R56). -/
def State.implicitClaim (own : Bool) (x : Station) (s : State) : State :=
  match s.floor.view with
  | .vacant => s.changeView own (.held x) .implicitClaim
  | _ => s

/-- A SEGMENT that is not stale (R56, R72, R73): the implicit claim, the floor check, and intake. -/
def State.segmentAtFloor (own : Bool) (x : Station) (b : SegmentBody) (s : State) : State :=
  let s := s.implicitClaim own x
  match s.floor.view.mark x with
  | none => s.countOffFloor x
  | some m => if s.hasOutput then s.takeSegment x b m else s

/-! ### Timer expiries (R61, R62) -/

/-- An offer lapses: OFFERED returns to HELD, and FLOOR_LAPSE is set. A re-offer under way at the expiry that ends
still at this frame is stray (R61; log entry 32). -/
def State.lapseOffer (s : State) : State :=
  match s.floor.view with
  | .offered h _ => { (s.changeView false (.held h) .lapse).raise .floorLapse with floor.lapsed := true }
  | _ => s

/-- The present tick at the lapse timer, where it has still to take it (R6, R7): the count falls by one, and
at 0 the timer expires (R61). -/
def State.lapseExpiry (s : State) : State :=
  if s.ticksDue.lapse then
    let s := { s with ticksDue.lapse := false, lapse := s.lapse.tick }
    if s.lapse.due then { s with lapse := none }.lapseOffer else s
  else s

/-- An overlap reaches its limit: the view becomes HELD of the incoming station (R62). -/
def State.endOverlap (s : State) : State :=
  match s.floor.view with
  | .overlap _ t => s.changeView false (.held t) .overlapTimer
  | _ => s

/-- The present tick at the overlap timer, where it has still to take it (R6, R7): the count falls by one,
and at 0 the timer expires (R62). -/
def State.overlapExpiry (s : State) : State :=
  if s.ticksDue.overlap then
    let s := { s with ticksDue.overlap := false, overlap := s.overlap.tick }
    if s.overlap.due then { s with overlap := none }.endOverlap else s
  else s

/-! ### Loss of a station (R63) -/

/-- The view after a GONE event for x (R63). -/
def View.afterGone (x : Station) : View → View
  | .vacant => .vacant
  | .held h => if x = h then .vacant else .held h
  | .offered h sc => if x = h then .vacant else .offered h sc
  | .overlap h t => if x = h then .held t else if x = t then .held h else .overlap h t

/-- A GONE event for x (R63). -/
def State.takeGone (x : Station) (s : State) : State :=
  s.changeView false (s.floor.view.afterGone x) (.gone x)

/-- The ageing of one entry (R40, R41): an entry whose silence exceeds the peer timeout becomes ABSENT, and
the floor unit takes its GONE event. -/
def State.ageOut (x : Station) (s : State) : State :=
  if s.agedOut x then (s.forgetPeer x).takeGone x else s

/-! ### Beats (R66 to R71) -/

/-- The view a station adopts for a reported one: an OVERLAP whose incoming station is ABSENT here gives
HELD of its holder, the one exception of R66. An OVERLAP whose holder is another station than the sender,
and ABSENT here, is adopted as it stands, though R51 has both its stations present (log entry 37). -/
def State.adoptable (v : View) (s : State) : View :=
  match v with
  | .overlap h t => if (s.peer t).present then v else .held h
  | _ => v

/-- An adoption (R66, R68): one that gives the view already held changes and counts nothing. -/
def State.adopt (v : View) (cause : ViewCause) (s : State) : State :=
  let v := s.adoptable v
  if v = s.floor.view then s
  else { s with floor.adoptions := rise s.floor.adoptions 1 }.changeView false v cause

/-- A BEAT from y at the floor unit (R66, R67, R70): an own beat goes no further; a split with a lower
station is yielded; the authority's view is adopted, and into a vacant view that of a beat naming its
sender as holder. At the incoming station itself, once its overlap timer has made it holder, a beat of a
lower outgoing station that still reports the OVERLAP is a split (R70), where R69 says the beat is not
adopted (log entry 34). -/
def State.beatAtFloor (y : Station) (b : BeatBody) (s : State) : State :=
  if y = s.number then s
  else
    match s.floor.view.holder with
    | none => if b.view.heldBy y then s.adopt b.view .adoption else s
    | some h =>
      if h = s.number then
        if b.view.heldBy y && decide (y.val < s.number.val) then
          (s.adopt b.view .split).raise .floorSplit
        else s
      else if h = y then s.adopt b.view .adoption
      else s

end Sys2Proof.Machine
end

