-- ==== Sys2Proof/Machine/Reception.lean ====
section
/-! DEFINITION. The end of a frame at the receiver (R28 to R34): its judgement, its report, its dispatch,
and the end report of an own frame. -/

namespace Sys2Proof.Machine

/-- The dispatch of an accepted frame by its kind (R33). -/
def State.dispatch (own : Bool) (x : Station) (b : FrameBody) (s : State) : State :=
  match b with
  | .claim => s.takeClaim own x
  | .offer sc => s.takeOffer own x sc
  | .take h => s.takeTake own x h
  | .release p m => s.takeRelease own x p m
  | .yield => s.takeYield own x
  | .amend a =>
    let s := s.countAmend x
    if s.hasOutput then s.intakeAmend x a else s
  | .segment g =>
    match s.checkSequence x g with
    | (s, true) => s.segmentAtFloor own x g
    | (s, false) => s
  | .beat a => (s.recordBeat x a).beatAtFloor x a

/-- The own frame whose end a judgement is: the one in flight, where the judgement names this station or,
ANONYMOUS, names none (R34). -/
def State.ownFrame (j : Judgement) (s : State) : Option InFlight :=
  if j.source? = none ∨ j.source? = some s.number then s.line.inFlight else none

/-- Another station's frame leaves the line: a win not yet counted against a queued beat is counted, but for
an ANONYMOUS frame, whose arbitration field may have been cut (R25, R35). -/
def State.foreignEnd (j : Judgement) (s : State) : State :=
  let s := if s.line.winCounted || j == .anonymous then s else s.countBeatLoss
  { s with line.foreign := false, line.winCounted := false }

/-- The report of a judged frame and, where it was accepted, its dispatch (R32, R33). -/
def State.takeJudged (own : Bool) (j : Judgement) (s : State) : State :=
  let s := s.report j
  match j with
  | .accepted x _ _ b => s.dispatch own x b
  | _ => s

/-- A frame's end: everything the receiver decides about it is decided here (R28). -/
def State.frameEnd (j : Judgement) (readback : Bool) (s : State) : State :=
  if !s.receiving then s
  else
    match s.ownFrame j with
    | some f =>
      let before := s.floor.view
      ((s.readbackInFlight readback).takeJudged true j).endReport f before
    | none => (s.foreignEnd j).takeJudged false j

/-- A frame end with its body read (R29 to R34). -/
def State.receive (rx : Rx) (b : FrameBody) (s : State) : State :=
  s.frameEnd (judgeBody s.cfg s.number rx b) rx.readback

/-- A raw frame end (R28 to R34, R175). -/
def State.receiveRaw (raw : RawFrame) (s : State) : State :=
  s.frameEnd (judgeRaw s.cfg s.number raw) raw.readback

/-! ### The commands -/

/-- FRAME_NOT_ACCEPTED (R28 to R32): a raw frame end, judged by the receiver. -/
def execFrameNotAccepted (raw : RawFrame) (s : State) : Result := .next (s.receiveRaw raw)

/-- BEAT_RECEIVED (R44, R45, R66, R70). -/
def execBeatReceived (rx : Rx) (b : BeatBody) (s : State) : Result := .next (s.receive rx (.beat b))

/-- CLAIM_RECEIVED (R55). -/
def execClaimReceived (rx : Rx) (s : State) : Result := .next (s.receive rx .claim)

/-- OFFER_RECEIVED (R57). -/
def execOfferReceived (rx : Rx) (sc : Successor) (s : State) : Result := .next (s.receive rx (.offer sc))

/-- TAKE_RECEIVED (R58). -/
def execTakeReceived (rx : Rx) (h : Station) (s : State) : Result := .next (s.receive rx (.take h))

/-- RELEASE_RECEIVED (R59). -/
def execReleaseReceived (rx : Rx) (point : Age) (last : Byte) (s : State) : Result := .next (s.receive rx (.release point last))

/-- YIELD_RECEIVED (R60). -/
def execYieldReceived (rx : Rx) (s : State) : Result := .next (s.receive rx .yield)

/-- SEGMENT_RECEIVED (R46, R56, R72, R113). -/
def execSegmentReceived (rx : Rx) (b : SegmentBody) (s : State) : Result := .next (s.receive rx (.segment b))

/-- AMEND_RECEIVED (R122, R152). -/
def execAmendReceived (rx : Rx) (b : AmendBody) (s : State) : Result := .next (s.receive rx (.amend b))

end Sys2Proof.Machine
end

