-- ==== Sys2Proof/Machine/Startup.lean ====
section
/-! DEFINITION. Start-up and resets (R168 to R170) and the configuration image (R129, R169, Formats): its
layout both ways, its checks, the four steps of forming the configuration in force, and the entry into
LISTENING. -/

namespace Sys2Proof.Machine

/-! ### Codes of the image (Formats) -/

/-- The code of an FP edge. -/
def FpEdge.byte : FpEdge → Byte
  | .rising => 0#8
  | .falling => 1#8

/-- The code of a line rate. -/
def LineRate.byte : LineRate → Byte
  | .kbaud500 => 0#8
  | .mbaud1 => 1#8
  | .mbaud2 => 2#8

/-- The code of a link rate. -/
def LinkRate.byte : LinkRate → Byte
  | .baud9600 => 0#8
  | .baud19200 => 1#8
  | .baud38400 => 2#8
  | .baud57600 => 3#8
  | .baud115200 => 4#8

/-- The code of an amend weight; 0 is STRICT. -/
def AmendWeight.byte : AmendWeight → Byte
  | .ratio w => BitVec.ofNat 8 w
  | .strict => 0#8

/-- A switch's byte. -/
def switchByte (b : Bool) : Byte := if b then 1#8 else 0#8

/-! ### Values (Formats, R169) -/

/-- A one-byte number. -/
def byteOf (n : Nat) : Byte := BitVec.ofNat 8 n

/-- The 69 value bytes of a configuration, in image order (Formats). -/
def Configuration.values (c : Configuration) : List Byte :=
  [roleByte c.role, byteOf c.frameRate, c.fpEdge.byte, byteOf c.tallyPeriod, c.lineRate.byte,
    byteOf c.maxBody, c.admission, byteOf c.quality, c.amendWeight.byte, byteOf c.beatInterval,
    byteOf c.timeoutMultiple] ++
  beBytes16 c.lapseInterval ++ beBytes16 c.overlapLimit ++
  [switchByte c.autoClaim, c.writerRate.byte, byteOf c.writerLag, byteOf c.pauseInterval,
    byteOf c.softLimit, byteOf c.hardLimit, byteOf c.trimMargin, byteOf c.rowWidth] ++
  beBytes16 c.delay ++
  [byteOf c.onsetGap, byteOf c.dMin, byteOf c.dMax] ++
  (c.ladder.flatMap fun r => beBytes16 r.threshold ++ beBytes16 r.rate) ++
  [byteOf c.rows] ++ beBytes16 c.lamDrop ++
  [switchByte c.visibleAmends, byteOf c.zoneHold, c.inserterRate.byte,
    c.alertMask.extractLsb' 16 8, c.alertMask.extractLsb' 8 8, c.alertMask.extractLsb' 0 8]

/-- A number outside its range is set to the nearer end (R169, step 1). -/
def clamp (lo hi n : Nat) : Nat := if n < lo then lo else if hi < n then hi else n

/-- A value that must be one of a set, and is not, takes its default (R169, step 1). -/
def oneOf (set : List Nat) (dflt n : Nat) : Nat := if set.contains n then n else dflt

/-- A role code; OUTPUT outside its set (R169). -/
def roleOf (b : Byte) : Role := (byteRole b).getD .output

/-- An edge code; rising outside its set (R169). -/
def edgeOf (b : Byte) : FpEdge := if b = 1#8 then .falling else .rising

/-- A line rate code; 1 Mbaud outside its set (R169). -/
def lineRateOf (b : Byte) : LineRate :=
  if b = 0#8 then .kbaud500 else if b = 2#8 then .mbaud2 else .mbaud1

/-- A link rate code; 38400 outside its set (R169). -/
def linkRateOf (b : Byte) : LinkRate :=
  if b = 0#8 then .baud9600
  else if b = 1#8 then .baud19200
  else if b = 3#8 then .baud57600
  else if b = 4#8 then .baud115200
  else .baud38400

/-- An amend weight code; 2 outside its set (R169). -/
def weightOf (b : Byte) : AmendWeight :=
  if b = 0#8 then .strict
  else if b = 1#8 then .ratio 1
  else if b = 4#8 then .ratio 4
  else .ratio 2

/-- A switch byte, its default outside 0 and 1 (R169). -/
def switchOf (dflt : Bool) (b : Byte) : Bool :=
  if b = 0#8 then false else if b = 1#8 then true else dflt

/-! ### The ladder (R129) -/

/-- Steps 3 and 4 of R129: from rung 1 on, a threshold or a rate below the rung before is raised to it. -/
def raiseLadder : Rung → List Rung → List Rung
  | _, [] => []
  | p, r :: rest =>
    let r' : Rung := ⟨max p.threshold r.threshold, max p.rate r.rate⟩
    r' :: raiseLadder r' rest

/-- The ladder in force from the configured ladder (R129): ranges, rung 0, thresholds, rates. -/
def normaliseLadder (l : List Rung) : List Rung :=
  match l.map fun r => (⟨clamp 0 1500 r.threshold, clamp 80 400 r.rate⟩ : Rung) with
  | [] => []
  | r :: rest => let r0 : Rung := { r with threshold := 0 }; r0 :: raiseLadder r0 rest

/-! ### Forming the configuration in force (R169) -/

/-- The byte at a place of some values; a byte that is not there reads as all ones. -/
def valueAt (vs : List Byte) (i : Nat) : Byte := vs.getD i 255#8

/-- The one-byte number at a place. -/
def natAt (vs : List Byte) (i : Nat) : Nat := (valueAt vs i).toNat

/-- The two-byte number at a place. -/
def wordAt (vs : List Byte) (i : Nat) : Nat := ofBytes16 (valueAt vs i) (valueAt vs (i + 1))

/-- The eight rungs of the configured ladder (Formats). -/
def configuredLadder (vs : List Byte) : List Rung :=
  (List.range 8).map fun j => ⟨wordAt vs (28 + 4 * j), wordAt vs (30 + 4 * j)⟩

/-- Step 1 of R169: each value read from its place in the image and brought into its range or set, and the
ladder normalised. -/
def rangeStep (vs : List Byte) : Configuration :=
  { role := roleOf (valueAt vs 0)
    frameRate := oneOf [25, 30] 25 (natAt vs 1)
    fpEdge := edgeOf (valueAt vs 2)
    tallyPeriod := clamp 10 50 (natAt vs 3)
    lineRate := lineRateOf (valueAt vs 4)
    maxBody := oneOf [96, 192] 192 (natAt vs 5)
    admission := valueAt vs 6
    quality := clamp 1 3 (natAt vs 7)
    amendWeight := weightOf (valueAt vs 8)
    beatInterval := clamp 10 50 (natAt vs 9)
    timeoutMultiple := clamp 3 8 (natAt vs 10)
    lapseInterval := clamp 50 500 (wordAt vs 11)
    overlapLimit := clamp 250 1500 (wordAt vs 13)
    autoClaim := switchOf false (valueAt vs 15)
    writerRate := linkRateOf (valueAt vs 16)
    writerLag := clamp 0 250 (natAt vs 17)
    pauseInterval := clamp 10 100 (natAt vs 18)
    softLimit := clamp 40 120 (natAt vs 19)
    hardLimit := clamp 60 140 (natAt vs 20)
    trimMargin := clamp 0 50 (natAt vs 21)
    rowWidth := clamp 30 42 (natAt vs 22)
    delay := clamp 0 1500 (wordAt vs 23)
    onsetGap := clamp 2 25 (natAt vs 25)
    dMin := clamp 10 100 (natAt vs 26)
    dMax := clamp 50 250 (natAt vs 27)
    ladder := normaliseLadder (configuredLadder vs)
    rows := oneOf [2, 3] 2 (natAt vs 60)
    lamDrop := clamp 50 1500 (wordAt vs 61)
    visibleAmends := switchOf true (valueAt vs 63)
    zoneHold := clamp 0 50 (natAt vs 64)
    inserterRate := linkRateOf (valueAt vs 65)
    alertMask := valueAt vs 66 ++ valueAt vs 67 ++ valueAt vs 68 }

/-- Step 2 of R169: d_max below d_min is raised to it. -/
def durationStep (c : Configuration) : Configuration := { c with dMax := max c.dMin c.dMax }

/-- Step 3 of R169: a hard limit below the soft limit is raised to it. -/
def limitStep (c : Configuration) : Configuration := { c with hardLimit := max c.softLimit c.hardLimit }

/-- Step 4 of R169: the hard limit is lowered to the maximum body length less 46, and then the soft limit
to the hard limit. -/
def bodyStep (c : Configuration) : Configuration :=
  let hard := min c.hardLimit (c.maxBody - 46)
  { c with hardLimit := hard, softLimit := min c.softLimit hard }

/-- The configuration of an accepted image's values, and whether any step changed a value (R169). -/
def formConfiguration (vs : List Byte) : Configuration × Bool :=
  let c1 := rangeStep vs
  let c2 := durationStep c1
  let c3 := limitStep c2
  let c4 := bodyStep c3
  (c4, c1.values != vs || c2 != c1 || c3 != c2 || c4 != c3)

/-! ### The image (R169, Formats) -/

/-- The number of bytes of the image (Formats). -/
def imageLength : Nat := 73

/-- The sum byte over some bytes (Formats). -/
def sumBytes (bs : List Byte) : Byte := bs.foldl (· + ·) 0#8

/-- The 73 bytes read from the memory's first byte on; what the memory does not answer reads as all ones (R169). -/
def readImage (image : List Byte) : List Byte := (image ++ List.replicate imageLength 255#8).take imageLength

/-- Whether an image is accepted: its identifier, its length and its sum (R169, Formats). -/
def imageAccepted (bs : List Byte) : Bool :=
  valueAt bs 0 == 166#8 && valueAt bs 1 == 22#8 && valueAt bs 2 == 69#8 &&
    sumBytes (bs.take 72) == valueAt bs 72

/-- The value bytes of an image. -/
def imageValues (bs : List Byte) : List Byte := (bs.drop 3).take 69

/-- The configuration in force and its load result, from what the memory answers (R169). -/
def loadImage (image : List Byte) : Configuration × LoadResult :=
  let bs := readImage image
  if imageAccepted bs then
    let r := formConfiguration (imageValues bs)
    (r.1, ⟨false, r.2⟩)
  else (Configuration.default, ⟨true, false⟩)

/-- The image of a configuration (Formats). -/
def Configuration.image (c : Configuration) : List Byte :=
  let head := [166#8, 22#8, 69#8] ++ c.values
  head ++ [sumBytes head]

/-! ### Start states and resets (R168, R170) -/

/-- The listen count at the entry into LISTENING: two beat intervals (R168). -/
def Configuration.listenSpan (cfg : Configuration) : Nat := 2 * cfg.beatInterval

/-- The entry into LISTENING (R75, R166, R168): the listen count, the BLANK handed to the inserter link in
OUTPUT and BOTH stations, and the STATE notice giving ABSENT in WRITER and BOTH stations. -/
def State.enterListening (s : State) : State :=
  let s := { s with start := .listening, listenCount := s.cfg.listenSpan }
  let s := if s.hasOutput then { s with link := s.link.startBlank, screen.lastOrder := .blank } else s
  if s.hasWriter then s.notify (.state .absent) else s

/-- Power applied: LOADING with every block reset, and the straps read once (R168, R170). -/
def State.powerOn (straps : Station) (s : State) : State :=
  State.blank straps .default ⟨false, false⟩ s.pending

/-- RESETn asserted: every block reset, the station held at the start of LOADING; the number, configuration
and load result stand until the next LOADING replaces them (R168 to R170). -/
def State.assertReset (s : State) : State :=
  { State.blank s.number s.cfg s.load s.pending with resetHeld := true }

/-- RESETn released: LOADING begins, and the straps are read once (R168). -/
def State.releaseReset (straps : Station) (s : State) : State :=
  if s.resetHeld then State.blank straps s.cfg s.load s.pending else s

/-- The image read completes in LOADING: the configuration in force, the load result and its flags, and the
entry into LISTENING (R168, R169). -/
def State.loadConfiguration (image : List Byte) (s : State) : State :=
  if s.start = .loading ∧ s.resetHeld = false then
    let r := loadImage image
    State.enterListening
      ({ s with cfg := r.1, load := r.2 }.raiseMask
        (flagIf r.2.defaultsUsed .cfgDefault ||| flagIf r.2.clamped .cfgClamped))
  else s

/-- The restart that a supervisory RESTART brings (R170): every block reset, the number, configuration and
load result kept, and LISTENING entered directly. -/
def State.restartStation (s : State) : State :=
  (State.blank s.number s.cfg s.load s.pending).enterListening

/-- The start-up BLANK begins, the inserter line having been idle for two character times (R166). -/
def State.beginBlank (s : State) : State := { s with link.startWait := false }

/-! ### The commands -/

/-- POWER_ON (R168, R170). -/
def execPowerOn (straps : Station) (s : State) : Result := .next (s.powerOn straps)

/-- RESETN_ASSERTION (R168, R170). -/
def execResetnAssertion (s : State) : Result := .next s.assertReset

/-- RESETN_RELEASE (R168). -/
def execResetnRelease (straps : Station) (s : State) : Result := .next (s.releaseReset straps)

/-- IMAGE_LOADED (R168, R169). -/
def execImageLoaded (image : List Byte) (s : State) : Result := .next (s.loadConfiguration image)

/-- STARTUP_BLANK_BEGINS (R166). -/
def execStartupBlankBegins (s : State) : Result := .next s.beginBlank

end Sys2Proof.Machine
end

