-- ==== Sys2Proof/Machine/Tick.lean ====
section
/-! DEFINITION. The frame tick (R1 to R4, R6 to R12, R40, R42, R97, R159, R168): the count, the timers, and
the pieces of one tick's work, each taken in the tick's step or left to a step of its own. -/

namespace Sys2Proof.Machine

/-- Whether the station is out of LOADING and not held in reset, so that its clock runs (R2, R168). -/
def State.live (s : State) : Bool := s.start != .loading && !s.resetHeld

/-! ### The pieces of a tick's work -/

/-- The end of the on part of a blink period (R10). -/
def State.onPartEnd (s : State) : State := { s with tally := s.tally.endOnPart }

/-- The blink timer's expiry, taken where the timer has reached 0 (R11). -/
def State.blinkExpiry (s : State) : State :=
  if s.tally.timer.due then { s with tally := s.tally.expire } else s

/-- The beat timer's expiry, taken where the timer has reached 0 (R8, R42). -/
def State.beatExpiry (s : State) : State :=
  if s.beatTimer.due then { s with beatTimer := s.beatTimer.reload }.depositBeat else s

/-- The entry into RUNNING, taken in LISTENING where the listen count has reached 0 (R42, R94, R168). -/
def State.enterRunning (s : State) : State :=
  if s.start = .listening ∧ s.listenCount = 0 then
    (State.depositBeat { s with
      start := .running
      beatTimer := .start s.cfg.beatInterval }).autoClaim
  else s

/-- The eight station numbers in their order. -/
def allStations : List Station := [0, 1, 2, 3, 4, 5, 6, 7]

/-- The check of every entry at a tick (R40). -/
def State.ageAll (s : State) : State := allStations.foldl (fun s x => s.ageOut x) s

/-- One piece of a tick's work outside the screen; the screen's pieces go by their stages. -/
def State.perform (e : TickEvent) (s : State) : State :=
  match e with
  | .tallyOnPartEnd => s.onPartEnd
  | .tallyBlink => s.blinkExpiry
  | .pause => s.pauseExpiry
  | .lapse => s.lapseExpiry
  | .overlap => s.overlapExpiry
  | .beat => s.beatExpiry
  | .running => s.enterRunning
  | .peerAgeOut => s.ageAll
  | .cueExpires => s
  | .showCue => s
  | .zone => s

/-- The order in which a tick's step takes the pieces it is not told to leave; the manual gives them none
(log entry 6). -/
def tickOrder : List TickEvent :=
  [.tallyOnPartEnd, .tallyBlink, .pause, .lapse, .overlap, .beat, .running, .peerAgeOut]

/-- The pieces outside the screen that are not left to later steps. -/
def State.tickWork (left : List TickEvent) (s : State) : State :=
  (tickOrder.filter fun e => !left.contains e).foldl (fun s e => s.perform e) s

/-! ### The screen's stages (R159) -/

/-- The stages of the screen that a tick left, in their order. -/
def State.screenSettle (s : State) : State :=
  match s.screenDue with
  | .done => s
  | .expiry => s.screenFrom2
  | .expiryThenShow => s.screenFrom2
  | .showing => s.screenFrom3

/-- Stage 1 and, in either order with it, the schedule's comparison (R148, R149, R162). -/
def State.screenStage1 (left : List TickEvent) (s : State) : State :=
  if left.contains .zone then s.compareOnset.zoneStage else s.zoneStage

/-- A tick at the screen, in OUTPUT and BOTH stations (R158, R159): stage 1, and the stages after it up to
the first that is left to a later step. -/
def State.screenTick (left : List TickEvent) (s : State) : State :=
  if !s.hasOutput then s
  else
    let s := s.screenStage1 left
    if left.contains .cueExpires then
      { s with screenDue := if left.contains .showCue then .expiryThenShow else .expiry }
    else if left.contains .showCue then { s.expireCues with screenDue := .showing }
    else s.screenFrom2

/-- CUE_EXPIRES: the stages of the present tick that it completes (R159, R160). -/
def State.cueExpiry (s : State) : State :=
  match s.screenDue with
  | .expiry => s.screenFrom2
  | .expiryThenShow => { s.expireCues with screenDue := .showing }
  | _ => s

/-- All of the present tick's work that is still outstanding, in the tick's order. -/
def State.settle (s : State) : State := (s.tickWork []).screenSettle

/-! ### The tick -/

/-- The count, the tally levels, the continuous timers and the listen count at a tick; each one-shot timer has
the tick to take, and a lapse is no longer of this frame (R1, R6 to R8, R10, R61, R162, R168). -/
def State.advance (gzl gzu : Bool) (s : State) : State :=
  { s with
    clock := { s.clock with count := s.clock.count + 1#32, gzl := gzl, gzu := gzu }
    ticksDue := ⟨true, true, true⟩
    beatTimer := s.beatTimer.tick
    tally := s.tally.tick
    floor := { s.floor with lapsed := false }
    listenCount := if s.start = .listening then s.listenCount - 1 else s.listenCount }

/-- One frame tick: the work of the tick before is complete before the count rises. -/
def State.tick (gzl gzu : Bool) (left : List TickEvent) (s : State) : State :=
  ((s.settle.advance gzl gzu).tickWork left).screenTick left

/-- A reference state taken. -/
def State.withRef (r : RefState) (s : State) : State := { s with clock := { s.clock with ref := r } }

/-- An edge of FP (R1, R2, R4): ignored in LOADING and on the edge not selected; a frame tick otherwise,
which returns the reference state to LOCKED. -/
def State.fpEdge (e : FpEdge) (gzl gzu : Bool) (left : List TickEvent) (s : State) : State :=
  if s.live && e == s.cfg.fpEdge then (s.withRef .locked).tick gzl gzu left else s

/-- The loss watch runs out in LOCKED (R3): FLYWHEEL, REF_LOSS and the entry tick. -/
def State.loseReference (gzl gzu : Bool) (left : List TickEvent) (s : State) : State :=
  if s.live && s.clock.ref == .locked then ((s.withRef .flywheel).raise .refLoss).tick gzl gzu left else s

/-- A tick of the internal generator, which runs in FLYWHEEL (R4). -/
def State.generatorTick (gzl gzu : Bool) (left : List TickEvent) (s : State) : State :=
  if s.live && s.clock.ref == .flywheel then s.tick gzl gzu left else s

/-! ### The commands -/

/-- ENTRY_INTO_RUNNING (R168): a tick left it, and its listen count is 0. -/
def execEntryIntoRunning (s : State) : Result := .next s.enterRunning

/-- FRAME_TICK (R1, R2, R4). -/
def execFrameTick (edge : FpEdge) (gzl gzu : Bool) (left : List TickEvent) (s : State) : Result := .next (s.fpEdge edge gzl gzu left)

/-- ENTRY_INTO_FLYWHEEL (R3). -/
def execEntryIntoFlywheel (gzl gzu : Bool) (left : List TickEvent) (s : State) : Result := .next (s.loseReference gzl gzu left)

/-- FLYWHEEL_TICK (R4). -/
def execFlywheelTick (gzl gzu : Bool) (left : List TickEvent) (s : State) : Result := .next (s.generatorTick gzl gzu left)

/-- PEER_AGE_OUT (R40, R41). -/
def execPeerAgeOut (x : Station) (s : State) : Result := .next (s.ageOut x)

/-- PAUSE_TIMER_EXPIRY (R7, R97). -/
def execPauseTimerExpiry (s : State) : Result := .next s.pauseExpiry

/-- LAPSE_TIMER_EXPIRY (R7, R61). -/
def execLapseTimerExpiry (s : State) : Result := .next s.lapseExpiry

/-- OVERLAP_TIMER_EXPIRY (R7, R62). -/
def execOverlapTimerExpiry (s : State) : Result := .next s.overlapExpiry

/-- BEAT_TIMER_EXPIRY (R42). -/
def execBeatTimerExpiry (s : State) : Result := .next s.beatExpiry

/-- TALLY_BLINK_EXPIRY (R11). -/
def execTallyBlinkExpiry (s : State) : Result := .next s.blinkExpiry

/-- TALLY_ON_PART_END (R10). -/
def execTallyOnPartEnd (s : State) : Result := .next s.onPartEnd

/-- SHOW_CUE (R149, R159, R160): with the stages of the present tick that stand before and after it. -/
def execShowCue (s : State) : Result := .next s.screenSettle

/-- CUE_EXPIRES (R159, R160). -/
def execCueExpires (s : State) : Result := .next s.cueExpiry

end Sys2Proof.Machine
end

