-- ==== Sys2Proof/Machine/Supervisory.lean ====
section
/-! DEFINITION. The supervisory port (R171 to R174, Formats): the status word, the configuration block, the
window's records, the writes and the reads. -/

namespace Sys2Proof.Machine

/-! ### The address (Formats) -/

/-- The 7-bit I2C address the port answers at: 88 plus the station number (R175, Formats). Every supervisory
command is a transfer to it. -/
def State.portAddress (s : State) : Nat := 88 + s.number.val

/-! ### The status word (R171, Formats) -/

/-- The code of a start state (Formats). -/
def StartState.code : StartState → Byte
  | .loading => 0#8
  | .listening => 1#8
  | .running => 2#8

/-- The code of a reference state (Formats). -/
def RefState.code : RefState → Byte
  | .locked => 0#8
  | .flywheel => 1#8

/-- The three flag bytes (Formats). -/
def flagBytes (w : FlagWord) : List Byte := [w.extractLsb' 16 8, w.extractLsb' 8 8, w.extractLsb' 0 8]

/-- The ten bytes of the status word (R171, Formats). -/
def State.statusWord (s : State) : List Byte :=
  [s.start.code, s.clock.ref.code] ++ viewBytes s.floor.view ++
    [s.port.wstate.code, s.screen.zone.code] ++ flagBytes s.flags

/-- The configuration block (R171, Formats). -/
def State.configurationBlock (s : State) : List Byte :=
  [stationByte s.number, flagPair s.load.defaultsUsed s.load.clamped] ++ s.cfg.values

/-! ### Fields of the window's records (Formats) -/

/-- A one-byte field; a number above 255 shows as a free value (log entry 3). -/
def byteField (n : Nat) : Byte := if n < 256 then BitVec.ofNat 8 n else Config.wideByte n

/-- A two-byte counter. -/
def counterBytes (c : Counter) : List Byte := beBytes16 c.toNat

/-- A two-byte segment number, 65535 where there is none (Formats, PEER). -/
def optionalByte : Option Byte → List Byte
  | some b => [0#8, b]
  | none => [255#8, 255#8]

/-- The code of a last outcome (Formats, PEER). -/
def LastOutcome.code : LastOutcome → Byte
  | .none => 0#8
  | .clean => 1#8
  | .corrected => 2#8
  | .marginal => 3#8
  | .lost => 4#8
  | .malformed => 5#8

/-- A PEER record's fields (Formats). -/
def PeerEntry.fields (x : Station) (e : PeerEntry) : List Byte :=
  [stationByte x, switchByte e.present] ++ beBytes32 e.lastHeard ++
    [(e.role.map roleByte).getD 0#8, (e.ready.map switchByte).getD 255#8] ++
    (e.view.map viewBytes).getD [255#8, 255#8, 255#8] ++
    optionalByte e.reportedLast ++ optionalByte e.expected ++
    [BitVec.ofNat 8 e.worst.val, e.lastOutcome.code]

/-- The eight counters of an entry, in the order of R48. -/
def PeerCounters.list (c : PeerCounters) : List Counter :=
  [c.accepted, c.corrected, c.marginal, c.lost, c.missed, c.stale, c.offFloor, c.amends]

/-- The station-wide counters, in the order of R49. -/
def StationCounters.list (c : StationCounters) : List Counter :=
  [c.anonymous, c.refused, c.oversize, c.malformed, c.arbLosses, c.promotions, c.readbacks, c.drops]

/-- The floor unit's counters (R74, Formats). -/
def Floor.counters (f : Floor) : List Counter := [f.strays, f.lateClaims, f.adoptions]

/-- Intake's counters (R126). -/
def Intake.counters (k : Intake) : List Counter := [k.trimmed, k.emptied, k.discarded, k.overflows]

/-- The schedule's counters (R157). -/
def Schedule.counters (h : Schedule) : List Counter :=
  [h.catchUps, h.overflows, h.lateAmends, h.amendsRefused, h.amendsDiscarded]

/-- The screen unit's and the link's counters (R167). -/
def State.screenCounters (s : State) : List Counter :=
  [s.screen.zoneChanges, s.screen.conflicts, s.link.sent, s.link.replaced]

/-- The counters an output block shows: 0 in a WRITER station (R172). -/
def State.outputCounters (s : State) (cs : List Counter) : List Counter :=
  if s.hasOutput then cs else cs.map fun _ => 0

/-- The thirteen records of the COUNTERS table (R172). -/
def State.counterRecords (s : State) : List (List Counter) :=
  [s.peers.counters.list] ++ s.peers.entries.toList.map (·.counters.list) ++
    [s.floor.counters, s.outputCounters s.intake.counters, s.outputCounters s.sched.counters,
      s.outputCounters s.screenCounters]

/-- The four key bytes of a SCHEDULE record: source, segment number, first word index, first piece. Of a
retired key the source is 255, and the others are free values (log entry 4). -/
def Cue.keyBytes (c : Cue) : List Byte :=
  match c.key with
  | some k =>
    [stationByte k.source, k.segment, byteField ((c.words.head?.map (·.index)).getD 0),
      byteField ((c.words.head?.map (·.piece)).getD 0)]
  | none =>
    [255#8, Config.retiredKeyByte c.number.toNat 0, Config.retiredKeyByte c.number.toNat 1,
      Config.retiredKeyByte c.number.toNat 2]

/-- A SCHEDULE record's fields (R143, Formats). -/
def Cue.fields (c : Cue) : List Byte :=
  counterBytes c.number ++ [switchByte c.key.isNone] ++ c.keyBytes ++
    [byteField c.words.length, byteField c.n] ++
    beBytes32 c.s ++ beBytes32 c.e ++ beBytes32 c.k ++ beBytes32 c.tIdeal ++ beBytes32 c.tOn ++
    [byteField c.d] ++ beBytes32 c.tOff ++ [byteField c.rung] ++ beBytes16 c.lamQ ++ beBytes16 c.lam ++
    [switchByte c.shown, c.attrs.byte] ++
    c.words.flatMap fun w =>
      [byteField w.index, byteField w.piece] ++ beBytes32 w.speech ++ textBytes w.text

/-- A VISIBLE record's fields (R158, Formats). -/
def VisibleCue.fields (v : VisibleCue) : List Byte :=
  counterBytes v.number ++ [v.attrs.byte, byteField v.countdown] ++ textBytes v.text

/-- A HOLD record's fields (R112, Formats). That the new-speaker flag is 1 where it is set and 0 where it is clear
is log entry 45's: Formats gives that byte no codes. -/
def HeldSegment.fields (g : HeldSegment) : List Byte :=
  [stationByte g.source, g.number, switchByte g.newSpeaker] ++ beBytes32 g.rxFrame ++
    [byteField g.words.length] ++
    g.words.flatMap fun w => [byteField w.index] ++ beBytes32 w.speech ++ textBytes w.text

/-! ### The window (R172) -/

/-- The code of a table (Formats). -/
def Table.code : Table → Byte
  | .peer => 0#8
  | .counters => 1#8
  | .schedule => 2#8
  | .visible => 3#8
  | .hold => 4#8

/-- The table a code names (Formats). -/
def byteTable (b : Byte) : Option Table :=
  if b = 0#8 then some .peer
  else if b = 1#8 then some .counters
  else if b = 2#8 then some .schedule
  else if b = 3#8 then some .visible
  else if b = 4#8 then some .hold
  else none

/-- The records a table of the output blocks holds: none in a WRITER station (R172). -/
def State.outputRecords (s : State) (rs : List (List Byte)) : List (List Byte) :=
  if s.hasOutput then rs else []

/-- The fields of a table's records, in record order (R172). -/
def State.tableRecords (s : State) : Table → List (List Byte)
  | .peer => allStations.map fun x => (s.peer x).fields x
  | .counters => s.counterRecords.map fun cs => cs.flatMap counterBytes
  | .schedule => s.outputRecords (s.sched.cues.map Cue.fields)
  | .visible => s.outputRecords (s.screen.visible.map VisibleCue.fields)
  | .hold => s.outputRecords (s.intake.hold.map HeldSegment.fields)

/-- A window record: the table code, the record index, the number of bytes that follow, and its fields (Formats). -/
def windowRecord (t : Table) (i : Nat) (fields : List Byte) : List Byte :=
  [t.code, byteField i, byteField fields.length] ++ fields

/-- The end record (R172, Formats). -/
def endRecord (t : Table) : List Byte := [t.code, 255#8, 0#8]

/-! ### Writes (R173, Formats) -/

/-- A supervisory write of one of the forms of R173. -/
inductive PortWrite where
  | select (r : ReadSelect)
  | window (t : Table) (index : Byte)
  | clear
  | restart
  deriving DecidableEq, Repr

/-- The write some bytes spell, none for any other form (R173, Formats). -/
def parseWrite : List Byte → Option PortWrite
  | [c] =>
    if c = 0#8 then some (.select .status)
    else if c = 1#8 then some (.select .config)
    else if c = 2#8 then some (.select .window)
    else if c = 4#8 then some .clear
    else if c = 5#8 then some .restart
    else none
  | [c, t, i] => if c = 3#8 then (byteTable t).map fun t => .window t i else none
  | _ => none

/-- A peer entry with its counters and its worst correction seen at 0 (R50). -/
def PeerEntry.clear (e : PeerEntry) : PeerEntry := { e with worst := 0, counters := .zero }

/-- CLEAR_COUNTERS (R50, R74, R126, R157, R167, R173). -/
def State.clearAllCounters (s : State) : State :=
  { s with
    peers := ⟨s.peers.entries.map PeerEntry.clear, .zero⟩
    floor := { s.floor with strays := 0, lateClaims := 0, adoptions := 0 }
    intake := { s.intake with trimmed := 0, emptied := 0, discarded := 0, overflows := 0 }
    sched := { s.sched with
      catchUps := 0, overflows := 0, lateAmends := 0, amendsRefused := 0, amendsDiscarded := 0 }
    screen := { s.screen with zoneChanges := 0, conflicts := 0 }
    link := { s.link with sent := 0, replaced := 0 } }

/-- The latest transfer acknowledged or not; the model's own mark. -/
def State.acknowledge (a : Bool) (s : State) : State := { s with sup.acked := a }

/-- A write that is acknowledged and takes effect (R173); a RESTART in LOADING is not acknowledged. -/
def State.performWrite (w : PortWrite) (s : State) : State :=
  match w with
  | .select r => { s with sup.select := r }.acknowledge true
  | .window t i => { s with sup.table := t, sup.index := i.toNat }.acknowledge true
  | .clear => s.clearAllCounters.acknowledge true
  | .restart =>
    if s.start = .loading then s.acknowledge false else s.restartStation.acknowledge true

/-- A supervisory write by its bytes (R173): not acknowledged and without effect where it has no form of
R173's, or while the port is held in reset (R170). -/
def State.write (bytes : List Byte) (s : State) : State :=
  if s.resetHeld then s.acknowledge false
  else
    match parseWrite bytes with
    | some w => s.performWrite w
    | none => s.acknowledge false

/-! ### Reads (R171, R172, R174) -/

/-- An item as a read of some number of bytes returns it: bytes past its end read as 0 (Formats). -/
def returned (count : Nat) (item : List Byte) : List Byte :=
  (item ++ List.replicate (count - item.length) 0#8).take count

/-- A read that is answered with an item. -/
def State.answerRead (count : Nat) (item : List Byte) (s : State) : State :=
  { s with sup.response := returned count item, sup.acked := true }

/-- A read that is not acknowledged. -/
def State.denyRead (s : State) : State := { s with sup.response := [], sup.acked := false }

/-- A read of the status word: the flags it returned as set are cleared when its tenth byte has been
transferred, and a shorter read clears none (R171, Formats). -/
def State.readStatus (count : Nat) (s : State) : State :=
  let s' := s.answerRead count s.statusWord
  if count < 10 then s' else { s' with flags := 0#24 }

/-- A read of the window: one record at the selected index, which then advances, or the end record (R172). -/
def State.readWindow (count : Nat) (s : State) : State :=
  let t := s.sup.table
  match (s.tableRecords t)[s.sup.index]? with
  | some r => { s.answerRead count (windowRecord t s.sup.index r) with sup.index := s.sup.index + 1 }
  | none => s.answerRead count (endRecord t)

/-- A supervisory read (R171 to R173): it returns what the read selection names; in LOADING the status word
alone is answered, and in reset nothing is (R170). -/
def State.read (count : Nat) (s : State) : State :=
  if s.resetHeld then s.denyRead
  else
    match s.sup.select with
    | .status => s.readStatus count
    | .config => if s.live then s.answerRead count s.configurationBlock else s.denyRead
    | .window => if s.live then s.readWindow count else s.denyRead

/-! ### The commands -/

/-- SELECT_STATUS_WORD: command 0 (R173). -/
def execSelectStatusWord (s : State) : Result := .next (s.write [0#8])

/-- SELECT_CONFIGURATION_BLOCK: command 1 (R173). -/
def execSelectConfigurationBlock (s : State) : Result := .next (s.write [1#8])

/-- SELECT_WINDOW_READS: command 2 (R173). -/
def execSelectWindowReads (s : State) : Result := .next (s.write [2#8])

/-- WINDOW_SELECT: command 3 (R173). -/
def execWindowSelect (table index : Byte) (s : State) : Result := .next (s.write [3#8, table, index])

/-- CLEAR_COUNTERS: command 4 (R173). -/
def execClearCounters (s : State) : Result := .next (s.write [4#8])

/-- RESTART: command 5 (R170, R173). -/
def execRestart (s : State) : Result := .next (s.write [5#8])

/-- INVALID_WRITE: a write by its bytes, judged by the port (R173). -/
def execInvalidWrite (bytes : List Byte) (s : State) : Result := .next (s.write bytes)

/-- STATUS_WORD_READ (R171): a read; what it returns is what the read selection names. -/
def execStatusWordRead (count : Nat) (s : State) : Result := .next (s.read count)

/-- WINDOW_READ (R172): a read; what it returns is what the read selection names. -/
def execWindowRead (count : Nat) (s : State) : Result := .next (s.read count)

end Sys2Proof.Machine
end

