-- ==== Sys2Proof/Machine/Dispatch.lean ====
section
/-! DEFINITION. The dispatch of a command to its meaning: one arm per row of the table. -/

namespace Sys2Proof.Machine

def exec (i : Instr) (s : State) : Host.Outcome State Fault Refusal :=
  match i with
  | .powerOn straps => Sys2Proof.Machine.execPowerOn straps s
  | .resetnAssertion => Sys2Proof.Machine.execResetnAssertion s
  | .resetnRelease straps => Sys2Proof.Machine.execResetnRelease straps s
  | .imageLoaded image => Sys2Proof.Machine.execImageLoaded image s
  | .startupBlankBegins => Sys2Proof.Machine.execStartupBlankBegins s
  | .entryIntoRunning => Sys2Proof.Machine.execEntryIntoRunning s
  | .frameTick edge gzl gzu later => Sys2Proof.Machine.execFrameTick edge gzl gzu later s
  | .entryIntoFlywheel gzl gzu later => Sys2Proof.Machine.execEntryIntoFlywheel gzl gzu later s
  | .flywheelTick gzl gzu later => Sys2Proof.Machine.execFlywheelTick gzl gzu later s
  | .orderSent => Sys2Proof.Machine.execOrderSent s
  | .peerAgeOut x => Sys2Proof.Machine.execPeerAgeOut x s
  | .pauseTimerExpiry => Sys2Proof.Machine.execPauseTimerExpiry s
  | .lapseTimerExpiry => Sys2Proof.Machine.execLapseTimerExpiry s
  | .overlapTimerExpiry => Sys2Proof.Machine.execOverlapTimerExpiry s
  | .beatTimerExpiry => Sys2Proof.Machine.execBeatTimerExpiry s
  | .tallyBlinkExpiry => Sys2Proof.Machine.execTallyBlinkExpiry s
  | .tallyOnPartEnd => Sys2Proof.Machine.execTallyOnPartEnd s
  | .showCue => Sys2Proof.Machine.execShowCue s
  | .cueExpires => Sys2Proof.Machine.execCueExpires s
  | .contentionStart => Sys2Proof.Machine.execContentionStart s
  | .arbitrationLoss readback => Sys2Proof.Machine.execArbitrationLoss readback s
  | .frameWin own readback => Sys2Proof.Machine.execFrameWin own readback s
  | .frameNotAccepted raw => Sys2Proof.Machine.execFrameNotAccepted raw s
  | .beatReceived rx b => Sys2Proof.Machine.execBeatReceived rx b s
  | .claimReceived rx => Sys2Proof.Machine.execClaimReceived rx s
  | .offerReceived rx sc => Sys2Proof.Machine.execOfferReceived rx sc s
  | .takeReceived rx h => Sys2Proof.Machine.execTakeReceived rx h s
  | .releaseReceived rx point last => Sys2Proof.Machine.execReleaseReceived rx point last s
  | .yieldReceived rx => Sys2Proof.Machine.execYieldReceived rx s
  | .segmentReceived rx b => Sys2Proof.Machine.execSegmentReceived rx b s
  | .drainComplete => Sys2Proof.Machine.execDrainComplete s
  | .amendReceived rx b => Sys2Proof.Machine.execAmendReceived rx b s
  | .word text => Sys2Proof.Machine.execWord text s
  | .speakerBreak => Sys2Proof.Machine.execSpeakerBreak s
  | .flush => Sys2Proof.Machine.execFlush s
  | .delete n => Sys2Proof.Machine.execDelete n s
  | .replace k m => Sys2Proof.Machine.execReplace k m s
  | .repword text => Sys2Proof.Machine.execRepword text s
  | .ready => Sys2Proof.Machine.execReady s
  | .unready => Sys2Proof.Machine.execUnready s
  | .floorTake => Sys2Proof.Machine.execFloorTake s
  | .floorHand successor => Sys2Proof.Machine.execFloorHand successor s
  | .floorDone => Sys2Proof.Machine.execFloorDone s
  | .floorLeave => Sys2Proof.Machine.execFloorLeave s
  | .malformedRecord kind content framing => Sys2Proof.Machine.execMalformedRecord kind content framing s
  | .recordGapTimeout received => Sys2Proof.Machine.execRecordGapTimeout received s
  | .noticeSent => Sys2Proof.Machine.execNoticeSent s
  | .selectStatusWord => Sys2Proof.Machine.execSelectStatusWord s
  | .selectConfigurationBlock => Sys2Proof.Machine.execSelectConfigurationBlock s
  | .selectWindowReads => Sys2Proof.Machine.execSelectWindowReads s
  | .windowSelect table index => Sys2Proof.Machine.execWindowSelect table index s
  | .clearCounters => Sys2Proof.Machine.execClearCounters s
  | .restart => Sys2Proof.Machine.execRestart s
  | .invalidWrite bytes => Sys2Proof.Machine.execInvalidWrite bytes s
  | .statusWordRead count => Sys2Proof.Machine.execStatusWordRead count s
  | .windowRead count => Sys2Proof.Machine.execWindowRead count s
  | .lineIdleForGap => Sys2Proof.Machine.execLineIdleForGap s

end Sys2Proof.Machine
end

