-- ==== Sys2Proof/Safety.lean ====
section
/-! DEFINITION. What the claims ask of a state and of a run: the invariants the manual states of the whole
station, and the commands that resets and supervisory reads are. -/

namespace Sys2Proof.Machine

/-- A floor view names two different stations where it names two (R51). -/
def State.viewNamesTwo (s : State) : Bool := !s.floor.view.doubled

/-- In LOADING every block stands at its reset value; the supervisory port and the RESETn level apart, the
state is the blank one (R2, R35, R75, R158, R168, R170). -/
abbrev State.loadingBlank (s : State) : Prop :=
  s.start = .loading →
    s = { State.blank s.number s.cfg s.load s.pending with sup := s.sup, resetHeld := s.resetHeld }

/-- The hold list holds at most six segments (R112), and any only in OVERLAP, in an OUTPUT or BOTH station
out of LOADING (R115). -/
abbrev State.holdWithin (s : State) : Prop :=
  s.intake.hold.length ≤ holdCapacity ∧
    (s.intake.hold ≠ [] → s.floor.view.isOverlap = true ∧ s.hasOutput = true ∧ s.start ≠ .loading)

/-- The transmit queues stay within their capacities (R19). -/
abbrev State.queuesWithin (s : State) : Prop :=
  s.line.amendQ.length ≤ amendCapacity ∧ s.line.segQ.length ≤ segmentCapacity

/-- The notice queue stays within its capacity, and holds notices only behind one being sent (R78). -/
abbrev State.noticesWithin (s : State) : Prop :=
  s.port.notices.length ≤ noticeCapacity ∧ (s.port.sending = none → s.port.notices = [])

/-- An order waits at the inserter link only behind one being sent (R165). -/
abbrev State.linkOrdered (s : State) : Prop := s.link.sending = none → s.link.waiting = none

/-- Every record of the schedule holds some words, within the row width, an end its duration after its onset,
and a duration up to d_max (R124, R136, R137, R144, R155, R156). -/
abbrev State.cuesKept (s : State) : Prop :=
  s.loadingBlank ∧ 1 ≤ s.cfg.rowWidth ∧
    ∀ c ∈ s.sched.cues, c.words ≠ [] ∧ c.n ≤ s.cfg.rowWidth ∧
      c.tOff = c.tOn + BitVec.ofNat 32 c.d ∧ c.d ≤ s.cfg.dMax

/-- The commands that can make a frame tick (R1, R3, R4). -/
def ticks : Instr → Bool
  | .frameTick _ _ _ _ => true
  | .entryIntoFlywheel _ _ _ => true
  | .flywheelTick _ _ _ => true
  | _ => false

/-- The commands that can reset the station: a power-on, the RESETn levels, and the writes that can be a
RESTART (R170, R173). -/
def resets : Instr → Bool
  | .powerOn _ => true
  | .resetnAssertion => true
  | .resetnRelease _ => true
  | .restart => true
  | .invalidWrite _ => true
  | _ => false

/-! ### What the statements about single commands suppose -/

/-- The command that a frame's end is, by the kind of its body. -/
def receptionOf (rx : Rx) : FrameBody → Instr
  | .claim => .claimReceived rx
  | .offer sc => .offerReceived rx sc
  | .take h => .takeReceived rx h
  | .release p m => .releaseReceived rx p m
  | .yield => .yieldReceived rx
  | .amend b => .amendReceived rx b
  | .segment b => .segmentReceived rx b
  | .beat b => .beatReceived rx b

/-- The station takes a frame that ends now, and accepts it (R28, R30, R31). -/
abbrev State.hears (rx : Rx) (b : FrameBody) (s : State) : Prop :=
  s.receiving = true ∧ b.parses = true ∧ admitted s.cfg s.number rx.source = true ∧
    b.length ≤ s.cfg.maxBody

/-- The frame that ends is not one this station has in flight (R34). -/
abbrev State.foreignTo (rx : Rx) (s : State) : Prop := s.line.inFlight = none ∨ rx.source ≠ s.number

/-- The writer port takes records, and none waits for the arbitration field (R26, R75). -/
abbrev State.takesRecords (s : State) : Prop :=
  s.portTakes = true ∧ s.line.held.any HeldWork.busiesPort = false

/-- No floor request is pending, and no floor frame of this station is in flight (R84, R91). -/
abbrev State.noRequest (s : State) : Prop :=
  s.line.floorQ = none ∧ s.line.floorInFlight = false ∧ s.asm.drain = .idle ∧ s.port.leaves = []

/-- Every general timer STOPPED with no staged value (R2, R9). -/
abbrev State.timersStopped (s : State) : Prop :=
  s.pause = none ∧ s.lapse = none ∧ s.overlap = none ∧
    s.beatTimer.remaining = none ∧ s.beatTimer.staged = none ∧
    s.tally.timer.remaining = none ∧ s.tally.timer.staged = none

/-- The list of R170 for both kinds of reset, block by block; the screen unit, the inserter link and the writer
port apart, which the entry into LISTENING changes further (R75, R166). -/
def State.atReset (s : State) : Prop :=
  s.clock.count = 0#32 ∧ s.clock.ref = .locked ∧ s.timersStopped ∧
  s.tally.pattern = .off ∧ s.tally.staged = none ∧ s.tally.lamp = false ∧
  s.line = .initial ∧ s.peers = .initial ∧ s.floor = .initial ∧ s.asm = .initial ∧ s.intake = .initial ∧
  s.sched = .initial ∧ s.flags = 0#24 ∧ s.sup.select = .status ∧ s.sup.table = .peer ∧ s.sup.index = 0

/-- A SEGMENT from a station passes the sequence check, by one of the rows of R46 before the last. -/
abbrev State.inSequence (x : Station) (b : SegmentBody) (s : State) : Prop :=
  b.restart = true ∨ (s.peer x).present = false ∨
    ∀ e ∈ (s.peer x).expected, (b.number - e).toNat ≤ 127

/-! ### What a win leaves (R25, R27) -/

/-- A queued beat after another frame has won the line in RUNNING (R25). -/
def BeatSlot.afterLoss (b : BeatSlot) : BeatSlot :=
  if b.promoted then b else if b.losses < 15 then ⟨b.losses + 1, false⟩ else ⟨16, true⟩

/-- A state after a readback fault of an own frame that has had none, if there was one (R27). -/
def State.readbackCounted (rb : Bool) (s : State) : State :=
  { s with
    flags := s.flags ||| (if rb then Flag.mask .lineReadback else 0#24)
    peers.counters.readbacks :=
      if rb then rise s.peers.counters.readbacks 1 else s.peers.counters.readbacks }

/-- A state after an own frame other than the beat has won the line, before the frame itself is taken out of
its queue: nothing is under arbitration, a readback fault is counted (R27), and in RUNNING a queued beat has
one loss more and a promotion is counted (R22, R25). -/
def State.wonOverBeat (rb : Bool) (s : State) : State :=
  let s := s.readbackCounted rb
  let promotes := s.start = .running ∧ s.line.beat.any (fun b => !b.promoted && decide (15 ≤ b.losses)) = true
  { s with
    floor := { s.floor with lapsed := false }
    line := { s.line with
      arb := none
      beat := if s.start = .running then s.line.beat.map BeatSlot.afterLoss else s.line.beat
      beatReplace := false }
    peers.counters.promotions :=
      if promotes then rise s.peers.counters.promotions 1 else s.peers.counters.promotions }

/-! ### What the statements about ticks suppose -/

/-- The station's clock runs, nothing of the tick before is outstanding, and no timer, no listen count and no
peer entry comes to its end at the next tick (R2, R6 to R8, R10, R40, R168; the pieces: log entry 6). -/
abbrev State.quiet (s : State) : Prop :=
  s.start ≠ .loading ∧ s.resetHeld = false ∧ s.ticksDue = ⟨false, false, false⟩ ∧ s.screenDue = .done ∧
  (∀ r ∈ s.pause, 2 ≤ r) ∧ (∀ r ∈ s.lapse, 2 ≤ r) ∧ (∀ r ∈ s.overlap, 2 ≤ r) ∧
  (∀ r ∈ s.beatTimer.remaining, 2 ≤ r) ∧ (∀ r ∈ s.tally.timer.remaining, 2 ≤ r) ∧
  (s.tally.pattern.blinks = true → s.tally.lamp = true → s.tally.position < s.tally.timer.period / 2) ∧
  (s.start = .listening → 2 ≤ s.listenCount) ∧
  ∀ x : Station, (s.peer x).present = true →
    interval s.clock.count (s.peer x).lastHeard ≤ (s.cfg.timeoutMultiple * s.cfg.beatInterval : Int) ∧
    interval (s.clock.count + 1#32) (s.peer x).lastHeard ≤
      (s.cfg.timeoutMultiple * s.cfg.beatInterval : Int)

/-! ### What a merge leaves (R116 to R119) -/

/-- The words of a held segment that stay under a trim point, if there is one: those later than it by more than
the trim margin (R119). -/
def State.keptWords (s : State) (P : Option Frame) (g : HeldSegment) : List TimedWord :=
  g.words.filter fun w => match P with
    | none => true
    | some P => decide (0 < interval w.speech (P + BitVec.ofNat 32 s.cfg.trimMargin))

/-- The cues of some words of a held segment: its rows, NEWSPK and TRIMMED on the first alone (R124, R125). -/
def State.cuesOf (s : State) (g : HeldSegment) (words : List TimedWord) : List NewCue :=
  (breakRows s.cfg.rowWidth words).mapIdx fun j row =>
    ⟨⟨g.source, g.number⟩, row,
      ⟨g.newSpeaker && j == 0, false, decide (words.length ≠ g.words.length) && j == 0⟩⟩

/-- Some cues placed one after another at this event: the schedule they leave (R145). -/
def State.placed (s : State) (cs : List NewCue) : Schedule :=
  (s.sched.placeAll ⟨s.cfg, rowsInEffect s.cfg s.screen.zone⟩ s.clock.count cs).1

/-- What a merge of the hold list for a station that becomes holder leaves, given its trim point, if it has one:
each held segment trimmed in hold-list order, what survives placed, the removed words and the emptied
segments counted, the list empty, and trimming armed (R117 to R119, R125, R145). -/
def State.mergedTo (s : State) (P : Option Frame) (i : Station) (t : State) : Prop :=
  t.intake = { s.intake with
    hold := []
    armed := P.map fun P => ⟨P, i⟩
    trimmed := rise s.intake.trimmed
      (s.intake.hold.map fun g => g.words.length - (s.keptWords P g).length).sum
    emptied := if P = none then s.intake.emptied
      else rise s.intake.emptied (s.intake.hold.countP fun g => (s.keptWords P g).isEmpty) } ∧
  t.sched = s.placed (s.intake.hold.flatMap fun g => s.cuesOf g (s.keptWords P g))

/-! ### What a change of view leaves (R53, R64, R115, R118, R121) -/

/-- The floor unit's two timers after the view has become another one (R53): the timer of the state entered is
loaded in full, that of the state left stopped. -/
def State.timersFollow (s : State) (new : View) (t : State) : Prop :=
  t.lapse = (if new.isOffered = true then some s.cfg.lapseInterval
    else if s.floor.view.isOffered = true then none else s.lapse) ∧
  t.overlap = (if new.isOverlap = true then some s.cfg.overlapLimit
    else if s.floor.view.isOverlap = true then none else s.overlap)

/-- Intake after an open, where a view is OVERLAP: no armed trim, and the outgoing last-word time kept only for
the outgoing station (R115). -/
def Intake.openedBy (new : View) (k : Intake) : Intake :=
  match new with
  | .overlap h _ =>
    { k with hold := [], armed := none, lastWord := k.lastWord.filter fun m => m.station == h }
  | _ => k

/-- What a change to another view, by anything but a RELEASE, leaves at intake and in the schedule (R64): an
OVERLAP that passes to HELD of its incoming station is a fallback merge against the outgoing last-word time
(R118); any other end of one a discard (R121); and an OVERLAP entered an open (R115). -/
def State.intakeFollows (s : State) (new : View) (t : State) : Prop :=
  match s.floor.view with
  | .overlap h i =>
    if new = .held i then
      s.mergedTo ((s.intake.lastWord.filter fun m => m.station == h).map (·.time)) i t
    else
      t.sched = s.sched ∧
      t.intake = Intake.openedBy new { s.intake with
        hold := [], armed := none, discarded := rise s.intake.discarded s.intake.hold.length }
  | _ => t.sched = s.sched ∧ t.intake = s.intake.openedBy new

/-- The view a reported one gives a station that adopts it from a frame's source: the reported view, or HELD of
its holder where it is an OVERLAP whose incoming station is ABSENT here (R66). -/
def State.adopted (s : State) (x : Station) : View → View
  | .overlap h i => if i = x ∨ (s.peer i).present = true then .overlap h i else .held h
  | v => v

/-! ### What the writer port answers (R79, R80) -/

/-- The port after its answers, with the writer state a station then has: a STATE notice where it is another
one (R80). -/
def WriterPort.settled (w : WriterState) (p : WriterPort) : WriterPort :=
  if w = p.wstate then p else { p with wstate := w }.enqueue (.state w)

/-- Notices queued at the port in their order. -/
def WriterPort.told (os : List Notice) (p : WriterPort) : WriterPort := os.foldl (fun p n => p.enqueue n) p

/-! ### The lamp (R13, R80) -/

/-- The lamp once the writer state has become a given one: its pattern is requested where it is another state (R80). -/
def State.lampTold (w : WriterState) (s : State) : Tally :=
  if w = s.port.wstate then s.tally else s.tally.request s.cfg.tallyPeriod w.pattern

/-- The lamp after the end of a frame, an expiry or a GONE event. At an OUTPUT station STEADY is requested where
the view leaves VACANT, and OFF where it becomes VACANT (R13). At a WRITER or BOTH station the pattern of a new
writer state is (R80); where auto-claim then deposits a CLAIM, first that of IDLE and then that of CLAIMING (R94). -/
def State.lampFollows (s t : State) : Prop :=
  t.tally =
    if s.cfg.role = .output then
      if s.floor.view = .vacant ∧ t.floor.view ≠ .vacant then s.tally.request s.cfg.tallyPeriod .steady
      else if s.floor.view ≠ .vacant ∧ t.floor.view = .vacant then s.tally.request s.cfg.tallyPeriod .off
      else s.tally
    else if t.line.floorQ = some .claim ∧ s.line.floorQ ≠ some .claim then
      (s.lampTold .idle).request s.cfg.tallyPeriod .fast
    else s.lampTold t.port.wstate

/-! ### The configuration in force (R129, R169) -/

/-- A ladder in force (R129): eight rungs, the first at threshold 0, thresholds up to 1500 and rates from
80 to 400 that never fall from rung to rung. -/
abbrev ladderInForce (l : List Rung) : Prop :=
  l.length = 8 ∧ (∀ r ∈ l.head?, r.threshold = 0) ∧
    (∀ r ∈ l, r.threshold ≤ 1500 ∧ 80 ≤ r.rate ∧ r.rate ≤ 400) ∧
    l.Pairwise fun a b => a.threshold ≤ b.threshold ∧ a.rate ≤ b.rate

/-- A number in a range. -/
abbrev within (lo n hi : Nat) : Prop := lo ≤ n ∧ n ≤ hi

/-- A configuration that the four steps of R169 can leave. -/
abbrev Configuration.inForce (c : Configuration) : Prop :=
  (c.frameRate = 25 ∨ c.frameRate = 30) ∧ within 10 c.tallyPeriod 50 ∧ within 1 c.quality 3 ∧
  (c.amendWeight = .ratio 1 ∨ c.amendWeight = .ratio 2 ∨ c.amendWeight = .ratio 4 ∨
    c.amendWeight = .strict) ∧
  within 10 c.beatInterval 50 ∧ within 3 c.timeoutMultiple 8 ∧ within 50 c.lapseInterval 500 ∧
  within 250 c.overlapLimit 1500 ∧ within 0 c.writerLag 250 ∧ within 10 c.pauseInterval 100 ∧
  (c.maxBody = 192 ∧ within 40 c.softLimit 120 ∧ within 60 c.hardLimit 140 ∧ c.softLimit ≤ c.hardLimit ∨
    c.maxBody = 96 ∧ within 40 c.softLimit 50 ∧ c.hardLimit = 50) ∧
  within 0 c.trimMargin 50 ∧ within 30 c.rowWidth 42 ∧ within 0 c.delay 1500 ∧ within 2 c.onsetGap 25 ∧
  within 10 c.dMin 100 ∧ within 50 c.dMax 250 ∧ c.dMin ≤ c.dMax ∧ ladderInForce c.ladder ∧
  (c.rows = 2 ∨ c.rows = 3) ∧ within 50 c.lamDrop 1500 ∧ within 0 c.zoneHold 50

end Sys2Proof.Machine
end

