-- ==== Sys2Proof/WellFormed.lean ====
section
/-! DEFINITION. Well-formed commands: each carries operands that its row's event can carry. An ill-formed
one still has a meaning: the receiver, the parser and the port judge what they are given. -/

namespace Sys2Proof

open Machine

/-- The work a tick may leave names each piece once. -/
def wfLeft (left : List TickEvent) : Bool := decide left.Nodup

/-- A frame's body passes the checks of R31, and its length fits the header's length byte. -/
def wfBody (b : FrameBody) : Bool :=
  b.parses && decide (b.length ≤ 255)

/-- A raw frame end carries no more body bytes than its length byte can announce, and no more blocks (R14). -/
def wfRaw (raw : RawFrame) : Bool := decide (raw.body.length ≤ 255) && decide (raw.blocks.length ≤ 6)

/-- A record's content fits its length byte, and the record is well-formed (R76). -/
def wfRecord (kind : Byte) (content : List Byte) : Bool :=
  decide (content.length ≤ 255) && (parseRecord kind content).isSome

/-- A malformed record: a framing error, or bytes that spell no record (R76). -/
def wfBadRecord (kind : Byte) (content : List Byte) (framing : Bool) : Bool :=
  decide (content.length ≤ 255) && (framing || (parseRecord kind content).isNone)

/-- Well-formed commands. -/
def Instr.wf : Instr → Bool
  | .powerOn _ => true
  | .resetnAssertion => true
  | .resetnRelease _ => true
  | .imageLoaded image => decide (image.length ≤ imageLength)
  | .startupBlankBegins => true
  | .entryIntoRunning => true
  | .frameTick _ _ _ left => wfLeft left
  | .entryIntoFlywheel _ _ left => wfLeft left
  | .flywheelTick _ _ left => wfLeft left
  | .orderSent => true
  | .peerAgeOut _ => true
  | .pauseTimerExpiry => true
  | .lapseTimerExpiry => true
  | .overlapTimerExpiry => true
  | .beatTimerExpiry => true
  | .tallyBlinkExpiry => true
  | .tallyOnPartEnd => true
  | .showCue => true
  | .cueExpires => true
  | .contentionStart => true
  | .arbitrationLoss _ => true
  | .frameWin own readback => own || !readback
  | .frameNotAccepted raw => wfRaw raw
  | .beatReceived _ b => wfBody (.beat b)
  | .claimReceived _ => wfBody .claim
  | .offerReceived _ sc => wfBody (.offer sc)
  | .takeReceived _ h => wfBody (.take h)
  | .releaseReceived _ p m => wfBody (.release p m)
  | .yieldReceived _ => wfBody .yield
  | .segmentReceived _ b => wfBody (.segment b)
  | .drainComplete => true
  | .amendReceived _ b => wfBody (.amend b)
  | .word text => wfRecord 1#8 text
  | .speakerBreak => wfRecord 2#8 []
  | .flush => wfRecord 3#8 []
  | .delete n => wfRecord 4#8 [n]
  | .replace k m => wfRecord 5#8 [k, m]
  | .repword text => wfRecord 6#8 text
  | .ready => wfRecord 7#8 []
  | .unready => wfRecord 8#8 []
  | .floorTake => wfRecord 9#8 []
  | .floorHand successor => wfRecord 10#8 [successor]
  | .floorDone => wfRecord 11#8 []
  | .floorLeave => wfRecord 12#8 []
  | .malformedRecord kind content framing => wfBadRecord kind content framing
  | .recordGapTimeout received => partialRecord received
  | .noticeSent => true
  | .selectStatusWord => true
  | .selectConfigurationBlock => true
  | .selectWindowReads => true
  | .windowSelect table _ => (byteTable table).isSome
  | .clearCounters => true
  | .restart => true
  | .invalidWrite bytes => (parseWrite bytes).isNone
  | .statusWordRead _ => true
  | .windowRead _ => true
  | .lineIdleForGap => true

end Sys2Proof
end

