-- ==== Sys2Proof/Certificates/Slice0/Obligations.lean ====
section
/-! DEFINITION. The statements for the provers. A statement about a command says where the command completes
and what the next state holds; where the next state is written as the old one with some fields changed,
every field not named is unchanged. -/

open Sys2Proof Sys2Proof.Machine

/-! ### The step and what every step keeps -/

/-- A step with a command at the front of the queue is that command's meaning on the state with the
queue's rest (the queue is the model's: log entry 2). -/
def Obligations.StepRunsFrontCommand : Prop :=
  ∀ (c : Instr) (rest : List Instr) (s : State),
    step { s with pending := c :: rest } = exec c { s with pending := rest }

/-- Every command answers a next state, and leaves the queue of waiting commands, which is the model's own (log
entry 2), alone. -/
def Obligations.CommandsGoOnAndKeepQueue : Prop :=
  ∀ (c : Instr) (s : State), ∃ t, exec c s = .next t ∧ t.pending = s.pending

/-- The station right after power-on meets every invariant below. -/
def Obligations.ResetMeetsTheInvariants : Prop :=
  State.reset.loadingBlank ∧ State.reset.queuesWithin ∧ State.reset.noticesWithin ∧
    State.reset.linkOrdered ∧ State.reset.viewNamesTwo = true ∧ State.reset.holdWithin ∧
    State.reset.cuesKept

/-- Through LOADING every block stands at its reset value, the supervisory port apart (R2, R35, R75, R168,
R170). -/
def Obligations.LoadingStaysBlank : Prop :=
  ∀ s t : State, s.loadingBlank → step s = .next t → t.loadingBlank

/-- The transmit queues stay within their capacities (R19), the notice queue within its eight (R78), and an
order waits at the inserter link only behind one being sent (R165). -/
def Obligations.QueuesStayWithin : Prop :=
  ∀ s t : State, s.queuesWithin → s.noticesWithin → s.linkOrdered → step s = .next t →
    t.queuesWithin ∧ t.noticesWithin ∧ t.linkOrdered

/-- A view names two different stations where it names two (R51), and the hold list holds at most six
segments, and any only in OVERLAP (R112, R115). -/
def Obligations.ViewAndHoldStayProper : Prop :=
  ∀ s t : State, s.viewNamesTwo = true → s.holdWithin → step s = .next t →
    t.viewNamesTwo = true ∧ t.holdWithin

/-- Every record of the schedule keeps some words within the row width, a scheduled end its duration after
its onset, and a duration up to d_max (R124, R136, R137, R144, R154 to R156). -/
def Obligations.CuesStayWithinTheRow : Prop :=
  ∀ s t : State, s.cuesKept → step s = .next t → t.cuesKept

/-- A set flag is cleared by a reset or by a read of the status word to its tenth byte, and by no other
command (R171, R174). -/
def Obligations.FlagsAreSticky : Prop :=
  ∀ (c : Instr) (s t : State) (f : Flag), resets c = false →
    (∀ n, c = .statusWordRead n ∨ c = .windowRead n → s.sup.select ≠ .status ∨ n < 10) →
    hasFlag s.flags f = true → exec c s = .next t → hasFlag t.flags f = true

/-- The count, the reference state and the tally levels change at frame ticks and at resets alone (R1); the
configuration and the load result at a power-on and an image load alone, and the station number at a
power-on and a release alone (R168, R169). That an assertion of RESETn leaves the number, the
configuration and the load result as they were is log entry 1's. -/
def Obligations.ClockAndConfigurationMoveOnlyAtTheirEvents : Prop :=
  ∀ (c : Instr) (s t : State), exec c s = .next t →
    (ticks c = false → resets c = false → t.clock = s.clock) ∧
    ((∀ n, c ≠ .powerOn n) → (∀ image, c ≠ .imageLoaded image) → t.cfg = s.cfg ∧ t.load = s.load) ∧
    ((∀ n, c ≠ .powerOn n) → (∀ n, c ≠ .resetnRelease n) → t.number = s.number)

/-! ### Start-up and resets -/

/-- POWER_ON and the RESETn levels put every block at its reset value, in LOADING (R168, R170). The number
that a power-on or a release gives is the straps'; an assertion holds the station. That a release of a
station not held changes nothing is log entry 28's; log entry 1 names the values the manual leaves open. A
RESTART out of LOADING resets every block, keeps the number, the configuration and the load result, and
enters LISTENING with the listen count loaded; the BLANK is handed in OUTPUT and BOTH stations, its wait
for the line log entry 13's, and the STATE notice queued in WRITER and BOTH ones. In LOADING it is not
acknowledged and changes nothing else. -/
def Obligations.ResetsPutEveryBlockAtReset : Prop :=
  ∀ (n : Station) (s : State),
    let fresh : State → Prop := fun t =>
      t.atReset ∧ t.start = .loading ∧ t.port = .initial ∧ t.link = .initial ∧ t.screen = .initial
    (∃ t, exec (.powerOn n) s = .next t ∧ fresh t ∧ t.number = n ∧ t.resetHeld = false) ∧
    (∃ t, exec .resetnAssertion s = .next t ∧ fresh t ∧ t.resetHeld = true) ∧
    (s.resetHeld = true →
      ∃ t, exec (.resetnRelease n) s = .next t ∧ fresh t ∧ t.number = n ∧ t.resetHeld = false) ∧
    (s.resetHeld = false → exec (.resetnRelease n) s = .next s) ∧
    (s.resetHeld = false → s.start ≠ .loading →
      ∃ t, exec .restart s = .next t ∧ t.atReset ∧ t.start = .listening ∧ t.resetHeld = false ∧
        t.listenCount = 2 * s.cfg.beatInterval ∧ t.number = s.number ∧ t.cfg = s.cfg ∧ t.load = s.load ∧
        t.sup.acked = true ∧
        t.link = (if s.cfg.role = .writer then Link.initial
          else { Link.initial with sending := some .blank, startWait := true }) ∧
        t.screen = (if s.cfg.role = .writer then Screen.initial
          else { Screen.initial with lastOrder := .blank }) ∧
        t.port = (if s.cfg.role = .output then WriterPort.initial
          else { WriterPort.initial with sending := some (.state .absent) })) ∧
    (s.resetHeld = false → s.start = .loading →
      exec .restart s = .next { s with sup := { s.sup with acked := false } })
/-- An image in LOADING gives the configuration in force and its load result, sets the flags they call for,
and leads into LISTENING, the BLANK's wait for the line being log entry 13's; out of LOADING, and while RESETn
is held, nothing is read. -/
def Obligations.ImageLeadsIntoListening : Prop :=
  ∀ (image : List Byte) (s : State),
    (s.start = .loading → s.resetHeld = false →
      ∃ t, exec (.imageLoaded image) s = .next t ∧ t.start = .listening ∧
        (t.cfg, t.load) = loadImage image ∧ t.listenCount = 2 * t.cfg.beatInterval ∧
        t.flags = s.flags ||| (if t.load.defaultsUsed then Flag.mask .cfgDefault else 0#24) |||
          (if t.load.clamped then Flag.mask .cfgClamped else 0#24) ∧
        t.link = (if t.cfg.role = .writer then s.link
          else { s.link with sending := some .blank, startWait := true }) ∧
        t.screen = (if t.cfg.role = .writer then s.screen else { s.screen with lastOrder := .blank }) ∧
        t.port = (if t.cfg.role = .output then s.port else s.port.enqueue (.state .absent)) ∧
        t = { s with
          start := t.start, cfg := t.cfg, load := t.load, listenCount := t.listenCount
          flags := t.flags, link := t.link, screen := t.screen, port := t.port }) ∧
    (s.start ≠ .loading ∨ s.resetHeld = true → exec (.imageLoaded image) s = .next s)

/-- Whatever the memory answers, the configuration formed is one in force (R129, R169): every value in its
range or set, d_max at least d_min, the limits in their order and within the body, and the ladder
normalised. A configuration in force, written as an image, loads as itself. CFG_CLAMPED follows a maximum
body length of 96 alone, whose hard limit of 50 stands below the range step 1 admits. -/
def Obligations.ConfigurationSurvivesItsImage : Prop :=
  (∀ image : List Byte, (loadImage image).1.inForce) ∧
    ∀ c : Configuration, c.inForce → loadImage c.image = (c, ⟨false, decide (c.maxBody = 96)⟩)

/-- Where beats are deposited (R42). The entry into RUNNING deposits one into an empty slot, starts the beat timer
with the beat interval, and lets auto-claim deposit a CLAIM where it applies; out of a finished LISTENING
it does nothing. The beat timer's expiry reloads it, a staged period taking force, and deposits a beat (R8,
R22); a timer that has not reached 0 gives none. -/
def Obligations.BeatsAreDeposited : Prop :=
  (∀ s : State,
    (s.start = .listening → s.listenCount = 0 → s.line.beat = none →
      ∃ t, exec .entryIntoRunning s = .next t ∧ t.start = .running ∧
        t.beatTimer = ⟨some s.cfg.beatInterval, s.cfg.beatInterval, none⟩ ∧
        t.line = { s.line with beat := some ⟨0, false⟩, floorQ := t.line.floorQ } ∧
        t.line.floorQ =
          (if s.cfg.autoClaim = true ∧ s.cfg.role ≠ .output ∧ s.floor.view = .vacant ∧
              s.port.wstate = .idle ∧ s.pendingRequest = none ∧ s.line.floorInFlight = false
            then some .claim else s.line.floorQ) ∧
        t = { s with
          start := t.start, beatTimer := t.beatTimer, line := t.line, port := t.port
          tally := t.tally }) ∧
    (s.start ≠ .listening ∨ s.listenCount ≠ 0 → exec .entryIntoRunning s = .next s)) ∧
  ∀ s : State,
    (s.beatTimer.remaining = some 0 →
      exec .beatTimerExpiry s = .next
        { s with
          beatTimer := ⟨some (s.beatTimer.staged.getD s.beatTimer.period),
            s.beatTimer.staged.getD s.beatTimer.period, none⟩
          line := { s.line with
            beat := some (s.line.beat.getD ⟨0, false⟩)
            beatReplace := s.line.beatReplace || (s.line.beat.isSome && s.line.arb == some .beat) } }) ∧
    (s.beatTimer.remaining ≠ some 0 → exec .beatTimerExpiry s = .next s)
/-! ### The frame clock -/

/-- The three kinds of frame tick (R1, R3, R4): an active edge of FP, which returns the reference state to
LOCKED; the loss watch running out in LOCKED, which enters FLYWHEEL and sets REF_LOSS; and a tick of the
internal generator in FLYWHEEL. Each raises the count by one modulo 2^32 and reads the tally levels. The
edge not selected, and any of them in LOADING or under RESETn, does nothing. -/
def Obligations.TicksRaiseTheCount : Prop :=
  ∀ (e : FpEdge) (gzl gzu : Bool) (left : List TickEvent) (s : State),
    (s.start ≠ .loading → s.resetHeld = false →
      (e = s.cfg.fpEdge →
        ∃ t, exec (.frameTick e gzl gzu left) s = .next t ∧
          t.clock = ⟨s.clock.count + 1#32, .locked, gzl, gzu⟩ ∧ t.cfg = s.cfg ∧ t.number = s.number ∧
          t.load = s.load ∧ t.sup = s.sup) ∧
      (s.clock.ref = .locked →
        (∃ t, exec (.entryIntoFlywheel gzl gzu left) s = .next t ∧
          t.clock = ⟨s.clock.count + 1#32, .flywheel, gzl, gzu⟩ ∧ hasFlag t.flags .refLoss = true ∧
          t.cfg = s.cfg ∧ t.number = s.number) ∧
        exec (.flywheelTick gzl gzu left) s = .next s) ∧
      (s.clock.ref = .flywheel →
        (∃ t, exec (.flywheelTick gzl gzu left) s = .next t ∧
          t.clock = ⟨s.clock.count + 1#32, .flywheel, gzl, gzu⟩ ∧ t.cfg = s.cfg ∧
          t.number = s.number) ∧
        exec (.entryIntoFlywheel gzl gzu left) s = .next s)) ∧
    (s.start = .loading ∨ s.resetHeld = true ∨ e ≠ s.cfg.fpEdge →
      exec (.frameTick e gzl gzu left) s = .next s) ∧
    (s.start = .loading ∨ s.resetHeld = true →
      exec (.entryIntoFlywheel gzl gzu left) s = .next s ∧
      exec (.flywheelTick gzl gzu left) s = .next s)

/-- A tick at which nothing comes to its end (R1, R6 to R8, R10, R168): every RUNNING timer's count falls by one,
the one-shot timers named as left to later steps apart, which take the tick then (log entry 6); in
LISTENING the listen count falls; under SLOW and FAST the position rises, and TALLY goes off where it
reaches the on part. STOPPED timers and a steady lamp are left. A lapse is of its own frame alone (log entry
32). A WRITER station has nothing else to do at such a tick. -/
def Obligations.TickLowersEveryTimer : Prop :=
  ∀ (gzl gzu : Bool) (left : List TickEvent) (s : State), s.quiet →
    (∀ e ∈ left, e = .pause ∨ e = .lapse ∨ e = .overlap) →
    ∃ t, exec (.frameTick s.cfg.fpEdge gzl gzu left) s = .next t ∧
      t.clock = ⟨s.clock.count + 1#32, .locked, gzl, gzu⟩ ∧
      t.pause = (if .pause ∈ left then s.pause else s.pause.map (· - 1)) ∧
      t.lapse = (if .lapse ∈ left then s.lapse else s.lapse.map (· - 1)) ∧
      t.overlap = (if .overlap ∈ left then s.overlap else s.overlap.map (· - 1)) ∧
      t.ticksDue = ⟨decide (.pause ∈ left), decide (.lapse ∈ left), decide (.overlap ∈ left)⟩ ∧
      t.beatTimer = { s.beatTimer with remaining := s.beatTimer.remaining.map (· - 1) } ∧
      t.tally = (if s.tally.pattern.blinks = true then
          { s.tally with
            timer := { s.tally.timer with remaining := s.tally.timer.remaining.map (· - 1) }
            position := s.tally.position + 1
            lamp := s.tally.lamp && decide (s.tally.position + 1 < s.tally.timer.period / 2) }
        else s.tally) ∧
      t.floor = { s.floor with lapsed := false } ∧
      t.listenCount = (if s.start = .listening then s.listenCount - 1 else s.listenCount) ∧
      (s.cfg.role = .writer → t.flags = s.flags ∧ t.sched = s.sched ∧ t.screen = s.screen ∧
        t.link = s.link) ∧
      t = { s with
        flags := t.flags, clock := t.clock, pause := t.pause, lapse := t.lapse, overlap := t.overlap
        ticksDue := t.ticksDue, beatTimer := t.beatTimer, tally := t.tally, floor := t.floor
        listenCount := t.listenCount, sched := t.sched, screen := t.screen, link := t.link }

/-- The tally patterns. The blink timer's expiry (R11): without a staged pattern a new period of the same
pattern begins with TALLY on; a staged OFF or STEADY stops the timer and sets the lamp; a staged SLOW or FAST
begins a period with the period just reloaded. A staged period is then the one in force, and none is staged (R8,
R9). The end of the on part puts TALLY off (R10). A request is staged while the pattern in force blinks,
replacing one already staged, with its blink period written to the timer; otherwise it takes force at once, SLOW
with the period P and FAST with half of it, OFF and STEADY with the timer stopped, and one for the pattern in
force does nothing (R10, R11). The position 0 under OFF and STEADY is log entry 1's. -/
def Obligations.TallyBlinkAndRequests : Prop :=
  (∀ s : State,
    (s.tally.timer.remaining = some 0 →
      ∃ t, exec .tallyBlinkExpiry s = .next t ∧ t = { s with tally := t.tally } ∧
        t.tally.staged = none ∧ t.tally.position = 0 ∧
        t.tally.pattern = s.tally.staged.getD s.tally.pattern ∧
        t.tally.lamp = decide (s.tally.staged ≠ some .off) ∧
        let period := s.tally.timer.staged.getD s.tally.timer.period
        t.tally.timer =
          (if s.tally.staged = some .off ∨ s.tally.staged = some .steady then ⟨none, period, none⟩
            else ⟨some period, period, none⟩)) ∧
    (s.tally.timer.remaining ≠ some 0 → exec .tallyBlinkExpiry s = .next s) ∧
    (s.tally.pattern.blinks = true → s.tally.timer.period / 2 ≤ s.tally.position →
      exec .tallyOnPartEnd s = .next { s with tally := { s.tally with lamp := false } }) ∧
    (s.tally.position < s.tally.timer.period / 2 → exec .tallyOnPartEnd s = .next s)) ∧
  ∀ (P : Nat) (p : Pattern) (u : Tally),
    (u.pattern = .slow ∨ u.pattern = .fast → ∀ r, u.timer.remaining = some r →
      u.request P p = { u with
        staged := some p
        timer := ⟨some r, u.timer.period,
          some (match p with
            | .slow => P
            | .fast => P / 2
            | _ => u.timer.period)⟩ }) ∧
    (u.pattern = .off ∨ u.pattern = .steady →
      (p = u.pattern → u.request P p = u) ∧
      (p ≠ u.pattern →
        (u.request P p).pattern = p ∧ (u.request P p).staged = none ∧ (u.request P p).position = 0 ∧
        (u.request P p).lamp = decide (p ≠ .off) ∧
        (u.request P p).timer =
          (match p with
            | .slow => ⟨some P, P, none⟩
            | .fast => ⟨some (P / 2), P / 2, none⟩
            | _ => ⟨none, u.timer.staged.getD u.timer.period, none⟩)))
/-! ### The cue line -/

/-- The controller that may begin offers the first frame of R23's order: the floor queue, a promoted beat,
the amend and segment queues by the weight of R24, and the beat. Otherwise it begins nothing. -/
def Obligations.ContentionOffersByOrder : Prop :=
  ∀ s : State,
    (s.mayBegin = true →
      ∃ q, exec .contentionStart s = .next { s with line := { s.line with arb := q } } ∧
        (s.line.floorQ ≠ none → q = some .floor) ∧
        (s.line.floorQ = none → ∀ b, s.line.beat = some b →
          (b.promoted = true → q = some .beat) ∧
          (b.promoted = false → s.line.amendQ = [] → s.line.segQ = [] → q = some .beat)) ∧
        (s.line.floorQ = none → (∀ b, s.line.beat = some b → b.promoted = false) →
          (s.line.amendQ ≠ [] → s.line.segQ = [] → q = some .amend) ∧
          (s.line.amendQ = [] → s.line.segQ ≠ [] → q = some .segment) ∧
          (s.line.amendQ ≠ [] → s.line.segQ ≠ [] →
            (s.cfg.amendWeight = .strict → q = some .amend) ∧
            (∀ w, s.cfg.amendWeight = .ratio w →
              q = if s.line.ratio < w then some .amend else some .segment))) ∧
        (s.line.floorQ = none → s.line.beat = none → s.line.amendQ = [] → s.line.segQ = [] → q = none)) ∧
    (s.mayBegin = false → exec .contentionStart s = .next s)

/-- A contention that another station wins. An arbitration loss leaves every queue as it is and counts one loss,
and a readback fault in the field is counted too, whatever an earlier attempt of the frame counted (log entry
10); a beat that lost counts the winner's win against itself, and is promoted at the sixteenth (R17, R25, R27).
No work is held there. Another station's win, heard by a receiver with no frame of its own under way, counts
once against a queued beat of a RUNNING station (R18, R25; log entry 9). Either win ends the mark of a lapse
(log entry 32). Work held for the arbitration field (R26; log entry 11) is done when the field ends, as its
command would be if it came then: a correction of the segment under arbitration, which is so edited in place
after a loss and made as an AMEND after a win (R108); a floor request, an UNREADY, or a change of view by a GONE
event or the overlap timer, that would withdraw the floor frame under arbitration (R84, R91, R92); and every
record that waits behind such work (R75). A FLOOR_LEAVE or an UNREADY that meets a segment under arbitration holds
its withdrawal, and the records behind it wait for the field too (R26, R75, R91; its further steps do not: log
entry 38). A held withdrawal takes its segment out, a source drop, after a loss, and does nothing after a win
(R102). -/
def Obligations.ForeignWinCountsAgainstBeat : Prop :=
  (∀ (s : State) (rb : Bool) (q : QueueName), s.line.arb = some q → s.line.held = [] →
    ∃ t, exec (.arbitrationLoss rb) s = .next t ∧
      t.line.arb = none ∧ t.line.foreign = true ∧ t.line.inFlight = s.line.inFlight ∧
      t.line.floorQ = s.line.floorQ ∧ t.line.amendQ = s.line.amendQ ∧ t.line.segQ = s.line.segQ ∧
      t.line.ratio = s.line.ratio ∧ t.line.beat.isSome = s.line.beat.isSome ∧
      t.peers.counters.arbLosses = rise s.peers.counters.arbLosses 1 ∧
      t.peers.counters.readbacks =
        (if rb then rise s.peers.counters.readbacks 1 else s.peers.counters.readbacks) ∧
      t.flags = s.flags ||| (if rb then Flag.mask .lineReadback else 0#24) ∧
      (q ≠ .beat → t.line.beat = s.line.beat) ∧
      (q = .beat → s.start = .running → ∀ n, s.line.beat = some ⟨n, false⟩ →
        (n < 15 → t.line.beat = some ⟨n + 1, false⟩ ∧
          t.peers.counters.promotions = s.peers.counters.promotions) ∧
        (n = 15 → t.line.beat = some ⟨16, true⟩ ∧
          t.peers.counters.promotions = rise s.peers.counters.promotions 1)) ∧
      t.peers.entries = s.peers.entries ∧
      t = { s with
        floor := { s.floor with lapsed := false }, line := t.line, peers := t.peers, flags := t.flags }) ∧
  (∀ s : State,
    (s.receiving = false ∨ s.line.arb ≠ none ∨ s.line.inFlight ≠ none →
      exec (.frameWin false false) s = .next s) ∧
    (s.receiving = true → s.line.arb = none → s.line.inFlight = none →
      (s.line.winCounted = true ∨ s.start ≠ .running ∨ (∀ n, s.line.beat ≠ some ⟨n, false⟩) →
        exec (.frameWin false false) s = .next
          { s with
            floor := { s.floor with lapsed := false }
            line := { s.line with foreign := true, winCounted := true } }) ∧
      (s.line.winCounted = false → s.start = .running → ∀ n, s.line.beat = some ⟨n, false⟩ →
        (n < 15 → exec (.frameWin false false) s = .next
          { s with
            floor := { s.floor with lapsed := false }
            line := { s.line with
              foreign := true, winCounted := true, beat := some ⟨n + 1, false⟩ } }) ∧
        (n = 15 → exec (.frameWin false false) s = .next
          { s with
            floor := { s.floor with lapsed := false }
            line := { s.line with foreign := true, winCounted := true, beat := some ⟨16, true⟩ }
            peers.counters.promotions := rise s.peers.counters.promotions 1 })))) ∧
  (∀ (s h : State) (c : Instr) (rb : Bool), exec c s = .next h → s.line.arb ≠ none →
    let commutes : Instr → Prop := fun e => ∃ mid, exec e s = .next mid ∧ exec e h = exec c mid
    (s.line.arb = some .segment → s.line.held = [] → h.line.held ≠ [] →
      (∃ n, c = .delete n) ∨ (∃ x, c = .repword x) →
      commutes (.arbitrationLoss rb) ∧
      ∀ g rest, s.line.segQ = g :: rest → (∀ k ∈ rest, k.number ≠ g.number) → g.words.length ≤ 20 →
        (∀ e ∈ s.asm.history, ∀ i, e.place = .queued g.number i → i < 20) →
        (∀ n, c = .delete n → ∀ e ∈ lastN n.toNat s.asm.history, ∃ i, e.place = .queued g.number i) →
        commutes (.frameWin true rb)) ∧
    (s.line.arb = some .floor → s.line.floorQ ≠ none → s.line.held = [] → h.line.held ≠ [] →
      (c = .floorTake ∨ (∃ x, c = .floorHand x) ∨ c = .floorDone ∨ c = .floorLeave ∨
          (∃ x, c = .peerAgeOut x) ∨ c = .overlapTimerExpiry →
        commutes (.arbitrationLoss rb) ∧ commutes (.frameWin true rb)) ∧
      (c = .unready → h.port.wstate = .absent ∧ ∀ e, e = .arbitrationLoss rb ∨ e = .frameWin true rb →
        ∃ mid, exec e { h with line := { h.line with held := [] } } = .next mid ∧
          exec e h = exec .unready { mid with port := { mid.port with ready := true } })) ∧
    (s.line.held.any HeldWork.busiesPort = true → s.portTakes = true →
      (∃ x, c = .word x) ∨ c = .speakerBreak ∨ c = .flush ∨ (∃ n, c = .delete n) ∨
        (∃ k m, c = .replace k m) ∨ (∃ x, c = .repword x) ∨ c = .ready ∨ c = .unready ∨ c = .floorTake ∨
        (∃ x, c = .floorHand x) ∨ c = .floorDone ∨ c = .floorLeave →
      (∃ w, h = { s with line := { s.line with held := s.line.held ++ [w] } }) ∧
        commutes (.arbitrationLoss rb) ∧ commutes (.frameWin true rb))) ∧
  (∀ (s : State) (c : Instr) (g : QueuedSegment) (rest : List QueuedSegment),
    c = .floorLeave ∨ c = .unready → s.portTakes = true → s.start = .running → s.pendingRequest = none →
    s.port.ready = true → s.line.arb = some .segment → s.line.held = [] → s.line.segQ = g :: rest →
    ∃ t, exec c s = .next t ∧ t.line.arb = some .segment ∧ t.line.segQ = [g] ∧
      t.line.held = [.withdrawSegment g.number true] ∧ t.line.held.any HeldWork.busiesPort = true ∧
      t.portTakes = true) ∧
  ∀ (s : State) (rb byRecord : Bool) (g : QueuedSegment) (rest : List QueuedSegment),
    s.line.arb = some .segment → s.line.held = [.withdrawSegment g.number byRecord] → s.line.segQ = g :: rest →
    (∀ k ∈ rest, k.number ≠ g.number) → s.asm.drain ≠ .draining →
    let free := { s with line := { s.line with held := [] } }
    (∃ mid, exec (.arbitrationLoss rb) free = .next mid ∧
      exec (.arbitrationLoss rb) s = .next
        { mid with
          line := { mid.line with
            segQ := rest
            ratio := if s.line.amendQ = [] ∨ rest = [] then 0 else s.line.ratio }
          asm := { s.asm with history := s.asm.history.filter fun e => match e.place with
            | .queued m _ => m != g.number
            | _ => true }
          flags := mid.flags ||| Flag.mask .srcDrop
          peers.counters.drops := s.dropsAfter 1 }) ∧
    exec (.frameWin true rb) s = exec (.frameWin true rb) free

/-- A SEGMENT that wins (R18, R100, R104): its first age and offsets are formed from the transmission frame,
saturated; it leaves its queue, the ratio counter returns to 0, a queued beat counts the loss (R25), and the
assembler records it as sent, with the places of its words in the history. Its header block gives class 2, the
station, kind 7 and the body's length (R14, R175). A readback fault in the field is counted, whatever an earlier
attempt of the frame counted (log entry 10), and the frame goes on (R27). A win ends the mark of a lapse (log
entry 32). -/
def Obligations.SegmentWinFillsBody : Prop :=
  ∀ (s : State) (rb : Bool) (g : QueuedSegment) (rest : List QueuedSegment) (w : SpokenWord) (ws : List SpokenWord),
    s.line.arb = some .segment → s.line.held = [] → s.line.segQ = g :: rest → g.words = w :: ws →
    let won := s.wonOverBeat rb
    ∃ b : SegmentBody,
      exec (.frameWin true rb) s = .next
        { won with
          line := { won.line with
            segQ := rest
            ratio := 0
            inFlight := some
              ⟨⟨BitVec.ofNat 8 (128 + 8 * s.number.val), 7#8,
                  BitVec.ofNat 8 (6 + (g.words.map fun v => v.text.length + 2).sum)⟩,
                .segment b, s.clock.count, rb, false⟩ }
          asm := { s.asm with
            restartPending := false
            lastSent := g.words.getLast?.map fun v => ⟨g.number, v.speech⟩
            window := lastN 4 (s.asm.window ++ [⟨g.number, g.words.length⟩])
            history := s.asm.history.map fun e =>
              match e.place with
              | .queued m i => if m = g.number then { e with place := .sent m i } else e
              | _ => e } } ∧
      b.number = g.number ∧ b.restart = s.asm.restartPending ∧ b.newSpeaker = g.newSpeaker ∧
      b.firstAge.toNat = min (s.clock.count - w.speech).toNat 65535 ∧
      b.words = g.words.map (fun v =>
        ⟨BitVec.ofNat 8 (min (v.speech - w.speech).toNat 255), v.text⟩)

/-- The wins of the other queues (R18, R22, R24, R25, R27, R43, R111). A BEAT reports the station's state at its
win, leaves the slot, and the next beat carries no start flag; a beat waiting to replace it enters afresh. A
floor frame leaves the floor queue, a RELEASE taking its point and last segment number at the win. An AMEND
leaves the amend queue, and the ratio counter rises by one up to a numeric weight, stays under STRICT, and
returns to 0 where a queue is empty. Either win counts against a queued beat. The header block sent gives the
class, 0 for a floor frame and a promoted beat, 1 for an AMEND and 3 for another beat, with the station, the
kind and the body's length (R15, R175). A readback fault in the field is counted, whatever an earlier attempt of
the frame counted (log entry 10), and the frame goes on. A win ends the mark of a lapse (log entry 32). -/
def Obligations.OwnWinsLeaveTheirQueues : Prop :=
  ∀ (s : State) (rb : Bool), s.line.held = [] →
    let won := s.wonOverBeat rb
    let sent : Nat → Byte → Nat → FrameBody → Option InFlight := fun cls kind len b =>
      some ⟨⟨BitVec.ofNat 8 (64 * cls + 8 * s.number.val), kind, BitVec.ofNat 8 len⟩, b, s.clock.count, rb, false⟩
    (∀ b : BeatSlot, s.line.arb = some .beat → s.line.beat = some b →
      exec (.frameWin true rb) s = .next
        { s.readbackCounted rb with
          floor := { s.floor with lapsed := false }
          line := { s.line with
            arb := none
            beat := if s.line.beatReplace then some ⟨0, false⟩ else none
            beatReplace := false
            firstBeat := false
            inFlight := sent (if b.promoted then 0 else 3) 8#8 6
              (.beat
                { role := s.cfg.role
                  ready := decide (s.cfg.role ≠ .output ∧ s.port.wstate ≠ .absent)
                  view := s.floor.view
                  last := match s.asm.lastSent with
                    | some m => m.number
                    | none => 255#8
                  start := s.line.firstBeat }) } }) ∧
    (∀ f : FloorFrame, s.line.arb = some .floor → s.line.floorQ = some f →
      exec (.frameWin true rb) s = .next
        { won with
          line := { won.line with
            floorQ := none
            inFlight := match f with
              | .claim => sent 0 1#8 0 .claim
              | .offer sc => sent 0 2#8 1 (.offer sc)
              | .take h => sent 0 3#8 1 (.take h)
              | .yield => sent 0 5#8 0 .yield
              | .release => sent 0 4#8 3 (match s.asm.lastSent with
                  | some m =>
                    .release (BitVec.ofNat 16 (min (s.clock.count - m.speech).toNat 65535)) m.number
                  | none => .release 65535#16 255#8) } }) ∧
    (∀ (b : AmendBody) (rest : List AmendBody), s.line.arb = some .amend → s.line.amendQ = b :: rest →
      exec (.frameWin true rb) s = .next
        { won with
          line := { won.line with
            amendQ := rest
            ratio := if rest = [] ∨ s.line.segQ = [] then 0
              else match s.cfg.amendWeight with
                | .ratio w => min (s.line.ratio + 1) w
                | .strict => s.line.ratio
            inFlight := sent 1 6#8 (match b.op with
              | .delete _ => 4
              | .replace ws => 4 + (ws.map fun w => w.length + 1).sum) (.amend b) } })

/-- The line idle for the gap gives the receiver its footing, out of LOADING (R35). Until then, and in LOADING,
a frame end is given no outcome and no report. -/
def Obligations.FootingGivesReception : Prop :=
  ∀ s : State,
    (s.start ≠ .loading → s.resetHeld = false →
      exec .lineIdleForGap s = .next { s with line := { s.line with footing := true } }) ∧
    (s.start = .loading ∨ s.resetHeld = true → exec .lineIdleForGap s = .next s) ∧
    (s.start = .loading ∨ s.resetHeld = true ∨ s.line.footing = false →
      ∀ (rx : Rx) (b : FrameBody) (raw : RawFrame),
        exec (receptionOf rx b) s = .next s ∧ exec (.frameNotAccepted raw) s = .next s)

/-! ### Reception -/

/-- The bytes of a body that passes the checks of R31, at most 255 of them, parse back to that body. On the line
an own frame's header block is its 3 data bytes, and its body goes in blocks of 48 data bytes, the last holding
the remainder (R14); each block's data bytes are followed by 4 check bytes (R175), which are free values (log
entry 44). -/
def Obligations.FrameBodySurvivesItsBytes : Prop :=
  (∀ b : FrameBody, b.parses = true → b.length ≤ 255 → parseBody b.code b.bytes = some b) ∧
  ∀ f : InFlight, ∃ body : List (List Byte), body.flatten = f.body.bytes ∧
    (∀ d ∈ body.dropLast, d.length = 48) ∧ (∀ d ∈ body, 1 ≤ d.length ∧ d.length ≤ 48) ∧
    f.blocks = ([f.header.byte0, f.header.kind, f.header.length] :: body).map fun d =>
      d ++ [Config.checkByte d 0, Config.checkByte d 1, Config.checkByte d 2, Config.checkByte d 3]

/-- A frame end that is not accepted (R28 to R31, R37), of another station's frame with its win counted (log entry
9): an unreadable header counts ANONYMOUS with LINE_LOST; a source outside the mask counts REFUSED with
LINE_REFUSED; a length above the maximum counts OVERSIZE with LINE_OVERSIZE; a body with a block
uncorrectable or missing, or cut short, counts LOST against its source, in its lost counter and last outcome
alone, with LINE_LOST; and a body whose
blocks are all readable and which fails the parse counts MALFORMED, with its grade's flag and its worst
correction in its source's entry. Nothing else moves. -/
def Obligations.UnacceptedFrameReport : Prop :=
  ∀ (raw : RawFrame) (s : State), s.receiving = true → s.line.inFlight = none → s.line.winCounted = true →
    ∃ t, exec (.frameNotAccepted raw) s = .next t ∧
      (raw.header = none →
        t = { s with
          line := { s.line with foreign := false, winCounted := false }
          flags := s.flags ||| Flag.mask .lineLost
          peers.counters.anonymous := rise s.peers.counters.anonymous 1 }) ∧
      ∀ h, raw.header = some h →
        (admitted s.cfg s.number (headerSource h) = false →
          t = { s with
            line := { s.line with foreign := false, winCounted := false }
            flags := s.flags ||| Flag.mask .lineRefused
            peers.counters.refused := rise s.peers.counters.refused 1 }) ∧
        (admitted s.cfg s.number (headerSource h) = true → s.cfg.maxBody < h.length.toNat →
          t = { s with
            line := { s.line with foreign := false, winCounted := false }
            flags := s.flags ||| Flag.mask .lineOversize
            peers.counters.oversize := rise s.peers.counters.oversize 1 }) ∧
        (admitted s.cfg s.number (headerSource h) = true → h.length.toNat ≤ s.cfg.maxBody →
          raw.blocks.length < blockCount h.length.toNat ∨
            none ∈ raw.blocks.take (blockCount h.length.toNat) ∨ raw.body.length < h.length.toNat →
          t.flags = s.flags ||| Flag.mask .lineLost ∧
          t.peer (headerSource h) = { s.peer (headerSource h) with
            lastOutcome := .lost
            counters := { (s.peer (headerSource h)).counters with
              lost := rise (s.peer (headerSource h)).counters.lost 1 } } ∧
          (∀ y, y ≠ headerSource h → t.peer y = s.peer y) ∧ t.peers.counters = s.peers.counters ∧
          t = { s with
            line := { s.line with foreign := false, winCounted := false }
            flags := t.flags, peers := t.peers }) ∧
        (∀ flips : List (Fin 4),
          admitted s.cfg s.number (headerSource h) = true → h.length.toNat ≤ s.cfg.maxBody →
          flips.length = blockCount h.length.toNat →
          raw.blocks.take (blockCount h.length.toNat) = flips.map some →
          h.length.toNat ≤ raw.body.length →
          parseBody h.kind (raw.body.take h.length.toNat) = none →
          let worst := flips.foldl max raw.headerFlips
          t.flags = s.flags ||| (if 0 < worst.val ∧ s.cfg.quality ≤ worst.val then Flag.mask .lineMarginal
            else 0#24) ∧
          t.peer (headerSource h) = { s.peer (headerSource h) with
            lastOutcome := .malformed, worst := max (s.peer (headerSource h)).worst worst } ∧
          (∀ y, y ≠ headerSource h → t.peer y = s.peer y) ∧
          t.peers.counters = { s.peers.counters with malformed := rise s.peers.counters.malformed 1 } ∧
          t = { s with
            line := { s.line with foreign := false, winCounted := false }
            flags := t.flags, peers := t.peers })
/-- Every accepted frame, of whatever kind, refreshes or learns its source (R37, R38): PRESENT, heard now, the
accepted counter up by one, and the grade recorded; the corrected or the marginal counter rises with its grade,
and the amends counter with an AMEND (R48). The lamp follows the view at an OUTPUT station (R13) and the writer
state at another one (R80, R94). No other entry changes, and no frame end touches the clock, the configuration,
the beat timer, the inserter link or the supervisory port. -/
def Obligations.AcceptedFrameRefreshesSource : Prop :=
  ∀ (rx : Rx) (b : FrameBody) (s : State), s.hears rx b →
    ∃ t, exec (receptionOf rx b) s = .next t ∧
      (t.peer rx.source).present = true ∧ (t.peer rx.source).lastHeard = s.clock.count ∧
      (t.peer rx.source).counters.accepted = rise (s.peer rx.source).counters.accepted 1 ∧
      (t.peer rx.source).counters.corrected =
        (if 0 < rx.worst.val ∧ rx.worst.val < s.cfg.quality
          then rise (s.peer rx.source).counters.corrected 1 else (s.peer rx.source).counters.corrected) ∧
      (t.peer rx.source).counters.marginal =
        (if 0 < rx.worst.val ∧ s.cfg.quality ≤ rx.worst.val
          then rise (s.peer rx.source).counters.marginal 1 else (s.peer rx.source).counters.marginal) ∧
      (t.peer rx.source).counters.amends =
        (match b with
          | .amend _ => rise (s.peer rx.source).counters.amends 1
          | _ => (s.peer rx.source).counters.amends) ∧
      (t.peer rx.source).worst = max (s.peer rx.source).worst rx.worst ∧
      ((t.peer rx.source).lastOutcome =
        if rx.worst.val = 0 then .clean else if rx.worst.val < s.cfg.quality then .corrected else .marginal) ∧
      (s.cfg.quality ≤ rx.worst.val → 0 < rx.worst.val → hasFlag t.flags .lineMarginal = true) ∧
      (∀ y, y ≠ rx.source → t.peer y = s.peer y) ∧
      (s.foreignTo rx ∨ s.port.leaves = [] ∨ s.port.leaves.length = 1 ∧ s.pendingRequest = none →
        s.lampFollows t) ∧
      t = { s with
        flags := t.flags, pause := t.pause, lapse := t.lapse, overlap := t.overlap, tally := t.tally
        line := t.line, peers := t.peers, floor := t.floor, port := t.port, asm := t.asm
        intake := t.intake, sched := t.sched, screen := t.screen }

/-- A BEAT is recorded in its source's entry (R44), and its last segment number compared with the expected
one (R45): start flag or UNKNOWN set it; a number ahead by 1 to 127 counts the missed ones and sets
SEQ_GAP; a number in step or behind changes nothing. A just-learned entry expects UNKNOWN. -/
def Obligations.BeatRecordedAndCompared : Prop :=
  ∀ (rx : Rx) (b : BeatBody) (s : State), s.hears rx (.beat b) →
    ∃ t, exec (.beatReceived rx b) s = .next t ∧
      (t.peer rx.source).role = some b.role ∧ (t.peer rx.source).ready = some b.ready ∧
      (t.peer rx.source).view = some b.view ∧ (t.peer rx.source).reportedLast = some b.last ∧
      (b.start = true ∨ (s.peer rx.source).present = false ∨ (s.peer rx.source).expected = none →
        (t.peer rx.source).expected = some (b.last + 1#8) ∧
        (t.peer rx.source).counters.missed = (s.peer rx.source).counters.missed) ∧
      ∀ e, b.start = false → (s.peer rx.source).present = true → (s.peer rx.source).expected = some e →
        let d := (b.last + 1#8 - e).toNat
        (d = 0 ∨ 128 ≤ d → (t.peer rx.source).expected = some e ∧
          (t.peer rx.source).counters.missed = (s.peer rx.source).counters.missed) ∧
        (1 ≤ d → d ≤ 127 → (t.peer rx.source).expected = some (b.last + 1#8) ∧
          (t.peer rx.source).counters.missed = rise (s.peer rx.source).counters.missed d ∧
          hasFlag t.flags .seqGap = true)

/-- The sequence check of a SEGMENT (R46), by the rows of its table in their order. A stale segment moves
nothing beyond the peer table: not the floor, the off-floor counter or intake. -/
def Obligations.SegmentSequenceCheck : Prop :=
  ∀ (rx : Rx) (b : SegmentBody) (s : State), s.hears rx (.segment b) → s.foreignTo rx →
    ∃ t, exec (.segmentReceived rx b) s = .next t ∧
      (b.restart = true ∨ (s.peer rx.source).present = false ∨ (s.peer rx.source).expected = none →
        (t.peer rx.source).expected = some (b.number + 1#8) ∧
        (t.peer rx.source).counters.missed = (s.peer rx.source).counters.missed ∧
        (t.peer rx.source).counters.stale = (s.peer rx.source).counters.stale) ∧
      ∀ e, b.restart = false → (s.peer rx.source).present = true → (s.peer rx.source).expected = some e →
        let d := (b.number - e).toNat
        (d ≤ 127 → (t.peer rx.source).expected = some (b.number + 1#8) ∧
          (t.peer rx.source).counters.missed = rise (s.peer rx.source).counters.missed d ∧
          (t.peer rx.source).counters.stale = (s.peer rx.source).counters.stale ∧
          (1 ≤ d → hasFlag t.flags .seqGap = true)) ∧
        (128 ≤ d → (t.peer rx.source).expected = some e ∧
          (t.peer rx.source).counters.stale = rise (s.peer rx.source).counters.stale 1 ∧
          (t.peer rx.source).counters.missed = (s.peer rx.source).counters.missed ∧
          (t.peer rx.source).counters.offFloor = (s.peer rx.source).counters.offFloor ∧
          t.floor = s.floor ∧ t.intake = s.intake ∧ t.sched = s.sched ∧ t.screen = s.screen)

/-- The ageing of an entry (R40, R41, R63): a PRESENT entry whose silence exceeds k beat intervals becomes
ABSENT and not reported, its counters and last heard kept, PEER_GONE is set, and the view follows the GONE
table. With another view the floor timers and, at an output, intake follow (R53, R64): a fallback merge where
the outgoing station of an OVERLAP is gone (R118), a discard where the incoming one is (R121). With the view
kept they are left. The lamp follows the view, or the writer state (R13, R80, R94). An entry within the timeout,
or ABSENT, is left. -/
def Obligations.PeerAgesOut : Prop :=
  ∀ (x : Station) (s : State),
    ((s.peer x).present = true →
      (s.cfg.timeoutMultiple * s.cfg.beatInterval : Int) < interval s.clock.count (s.peer x).lastHeard →
      let v : View := match s.floor.view with
        | .vacant => .vacant
        | .held h => if x = h then .vacant else .held h
        | .offered h sc => if x = h then .vacant else .offered h sc
        | .overlap h i => if x = h then .held i else if x = i then .held h else .overlap h i
      ∃ t, exec (.peerAgeOut x) s = .next t ∧ hasFlag t.flags .peerGone = true ∧
        t.peer x = { s.peer x with
          present := false, role := none, ready := none, view := none, reportedLast := none
          expected := none } ∧
        (∀ y, y ≠ x → t.peer y = s.peer y) ∧
        (v = s.floor.view → t = { s with flags := t.flags, peers := t.peers }) ∧ s.lampFollows t ∧
        (v ≠ s.floor.view →
          t.floor = { s.floor with view := v, lapsed := false } ∧ s.timersFollow v t ∧
          (s.cfg.role ≠ .writer → s.intakeFollows v t) ∧
          (s.cfg.role = .writer → t.intake = s.intake ∧ t.sched = s.sched)) ∧
        t = { s with
          flags := t.flags, pause := t.pause, lapse := t.lapse, overlap := t.overlap, tally := t.tally
          line := t.line, peers := t.peers, floor := t.floor, port := t.port, asm := t.asm
          intake := t.intake, sched := t.sched }) ∧
    ((s.peer x).present = false ∨
        interval s.clock.count (s.peer x).lastHeard ≤ (s.cfg.timeoutMultiple * s.cfg.beatInterval : Int) →
      exec (.peerAgeOut x) s = .next s)

/-! ### The floor -/

/-- CLAIM and OFFER. A CLAIM into a VACANT view makes it HELD of the claimant; any other is late: counted, and
FLOOR_STRAY keeps its value, while of another station's late CLAIM the flags are changed by its grade alone
(R55). The timers, intake and the schedule are left. An OFFER from the holder of HELD or OFFERED to another
station makes the view OFFERED and loads the lapse timer with the full interval, also where it repeats the
offer; any other OFFER is stray (R53, R54, R57), and so is a re-offer of the holder that ends at the frame of a
lapse, after it (R61), no frame having won the line since (log entry 32). -/
def Obligations.ClaimAndOfferTaken : Prop :=
  (∀ (rx : Rx) (s : State), s.hears rx .claim →
    ∃ t, exec (.claimReceived rx) s = .next t ∧
      t.floor = (if s.floor.view = .vacant then { s.floor with view := .held rx.source, lapsed := false }
        else { s.floor with lateClaims := rise s.floor.lateClaims 1 }) ∧
      (s.floor.view ≠ .vacant → hasFlag t.flags .floorStray = hasFlag s.flags .floorStray ∧
        (s.foreignTo rx → t.flags = s.flags |||
          (if 0 < rx.worst.val ∧ s.cfg.quality ≤ rx.worst.val then Flag.mask .lineMarginal else 0#24))) ∧
      t = { s with
        flags := t.flags, pause := t.pause, tally := t.tally, line := t.line, peers := t.peers
        floor := t.floor, port := t.port, asm := t.asm }) ∧
  ∀ (rx : Rx) (sc : Successor) (s : State), s.hears rx (.offer sc) →
    let taken := (s.floor.view = .held rx.source ∧ s.floor.lapsed = false ∨
        ∃ sc', s.floor.view = .offered rx.source sc') ∧
      sc ≠ .station rx.source
    ∃ t, exec (.offerReceived rx sc) s = .next t ∧
      (taken → t.floor = { s.floor with view := .offered rx.source sc, lapsed := false } ∧
        t.lapse = some s.cfg.lapseInterval) ∧
      (¬taken → t.floor = { s.floor with strays := rise s.floor.strays 1 } ∧ t.lapse = s.lapse ∧
        hasFlag t.flags .floorStray = true) ∧
      t = { s with
        flags := t.flags, pause := t.pause, lapse := t.lapse, tally := t.tally, line := t.line
        peers := t.peers, floor := t.floor, port := t.port, asm := t.asm }
/-- A TAKE that answers the offer of the view makes it OVERLAP, stops the lapse timer, loads the overlap timer
and opens the hold list, which ends an armed trim; any other TAKE is stray (R53, R58, R115). -/
def Obligations.TakeOpensOverlap : Prop :=
  ∀ (rx : Rx) (hx : Station) (s : State), s.hears rx (.take hx) →
    let taken := rx.source ≠ hx ∧
      (s.floor.view = .offered hx (.station rx.source) ∨ s.floor.view = .offered hx .any)
    ∃ t, exec (.takeReceived rx hx) s = .next t ∧
      (taken → t.floor = { s.floor with view := .overlap hx rx.source, lapsed := false } ∧ t.lapse = none ∧
        t.overlap = some s.cfg.overlapLimit ∧
        (s.cfg.role ≠ .writer → t.intake.hold = [] ∧ t.intake.armed = none ∧
          t.intake.lastWord = s.intake.lastWord.filter (fun m => m.station == hx))) ∧
      (¬taken → t.floor = { s.floor with strays := rise s.floor.strays 1 } ∧ t.lapse = s.lapse ∧
        t.overlap = s.overlap ∧ hasFlag t.flags .floorStray = true ∧ t.intake = s.intake) ∧
      t = { s with
        flags := t.flags, pause := t.pause, lapse := t.lapse, overlap := t.overlap, tally := t.tally
        line := t.line, peers := t.peers, floor := t.floor, port := t.port, asm := t.asm
        intake := t.intake }

/-- A RELEASE from the outgoing holder of an OVERLAP makes the view HELD of the incoming station, stops the
overlap timer, and at an output merges: each held segment is trimmed against the reception frame less the
point, what survives is placed, the hold list is empty, and trimming is armed for the incoming station with
that point (R59, R117, R119, R120). Its last segment number is first compared with the expected one, as a
beat's without the start flag is (R45, R59). Any other RELEASE is stray, and its number is not compared. -/
def Obligations.ReleaseMergesOrStrays : Prop :=
  ∀ (rx : Rx) (p : Age) (m : Byte) (s : State), s.hears rx (.release p m) →
    ∃ t, exec (.releaseReceived rx p m) s = .next t ∧
      (∀ i, s.floor.view = .overlap rx.source i →
        t.floor = { s.floor with view := .held i, lapsed := false } ∧ t.overlap = none ∧ t.lapse = s.lapse ∧
        (s.cfg.role ≠ .writer → s.mergedTo (some (s.clock.count - BitVec.ofNat 32 p.toNat)) i t) ∧
        ((s.peer rx.source).present = false ∨ (s.peer rx.source).expected = none →
          (t.peer rx.source).expected = some (m + 1#8) ∧
          (t.peer rx.source).counters.missed = (s.peer rx.source).counters.missed) ∧
        ∀ e, (s.peer rx.source).present = true → (s.peer rx.source).expected = some e →
          let d := (m + 1#8 - e).toNat
          (d = 0 ∨ 128 ≤ d → (t.peer rx.source).expected = some e ∧
            (t.peer rx.source).counters.missed = (s.peer rx.source).counters.missed) ∧
          (1 ≤ d → d ≤ 127 → (t.peer rx.source).expected = some (m + 1#8) ∧
            (t.peer rx.source).counters.missed = rise (s.peer rx.source).counters.missed d ∧
            hasFlag t.flags .seqGap = true)) ∧
      ((∀ i, s.floor.view ≠ .overlap rx.source i) →
        t.floor = { s.floor with strays := rise s.floor.strays 1 } ∧ t.overlap = s.overlap ∧
        t.lapse = s.lapse ∧ hasFlag t.flags .floorStray = true ∧ t.intake = s.intake ∧
        t.sched = s.sched ∧ (t.peer rx.source).counters.missed = (s.peer rx.source).counters.missed ∧
        (t.peer rx.source).expected =
          (if (s.peer rx.source).present = true then (s.peer rx.source).expected else none)) ∧
      t = { s with
        flags := t.flags, pause := t.pause, lapse := t.lapse, overlap := t.overlap, tally := t.tally
        line := t.line, peers := t.peers, floor := t.floor, port := t.port, asm := t.asm
        intake := t.intake, sched := t.sched }

/-- A YIELD by the table of R60, in a view that names two stations where it names two. The outgoing station's is,
at an output, a fallback merge against the outgoing last-word time, where that is the outgoing station's
(R118); the incoming station's a discard (R121). -/
def Obligations.YieldByTable : Prop :=
  ∀ (rx : Rx) (s : State), s.hears rx .yield → s.viewNamesTwo = true →
    ∃ t, exec (.yieldReceived rx) s = .next t ∧
      (s.floor.view = .held rx.source → t.floor = { s.floor with view := .vacant, lapsed := false } ∧
        t.lapse = s.lapse ∧ t.overlap = s.overlap) ∧
      (∀ sc, s.floor.view = .offered rx.source sc → t.floor = { s.floor with view := .vacant, lapsed := false } ∧
        t.lapse = none ∧ t.overlap = s.overlap) ∧
      (∀ i, s.floor.view = .overlap rx.source i → t.floor = { s.floor with view := .held i, lapsed := false } ∧
        t.overlap = none ∧ t.lapse = s.lapse ∧ (s.cfg.role ≠ .writer →
          s.mergedTo ((s.intake.lastWord.filter fun m => m.station == rx.source).map (·.time)) i t)) ∧
      (∀ h, s.floor.view = .overlap h rx.source → t.floor = { s.floor with view := .held h, lapsed := false } ∧
        t.overlap = none ∧ t.lapse = s.lapse ∧
        (s.cfg.role ≠ .writer → t.intake.hold = [] ∧ t.intake.armed = none ∧
          t.intake.discarded = rise s.intake.discarded s.intake.hold.length ∧ t.sched = s.sched)) ∧
      (s.floor.view.heldBy rx.source = false → s.floor.view.incomingIs rx.source = false →
        t.floor = { s.floor with strays := rise s.floor.strays 1 } ∧ t.lapse = s.lapse ∧
        t.overlap = s.overlap ∧ t.intake = s.intake ∧ t.sched = s.sched ∧
        hasFlag t.flags .floorStray = true) ∧
      t = { s with
        flags := t.flags, pause := t.pause, lapse := t.lapse, overlap := t.overlap, tally := t.tally
        line := t.line, peers := t.peers, floor := t.floor, port := t.port, asm := t.asm
        intake := t.intake, sched := t.sched }

/-- The lapse and overlap timers at a tick that each has still to take, in a step of its own (log entry 6): a
running count falls by one (R6). The lapse timer's expiry in OFFERED returns the view to HELD and sets
FLOOR_LAPSE (R61), and a re-offer under way that ends still at this frame is then stray (log entry 32). This
station's own writer is told LAPSED, and is ON_AIR, its queued re-offer kept (R88). The overlap timer's expiry
in OVERLAP gives HELD of the incoming station and, at an output, is a fallback merge against the outgoing
last-word time, where that is the outgoing station's (R62, R118). The lamp follows the writer state (R80). A
timer that has no tick to take gives none. -/
def Obligations.FloorTimersExpire : Prop :=
  ∀ s : State,
    (∀ h sc, s.ticksDue.lapse = true → s.lapse = some 1 → s.floor.view = .offered h sc →
      let offers := ∃ sc', s.line.floorQ = some (.offer sc')
      ∃ t, exec .lapseTimerExpiry s = .next t ∧
        t.floor = { s.floor with view := .held h, lapsed := true } ∧
        t.lapse = none ∧ hasFlag t.flags .floorLapse = true ∧
        (h = s.number → s.cfg.role ≠ .output → s.port.ready = true → s.port.leaves = [] →
          s.line.floorInFlight = false → s.asm.drain = .idle → s.line.floorQ = none ∨ offers →
          t.port = ({ s.port with splitIdle := false }.told [.outcome .lapsed]).settled .onAir ∧
          t.flags = s.flags ||| Flag.mask .floorLapse ∧ t.line = s.line ∧ t.asm = s.asm ∧
          t.pause = s.pause) ∧
        s.lampFollows t ∧ t.peers.entries = s.peers.entries ∧
        t = { s with
          flags := t.flags, pause := t.pause, lapse := t.lapse, tally := t.tally, line := t.line
          peers := t.peers, floor := t.floor, port := t.port, asm := t.asm
          ticksDue := { s.ticksDue with lapse := false } }) ∧
    (s.ticksDue.lapse = true → (s.lapse = none ∨ ∃ r, s.lapse = some r ∧ 2 ≤ r) →
      exec .lapseTimerExpiry s = .next
        { s with lapse := s.lapse.map (· - 1), ticksDue := { s.ticksDue with lapse := false } }) ∧
    (s.ticksDue.lapse = false → exec .lapseTimerExpiry s = .next s) ∧
    (∀ h i, s.ticksDue.overlap = true → s.overlap = some 1 → s.floor.view = .overlap h i →
      ∃ t, exec .overlapTimerExpiry s = .next t ∧
        t.floor = { s.floor with view := .held i, lapsed := false } ∧
        t.overlap = none ∧ s.lampFollows t ∧ t.peers.entries = s.peers.entries ∧
        (s.cfg.role ≠ .writer →
          s.mergedTo ((s.intake.lastWord.filter fun m => m.station == h).map (·.time)) i t) ∧
        t = { s with
          flags := t.flags, pause := t.pause, overlap := t.overlap, tally := t.tally, line := t.line
          peers := t.peers, floor := t.floor, port := t.port, asm := t.asm
          intake := t.intake, sched := t.sched
          ticksDue := { s.ticksDue with overlap := false } }) ∧
    (s.ticksDue.overlap = true → (s.overlap = none ∨ ∃ r, s.overlap = some r ∧ 2 ≤ r) →
      exec .overlapTimerExpiry s = .next
        { s with overlap := s.overlap.map (· - 1), ticksDue := { s.ticksDue with overlap := false } }) ∧
    (s.ticksDue.overlap = false → exec .overlapTimerExpiry s = .next s)

/-- Adoption (R66 to R68): a beat from the authority that reports a different view is adopted, as is one that
names its sender as holder into a VACANT view; an OVERLAP whose incoming station is ABSENT here gives HELD of
its holder, and is adopted as it stands where its holder is ABSENT (log entry 37). The timers and, at an
output, intake follow the change (R53, R64). Beats of others, own beats and beats of the same view leave it. -/
def Obligations.BeatAdoption : Prop :=
  ∀ (rx : Rx) (b : BeatBody) (s : State), s.hears rx (.beat b) →
    s.floor.view.heldBy s.number = false →
    let adopts := rx.source ≠ s.number ∧
      (s.floor.view.heldBy rx.source = true ∨
        s.floor.view = .vacant ∧ b.view.heldBy rx.source = true)
    let v := s.adopted rx.source b.view
    ∃ t, exec (.beatReceived rx b) s = .next t ∧
      (¬adopts ∨ v = s.floor.view → t.floor = s.floor ∧ t.lapse = s.lapse ∧ t.overlap = s.overlap ∧
        t.intake = s.intake ∧ t.sched = s.sched) ∧
      (adopts → v ≠ s.floor.view →
        t.floor = { s.floor with view := v, lapsed := false, adoptions := rise s.floor.adoptions 1 } ∧
        s.timersFollow v t ∧ (s.cfg.role ≠ .writer → s.intakeFollows v t))

/-- The split (R70): a station that holds the floor in its own view yields to the beat of a lower station that
reports itself as holder, also where that beat reports an OVERLAP this station's timer has ended (log entry 34).
It adopts the whole reported view by R66 and R68, with FLOOR_SPLIT and the adoptions counter, and its timers and
intake follow (R53, R64). Its writer is IDLE; its open segment and every queued one go, each a source drop, with
SRC_DROP, and counted in RUNNING alone (R49; log entry 35), a withdrawn RELEASE being none (log entry 40); and
LOST_FLOOR is sent, at every split, after the ABORTED of a drain that was in progress (R71, R93, R102; log entry
33). Every other beat of another station leaves its view. -/
def Obligations.SplitYieldsToLowerStation : Prop :=
  ∀ (rx : Rx) (b : BeatBody) (s : State), s.hears rx (.beat b) →
    s.floor.view.heldBy s.number = true → rx.source ≠ s.number →
    let v := s.adopted rx.source b.view
    ∃ t, exec (.beatReceived rx b) s = .next t ∧
      (b.view.heldBy rx.source = true → rx.source.val < s.number.val →
        t.floor = { s.floor with view := v, lapsed := false, adoptions := rise s.floor.adoptions 1 } ∧
        hasFlag t.flags .floorSplit = true ∧ s.timersFollow v t ∧
        (s.cfg.role ≠ .writer → s.intakeFollows v t) ∧
        (s.cfg.role ≠ .output → s.line.floorUnderArb = false → s.port.ready = true →
          s.claimOut = false → t.port.wstate = .idle) ∧
        (s.cfg.role ≠ .output → s.port.ready = true → s.port.wstate.sending = true →
          s.line.floorInFlight = false → s.port.leaves = [] → s.line.floorUnderArb = false →
          s.line.arb ≠ some .segment →
          s.line.floorQ = none ∨ s.line.floorQ = some .release →
          let drains := s.asm.drain = .draining ∨ s.line.floorQ = some .release
          let drops := (if s.asm.words = [] then 0 else 1) + s.line.segQ.length
          t.line.segQ = [] ∧ t.asm.words = [] ∧ t.asm.newSpeaker = false ∧
          t.peers.counters.drops = s.dropsAfter drops ∧
          (1 ≤ drops → hasFlag t.flags .srcDrop = true) ∧
          t.asm.drain = .idle ∧
          (¬drains →
            t.line.floorQ = none ∧
            t.port = ({ s.port with splitIdle := true }.told [.outcome .lostFloor]).settled .idle) ∧
          ((∃ i, s.floor.view = .overlap s.number i) → drains →
            hasFlag t.flags .wrAborted = true ∧ t.line.floorQ = none ∧
            t.port = ({ s.port with splitIdle := true }.told
              [.outcome .aborted, .outcome .lostFloor]).settled .idle))) ∧
      (b.view.heldBy rx.source = false ∨ s.number.val < rx.source.val →
        t.floor = s.floor ∧ t.lapse = s.lapse ∧ t.overlap = s.overlap ∧ t.intake = s.intake ∧
        t.sched = s.sched ∧ t.port = s.port)

/-- A GONE event of this station, or an adoption that takes away its right to send (R40, R63, R66). With a
writer on air and nothing pending, LOST_FLOOR is sent; a pending OFFER is withdrawn first and answered ABORTED,
with WR_ABORTED (R93); the writer is IDLE, and its text goes (R102). A leave whose YIELD is still queued is
GRANTED instead, and is told of no loss (R92). The passage of an OVERLAP with this station outgoing to HELD of
its incoming station is told by GRANTED where a drain or its RELEASE is pending, and by STATE alone otherwise
(R90). A view that has become VACANT lets auto-claim deposit a CLAIM (R94). The lamp follows the writer states
(R80). The view adopted is log entry 37's where the reported holder is ABSENT. -/
def Obligations.LossOfFloorTold : Prop :=
  ∀ (c : Instr) (v : View) (s : State),
    c = .peerAgeOut s.number ∧ (s.peer s.number).present = true ∧
        (s.cfg.timeoutMultiple * s.cfg.beatInterval : Int) <
          interval s.clock.count (s.peer s.number).lastHeard ∧
        v = (match s.floor.view with
          | .overlap h i => if s.number = h then .held i else .held h
          | _ => .vacant) ∨
      (∃ (rx : Rx) (b : BeatBody), c = .beatReceived rx b ∧ s.hears rx (.beat b) ∧ rx.source ≠ s.number ∧
        s.floor.view.heldBy rx.source = true ∧ v = s.adopted rx.source b.view) →
    s.floor.view.right s.number = true → v.right s.number = false →
    s.cfg.role ≠ .output → s.port.ready = true → s.port.leaves = [] → s.line.arb = none →
    s.line.inFlight = none →
    let claims := s.cfg.autoClaim = true ∧ s.start = .running ∧ v = .vacant
    let handsOver := ∃ i, s.floor.view = .overlap s.number i ∧ v = .held i
    ∃ t, exec c s = .next t ∧ t.floor.view = v ∧ s.lampFollows t ∧
      let tells : List Notice → Prop := fun os =>
        let port := ({ s.port with splitIdle := false }.told os).settled .idle
        (t.port = if claims then port.settled .claiming else port) ∧
          t.line.floorQ = (if claims then some .claim else none) ∧ t.asm.drain = .idle ∧
          (s.port.wstate.sending = true →
            t.asm.words = [] ∧ t.asm.newSpeaker = false ∧ t.line.segQ = [])
      (s.port.wstate.sending = true → s.line.floorQ = none → s.asm.drain = .idle →
        tells (if handsOver then [] else [.outcome .lostFloor])) ∧
      (∀ sc, s.port.wstate.sending = true → s.line.floorQ = some (.offer sc) → s.asm.drain = .idle →
        ¬handsOver →
        tells [.outcome .aborted, .outcome .lostFloor] ∧ hasFlag t.flags .wrAborted = true) ∧
      (s.line.floorQ = some .yield → s.port.wstate = .idle → s.asm.drain = .idle →
        tells [.outcome .granted]) ∧
      (handsOver → s.port.wstate = .draining →
        s.line.floorQ = none ∧ s.asm.drain = .draining ∨
          s.line.floorQ = some .release ∧ s.asm.drain = .reported →
        tells [.outcome .granted])

/-- The end of an own frame, accepted or not (R34): it leaves flight, and a readback fault found since its win
is counted where the frame has had none since (R27; log entry 10). An ANONYMOUS end is the own frame's (log
entry 19). With no other request outstanding at the port, the end of an own floor frame is answered from the
view as it then stands: a CLAIM or TAKE (R86), an OFFER (R88), a RELEASE (R90) and a YIELD (R91), each by an
OUTCOME and, where the writer state becomes another one, a STATE (R79, R80). A CLAIM into a VACANT view is
GRANTED and ON_AIR; one that finds another holder is REFUSED_HELD and IDLE. The end of the last SEGMENT of a
drain completes it, and its RELEASE is deposited; while more are queued the drain goes on (R89, R101, R110). A
leave that waited for the end is decided then, after the frame's own answer: a YIELD is deposited where the view
gives the right to send, and otherwise it is GRANTED, unless it aborted a request (R91). The lamp follows the
writer state (R80). A frame that is not accepted leaves the view. -/
def Obligations.OwnFrameEndsAnswered : Prop :=
  ∀ (s : State) (f : InFlight), s.line.inFlight = some f →
    let faults : Bool → Bool := fun rb => rb && !f.faulted
    let ends : Bool → State → Prop := fun rb t =>
      t.line.inFlight = none ∧
      t.peers.counters.readbacks =
        (if faults rb then rise s.peers.counters.readbacks 1 else s.peers.counters.readbacks) ∧
      (faults rb = true → hasFlag t.flags .lineReadback = true)
    let answer : View → Option Answer := fun v =>
      match f.body with
      | .claim => some (if v.heldBy s.number then .granted else .refusedHeld)
      | .take _ => some (if v.right s.number then .granted else .refusedHeld)
      | .offer sc => some (if v = .offered s.number sc then .granted else .refusedState)
      | .release _ _ => some (if v.heldBy s.number then .refusedState else .granted)
      | .yield => some (if v.right s.number then .refusedState else .granted)
      | _ => none
    let answered : State → Prop := fun t =>
      s.cfg.role ≠ .output → s.port.ready = true → s.port.leaves = [] → s.port.splitIdle = false →
      s.line.floorQ = none → (s.asm.drain = .idle ∨ ∃ p m, f.body = .release p m) →
      ∀ o, answer t.floor.view = some o →
        t.port = (s.port.told [.outcome o]).settled (t.floor.view.writerState s.number) ∧
        t.asm.drain = .idle
    let drains : State → Prop := fun t =>
      s.cfg.role ≠ .output → s.port.ready = true → s.port.wstate = .draining → s.port.leaves = [] →
      s.port.splitIdle = false → s.line.floorQ = none → s.asm.drain = .draining →
      (∃ g, f.body = .segment g) → t.floor.view = s.floor.view →
        t.port = s.port ∧ t.line.segQ = s.line.segQ ∧
        (s.line.segQ = [] → t.asm.drain = .reported ∧ t.line.floorQ = some .release) ∧
        (s.line.segQ ≠ [] → t.asm.drain = .draining ∧ t.line.floorQ = none)
    let waited : State → Prop := fun t => ∀ aborted,
      s.cfg.role ≠ .output → s.port.ready = true → s.port.wstate = .idle → s.port.leaves = [aborted] →
      s.port.splitIdle = false → s.line.floorQ = none → s.asm.drain = .idle → s.start = .running →
      ∀ o, answer t.floor.view = some o →
        let yields := t.floor.view.right s.number = true
        t.port = ({ s.port with leaves := [] }.told
          (.outcome o :: if yields ∨ aborted = true then [] else [.outcome .granted])) ∧
        t.line.floorQ = (if yields then some .yield else none)
    let lamp : State → Prop := fun t => s.port.leaves = [] → s.lampFollows t
    (∀ (rx : Rx) (b : FrameBody), s.hears rx b → rx.source = s.number →
      ∃ t, exec (receptionOf rx b) s = .next t ∧ ends rx.readback t ∧ answered t ∧ drains t ∧ waited t ∧ lamp t ∧
        (b = .claim → s.floor.view = .vacant → t.floor.view = .held s.number) ∧
        (∀ h, b = .claim → s.floor.view = .held h → t.floor.view = .held h)) ∧
    ∀ raw : RawFrame, s.receiving = true →
      raw.header = none ∨ (∃ h, raw.header = some h ∧ headerSource h = s.number) →
      ∃ t, exec (.frameNotAccepted raw) s = .next t ∧ ends raw.readback t ∧ answered t ∧ drains t ∧ waited t ∧
        lamp t ∧
        ((∀ h, raw.header = some h →
            raw.blocks.length < blockCount h.length.toNat ∨
              none ∈ raw.blocks.take (blockCount h.length.toNat) ∨ raw.body.length < h.length.toNat ∨
              parseBody h.kind (raw.body.take h.length.toNat) = none) → t.floor = s.floor)

/-! ### Intake and the cue schedule -/

/-- The floor check of a SEGMENT that the sequence check passes (R46, R56, R72, R73): into a VACANT view it is an
implicit claim; an off-floor one is counted against its source and stops; an incoming one joins the tail of
the hold list with its local speech times (R113, R116). In a list that holds six the oldest is merged alone,
trimmed against the outgoing last-word time where that is the outgoing station's, and counted as a hold
overflow (R116, R119). -/
def Obligations.SegmentFloorCheck : Prop :=
  ∀ (rx : Rx) (b : SegmentBody) (s : State), s.hears rx (.segment b) → s.inSequence rx.source b →
    let held : HeldSegment := ⟨rx.source, b.number, b.newSpeaker, s.clock.count,
      b.words.mapIdx fun i w =>
        ⟨w.text, s.clock.count - BitVec.ofNat 32 b.firstAge.toNat + BitVec.ofNat 32 w.offset.toNat, i, 0⟩⟩
    ∃ t, exec (.segmentReceived rx b) s = .next t ∧
      (s.floor.view = .vacant → t.floor = { s.floor with view := .held rx.source, lapsed := false } ∧
        (t.peer rx.source).counters.offFloor = (s.peer rx.source).counters.offFloor) ∧
      (s.floor.view ≠ .vacant → t.floor = s.floor) ∧
      (s.floor.view ≠ .vacant → s.floor.view.right rx.source = false →
        (t.peer rx.source).counters.offFloor = rise (s.peer rx.source).counters.offFloor 1 ∧
        t.intake = s.intake ∧ t.sched = s.sched) ∧
      (s.floor.view.right rx.source = true →
        (t.peer rx.source).counters.offFloor = (s.peer rx.source).counters.offFloor) ∧
      ∀ h, h ≠ rx.source → s.floor.view = .overlap h rx.source → s.cfg.role ≠ .writer →
        (s.intake.hold.length < 6 →
          t.sched = s.sched ∧ t.intake = { s.intake with hold := s.intake.hold ++ [held] }) ∧
        (∀ g rest, s.intake.hold = g :: rest → 6 ≤ s.intake.hold.length →
          let P := (s.intake.lastWord.filter fun m => m.station == h).map (·.time)
          let kept := s.keptWords P g
          let empties := P ≠ none ∧ kept = []
          t.intake = { s.intake with
            hold := rest ++ [held]
            overflows := rise s.intake.overflows 1
            trimmed := rise s.intake.trimmed (g.words.length - kept.length)
            emptied := if empties then rise s.intake.emptied 1 else s.intake.emptied
            armed := if empties then s.intake.armed
              else s.intake.armed.filter fun a => a.station == g.source } ∧
          t.sched = s.placed (s.cuesOf g kept))

/-- A SEGMENT of the holder, of a station that becomes it by an implicit claim, or of the outgoing station, at
an output (R56, R114, R120, R124, R125). Its last word is stamped. An outgoing station's goes on whole, and ends
an armed trim for another station. A holder's does the same where no trim is armed for its station; one armed
for it ends at a segment whose first word is later than the trim point by more than the margin, which is placed
untouched, and otherwise trims it and stays: the removed words are counted, and what survives is placed with
TRIMMED on its first row. A segment of one row in an empty schedule becomes one PENDING record, with the speech
times of its first and last words, due at the frame after this one or at its ideal time if that is later (R125,
R131, R142, R145). Cue breaking (R124): the rows joined are the words in their order, one longer than W in
pieces of W characters and a last one, each with the word's speech time and index; no row is empty or beyond W;
and the first word of a later row did not fit the row before. -/
def Obligations.HolderSegmentTaken : Prop :=
  (∀ (W : Nat) (ws : List TimedWord), 1 ≤ W →
    let length : List TimedWord → Nat := fun row => (joinText (row.map (·.text))).length
    (breakRows W ws).flatten = ws.flatMap (fun w =>
      (List.range (max 1 ((w.text.length + W - 1) / W))).map fun j =>
        { w with text := (w.text.drop (W * j)).take W, piece := w.piece + j }) ∧
    (∀ row ∈ breakRows W ws, row ≠ [] ∧ length row ≤ W) ∧
    ∀ (before after : List (List TimedWord)) (row rest : List TimedWord) (w : TimedWord),
      breakRows W ws = before ++ row :: (w :: rest) :: after → W < length (row ++ [w])) ∧
  ∀ (rx : Rx) (b : SegmentBody) (s : State), s.hears rx (.segment b) → s.inSequence rx.source b →
    s.cfg.role ≠ .writer →
    let outgoing := ∃ i, s.floor.view = .overlap rx.source i
    let holder := s.floor.view = .vacant ∨ s.floor.view = .held rx.source ∨
      ∃ sc, s.floor.view = .offered rx.source sc
    outgoing ∨ holder →
    let words := b.timed s.clock.count
    let whole : HeldSegment := ⟨rx.source, b.number, b.newSpeaker, s.clock.count, words⟩
    let margin := BitVec.ofNat 32 s.cfg.trimMargin
    ∃ t, exec (.segmentReceived rx b) s = .next t ∧
      t.intake.lastWord = words.getLast?.map (fun w => ⟨w.speech, rx.source⟩) ∧
      t.intake = { s.intake with
        lastWord := t.intake.lastWord, armed := t.intake.armed, trimmed := t.intake.trimmed } ∧
      (outgoing ∨ s.intake.armed = none ∨ (∃ a, s.intake.armed = some a ∧ a.station ≠ rx.source) →
        t.intake.armed = s.intake.armed.filter (fun a => a.station == rx.source) ∧
        t.intake.trimmed = s.intake.trimmed ∧ t.sched = s.placed (s.cuesOf whole words)) ∧
      (∀ a w, holder → s.intake.armed = some a → a.station = rx.source → words.head? = some w →
        (0 < interval w.speech (a.time + margin) →
          t.intake.armed = none ∧ t.intake.trimmed = s.intake.trimmed ∧
          t.sched = s.placed (s.cuesOf whole words)) ∧
        (interval w.speech (a.time + margin) ≤ 0 →
          let kept := words.filter fun w => decide (0 < interval w.speech (a.time + margin))
          t.intake.armed = some a ∧
          t.intake.trimmed = rise s.intake.trimmed (words.length - kept.length) ∧
          t.sched = s.placed (s.cuesOf whole kept))) ∧
      (s.intake.armed = none → s.sched.cues = [] → breakRows s.cfg.rowWidth words = [words] →
        ∃ c, t.sched.cues = [c] ∧
          t.sched.nextCue = s.sched.nextCue + 1 ∧ c.number = s.sched.nextCue ∧
          c.key = some ⟨rx.source, b.number⟩ ∧ c.words = words ∧ c.shown = false ∧
          c.attrs = ⟨b.newSpeaker, false, false⟩ ∧ c.k = s.clock.count ∧ c.lamQ = 0 ∧
          words.head?.map (·.speech) = some c.s ∧ words.getLast?.map (·.speech) = some c.e ∧
          c.tOn = laterOf (c.s + BitVec.ofNat 32 s.cfg.delay) (s.clock.count + 1#32) ∧
          c.tOff = c.tOn + BitVec.ofNat 32 c.d ∧ t.intake.lastWord = some ⟨c.e, rx.source⟩)

/-- The recompute and the drops of a placement. A recompute (R148) computes each PENDING record again in
schedule order from the results just left, and keeps SHOWN ones. A placement in a full schedule first drops the
oldest PENDING record, with the overflow counter and OUT_OVERFLOW (R146); and while the new cue's queue lateness
exceeds λ_drop and another record is PENDING, the oldest is dropped, with the catch-up counter and OUT_CATCHUP
(R147), and no further one once it does not. The new cue, with the speech times of its first and last words
(R125), is computed behind the records left (R145). The PENDING records stand recomputed after any drop, and
SHOWN ones are kept. A record that holds the whole key of the new one, source, segment number, first index and
first piece, has its key retired (R144, R145); nothing else of any record's number, key, words, state or
attributes changes. -/
def Obligations.PlacementDropsOldest : Prop :=
  (∀ (env : TimingEnv) (now : Frame), recompute env now [] = [] ∧
    ∀ (cs : List Cue) (c : Cue),
      let before := recompute env now cs
      recompute env now (cs ++ [c]) =
        before ++ [if c.shown then c else c.compute env now before.reverse]) ∧
  ∀ (env : TimingEnv) (now : Frame) (c : NewCue) (h : Schedule),
    h.cues.length ≤ 64 → (h.cues.length = 64 → ∃ r ∈ h.cues, r.shown = false) →
    (∀ r ∈ h.cues, r.number ≠ h.nextCue) →
    let first : List TimedWord → Option (Nat × Nat) := fun ws => ws.head?.map fun w => (w.index, w.piece)
    let retired : Cue → Cue := fun r =>
      if r.key = some c.key ∧ r.words ≠ [] ∧ first r.words = first c.words then { r with key := none } else r
    let after : Nat → List Cue := fun j =>
      if j = 0 then h.cues.map retired
      else recompute env now (eraseFirst (fun r : Cue => !r.shown) j (h.cues.map retired))
    ∃ (kept : List Cue) (new : Cue) (flags : FlagWord) (overflow caught : Nat),
      h.place env now c =
        ({ h with
            cues := kept ++ [new]
            nextCue := h.nextCue + 1
            overflows := rise h.overflows overflow
            catchUps := rise h.catchUps caught }, flags) ∧
      new.number = h.nextCue ∧ new.key = some c.key ∧ new.words = c.words ∧ new.attrs = c.attrs ∧
      new.shown = false ∧ new.k = now ∧
      (∀ w ∈ c.words.head?, new.s = w.speech) ∧ (∀ w ∈ c.words.getLast?, new.e = w.speech) ∧
      new = new.compute env now kept.reverse ∧ kept = after (overflow + caught) ∧
      overflow = (if h.cues.length < 64 then 0 else 1) ∧ kept.length + overflow + caught = h.cues.length ∧
      kept.map (fun r => (r.number, r.key, r.words, r.shown, r.attrs)) =
        (eraseFirst (fun r : Cue => !r.shown) (overflow + caught) h.cues).map
          (fun r => (r.number, (retired r).key, r.words, r.shown, r.attrs)) ∧
      (∀ r ∈ kept, r.shown = true → r ∈ h.cues.map retired) ∧
      (new.lamQ ≤ env.cfg.lamDrop ∨ ∀ r ∈ kept, r.shown = true) ∧
      (∀ j, overflow ≤ j → j < overflow + caught →
        env.cfg.lamDrop < (new.compute env now (after j).reverse).lamQ) ∧
      flags = (if overflow = 0 then 0#24 else Flag.mask .outOverflow) |||
        (if caught = 0 then 0#24 else Flag.mask .outCatchup)
/-- An AMEND to a held segment (R122, R123), the newest of its source and number (log entry 20): a DELETE of
held indices removes them and closes the numbering up; a REPLACE puts its words, with the target's speech time,
in the target's place and raises the indices after it, where the segment then holds no more than 32 words; one
that does not fit, and any AMEND whose index is not held, is a late amend. The schedule's records are not
reached. -/
def Obligations.HeldSegmentAmended : Prop :=
  ∀ (rx : Rx) (b : AmendBody) (older newer : List HeldSegment) (g : HeldSegment) (s : State),
    s.hears rx (.amend b) → s.foreignTo rx → s.cfg.role ≠ .writer →
    s.intake.hold = older ++ g :: newer → g.source = rx.source → g.number = b.segment →
    (∀ k ∈ newer, k.source ≠ rx.source ∨ k.number ≠ b.segment) →
    ∃ t, exec (.amendReceived rx b) s = .next t ∧
      t = { s with
        flags := t.flags, line := t.line, peers := t.peers, intake := t.intake, sched := t.sched } ∧
      let holds : List HeldSegment → Prop := fun gs =>
        t.intake = { s.intake with hold := older ++ gs ++ newer } ∧ t.sched = s.sched
      let late : Prop := t.intake = s.intake ∧ hasFlag t.flags .outLateAmend = true ∧
        t.sched = { s.sched with lateAmends := rise s.sched.lateAmends 1 }
      ((∀ w ∈ g.words, w.index ≠ b.index.toNat) → late) ∧
      (∀ q, b.op = .delete q → (∃ w ∈ g.words, w.index = b.index.toNat) →
        let kept := g.words.filter fun w => w.index < b.index.toNat || b.index.toNat + q.toNat ≤ w.index
        let closed := kept.map fun w => if b.index.toNat < w.index
          then { w with index := w.index - (g.words.length - kept.length) } else w
        holds (if kept = [] then [] else [{ g with words := closed }])) ∧
      (∀ (ts : List Text) (before after : List TimedWord) (w : TimedWord), b.op = .replace ts →
        g.words = before ++ w :: after → w.index = b.index.toNat →
        (∀ v ∈ before, v.index < w.index) → (∀ v ∈ after, w.index < v.index) →
        (before.length + ts.length + after.length ≤ 32 →
          holds [{ g with words := before ++ ts.mapIdx (fun j x => ⟨x, w.speech, w.index + j, 0⟩) ++
            (after.map fun v => { v with index := v.index + ts.length - 1 }) }]) ∧
        (32 < before.length + ts.length + after.length → late))

/-- An AMEND at the cue schedule (R152), where no held segment is its segment and at most one record holds its
target words, piece 0 of a cut one among them. The words behind the last target are renumbered in every record
of the segment. No target word held: a late amend. A PENDING record that loses every word is removed and the
rest recomputed (R155); one whose new text fits keeps its onset and its rung, with its duration anew (R153); one
whose text a REPLACE took beyond the row keeps its first row, with its s and the speech time of its last word as
e; its further rows join directly after it in row order as new records, with the speech times of their first and
last words; and all PENDING ones are recomputed, SHOWN ones keeping their times (R148, R154), there being room
for the rows. Which records lose their keys to a further row's is the model's choice: step 1 of R145 compares
keys within step 4 of R152, before step 5 renumbers, and the model compares the keys of the new numbering (log
entry 16). No amend retires a key but a re-break's new rows', also where two records come to one key, as behind a
DELETE discarded on a SHOWN record, the model's choice again (R144; log entry 39). A SHOWN record's amend is discarded where visible amends are off, takes an emptied cue off the
screen, is refused beyond the row, and otherwise rewrites the row (R156, R161). -/
def Obligations.ScheduleAmended : Prop :=
  ∀ (rx : Rx) (b : AmendBody) (s : State),
    s.hears rx (.amend b) → s.foreignTo rx → s.cfg.role ≠ .writer →
    (∀ g ∈ s.intake.hold, g.source ≠ rx.source ∨ g.number ≠ b.segment) →
    let key : SegKey := ⟨rx.source, b.segment⟩
    let first := b.index.toNat
    let last := match b.op with
      | .delete q => first + q.toNat - 1
      | .replace _ => first
    let target : TimedWord → Prop := fun w => first ≤ w.index ∧ w.index ≤ last
    let moved : TimedWord → TimedWord := fun w =>
      if w.index ≤ last then w
      else match b.op with
        | .delete q => { w with index := w.index - q.toNat }
        | .replace ts => { w with index := w.index + ts.length - 1 }
    let kept : Cue → Cue := fun r => if r.key = some key then { r with words := r.words.map moved } else r
    let env : TimingEnv := ⟨s.cfg, rowsInEffect s.cfg s.screen.zone⟩
    ∃ t, exec (.amendReceived rx b) s = .next t ∧
      t = { s with
        flags := t.flags, line := t.line, peers := t.peers, sched := t.sched, screen := t.screen } ∧
      ((∀ r ∈ s.sched.cues, r.key = some key → ∀ w ∈ r.words, ¬target w) →
        hasFlag t.flags .outLateAmend = true ∧ t.screen = s.screen ∧
        t.sched = { s.sched with
          cues := s.sched.cues.map kept, lateAmends := rise s.sched.lateAmends 1 }) ∧
      ∀ (before after : List Cue) (c : Cue), s.sched.cues = before ++ c :: after → c.key = some key →
        (∃ w ∈ c.words, target w ∧ (w.piece = 0 ∨ ∃ q, b.op = .delete q)) →
        (∀ r ∈ before ++ after, r.number ≠ c.number ∧ (r.key = some key → ∀ w ∈ r.words, ¬target w)) →
        let ws : List TimedWord := c.words.flatMap fun w =>
          if first ≤ w.index ∧ w.index ≤ last then
            match b.op with
            | .delete _ => []
            | .replace ts =>
              if w.piece = 0 then ts.mapIdx fun j x => ⟨x, w.speech, first + j, 0⟩ else []
          else [moved w]
        let around : List Cue → List Cue := fun rs => before.map kept ++ rs ++ after.map kept
        let amended : List TimedWord → Cue := fun ws =>
          { c with words := ws, attrs := { c.attrs with amended := true } }
        (c.shown = false → t.screen = s.screen ∧
          (ws = [] → t.sched = { s.sched with
            cues := recompute env s.clock.count (around []) }) ∧
          (ws ≠ [] → (joinText (ws.map (·.text))).length ≤ s.cfg.rowWidth →
            t.sched = { s.sched with cues := around [(amended ws).durationOnly s.cfg] }) ∧
          (∀ row rows, s.cfg.rowWidth < (joinText (ws.map (·.text))).length →
            breakRows s.cfg.rowWidth ws = row :: rows → s.sched.cues.length + rows.length ≤ 64 →
            (∀ r ∈ s.sched.cues, ∀ j, j < rows.length →
              r.number ≠ s.sched.nextCue + BitVec.ofNat 16 j) →
            let begins : List TimedWord → Option (Nat × Nat) := fun ws => ws.head?.map fun w => (w.index, w.piece)
            let behind : List (List TimedWord) → Cue → Cue := fun later r =>
              if r.key = some key ∧ ∃ row ∈ later, begins row = begins r.words then { r with key := none } else r
            let speech : Option TimedWord → Frame := fun w => (w.map (·.speech)).getD s.clock.count
            t.sched = { s.sched with
              cues := recompute env s.clock.count
                (before.map (fun r => behind rows (kept r)) ++
                  [behind rows { amended row with e := speech row.getLast? }] ++
                  rows.mapIdx (fun j row => behind (rows.drop (j + 1))
                    { c with
                      number := s.sched.nextCue + BitVec.ofNat 16 j, words := row
                      s := speech row.head?, e := speech row.getLast?, attrs := ⟨false, true, false⟩ }) ++
                  after.map fun r => behind rows (kept r))
              nextCue := s.sched.nextCue + BitVec.ofNat 16 rows.length }) ∧
          (∀ r ∈ before ++ after, r.shown = true → ∃ r' ∈ t.sched.cues,
            r'.number = r.number ∧ r'.shown = true ∧ r'.tOn = r.tOn ∧ r'.d = r.d ∧ r'.tOff = r.tOff)) ∧
        (c.shown = true →
          let left : Cue := { c with words := c.words.map fun w =>
            if first ≤ w.index ∧ w.index ≤ last then w else moved w }
          (s.cfg.visibleAmends = false → t.screen = s.screen ∧
            t.sched = { s.sched with
              cues := around [left], amendsDiscarded := rise s.sched.amendsDiscarded 1 }) ∧
          (s.cfg.visibleAmends = true →
            (ws = [] → t.sched = { s.sched with cues := around [] } ∧
              t.screen = { s.screen with
                visible := s.screen.visible.filter fun v => v.number != c.number, mark := true }) ∧
            (ws ≠ [] → s.cfg.rowWidth < (joinText (ws.map (·.text))).length →
              t.screen = s.screen ∧
              t.sched = { s.sched with
                cues := around [left], amendsRefused := rise s.sched.amendsRefused 1 }) ∧
            (ws ≠ [] → (joinText (ws.map (·.text))).length ≤ s.cfg.rowWidth →
              t.sched = { s.sched with cues := around [amended ws] } ∧
              t.screen = { s.screen with
                visible := s.screen.visible.map fun v =>
                  if v.number = c.number then
                    { v with text := joinText (ws.map (·.text)), attrs := { v.attrs with amended := true } }
                  else v
                mark := true })))
/-- Stages 1 to 3 of a computation in the full form (R131 to R133): the ideal time, the onset as the largest of
the terms that exist, and the two latenesses, up to 65535. The terms lie within 2^30 frames of K. -/
def Obligations.OnsetAndLateness : Prop :=
  ∀ (env : TimingEnv) (k : Frame) (ahead : List Cue) (c : Cue), 1 ≤ env.reff →
    let t := c.compute env k ahead
    let terms := [t.tIdeal, k + 1#32] ++
      (ahead[0]?.map fun b => b.tOn + BitVec.ofNat 32 env.cfg.onsetGap).toList ++
      (ahead[env.reff - 1]?.map fun b => b.tOn + BitVec.ofNat 32 env.cfg.dMin).toList
    (∀ x ∈ terms, -1073741824 < interval x k ∧ interval x k < 1073741824) →
    t.tIdeal = c.s + BitVec.ofNat 32 env.cfg.delay ∧
    t.tOn ∈ terms ∧ (∀ x ∈ terms, 0 ≤ interval t.tOn x) ∧
    t.lam = min (t.tOn - t.tIdeal).toNat 65535 ∧
    t.lamQ = min (min (t.tOn - t.tIdeal).toNat (t.tOn - (k + 1#32)).toNat) 65535

/-- Stages 4 to 7 of a computation under a ladder in force (R134 to R138): the highest rung at or below the
queue lateness; the least whole number of frames that n characters need at its rate; the smallest of d_max
and the largest of d_min, that number and the speech span; and the scheduled end. The duration-only form
takes the last three at the recorded rung and keeps everything else. -/
def Obligations.RungAndDuration : Prop :=
  ∀ (env : TimingEnv) (c : Cue), ladderInForce env.cfg.ladder →
    let lasts : Cue → Rung → Prop := fun t r =>
      (∃ dRead : Nat, c.n * env.cfg.frameRate * 10 ≤ dRead * r.rate ∧
        (∀ m, c.n * env.cfg.frameRate * 10 ≤ m * r.rate → dRead ≤ m) ∧
        t.d = min env.cfg.dMax (max env.cfg.dMin (max dRead (c.e - c.s).toNat))) ∧
      (env.cfg.dMin ≤ env.cfg.dMax → env.cfg.dMin ≤ t.d ∧ t.d ≤ env.cfg.dMax) ∧
      t.tOff = t.tOn + BitVec.ofNat 32 t.d
    (∀ (k : Frame) (ahead : List Cue),
      let t := c.compute env k ahead
      ∃ r : Rung, env.cfg.ladder[t.rung]? = some r ∧ t.rung ≤ 7 ∧ r.threshold ≤ t.lamQ ∧
        (∀ j r', env.cfg.ladder[j]? = some r' → t.rung < j → t.lamQ < r'.threshold) ∧ lasts t r) ∧
    ∀ r : Rung, env.cfg.ladder[c.rung]? = some r →
      let t := c.durationOnly env.cfg
      lasts t r ∧ t = { c with d := t.d, tOff := t.tOff }

/-! ### The screen and the inserter link -/

/-- The zone at a tick (R159, R162, R163), its first stage, with the second left to a step of its own (log entry
6): GZL clear asks for BOTTOM, GZL alone for TOP, both for CONFLICT. A change is taken when none has been
taken since the reset or the zone hold has passed since the last: the zone, its frame, the change mark and
the count. Entering CONFLICT, all but the newest visible cue leave with their records, the entry is counted
with OUT_ZONE_CONFLICT, and the PENDING records are recomputed for one row; leaving it recomputes them for
the configured rows. Otherwise the zone stands. -/
def Obligations.ZoneFollowsTallyInputs : Prop :=
  ∀ (gzl gzu : Bool) (s : State), s.quiet → s.cfg.role ≠ .writer →
    let now := s.clock.count + 1#32
    let asked : Zone := if gzl then (if gzu then .conflict else .top) else .bottom
    let may := ∀ f ∈ s.screen.lastChange, (s.cfg.zoneHold : Int) ≤ interval now f
    ∃ t, exec (.frameTick s.cfg.fpEdge gzl gzu [.cueExpires]) s = .next t ∧
      t.screenDue = .expiry ∧ t.link = s.link ∧ t.intake = s.intake ∧ t.floor = { s.floor with lapsed := false } ∧
      (asked = s.screen.zone ∨ ¬may →
        t.screen = s.screen ∧ t.sched = s.sched ∧ t.flags = s.flags) ∧
      (asked ≠ s.screen.zone → may →
        (asked ≠ .conflict →
          t.screen = { s.screen with
            zone := asked, lastChange := some now, mark := true
            zoneChanges := rise s.screen.zoneChanges 1 } ∧
          t.flags = s.flags ∧
          t.sched = (if s.screen.zone = .conflict then
            { s.sched with cues := recompute ⟨s.cfg, s.cfg.rows⟩ now s.sched.cues } else s.sched)) ∧
        (asked = .conflict →
          let gone := s.screen.visible.take (s.screen.visible.length - 1)
          t.screen = { s.screen with
            visible := s.screen.visible.drop (s.screen.visible.length - 1)
            zone := .conflict, lastChange := some now, mark := true
            zoneChanges := rise s.screen.zoneChanges 1
            conflicts := rise s.screen.conflicts 1 } ∧
          t.flags = s.flags ||| Flag.mask .outZoneConflict ∧
          t.sched = { s.sched with
            cues := recompute ⟨s.cfg, 1⟩ now
              (s.sched.cues.filter fun c => gone.all fun v => v.number != c.number) }))

/-- SHOW_CUE with the stages from the third on outstanding (log entry 6; R149, R159, R160, R164, R165): the first
PENDING record, due, becomes SHOWN behind the SHOWN ones and joins the bottom of the visible list, its
countdown its duration; in a list that holds R_eff cues the oldest first scroll off, with their records. One
PAGE states the whole screen and is handed to the link: sent at once on an idle one, waiting behind the order
being sent, or in place of the order that waits, which is counted as replaced with OUT_PAGE_REPLACED. With
nothing outstanding nothing happens. -/
def Obligations.ShowCueTakesCueIn : Prop :=
  (∀ (s : State) (shown rest : List Cue) (c : Cue), s.screenDue = .showing →
    s.sched.cues = shown ++ c :: rest → c.shown = false →
    (∀ r ∈ shown, r.shown = true ∧ ∃ v ∈ s.screen.visible, v.number = r.number) →
    (∀ r ∈ rest, r.shown = false) → (∀ r ∈ shown ++ rest, r.number ≠ c.number) →
    (∀ v ∈ s.screen.visible, v.number ≠ c.number) → atOrAfter s.clock.count c.tOn = true →
    let excess := s.screen.visible.length + 1 - rowsInEffect s.cfg s.screen.zone
    let gone := s.screen.visible.take excess
    let rows := s.screen.visible.drop excess ++ [⟨c.number, c.text, c.attrs, (c.tOff - c.tOn).toNat⟩]
    let page := Order.page s.screen.zone (rows.map fun v => ⟨v.attrs, v.text⟩)
    let replaces := s.link.sending ≠ none ∧ s.link.waiting ≠ none
    exec .showCue s = .next
      { s with
        screenDue := .done
        sched := { s.sched with
          cues := (shown ++ { c with shown := true } :: rest).filter fun r =>
            gone.all fun v => v.number != r.number }
        screen := { s.screen with visible := rows, mark := false, lastOrder := .page }
        link := if s.link.sending = none then { s.link with sending := some page }
          else { s.link with
            waiting := some page
            replaced := if replaces then rise s.link.replaced 1 else s.link.replaced }
        flags := s.flags ||| (if replaces then Flag.mask .outPageReplaced else 0#24) }) ∧
  ∀ u : State, u.screenDue = .done → exec .showCue u = .next u

/-- The stages of a tick at an output, where they are left to steps of their own and where they are not (log entry
6; R159). CUE_EXPIRES with the second stage outstanding and the third to be a step of its own: every countdown
falls by one, and the cues that reach 0 leave the list with their records and mark the change (R160). With all
three stages outstanding it takes them all, and a tick that is told to leave none takes them in its own step.
With no cue due, the third stage and the fourth (R164, R165): a set mark over a list that holds cues composes a
PAGE, over an emptied one a BLANK where the last order was not one, and none where it was; the order is sent at
once on an idle link, waits behind the order being sent, or replaces the one that waits, counted with
OUT_PAGE_REPLACED. A mark not set composes nothing. -/
def Obligations.CueExpiryAndComposition : Prop :=
  (∀ s : State, s.screenDue = .expiryThenShow →
    ∃ t, exec .cueExpires s = .next t ∧ t.screenDue = .showing ∧
      t.screen.visible =
        (s.screen.visible.filter fun v => v.countdown - 1 != 0).map
          (fun v => { v with countdown := v.countdown - 1 }) ∧
      (∀ c, c ∈ t.sched.cues ↔ c ∈ s.sched.cues ∧
        ∀ v ∈ s.screen.visible, v.countdown ≤ 1 → v.number ≠ c.number) ∧
      t.screen.mark = (s.screen.mark || s.screen.visible.any fun v => v.countdown ≤ 1) ∧
      t = { s with
        sched := { s.sched with cues := t.sched.cues }
        screen := { s.screen with visible := t.screen.visible, mark := t.screen.mark }
        screenDue := t.screenDue }) ∧
  (∀ s : State, s.screenDue = .expiry →
    ∃ mid, exec .cueExpires { s with screenDue := .expiryThenShow } = .next mid ∧
      exec .cueExpires s = exec .showCue mid) ∧
  (∀ (gzl gzu : Bool) (left : List TickEvent) (s : State),
    s.start ≠ .loading → s.resetHeld = false → s.cfg.role ≠ .writer → .cueExpires ∉ left →
    ∃ mid, exec (.frameTick s.cfg.fpEdge gzl gzu (.cueExpires :: left)) s = .next mid ∧
      mid.screenDue = (if .showCue ∈ left then .expiryThenShow else .expiry) ∧
      exec (.frameTick s.cfg.fpEdge gzl gzu left) s = exec .cueExpires mid) ∧
  ∀ s : State, s.screenDue = .showing →
    (∀ r ∈ s.sched.cues, r.shown = true → ∃ v ∈ s.screen.visible, v.number = r.number) →
    (∀ r ∈ s.sched.cues, r.shown = false → atOrAfter s.clock.count r.tOn = false) →
    let replaces := s.link.sending ≠ none ∧ s.link.waiting ≠ none
    let hands : Order → LastOrder → Prop := fun o k =>
      exec .showCue s = .next
        { s with
          screenDue := .done
          screen := { s.screen with mark := false, lastOrder := k }
          link := if s.link.sending = none then { s.link with sending := some o }
            else { s.link with
              waiting := some o
              replaced := if replaces then rise s.link.replaced 1 else s.link.replaced }
          flags := s.flags ||| (if replaces then Flag.mask .outPageReplaced else 0#24) }
    (s.screen.mark = false → exec .showCue s = .next { s with screenDue := .done }) ∧
    (s.screen.mark = true → s.screen.visible ≠ [] →
      hands (.page s.screen.zone (s.screen.visible.map fun v => ⟨v.attrs, v.text⟩)) .page) ∧
    (s.screen.mark = true → s.screen.visible = [] → s.screen.lastOrder ≠ .blank → hands .blank .blank) ∧
    (s.screen.mark = true → s.screen.visible = [] → s.screen.lastOrder = .blank →
      exec .showCue s = .next { s with screenDue := .done, screen := { s.screen with mark := false } })

/-- The start-up BLANK begins its sending (R166). The end of the order being sent raises pages-sent, and a
waiting order begins (R165); while the start-up BLANK waits for the line (log entry 13), and on an idle link,
none ends. -/
def Obligations.LinkSendsItsOrders : Prop :=
  ∀ s : State,
    exec .startupBlankBegins s = .next { s with link := { s.link with startWait := false } } ∧
    (∀ o, s.link.sending = some o → s.link.startWait = false →
      exec .orderSent s = .next
        { s with link := { s.link with
            sending := s.link.waiting, waiting := none, sent := rise s.link.sent 1 } }) ∧
    (s.link.sending = none ∨ s.link.startWait = true → exec .orderSent s = .next s)

/-! ### The writer port and the segment assembler -/

/-- A WORD (R82, R96, R99, R103). Where the open segment has room it joins it with its arrival and its speech
time, makes a history entry, and loads the pause timer. Ending a sentence, or in a comma with the segment at or
above the soft limit, it is the last word of the segment that then closes, under the next number, the segment
queue having room and the body fitting; the words' places become queued ones. Whatever the queue and the body,
that close is a FLUSH's. A WORD for which the open segment has no room first closes it as a FLUSH does. The codes
of the characters that end sentences and clauses are log entry 5's. -/
def Obligations.WordTakenIntoSegment : Prop :=
  ∀ (text : Text) (s : State), s.takesRecords → s.port.replacement = none →
    s.port.wstate.takesWords = true → wordText text = true →
    let speech := s.clock.count - BitVec.ofNat 32 s.cfg.writerLag
    let closes := endsSentence text = true ∨
      endsClause text = true ∧ s.cfg.softLimit ≤ charCount (s.asm.texts ++ [text])
    let joined : State :=
      { s with
        asm := { s.asm with
          words := s.asm.words ++ [⟨text, s.clock.count, speech⟩]
          history := lastN 32 (s.asm.history ++ [⟨text, speech, .opened s.asm.words.length⟩]) }
        pause := some s.cfg.pauseInterval }
    (s.asm.hasRoom s.cfg.hardLimit text = false →
      ∃ mid, exec .flush s = .next mid ∧ mid.asm.words = [] ∧
        exec (.word text) s = exec (.word text) mid) ∧
    (s.asm.hasRoom s.cfg.hardLimit text = true →
      (¬closes → exec (.word text) s = .next joined) ∧
      (closes → exec (.word text) s = exec .flush joined) ∧
      (closes → s.line.segQ.length < 8 →
        6 + (joined.asm.words.map fun w => w.text.length + 2).sum ≤ s.cfg.maxBody →
        exec (.word text) s = .next
          { s with
            pause := none
            line := { s.line with segQ := s.line.segQ ++
              [⟨s.asm.nextNumber, s.asm.newSpeaker, joined.asm.words.map fun w => ⟨w.text, w.speech⟩⟩] }
            asm := { s.asm with
              words := []
              newSpeaker := false
              nextNumber := s.asm.nextNumber + 1#8
              history := joined.asm.history.map fun e => match e.place with
                | .opened i =>
                  { e with place := if i ≤ s.asm.words.length then .queued s.asm.nextNumber i
                      else .opened (i - (s.asm.words.length + 1)) }
                | _ => e } }))

/-- BREAK, FLUSH and the pause timer's expiry (R82, R97 to R99): the open segment closes if it holds words,
under the next number, its body fitting, and a BREAK marks the next one. In a full segment queue the oldest
segment not under arbitration makes room: a source drop is counted in RUNNING (R49), SRC_DROP is set, in
LISTENING too (log entry 35), and its words leave the history (R21, R99). The places of the words of the segment
that closes become queued ones under its number. The pause timer takes a tick it has still to take (log entry
6): a count above 1 falls by one and closes nothing (R6), and so with no tick to take. -/
def Obligations.SegmentClosesOnRequest : Prop :=
  ∀ s : State, s.line.segQ.length ≤ 8 →
    6 + (s.asm.words.map fun w => w.text.length + 2).sum ≤ s.cfg.maxBody →
    let full := s.line.segQ.length = 8
    let oldest := if s.line.arb = some .segment then 1 else 0
    let moved := s.asm.history.map fun e => match e.place with
      | .opened i =>
        { e with place := if i < s.asm.words.length then .queued s.asm.nextNumber i
            else .opened (i - s.asm.words.length) }
      | _ => e
    let closed : State → Prop := fun t =>
      t.asm.words = [] ∧ t.asm.nextNumber = s.asm.nextNumber + 1#8 ∧ t.pause = none ∧
      t.line = { s.line with segQ := (if full then s.line.segQ.eraseIdx oldest else s.line.segQ) ++
        [⟨s.asm.nextNumber, s.asm.newSpeaker, s.asm.words.map fun w => ⟨w.text, w.speech⟩⟩] } ∧
      t.flags = s.flags ||| (if full then Flag.mask .srcDrop else 0#24) ∧
      t.peers = (if full then { s.peers with counters := { s.peers.counters with
        drops := s.dropsAfter 1 } } else s.peers) ∧
      (¬full → t.asm.history = moved) ∧
      (full → ∃ g, s.line.segQ[oldest]? = some g ∧
        t.asm.history = moved.filter fun e => match e.place with
          | .queued m _ => m != g.number
          | _ => true) ∧
      t = { s with
        flags := t.flags, pause := t.pause, line := t.line, peers := t.peers, ticksDue := t.ticksDue
        asm := { s.asm with
          words := t.asm.words, newSpeaker := t.asm.newSpeaker, nextNumber := t.asm.nextNumber
          history := t.asm.history } }
    (s.takesRecords → s.port.replacement = none → s.port.wstate ≠ .absent →
      (s.asm.words ≠ [] →
        (∃ t, exec .speakerBreak s = .next t ∧ closed t ∧ t.asm.newSpeaker = true ∧
          t.ticksDue = s.ticksDue) ∧
        ∃ t, exec .flush s = .next t ∧ closed t ∧ t.asm.newSpeaker = false ∧ t.ticksDue = s.ticksDue) ∧
      (s.asm.words = [] →
        exec .speakerBreak s = .next { s with asm := { s.asm with newSpeaker := true } } ∧
        exec .flush s = .next s)) ∧
    (s.ticksDue.pause = true → s.pause = some 1 → s.asm.words ≠ [] →
      ∃ t, exec .pauseTimerExpiry s = .next t ∧ closed t ∧ t.asm.newSpeaker = false ∧
        t.ticksDue = { s.ticksDue with pause := false }) ∧
    (s.ticksDue.pause = true → (s.pause = none ∨ ∃ r, s.pause = some r ∧ 2 ≤ r) →
      exec .pauseTimerExpiry s = .next
        { s with pause := s.pause.map (· - 1), ticksDue := { s.ticksDue with pause := false } }) ∧
    (s.ticksDue.pause = false → exec .pauseTimerExpiry s = .next s)
/-- A DELETE n whose n targets are the newest words of the open segment removes them in place, with their
history entries; an open segment left empty stops the pause timer (R105, R106). -/
def Obligations.DeleteInOpenSegment : Prop :=
  ∀ (n : Byte) (s : State), s.takesRecords → s.port.replacement = none → s.port.wstate ≠ .absent →
    1 ≤ n.toNat → n.toNat ≤ 8 → n.toNat ≤ s.asm.history.length →
    (∀ e ∈ lastN n.toNat s.asm.history, ∃ i, e.place = .opened i) →
    let words := s.asm.words.take (s.asm.words.length - n.toNat)
    exec (.delete n) s = .next
      { s with
        asm := { s.asm with
          words := words
          history := s.asm.history.take (s.asm.history.length - n.toNat) }
        pause := if words = [] then none else s.pause }

/-- Corrections of words in closed segments, each word of the correction in one segment (R105 to R109). In a
queued segment, the only one of its number, the edit is made in place; a DELETE of all its words withdraws it,
with no source drop, and one that meets it under arbitration is held (R26). In a sent segment of the amend
window, with an index up to 19, one AMEND is deposited, and the window's count follows; an AMEND that finds the
amend queue full or does not fit the body is a source drop, its counter moving in RUNNING alone (R49; log entry
35), and changes nothing else (R109); and a segment that has left the window, or an index above 19, is TOO_OLD
(R105). A DELETE over several segments is refused whole where one group is out of reach (R105), and otherwise
takes its groups from the newest, the open one in place, as one DELETE after another (R106), up to a refused
deposit (R109); a group under arbitration is held with the older ones (R26, R108; log entry 11). A REPLACE made puts
its words in the history in the target's place, and moves the places behind it on (R107; equal numbers: log
entry 20). -/
def Obligations.CorrectionsInClosedSegments : Prop :=
  ∀ s : State, s.takesRecords → s.port.wstate ≠ .absent →
    let dropped : State := { s with
      port := { s.port with replacement := none }
      flags := s.flags ||| Flag.mask .srcDrop
      peers.counters.drops := s.dropsAfter 1 }
    let tooOld : State :=
      { s with port := { s.port with replacement := none }.enqueue (.refuse .tooOld) }
    let others : Byte → List WindowRecord → Prop := fun m rs => ∀ r ∈ rs, r.number ≠ m
    (∀ (n m : Byte), s.port.replacement = none → 1 ≤ n.toNat → n.toNat ≤ 8 →
      n.toNat ≤ s.asm.history.length →
      let history := s.asm.history.take (s.asm.history.length - n.toNat)
      ((∀ e ∈ lastN n.toNat s.asm.history, ∃ i, e.place = .queued m i) →
        ∀ (ahead behind : List QueuedSegment) (g : QueuedSegment),
          s.line.segQ = ahead ++ g :: behind → g.number = m →
          (∀ k ∈ ahead ++ behind, k.number ≠ m) →
          (s.line.arb = some .segment ∧ ahead = [] →
            exec (.delete n) s = .next
              { s with line := { s.line with held := s.line.held ++ [.deleteGroups [⟨m, n.toNat⟩]] } }) ∧
          (¬(s.line.arb = some .segment ∧ ahead = []) → n.toNat < g.words.length →
            exec (.delete n) s = .next
              { s with
                line := { s.line with segQ := ahead ++
                  { g with words := g.words.take (g.words.length - n.toNat) } :: behind }
                asm := { s.asm with history := history } }) ∧
          (¬(s.line.arb = some .segment ∧ ahead = []) → g.words.length ≤ n.toNat →
            s.asm.drain ≠ .draining →
            exec (.delete n) s = .next
              { s with
                line := { s.line with
                  segQ := ahead ++ behind
                  ratio := if s.line.amendQ = [] ∨ ahead ++ behind = [] then 0 else s.line.ratio }
                asm := { s.asm with history := history.filter fun e =>
                  match e.place with
                  | .queued k _ => k != m
                  | _ => true } })) ∧
      ((∀ e ∈ lastN n.toNat s.asm.history, ∃ i, e.place = .sent m i) →
        (∀ k ∈ s.line.segQ, k.number ≠ m) →
        (∀ (c : Nat) (old new : List WindowRecord), s.asm.window = old ++ ⟨m, c⟩ :: new →
          others m (old ++ new) →
          (c - n.toNat ≤ 19 → s.line.amendQ.length < 4 → 4 ≤ s.cfg.maxBody →
            exec (.delete n) s = .next
              { s with
                line := { s.line with amendQ := s.line.amendQ ++
                  [⟨m, BitVec.ofNat 8 (c - n.toNat), .delete n⟩] }
                asm := { s.asm with
                  window := old ++ ⟨m, c - n.toNat⟩ :: new
                  history := history } }) ∧
          (c - n.toNat ≤ 19 → 4 ≤ s.line.amendQ.length → exec (.delete n) s = .next dropped) ∧
          (19 < c - n.toNat → exec (.delete n) s = .next tooOld)) ∧
        (others m s.asm.window → exec (.delete n) s = .next tooOld))) ∧
    (∀ (n : Byte) (older : List HistoryEntry) (gs : List (Place × List HistoryEntry)),
      s.port.replacement = none → 1 ≤ n.toNat → n.toNat ≤ 8 → n.toNat = (gs.map (·.2.length)).sum →
      s.asm.history = older ++ gs.reverse.flatMap (·.2) →
      (∀ g ∈ gs, g.2 ≠ [] ∧ ∀ e ∈ g.2, e.place.sameGroup g.1 = true) →
      gs.Pairwise (fun a b => a.1.sameGroup b.1 = false) → (∀ g ∈ gs.tail, g.1.segment ≠ none) →
      (∀ g ∈ gs, ∀ m i, (g.1 = .queued m i → ∃ k ∈ s.line.segQ, k.number = m) ∧
        (g.1 = .sent m i → ∀ k ∈ s.line.segQ, k.number ≠ m)) →
      let reached : Place × List HistoryEntry → Prop := fun g => ∀ m i, g.1 = .sent m i →
        ∃ (c : Nat) (old new : List WindowRecord), s.asm.window = old ++ ⟨m, c⟩ :: new ∧ others m new ∧
          c - g.2.length ≤ 19
      ((∃ g ∈ gs, ¬reached g) → exec (.delete n) s = .next tooOld) ∧
      ∀ (g : Place × List HistoryEntry) (rest : List (Place × List HistoryEntry)) (q r : Byte),
        gs = g :: rest → rest ≠ [] → q.toNat = g.2.length → r.toNat = (rest.map (·.2.length)).sum →
        (∀ k ∈ gs, reached k) →
        let contends := ∃ m i, g.1 = .queued m i ∧ s.line.segmentUnderArb = some m
        let refused := (∃ m i, g.1 = .sent m i) ∧ (4 ≤ s.line.amendQ.length ∨ s.cfg.maxBody < 4)
        (contends → exec (.delete n) s = .next
          { s with line := { s.line with held := s.line.held ++
            [.deleteGroups (gs.filterMap fun k => k.1.segment.map fun m => ⟨m, k.2.length⟩)] } }) ∧
        (refused → exec (.delete n) s = .next dropped) ∧
        (¬contends → ¬refused →
          ∃ mid, exec (.delete q) s = .next mid ∧ exec (.delete n) s = exec (.delete r) mid)) ∧
    ∀ (text : Text) (r : Replacement) (older newer : List HistoryEntry) (e : HistoryEntry) (m : Byte)
        (i : Nat), wordText text = true → s.port.replacement = some r → r.words.length + 1 = r.m →
      s.asm.history = older ++ e :: newer → newer.length + 1 = r.k →
      let ws := r.words ++ [text]
      (e.place = .queued m i →
        ∀ (ahead behind : List QueuedSegment) (g : QueuedSegment) (w : SpokenWord),
          s.line.segQ = ahead ++ g :: behind → g.number = m →
          (∀ k ∈ ahead ++ behind, k.number ≠ m) → g.words[i]? = some w →
          let words := g.words.take i ++ ws.map (fun x => ⟨x, w.speech⟩) ++ g.words.drop (i + 1)
          (words.length ≤ 20 → charCount (words.map (·.text)) ≤ s.cfg.hardLimit →
            (s.line.arb = some .segment ∧ ahead = [] →
              exec (.repword text) s = .next
                { s with
                  port := { s.port with replacement := none }
                  line := { s.line with held := s.line.held ++ [.replaceWord m i ws] } }) ∧
            (¬(s.line.arb = some .segment ∧ ahead = []) →
              exec (.repword text) s = .next
                { s with
                  port := { s.port with replacement := none }
                  line := { s.line with segQ := ahead ++ { g with words := words } :: behind }
                  asm := { s.asm with history := lastN 32 (s.asm.history.flatMap fun e => match e.place with
                    | .queued k j =>
                      if k ≠ m ∨ j < i then [e]
                      else if j = i then ws.mapIdx fun q x => ⟨x, e.speech, .queued m (i + q)⟩
                      else [{ e with place := .queued m (j + ws.length - 1) }]
                    | _ => [e]) } })) ∧
          (20 < words.length ∨ s.cfg.hardLimit < charCount (words.map (·.text)) →
            exec (.repword text) s = .next tooOld)) ∧
      (e.place = .sent m i →
        (∀ (c : Nat) (old new : List WindowRecord), s.asm.window = old ++ ⟨m, c⟩ :: new →
          others m (old ++ new) → i ≤ 19 →
          let length := 4 + (ws.map fun x => x.length + 1).sum
          (s.line.amendQ.length < 4 → length ≤ s.cfg.maxBody →
            exec (.repword text) s = .next
              { s with
                port := { s.port with replacement := none }
                line := { s.line with amendQ := s.line.amendQ ++ [⟨m, BitVec.ofNat 8 i, .replace ws⟩] }
                asm := { s.asm with
                  window := old ++ ⟨m, c + ws.length - 1⟩ :: new
                  history := lastN 32 (s.asm.history.flatMap fun e => match e.place with
                    | .sent k j =>
                      if k ≠ m ∨ j < i then [e]
                      else if j = i then ws.mapIdx fun q x => ⟨x, e.speech, .sent m (i + q)⟩
                      else [{ e with place := .sent m (j + ws.length - 1) }]
                    | _ => [e]) } }) ∧
          (4 ≤ s.line.amendQ.length ∨ s.cfg.maxBody < length →
            exec (.repword text) s = .next dropped)) ∧
        (others m s.asm.window ∨ 19 < i → exec (.repword text) s = .next tooOld))

/-- Records refused by name. A WORD in a writer state that takes none, and a BREAK, a FLUSH or a correction in
ABSENT, is refused NOT_ON_AIR with WR_NOT_ON_AIR (R82, R83); a DELETE of more words than the history holds is
refused TOO_OLD and changes no text (R105). A text longer than 32 characters is taken as its first 32, with
WR_CLIPPED, also where it is refused (R77; log entry 30). A malformed record is refused BAD_RECORD with
WR_BAD_RECORD, and ends a waiting REPLACE with WR_PARTIAL (R76, R83); so does a gap inside a record, and a gap
outside one does nothing (R176). In an OUTPUT station and in LOADING a record is discarded (R75). -/
def Obligations.RecordsRefused : Prop :=
  (∀ (text : Text) (n k m : Byte) (s : State), s.takesRecords → s.port.replacement = none →
    plainText text = true → 1 ≤ n.toNat → n.toNat ≤ 8 → 1 ≤ k.toNat → k.toNat ≤ 8 → 1 ≤ m.toNat →
    m.toNat ≤ 4 →
    let refused : State :=
      { s with
        port := s.port.enqueue (.refuse .notOnAir)
        flags := s.flags ||| Flag.mask .wrNotOnAir }
    (s.port.wstate.takesWords = false → text.length ≤ 32 → exec (.word text) s = .next refused) ∧
    (s.port.wstate = .absent →
      ∀ c, c = Instr.speakerBreak ∨ c = .flush ∨ c = .delete n ∨ c = .replace k m →
        exec c s = .next refused) ∧
    (s.port.wstate ≠ .absent → s.asm.history.length < n.toNat →
      exec (.delete n) s = .next { s with port := s.port.enqueue (.refuse .tooOld) }) ∧
    (32 < text.length →
      exec (.word text) s =
        exec (.word (text.take 32)) { s with flags := s.flags ||| Flag.mask .wrClipped })) ∧
  ∀ (kind : Byte) (content received : List Byte) (framing : Bool) (s : State),
    (s.takesRecords →
      let refused : State :=
        { s with
          port := { s.port with replacement := none }.enqueue (.refuse .badRecord)
          flags := s.flags ||| (if s.port.replacement = none then 0#24 else Flag.mask .wrPartial) |||
            Flag.mask .wrBadRecord }
      (framing = true ∨ parseRecord kind content = none →
        exec (.malformedRecord kind content framing) s = .next refused) ∧
      (partialRecord received = true → exec (.recordGapTimeout received) s = .next refused) ∧
      (partialRecord received = false → exec (.recordGapTimeout received) s = .next s)) ∧
    (s.cfg.role = .output ∨ s.start = .loading →
      exec (.malformedRecord kind content framing) s = .next s ∧
      exec (.recordGapTimeout received) s = .next s ∧
      exec (.word content) s = .next s ∧ exec .floorTake s = .next s)

/-- REPLACE and REPWORD (R76, R83, R107): a REPLACE waits for its m words, each REPWORD before the last joins
them, and a REPWORD with no waiting REPLACE is malformed; a waiting REPLACE that any other record meets is
dropped with WR_PARTIAL, and that record is taken as it stands. At the last REPWORD a target in the open segment
gives way to the words, each with its speech time and, by log entry 25, its arrival, in the segment and in the
history. A segment within its limits stays open; one beyond a limit is split (R107): each time its oldest words,
as many as stay within the limits, close as the next segment, until what remains does (log entry 14). The mark
goes with the first, and the pause timer runs on. There is room for them in the segment queue. -/
def Obligations.ReplaceCollectsAndApplies : Prop :=
  ∀ (k m : Byte) (text : Text) (s : State), s.takesRecords → s.port.wstate ≠ .absent →
    wordText text = true →
    (1 ≤ k.toNat → k.toNat ≤ 8 → 1 ≤ m.toNat → m.toNat ≤ 4 →
      exec (.replace k m) s = .next
        { s with
          port := { s.port with replacement := some ⟨k.toNat, m.toNat, []⟩ }
          flags := s.flags ||| (if s.port.replacement = none then 0#24 else Flag.mask .wrPartial) }) ∧
    (s.port.replacement ≠ none →
      ∀ c : Instr, ((∃ x, c = .word x) ∨ c = .speakerBreak ∨ c = .flush ∨ (∃ n, c = .delete n) ∨
          (∃ k' m', c = .replace k' m') ∨ c = .ready ∨ c = .unready ∨ c = .floorTake ∨
          (∃ x, c = .floorHand x) ∨ c = .floorDone ∨ c = .floorLeave) →
        exec c s = exec c
          { s with
            port := { s.port with replacement := none }
            flags := s.flags ||| Flag.mask .wrPartial }) ∧
    (∀ r, s.port.replacement = some r → r.words.length + 1 < r.m →
      exec (.repword text) s = .next
        { s with port := { s.port with replacement := some { r with words := r.words ++ [text] } } }) ∧
    (s.port.replacement = none →
      exec (.repword text) s = .next
        { s with
          port := s.port.enqueue (.refuse .badRecord)
          flags := s.flags ||| Flag.mask .wrBadRecord }) ∧
    (∀ (r : Replacement) (older newer : List HistoryEntry) (e : HistoryEntry) (i : Nat) (w : OpenWord),
      s.port.replacement = some r → r.words.length + 1 = r.m →
      s.asm.history = older ++ e :: newer → newer.length + 1 = r.k → e.place = .opened i →
      s.asm.words[i]? = some w →
      let words := s.asm.words.take i ++ (r.words ++ [text]).map (fun t => { w with text := t }) ++
        s.asm.words.drop (i + 1)
      let history := lastN 32 (s.asm.history.flatMap fun e => match e.place with
        | .opened j =>
          if j < i then [e]
          else if j = i then (r.words ++ [text]).mapIdx fun q x => ⟨x, e.speech, .opened (i + q)⟩
          else [{ e with place := .opened (j + r.words.length) }]
        | _ => [e])
      let within : List OpenWord → Prop := fun ws =>
        ws.length ≤ 20 ∧ charCount (ws.map (·.text)) ≤ s.cfg.hardLimit
      (within words → exec (.repword text) s = .next
        { s with port := { s.port with replacement := none }
                 asm := { s.asm with words := words, history := history } }) ∧
      (¬within words →
        ∃ (runs : List (List OpenWord)) (left : List OpenWord), words = runs.flatten ++ left ∧ within left ∧
          (∀ (before after : List (List OpenWord)) (run : List OpenWord), runs = before ++ run :: after →
            ¬within (run ++ after.flatten ++ left) ∧ run ≠ [] ∧ (within run ∨ run.length = 1) ∧
              ∀ v ∈ (after.flatten ++ left).head?, ¬within (run ++ [v])) ∧
          (s.line.segQ.length + runs.length ≤ 8 →
            (∀ run ∈ runs, 6 + (run.map fun v => v.text.length + 2).sum ≤ s.cfg.maxBody) →
            exec (.repword text) s = .next
              { s with
                port := { s.port with replacement := none }
                line := { s.line with segQ := s.line.segQ ++ runs.mapIdx fun j run =>
                  ⟨s.asm.nextNumber + BitVec.ofNat 8 j, s.asm.newSpeaker && j == 0,
                    run.map fun v => ⟨v.text, v.speech⟩⟩ }
                asm := { s.asm with
                  words := left
                  newSpeaker := false
                  nextNumber := s.asm.nextNumber + BitVec.ofNat 8 runs.length
                  history := runs.zipIdx.foldl (fun h run => h.map fun e => match e.place with
                    | .opened j =>
                      { e with place :=
                          if j < run.1.length then .queued (s.asm.nextNumber + BitVec.ofNat 8 run.2) j
                          else .opened (j - run.1.length) }
                    | _ => e) history } })))

/-- READY in ABSENT makes the writer ready and puts it in the state the view gives, with its STATE notice and
its lamp (R79 to R81); in any other state it has no effect. UNREADY has none in ABSENT (R91); otherwise
the writer is ABSENT and its text is gone, and in RUNNING, where the view gives the right to send, a
YIELD is deposited. No floor frame is queued or in flight. Where auto-claim is on, in RUNNING with a VACANT
view, READY then deposits a CLAIM too: its writer is IDLE, with its notice and lamp, and then CLAIMING (R85,
R94). -/
def Obligations.ReadyAndUnready : Prop :=
  ∀ s : State, s.takesRecords → s.port.replacement = none →
    (s.port.ready = true → exec .ready s = .next s) ∧
    (s.port.ready = false → s.port.wstate = .absent → s.noRequest → s.port.splitIdle = false →
      (s.cfg.autoClaim = false ∨ s.start ≠ .running ∨ s.floor.view ≠ .vacant) →
      let w := s.floor.view.writerState s.number
      exec .ready s = .next
        { s with
          port := { s.port with ready := true, wstate := w }.enqueue (.state w)
          tally := s.tally.request s.cfg.tallyPeriod w.pattern }) ∧
    (s.port.ready = false → s.port.wstate = .absent → s.noRequest → s.port.splitIdle = false →
      s.cfg.autoClaim = true → s.start = .running → s.floor.view = .vacant →
      exec .ready s = .next
        { s with
          line := { s.line with floorQ := some .claim }
          port := ({ s.port with ready := true }.settled .idle).settled .claiming
          tally := (s.tally.request s.cfg.tallyPeriod .off).request s.cfg.tallyPeriod .fast }) ∧
    (s.port.ready = false → exec .unready s = .next s) ∧
    (s.port.ready = true → s.noRequest → s.line.arb = none → s.line.inFlight = none →
      ∃ t, exec .unready s = .next t ∧ t.port.ready = false ∧ t.port.wstate = .absent ∧
        t.asm.words = [] ∧ t.line.segQ = [] ∧
        t.line.floorQ = (if s.floor.view.right s.number = true ∧ s.start = .running
          then some .yield else none) ∧
        t.peers.entries = s.peers.entries ∧
        t = { s with
          flags := t.flags, pause := t.pause, tally := t.tally, line := t.line, peers := t.peers
          port := t.port, asm := t.asm })

/-- The decisions on FLOOR_TAKE and FLOOR_HAND in RUNNING with no request pending, also while an own floor frame
is in flight (R84). A FLOOR_TAKE (R85): in IDLE, a VACANT view deposits a CLAIM and an offer to this station or
ANY a TAKE naming its holder, and the writer is CLAIMING; any other view is REFUSED_HELD, and any other writer
state REFUSED_STATE. A FLOOR_HAND (R87): from ON_AIR or OFFERING an OFFER is deposited, unless its successor is
this station or an ABSENT one, which is BAD_SUCCESSOR; any other writer state is REFUSED_STATE. -/
def Obligations.FloorRequestsDecided : Prop :=
  ∀ s : State, s.takesRecords → s.port.replacement = none → s.start = .running → s.pendingRequest = none →
    let answers : Instr → Answer → Prop := fun c o =>
      exec c s = .next { s with port := s.port.enqueue (.outcome o) }
    let claims := fun f : FloorFrame =>
      exec .floorTake s = .next
        { s with
          line := { s.line with floorQ := some f }
          port := { s.port with wstate := .claiming }.enqueue (.state .claiming)
          tally := s.tally.request s.cfg.tallyPeriod .fast }
    (s.port.ready = true → s.port.wstate = .idle →
      (s.floor.view = .vacant → claims .claim) ∧
      (∀ h sc, s.floor.view = .offered h sc →
        (sc = .station s.number ∨ sc = .any → claims (.take h)) ∧
        (sc ≠ .station s.number → sc ≠ .any → answers .floorTake .refusedHeld)) ∧
      (s.floor.view ≠ .vacant → s.floor.view.isOffered = false → answers .floorTake .refusedHeld)) ∧
    (s.port.wstate ≠ .idle → answers .floorTake .refusedState) ∧
    ∀ (b : Byte) (sc : Successor), byteSuccessor b = some sc → s.workState = s.port.wstate →
      let bad := sc = .station s.number ∨ ∃ x, sc = .station x ∧ (s.peer x).present = false
      (s.port.wstate = .onAir ∨ s.port.wstate = .offering →
        (bad → answers (.floorHand b) .badSuccessor) ∧
        (¬bad → exec (.floorHand b) s = .next
          { s with line := { s.line with floorQ := some (.offer sc) } })) ∧
      (s.port.wstate ≠ .onAir → s.port.wstate ≠ .offering → answers (.floorHand b) .refusedState)

/-- A floor request that does not find the port free (R84). In LISTENING each is answered STARTING and nothing
else happens. In RUNNING, one that finds a request pending aborts it: the queued frame is withdrawn, which is no
source drop (log entry 40), a drain ends with its queue kept, ABORTED is answered with WR_ABORTED, and the
writer state is worked out, with its notice and its lamp (R80); the new request is then taken from that state; a
FLOOR_DONE that finds ON_AIR or OFFERING there is a FLOOR_LEAVE (R89). A leave that has nothing to yield then
has ABORTED as its only answer (R91). Where the pending frame is under arbitration the request waits whole for
the field to end (R26; log entry 11). -/
def Obligations.PendingRequestAborted : Prop :=
  ∀ (x : Byte) (sc : Successor) (s : State), s.takesRecords → s.port.replacement = none →
    byteSuccessor x = some sc →
    let asks : Instr → WriterRecord → Prop := fun c r =>
      c = .floorTake ∧ r = .floorTake ∨ c = .floorHand x ∧ r = .floorHand sc ∨
        c = .floorDone ∧ r = .floorDone ∨ c = .floorLeave ∧ r = .floorLeave
    (s.start ≠ .running → ∀ c r, asks c r →
      exec c s = .next { s with port := s.port.enqueue (.outcome .starting) }) ∧
    (s.start = .running → s.line.arb = some .floor → s.line.floorQ ≠ none → ∀ c r, asks c r →
      exec c s = .next { s with line := { s.line with held := s.line.held ++ [.record (some r) false] } }) ∧
    (s.start = .running → s.line.arb ≠ some .floor → s.line.floorInFlight = false → s.port.leaves = [] →
      s.port.ready = true →
      (∃ f, s.line.floorQ = some f ∧ (f = .release ∨ s.asm.drain = .idle)) ∨
        s.line.floorQ = none ∧ s.asm.drain = .draining →
      let w := if s.port.splitIdle then .idle else s.floor.view.writerState s.number
      (s.port.wstate.sending = true → w.sending = true) →
      let aborted : State := { s with
        line := { s.line with floorQ := none }
        asm := { s.asm with drain := .idle }
        port := (s.port.told [.outcome .aborted]).settled w
        flags := s.flags ||| Flag.mask .wrAborted
        tally := if w = s.port.wstate then s.tally else s.tally.request s.cfg.tallyPeriod w.pattern }
      exec .floorTake s = exec .floorTake aborted ∧
      exec (.floorHand x) s = exec (.floorHand x) aborted ∧
      (w ≠ .onAir → w ≠ .offering → exec .floorDone s = exec .floorDone aborted) ∧
      (w = .onAir ∨ w = .offering → exec .floorDone s = exec .floorLeave s) ∧
      (s.floor.view.right s.number = true → exec .floorLeave s = exec .floorLeave aborted) ∧
      (s.floor.view.right s.number = false →
        ∃ t, exec .floorLeave s = .next t ∧ t.port = aborted.port ∧ t.line.floorQ = none ∧
          t.asm.words = [] ∧ (s.line.arb ≠ some .segment → t.line.segQ = [])))

/-- How a writer gives the floor up. A FLOOR_DONE in OUTGOING closes an open segment as a FLUSH does and begins
the drain: the writer is DRAINING, its lamp SLOW, and no RELEASE goes before the text; with nothing queued and
no own segment in flight the drain is complete at its entry, and the RELEASE is deposited (R89, R110). In ON_AIR
and OFFERING a FLOOR_DONE is a FLOOR_LEAVE, and in any other state it is REFUSED_STATE (R89). A complete drain
is reported once, and its RELEASE deposited; a drain that is not complete, or not in progress, is not. A
FLOOR_LEAVE in RUNNING with nothing pending (R91, R102): where the view gives the right to send, the open
segment and every queued one go, each counted as a source drop; the writer is IDLE, with its notice and lamp
(R80); and a YIELD is deposited. The mark of an empty open segment is cleared where a sending state is left
(elsewhere: log entry 47). One in IDLE with nothing to yield and no own floor frame in flight is REFUSED_STATE
(log entry 18), and one that finds an own floor frame in flight makes the writer IDLE and waits for its end
(behind one that already waits: log entry 17). -/
def Obligations.DrainAndLeave : Prop :=
  ∀ s : State,
    (s.takesRecords → s.port.replacement = none → s.start = .running → s.noRequest →
      s.port.ready = true → s.port.splitIdle = false → s.port.wstate = .outgoing → s.asm.words = [] →
      let drains : State :=
        { s with
          asm := { s.asm with drain := .draining }
          port := { s.port with wstate := .draining }.enqueue (.state .draining)
          tally := s.tally.request s.cfg.tallyPeriod .slow }
      (s.line.segQ ≠ [] ∨ s.line.segmentInFlight = true → exec .floorDone s = .next drains) ∧
      (s.line.segQ = [] → s.line.segmentInFlight = false →
        exec .floorDone s = .next
          { drains with
            asm := { s.asm with drain := .reported }
            line := { s.line with floorQ := some .release } })) ∧
    (s.takesRecords → s.port.replacement = none → s.start = .running → s.pendingRequest = none →
      (s.port.wstate = .outgoing →
        ∃ mid, exec .flush s = .next mid ∧ mid.asm.words = [] ∧ exec .floorDone s = exec .floorDone mid) ∧
      (s.port.wstate = .onAir ∨ s.port.wstate = .offering → exec .floorDone s = exec .floorLeave s) ∧
      (s.port.wstate ≠ .outgoing → s.port.wstate ≠ .onAir → s.port.wstate ≠ .offering →
        exec .floorDone s = .next { s with port := s.port.enqueue (.outcome .refusedState) })) ∧
    (s.asm.drain = .draining → s.line.segQ = [] → s.line.segmentInFlight = false →
      exec .drainComplete s = .next
        { s with
          asm := { s.asm with drain := .reported }
          line := { s.line with floorQ := some .release } }) ∧
    (s.asm.drain ≠ .draining ∨ s.line.segQ ≠ [] ∨ s.line.segmentInFlight = true →
      exec .drainComplete s = .next s) ∧
    (s.takesRecords → s.port.replacement = none → s.start = .running → s.pendingRequest = none →
      s.port.ready = true → s.line.arb ≠ some .segment →
      let drops := (if s.asm.words = [] then 0 else 1) + s.line.segQ.length
      let gone : State → Prop := fun t =>
        t.line.segQ = [] ∧ t.asm.words = [] ∧ (s.port.wstate.sending = true → t.asm.newSpeaker = false) ∧
        t.tally = s.lampTold .idle ∧ t.peers.counters.drops = rise s.peers.counters.drops drops ∧
        (1 ≤ drops → hasFlag t.flags .srcDrop = true) ∧
        t.line.amendQ = s.line.amendQ ∧ t.asm.window = s.asm.window ∧
        t.peers.entries = s.peers.entries ∧
        t = { s with
          flags := t.flags, pause := t.pause, tally := t.tally, line := t.line, peers := t.peers
          port := t.port, asm := t.asm }
      (s.floor.view.right s.number = true → s.line.floorInFlight = false →
        ∃ t, exec .floorLeave s = .next t ∧ gone t ∧ t.line.floorQ = some .yield ∧
          t.port = s.port.settled .idle) ∧
      (s.line.floorInFlight = true →
        ∃ t, exec .floorLeave s = .next t ∧ gone t ∧ t.line.floorQ = none ∧
          t.line.inFlight = s.line.inFlight.map (fun f => { f with left := true }) ∧
          t.port = { s.port with leaves := s.port.leaves ++ [false] }.settled .idle) ∧
      (s.floor.view.right s.number = false → s.line.floorInFlight = false → s.port.wstate = .idle →
        s.port.leaves = [] → s.asm.drain = .idle → s.asm.words = [] → s.line.segQ = [] →
        exec .floorLeave s = .next
          { s with
            line := { s.line with
              ratio := 0, inFlight := s.line.inFlight.map fun f => { f with left := true } }
            port := s.port.enqueue (.outcome .refusedState) }))
/-- Notices are sent in their order (R78): the end of one begins the next queued, and an idle link has none to
end. A notice queued into a full queue discards the oldest STATE notice, or the oldest where none is a
STATE notice, and leaves the one being sent. -/
def Obligations.NoticeQueueOrder : Prop :=
  (∀ s : State,
    (∀ n, s.port.sending = some n →
      exec .noticeSent s = .next
        { s with port := { s.port with sending := s.port.notices.head?, notices := s.port.notices.tail } }) ∧
    (s.port.sending = none → exec .noticeSent s = .next s)) ∧
  ∀ (p : WriterPort) (m n : Notice), p.sending = some m →
    (p.enqueue n).sending = some m ∧
    (p.notices.length < 8 → (p.enqueue n).notices = p.notices ++ [n]) ∧
    (p.notices.length = 8 → (p.enqueue n).notices.length = 8 ∧
      (∀ before w after, p.notices = before ++ .state w :: after → (∀ x ∈ before, x.isState = false) →
        (p.enqueue n).notices = before ++ after ++ [n]) ∧
      ((∀ x ∈ p.notices, x.isState = false) → (p.enqueue n).notices = p.notices.tail ++ [n]))

/-! ### The supervisory port -/

/-- The writes at the supervisory port. The read select and window select writes change their selection and
nothing else (R173); an unknown table, a write of any other form, and any write while the port is held in reset
(R170), is not acknowledged and has no effect. CLEAR_COUNTERS sets every counter of the COUNTERS window and
every worst correction seen to 0, and leaves everything else: the flags, the clock, the timers, the views, the
lists, the zone, the orders and the line (R50, R74, R126, R157, R167, R173). -/
def Obligations.SupervisoryWrites : Prop :=
  (∀ (table index : Byte) (bytes : List Byte) (s : State),
    (s.resetHeld = false →
      exec .selectStatusWord s = .next { s with sup := { s.sup with select := .status, acked := true } } ∧
      exec .selectConfigurationBlock s =
        .next { s with sup := { s.sup with select := .config, acked := true } } ∧
      exec .selectWindowReads s = .next { s with sup := { s.sup with select := .window, acked := true } } ∧
      (∀ t : Table, table = t.code →
        exec (.windowSelect table index) s =
          .next { s with sup := { s.sup with table := t, index := index.toNat, acked := true } }) ∧
      (5 ≤ table.toNat →
        exec (.windowSelect table index) s = .next { s with sup := { s.sup with acked := false } })) ∧
    (bytes = [] ∨ (∃ c rest, bytes = c :: rest ∧
        (5 < c.toNat ∨ (c ≠ 3#8 ∧ rest ≠ []) ∨ (c = 3#8 ∧ rest.length ≠ 2))) →
      exec (.invalidWrite bytes) s = .next { s with sup := { s.sup with acked := false } }) ∧
    (s.resetHeld = true → ∀ c, c = Instr.selectStatusWord ∨ c = .selectConfigurationBlock ∨
        c = .selectWindowReads ∨ c = .windowSelect table index ∨ c = .clearCounters ∨ c = .restart →
      exec c s = .next { s with sup := { s.sup with acked := false } })) ∧
  ∀ s : State, s.resetHeld = false →
    ∃ t, exec .clearCounters s = .next t ∧
      (∀ cs ∈ t.counterRecords, ∀ c ∈ cs, c = 0#16) ∧
      (∀ x : Station, t.peer x = { s.peer x with worst := 0, counters := .zero }) ∧
      t.peers.counters = .zero ∧
      t = { s with
        peers := t.peers
        floor := { s.floor with strays := 0, lateClaims := 0, adoptions := 0 }
        intake := { s.intake with trimmed := 0, emptied := 0, discarded := 0, overflows := 0 }
        sched := { s.sched with
          catchUps := 0, overflows := 0, lateAmends := 0, amendsRefused := 0, amendsDiscarded := 0 }
        screen := { s.screen with zoneChanges := 0, conflicts := 0 }
        link := { s.link with sent := 0, replaced := 0 }
        sup := { s.sup with acked := true } }

/-- A read of the status word returns its ten bytes, with zeros past them: the start state, the reference state,
the view's three bytes, the writer state, the zone, and the flags in their order from bit 7 of the first flag
byte onwards (R171, Formats). It clears the flags it returned when the tenth has been transferred; a shorter
read clears none (R171), and ALERT follows (R174). A read of the window returns one whole record and advances
the index, also where it is cut short (log entry 22), or the end record, which does not (R172). The records of
PEER, COUNTERS, SCHEDULE, VISIBLE and HOLD hold the fields of Formats in their order, none of the last three in
a WRITER station; their open bytes are log entries 3, 4 and 45; in LOADING the window and the configuration
block are not acknowledged. -/
def Obligations.SupervisoryReads : Prop :=
  ∀ (count : Nat) (s : State), s.resetHeld = false →
    let view : View → List Byte := fun v => match v with
      | .vacant => [0#8, 255#8, 255#8]
      | .held h => [1#8, BitVec.ofNat 8 h.val, 255#8]
      | .offered h (.station x) => [2#8, BitVec.ofNat 8 h.val, BitVec.ofNat 8 x.val]
      | .offered h .any => [2#8, BitVec.ofNat 8 h.val, 15#8]
      | .overlap h i => [3#8, BitVec.ofNat 8 h.val, BitVec.ofNat 8 i.val]
    let item : List Byte → List Byte := fun bs => (bs ++ List.replicate (count - bs.length) 0#8).take count
    let one : Nat → Byte := fun n => if n < 256 then BitVec.ofNat 8 n else Config.wideByte n
    let two : Counter → List Byte := fun c => [BitVec.ofNat 8 (c.toNat / 256), BitVec.ofNat 8 c.toNat]
    let wide : Nat → List Byte := fun n => [BitVec.ofNat 8 (n / 256), BitVec.ofNat 8 n]
    let frame : Frame → List Byte := fun f => [24, 16, 8, 0].map fun k => BitVec.ofNat 8 (f.toNat / 2 ^ k)
    let bit : Bool → Byte := fun b => if b then 1#8 else 0#8
    let attrs : Attrs → Byte := fun a => bit a.newspk + 2#8 * bit a.amended + 4#8 * bit a.trimmed
    let text : Text → List Byte := fun x => BitVec.ofNat 8 x.length :: x
    let segment : Option Byte → List Byte := fun m => match m with
      | some m => [0#8, m]
      | none => [255#8, 255#8]
    let output : List (List Byte) → List (List Byte) := fun rs => if s.cfg.role = .writer then [] else rs
    let shown : Counter → Counter := fun c => if s.cfg.role = .writer then 0#16 else c
    let peer : Station → List Byte := fun x =>
      let e := s.peer x
      [BitVec.ofNat 8 x.val, bit e.present] ++ frame e.lastHeard ++
        [match e.role with
          | none => 0#8
          | some .writer => 1#8
          | some .output => 2#8
          | some .both => 3#8,
        match e.ready with
          | none => 255#8
          | some b => bit b] ++
        (match e.view with
          | none => [255#8, 255#8, 255#8]
          | some v => view v) ++
        segment e.reportedLast ++ segment e.expected ++
        [BitVec.ofNat 8 e.worst.val,
        match e.lastOutcome with
          | .none => 0#8
          | .clean => 1#8
          | .corrected => 2#8
          | .marginal => 3#8
          | .lost => 4#8
          | .malformed => 5#8]
    let counters : List (List Counter) :=
      [(let c := s.peers.counters
        [c.anonymous, c.refused, c.oversize, c.malformed, c.arbLosses, c.promotions, c.readbacks, c.drops])] ++
      ([0, 1, 2, 3, 4, 5, 6, 7].map fun x : Station =>
        let c := (s.peer x).counters
        [c.accepted, c.corrected, c.marginal, c.lost, c.missed, c.stale, c.offFloor, c.amends]) ++
      [[s.floor.strays, s.floor.lateClaims, s.floor.adoptions],
        [s.intake.trimmed, s.intake.emptied, s.intake.discarded, s.intake.overflows].map shown,
        [s.sched.catchUps, s.sched.overflows, s.sched.lateAmends, s.sched.amendsRefused,
          s.sched.amendsDiscarded].map shown,
        [s.screen.zoneChanges, s.screen.conflicts, s.link.sent, s.link.replaced].map shown]
    let cue : Cue → List Byte := fun c =>
      two c.number ++
        (match c.key, c.words.head? with
          | some k, some w => [0#8, BitVec.ofNat 8 k.source.val, k.segment, one w.index, one w.piece]
          | some k, none => [0#8, BitVec.ofNat 8 k.source.val, k.segment, 0#8, 0#8]
          | none, _ => 1#8 :: 255#8 :: [0, 1, 2].map (Config.retiredKeyByte c.number.toNat)) ++
        [one c.words.length, one (joinText (c.words.map (·.text))).length] ++
        frame c.s ++ frame c.e ++ frame c.k ++ frame c.tIdeal ++ frame c.tOn ++ [one c.d] ++ frame c.tOff ++
        [one c.rung] ++ wide c.lamQ ++ wide c.lam ++ [bit c.shown, attrs c.attrs] ++
        c.words.flatMap fun w => [one w.index, one w.piece] ++ frame w.speech ++ text w.text
    let held : HeldSegment → List Byte := fun g =>
      [BitVec.ofNat 8 g.source.val, g.number, bit g.newSpeaker] ++ frame g.rxFrame ++ [one g.words.length] ++
        g.words.flatMap fun w => [one w.index] ++ frame w.speech ++ text w.text
    let records : List (List Byte) := match s.sup.table with
      | .peer => [0, 1, 2, 3, 4, 5, 6, 7].map peer
      | .counters => counters.map fun cs => cs.flatMap two
      | .schedule => output (s.sched.cues.map cue)
      | .visible => output (s.screen.visible.map fun v =>
          two v.number ++ [attrs v.attrs, one v.countdown] ++ text v.text)
      | .hold => output (s.intake.hold.map held)
    let code : Byte := match s.sup.table with
      | .peer => 0#8
      | .counters => 1#8
      | .schedule => 2#8
      | .visible => 3#8
      | .hold => 4#8
    (s.sup.select = .status →
      let status : List Byte :=
        [match s.start with
          | .loading => 0#8
          | .listening => 1#8
          | .running => 2#8,
        match s.clock.ref with
          | .locked => 0#8
          | .flywheel => 1#8] ++
        view s.floor.view ++
        [match s.port.wstate with
          | .absent => 0#8
          | .idle => 1#8
          | .claiming => 2#8
          | .onAir => 3#8
          | .offering => 4#8
          | .incoming => 5#8
          | .outgoing => 6#8
          | .draining => 7#8,
        match s.screen.zone with
          | .top => 1#8
          | .bottom => 2#8
          | .conflict => 3#8] ++
        [[.lineLost, .lineMarginal, .lineReadback, .lineOversize, .lineRefused, .peerGone, .seqGap, .floorSplit],
          [.floorLapse, .floorStray, .wrBadRecord, .wrPartial, .wrAborted, .wrClipped, .wrNotOnAir, .srcDrop],
          [.outCatchup, .outOverflow, .outLateAmend, .outZoneConflict, .outPageReplaced, .refLoss, .cfgDefault,
            .cfgClamped]].map
          (fun fs : List Flag => fs.foldl (fun b f => 2#8 * b + (if hasFlag s.flags f then 1#8 else 0#8)) 0#8)
      ∃ t, exec (.statusWordRead count) s = .next t ∧
        t.sup = { s.sup with response := item status, acked := true } ∧
        status.length = 10 ∧ t.sup.response.length = count ∧
        (10 ≤ count → t.flags = 0#24 ∧ t.alert = false) ∧ (count < 10 → t.flags = s.flags) ∧
        t = { s with sup := t.sup, flags := t.flags }) ∧
    (s.sup.select = .window → s.start ≠ .loading →
      (∀ r, records[s.sup.index]? = some r →
        exec (.windowRead count) s = .next
          { s with sup := { s.sup with
              response := item ([code, one s.sup.index, one r.length] ++ r)
              acked := true
              index := s.sup.index + 1 } }) ∧
      (records.length ≤ s.sup.index →
        exec (.windowRead count) s = .next
          { s with sup := { s.sup with response := item [code, 255#8, 0#8], acked := true } })) ∧
    (s.sup.select = .config → s.start ≠ .loading →
      exec (.windowRead count) s = .next
        { s with sup := { s.sup with
            response := item
              ([BitVec.ofNat 8 s.number.val,
                  BitVec.ofNat 8 (s.load.defaultsUsed.toNat + 2 * s.load.clamped.toNat)] ++ s.cfg.values)
            acked := true } }) ∧
    (s.sup.select ≠ .status → s.start = .loading →
      exec (.windowRead count) s = .next { s with sup := { s.sup with response := [], acked := false } })
end

