-- ==== Sys2Proof/Laws/State.lean ====
section
/-! SUPPORT. One lemma per field per named update of State, true by unfolding: what the update leaves, and what
it writes. Later proofs rewrite with these and unfold no record update. -/

namespace Sys2Proof.Machine

/-! ### raiseMask -/

@[simp] theorem State.raiseMask_pending (w : FlagWord) (s : State) :
    (s.raiseMask w).pending = s.pending := rfl
@[simp] theorem State.raiseMask_start (w : FlagWord) (s : State) :
    (s.raiseMask w).start = s.start := rfl
@[simp] theorem State.raiseMask_resetHeld (w : FlagWord) (s : State) :
    (s.raiseMask w).resetHeld = s.resetHeld := rfl
@[simp] theorem State.raiseMask_number (w : FlagWord) (s : State) :
    (s.raiseMask w).number = s.number := rfl
@[simp] theorem State.raiseMask_cfg (w : FlagWord) (s : State) :
    (s.raiseMask w).cfg = s.cfg := rfl
@[simp] theorem State.raiseMask_load (w : FlagWord) (s : State) :
    (s.raiseMask w).load = s.load := rfl
@[simp] theorem State.raiseMask_listenCount (w : FlagWord) (s : State) :
    (s.raiseMask w).listenCount = s.listenCount := rfl
@[simp] theorem State.raiseMask_flags (w : FlagWord) (s : State) :
    (s.raiseMask w).flags = s.flags ||| w := rfl
@[simp] theorem State.raiseMask_clock (w : FlagWord) (s : State) :
    (s.raiseMask w).clock = s.clock := rfl
@[simp] theorem State.raiseMask_pause (w : FlagWord) (s : State) :
    (s.raiseMask w).pause = s.pause := rfl
@[simp] theorem State.raiseMask_lapse (w : FlagWord) (s : State) :
    (s.raiseMask w).lapse = s.lapse := rfl
@[simp] theorem State.raiseMask_overlap (w : FlagWord) (s : State) :
    (s.raiseMask w).overlap = s.overlap := rfl
@[simp] theorem State.raiseMask_beatTimer (w : FlagWord) (s : State) :
    (s.raiseMask w).beatTimer = s.beatTimer := rfl
@[simp] theorem State.raiseMask_tally (w : FlagWord) (s : State) :
    (s.raiseMask w).tally = s.tally := rfl
@[simp] theorem State.raiseMask_line (w : FlagWord) (s : State) :
    (s.raiseMask w).line = s.line := rfl
@[simp] theorem State.raiseMask_peers (w : FlagWord) (s : State) :
    (s.raiseMask w).peers = s.peers := rfl
@[simp] theorem State.raiseMask_floor (w : FlagWord) (s : State) :
    (s.raiseMask w).floor = s.floor := rfl
@[simp] theorem State.raiseMask_port (w : FlagWord) (s : State) :
    (s.raiseMask w).port = s.port := rfl
@[simp] theorem State.raiseMask_asm (w : FlagWord) (s : State) :
    (s.raiseMask w).asm = s.asm := rfl
@[simp] theorem State.raiseMask_intake (w : FlagWord) (s : State) :
    (s.raiseMask w).intake = s.intake := rfl
@[simp] theorem State.raiseMask_sched (w : FlagWord) (s : State) :
    (s.raiseMask w).sched = s.sched := rfl
@[simp] theorem State.raiseMask_screen (w : FlagWord) (s : State) :
    (s.raiseMask w).screen = s.screen := rfl
@[simp] theorem State.raiseMask_link (w : FlagWord) (s : State) :
    (s.raiseMask w).link = s.link := rfl
@[simp] theorem State.raiseMask_sup (w : FlagWord) (s : State) :
    (s.raiseMask w).sup = s.sup := rfl
@[simp] theorem State.raiseMask_screenDue (w : FlagWord) (s : State) :
    (s.raiseMask w).screenDue = s.screenDue := rfl
@[simp] theorem State.raiseMask_ticksDue (w : FlagWord) (s : State) :
    (s.raiseMask w).ticksDue = s.ticksDue := rfl

/-! ### raise -/

@[simp] theorem State.raise_pending (f : Flag) (s : State) :
    (s.raise f).pending = s.pending := rfl
@[simp] theorem State.raise_start (f : Flag) (s : State) :
    (s.raise f).start = s.start := rfl
@[simp] theorem State.raise_resetHeld (f : Flag) (s : State) :
    (s.raise f).resetHeld = s.resetHeld := rfl
@[simp] theorem State.raise_number (f : Flag) (s : State) :
    (s.raise f).number = s.number := rfl
@[simp] theorem State.raise_cfg (f : Flag) (s : State) :
    (s.raise f).cfg = s.cfg := rfl
@[simp] theorem State.raise_load (f : Flag) (s : State) :
    (s.raise f).load = s.load := rfl
@[simp] theorem State.raise_listenCount (f : Flag) (s : State) :
    (s.raise f).listenCount = s.listenCount := rfl
@[simp] theorem State.raise_flags (f : Flag) (s : State) :
    (s.raise f).flags = s.flags ||| f.mask := rfl
@[simp] theorem State.raise_clock (f : Flag) (s : State) :
    (s.raise f).clock = s.clock := rfl
@[simp] theorem State.raise_pause (f : Flag) (s : State) :
    (s.raise f).pause = s.pause := rfl
@[simp] theorem State.raise_lapse (f : Flag) (s : State) :
    (s.raise f).lapse = s.lapse := rfl
@[simp] theorem State.raise_overlap (f : Flag) (s : State) :
    (s.raise f).overlap = s.overlap := rfl
@[simp] theorem State.raise_beatTimer (f : Flag) (s : State) :
    (s.raise f).beatTimer = s.beatTimer := rfl
@[simp] theorem State.raise_tally (f : Flag) (s : State) :
    (s.raise f).tally = s.tally := rfl
@[simp] theorem State.raise_line (f : Flag) (s : State) :
    (s.raise f).line = s.line := rfl
@[simp] theorem State.raise_peers (f : Flag) (s : State) :
    (s.raise f).peers = s.peers := rfl
@[simp] theorem State.raise_floor (f : Flag) (s : State) :
    (s.raise f).floor = s.floor := rfl
@[simp] theorem State.raise_port (f : Flag) (s : State) :
    (s.raise f).port = s.port := rfl
@[simp] theorem State.raise_asm (f : Flag) (s : State) :
    (s.raise f).asm = s.asm := rfl
@[simp] theorem State.raise_intake (f : Flag) (s : State) :
    (s.raise f).intake = s.intake := rfl
@[simp] theorem State.raise_sched (f : Flag) (s : State) :
    (s.raise f).sched = s.sched := rfl
@[simp] theorem State.raise_screen (f : Flag) (s : State) :
    (s.raise f).screen = s.screen := rfl
@[simp] theorem State.raise_link (f : Flag) (s : State) :
    (s.raise f).link = s.link := rfl
@[simp] theorem State.raise_sup (f : Flag) (s : State) :
    (s.raise f).sup = s.sup := rfl
@[simp] theorem State.raise_screenDue (f : Flag) (s : State) :
    (s.raise f).screenDue = s.screenDue := rfl
@[simp] theorem State.raise_ticksDue (f : Flag) (s : State) :
    (s.raise f).ticksDue = s.ticksDue := rfl

/-! ### requestTally -/

@[simp] theorem State.requestTally_pending (p : Pattern) (s : State) :
    (s.requestTally p).pending = s.pending := rfl
@[simp] theorem State.requestTally_start (p : Pattern) (s : State) :
    (s.requestTally p).start = s.start := rfl
@[simp] theorem State.requestTally_resetHeld (p : Pattern) (s : State) :
    (s.requestTally p).resetHeld = s.resetHeld := rfl
@[simp] theorem State.requestTally_number (p : Pattern) (s : State) :
    (s.requestTally p).number = s.number := rfl
@[simp] theorem State.requestTally_cfg (p : Pattern) (s : State) :
    (s.requestTally p).cfg = s.cfg := rfl
@[simp] theorem State.requestTally_load (p : Pattern) (s : State) :
    (s.requestTally p).load = s.load := rfl
@[simp] theorem State.requestTally_listenCount (p : Pattern) (s : State) :
    (s.requestTally p).listenCount = s.listenCount := rfl
@[simp] theorem State.requestTally_flags (p : Pattern) (s : State) :
    (s.requestTally p).flags = s.flags := rfl
@[simp] theorem State.requestTally_clock (p : Pattern) (s : State) :
    (s.requestTally p).clock = s.clock := rfl
@[simp] theorem State.requestTally_pause (p : Pattern) (s : State) :
    (s.requestTally p).pause = s.pause := rfl
@[simp] theorem State.requestTally_lapse (p : Pattern) (s : State) :
    (s.requestTally p).lapse = s.lapse := rfl
@[simp] theorem State.requestTally_overlap (p : Pattern) (s : State) :
    (s.requestTally p).overlap = s.overlap := rfl
@[simp] theorem State.requestTally_beatTimer (p : Pattern) (s : State) :
    (s.requestTally p).beatTimer = s.beatTimer := rfl
@[simp] theorem State.requestTally_tally (p : Pattern) (s : State) :
    (s.requestTally p).tally = s.tally.request s.cfg.tallyPeriod p := rfl
@[simp] theorem State.requestTally_line (p : Pattern) (s : State) :
    (s.requestTally p).line = s.line := rfl
@[simp] theorem State.requestTally_peers (p : Pattern) (s : State) :
    (s.requestTally p).peers = s.peers := rfl
@[simp] theorem State.requestTally_floor (p : Pattern) (s : State) :
    (s.requestTally p).floor = s.floor := rfl
@[simp] theorem State.requestTally_port (p : Pattern) (s : State) :
    (s.requestTally p).port = s.port := rfl
@[simp] theorem State.requestTally_asm (p : Pattern) (s : State) :
    (s.requestTally p).asm = s.asm := rfl
@[simp] theorem State.requestTally_intake (p : Pattern) (s : State) :
    (s.requestTally p).intake = s.intake := rfl
@[simp] theorem State.requestTally_sched (p : Pattern) (s : State) :
    (s.requestTally p).sched = s.sched := rfl
@[simp] theorem State.requestTally_screen (p : Pattern) (s : State) :
    (s.requestTally p).screen = s.screen := rfl
@[simp] theorem State.requestTally_link (p : Pattern) (s : State) :
    (s.requestTally p).link = s.link := rfl
@[simp] theorem State.requestTally_sup (p : Pattern) (s : State) :
    (s.requestTally p).sup = s.sup := rfl
@[simp] theorem State.requestTally_screenDue (p : Pattern) (s : State) :
    (s.requestTally p).screenDue = s.screenDue := rfl
@[simp] theorem State.requestTally_ticksDue (p : Pattern) (s : State) :
    (s.requestTally p).ticksDue = s.ticksDue := rfl

/-! ### depositFloor -/

@[simp] theorem State.depositFloor_pending (f : FloorFrame) (s : State) :
    (s.depositFloor f).pending = s.pending := rfl
@[simp] theorem State.depositFloor_start (f : FloorFrame) (s : State) :
    (s.depositFloor f).start = s.start := rfl
@[simp] theorem State.depositFloor_resetHeld (f : FloorFrame) (s : State) :
    (s.depositFloor f).resetHeld = s.resetHeld := rfl
@[simp] theorem State.depositFloor_number (f : FloorFrame) (s : State) :
    (s.depositFloor f).number = s.number := rfl
@[simp] theorem State.depositFloor_cfg (f : FloorFrame) (s : State) :
    (s.depositFloor f).cfg = s.cfg := rfl
@[simp] theorem State.depositFloor_load (f : FloorFrame) (s : State) :
    (s.depositFloor f).load = s.load := rfl
@[simp] theorem State.depositFloor_listenCount (f : FloorFrame) (s : State) :
    (s.depositFloor f).listenCount = s.listenCount := rfl
@[simp] theorem State.depositFloor_flags (f : FloorFrame) (s : State) :
    (s.depositFloor f).flags = s.flags := rfl
@[simp] theorem State.depositFloor_clock (f : FloorFrame) (s : State) :
    (s.depositFloor f).clock = s.clock := rfl
@[simp] theorem State.depositFloor_pause (f : FloorFrame) (s : State) :
    (s.depositFloor f).pause = s.pause := rfl
@[simp] theorem State.depositFloor_lapse (f : FloorFrame) (s : State) :
    (s.depositFloor f).lapse = s.lapse := rfl
@[simp] theorem State.depositFloor_overlap (f : FloorFrame) (s : State) :
    (s.depositFloor f).overlap = s.overlap := rfl
@[simp] theorem State.depositFloor_beatTimer (f : FloorFrame) (s : State) :
    (s.depositFloor f).beatTimer = s.beatTimer := rfl
@[simp] theorem State.depositFloor_tally (f : FloorFrame) (s : State) :
    (s.depositFloor f).tally = s.tally := rfl
@[simp] theorem State.depositFloor_line (f : FloorFrame) (s : State) :
    (s.depositFloor f).line = { s.line with floorQ := some f } := rfl
@[simp] theorem State.depositFloor_peers (f : FloorFrame) (s : State) :
    (s.depositFloor f).peers = s.peers := rfl
@[simp] theorem State.depositFloor_floor (f : FloorFrame) (s : State) :
    (s.depositFloor f).floor = s.floor := rfl
@[simp] theorem State.depositFloor_port (f : FloorFrame) (s : State) :
    (s.depositFloor f).port = s.port := rfl
@[simp] theorem State.depositFloor_asm (f : FloorFrame) (s : State) :
    (s.depositFloor f).asm = s.asm := rfl
@[simp] theorem State.depositFloor_intake (f : FloorFrame) (s : State) :
    (s.depositFloor f).intake = s.intake := rfl
@[simp] theorem State.depositFloor_sched (f : FloorFrame) (s : State) :
    (s.depositFloor f).sched = s.sched := rfl
@[simp] theorem State.depositFloor_screen (f : FloorFrame) (s : State) :
    (s.depositFloor f).screen = s.screen := rfl
@[simp] theorem State.depositFloor_link (f : FloorFrame) (s : State) :
    (s.depositFloor f).link = s.link := rfl
@[simp] theorem State.depositFloor_sup (f : FloorFrame) (s : State) :
    (s.depositFloor f).sup = s.sup := rfl
@[simp] theorem State.depositFloor_screenDue (f : FloorFrame) (s : State) :
    (s.depositFloor f).screenDue = s.screenDue := rfl
@[simp] theorem State.depositFloor_ticksDue (f : FloorFrame) (s : State) :
    (s.depositFloor f).ticksDue = s.ticksDue := rfl

/-! ### notify -/

@[simp] theorem State.notify_pending (n : Notice) (s : State) :
    (s.notify n).pending = s.pending := rfl
@[simp] theorem State.notify_start (n : Notice) (s : State) :
    (s.notify n).start = s.start := rfl
@[simp] theorem State.notify_resetHeld (n : Notice) (s : State) :
    (s.notify n).resetHeld = s.resetHeld := rfl
@[simp] theorem State.notify_number (n : Notice) (s : State) :
    (s.notify n).number = s.number := rfl
@[simp] theorem State.notify_cfg (n : Notice) (s : State) :
    (s.notify n).cfg = s.cfg := rfl
@[simp] theorem State.notify_load (n : Notice) (s : State) :
    (s.notify n).load = s.load := rfl
@[simp] theorem State.notify_listenCount (n : Notice) (s : State) :
    (s.notify n).listenCount = s.listenCount := rfl
@[simp] theorem State.notify_flags (n : Notice) (s : State) :
    (s.notify n).flags = s.flags := rfl
@[simp] theorem State.notify_clock (n : Notice) (s : State) :
    (s.notify n).clock = s.clock := rfl
@[simp] theorem State.notify_pause (n : Notice) (s : State) :
    (s.notify n).pause = s.pause := rfl
@[simp] theorem State.notify_lapse (n : Notice) (s : State) :
    (s.notify n).lapse = s.lapse := rfl
@[simp] theorem State.notify_overlap (n : Notice) (s : State) :
    (s.notify n).overlap = s.overlap := rfl
@[simp] theorem State.notify_beatTimer (n : Notice) (s : State) :
    (s.notify n).beatTimer = s.beatTimer := rfl
@[simp] theorem State.notify_tally (n : Notice) (s : State) :
    (s.notify n).tally = s.tally := rfl
@[simp] theorem State.notify_line (n : Notice) (s : State) :
    (s.notify n).line = s.line := rfl
@[simp] theorem State.notify_peers (n : Notice) (s : State) :
    (s.notify n).peers = s.peers := rfl
@[simp] theorem State.notify_floor (n : Notice) (s : State) :
    (s.notify n).floor = s.floor := rfl
@[simp] theorem State.notify_port (n : Notice) (s : State) :
    (s.notify n).port = s.port.enqueue n := rfl
@[simp] theorem State.notify_asm (n : Notice) (s : State) :
    (s.notify n).asm = s.asm := rfl
@[simp] theorem State.notify_intake (n : Notice) (s : State) :
    (s.notify n).intake = s.intake := rfl
@[simp] theorem State.notify_sched (n : Notice) (s : State) :
    (s.notify n).sched = s.sched := rfl
@[simp] theorem State.notify_screen (n : Notice) (s : State) :
    (s.notify n).screen = s.screen := rfl
@[simp] theorem State.notify_link (n : Notice) (s : State) :
    (s.notify n).link = s.link := rfl
@[simp] theorem State.notify_sup (n : Notice) (s : State) :
    (s.notify n).sup = s.sup := rfl
@[simp] theorem State.notify_screenDue (n : Notice) (s : State) :
    (s.notify n).screenDue = s.screenDue := rfl
@[simp] theorem State.notify_ticksDue (n : Notice) (s : State) :
    (s.notify n).ticksDue = s.ticksDue := rfl

/-! ### answer -/

@[simp] theorem State.answer_pending (o : Answer) (s : State) :
    (s.answer o).pending = s.pending := rfl
@[simp] theorem State.answer_start (o : Answer) (s : State) :
    (s.answer o).start = s.start := rfl
@[simp] theorem State.answer_resetHeld (o : Answer) (s : State) :
    (s.answer o).resetHeld = s.resetHeld := rfl
@[simp] theorem State.answer_number (o : Answer) (s : State) :
    (s.answer o).number = s.number := rfl
@[simp] theorem State.answer_cfg (o : Answer) (s : State) :
    (s.answer o).cfg = s.cfg := rfl
@[simp] theorem State.answer_load (o : Answer) (s : State) :
    (s.answer o).load = s.load := rfl
@[simp] theorem State.answer_listenCount (o : Answer) (s : State) :
    (s.answer o).listenCount = s.listenCount := rfl
@[simp] theorem State.answer_flags (o : Answer) (s : State) :
    (s.answer o).flags = s.flags := rfl
@[simp] theorem State.answer_clock (o : Answer) (s : State) :
    (s.answer o).clock = s.clock := rfl
@[simp] theorem State.answer_pause (o : Answer) (s : State) :
    (s.answer o).pause = s.pause := rfl
@[simp] theorem State.answer_lapse (o : Answer) (s : State) :
    (s.answer o).lapse = s.lapse := rfl
@[simp] theorem State.answer_overlap (o : Answer) (s : State) :
    (s.answer o).overlap = s.overlap := rfl
@[simp] theorem State.answer_beatTimer (o : Answer) (s : State) :
    (s.answer o).beatTimer = s.beatTimer := rfl
@[simp] theorem State.answer_tally (o : Answer) (s : State) :
    (s.answer o).tally = s.tally := rfl
@[simp] theorem State.answer_line (o : Answer) (s : State) :
    (s.answer o).line = s.line := rfl
@[simp] theorem State.answer_peers (o : Answer) (s : State) :
    (s.answer o).peers = s.peers := rfl
@[simp] theorem State.answer_floor (o : Answer) (s : State) :
    (s.answer o).floor = s.floor := rfl
@[simp] theorem State.answer_port (o : Answer) (s : State) :
    (s.answer o).port = s.port.enqueue (.outcome o) := rfl
@[simp] theorem State.answer_asm (o : Answer) (s : State) :
    (s.answer o).asm = s.asm := rfl
@[simp] theorem State.answer_intake (o : Answer) (s : State) :
    (s.answer o).intake = s.intake := rfl
@[simp] theorem State.answer_sched (o : Answer) (s : State) :
    (s.answer o).sched = s.sched := rfl
@[simp] theorem State.answer_screen (o : Answer) (s : State) :
    (s.answer o).screen = s.screen := rfl
@[simp] theorem State.answer_link (o : Answer) (s : State) :
    (s.answer o).link = s.link := rfl
@[simp] theorem State.answer_sup (o : Answer) (s : State) :
    (s.answer o).sup = s.sup := rfl
@[simp] theorem State.answer_screenDue (o : Answer) (s : State) :
    (s.answer o).screenDue = s.screenDue := rfl
@[simp] theorem State.answer_ticksDue (o : Answer) (s : State) :
    (s.answer o).ticksDue = s.ticksDue := rfl

/-! ### countReadback -/

@[simp] theorem State.countReadback_pending (s : State) :
    (s.countReadback).pending = s.pending := rfl
@[simp] theorem State.countReadback_start (s : State) :
    (s.countReadback).start = s.start := rfl
@[simp] theorem State.countReadback_resetHeld (s : State) :
    (s.countReadback).resetHeld = s.resetHeld := rfl
@[simp] theorem State.countReadback_number (s : State) :
    (s.countReadback).number = s.number := rfl
@[simp] theorem State.countReadback_cfg (s : State) :
    (s.countReadback).cfg = s.cfg := rfl
@[simp] theorem State.countReadback_load (s : State) :
    (s.countReadback).load = s.load := rfl
@[simp] theorem State.countReadback_listenCount (s : State) :
    (s.countReadback).listenCount = s.listenCount := rfl
@[simp] theorem State.countReadback_flags (s : State) :
    (s.countReadback).flags = s.flags ||| Flag.mask .lineReadback := rfl
@[simp] theorem State.countReadback_clock (s : State) :
    (s.countReadback).clock = s.clock := rfl
@[simp] theorem State.countReadback_pause (s : State) :
    (s.countReadback).pause = s.pause := rfl
@[simp] theorem State.countReadback_lapse (s : State) :
    (s.countReadback).lapse = s.lapse := rfl
@[simp] theorem State.countReadback_overlap (s : State) :
    (s.countReadback).overlap = s.overlap := rfl
@[simp] theorem State.countReadback_beatTimer (s : State) :
    (s.countReadback).beatTimer = s.beatTimer := rfl
@[simp] theorem State.countReadback_tally (s : State) :
    (s.countReadback).tally = s.tally := rfl
@[simp] theorem State.countReadback_line (s : State) :
    (s.countReadback).line = s.line := rfl
@[simp] theorem State.countReadback_floor (s : State) :
    (s.countReadback).floor = s.floor := rfl
@[simp] theorem State.countReadback_port (s : State) :
    (s.countReadback).port = s.port := rfl
@[simp] theorem State.countReadback_asm (s : State) :
    (s.countReadback).asm = s.asm := rfl
@[simp] theorem State.countReadback_intake (s : State) :
    (s.countReadback).intake = s.intake := rfl
@[simp] theorem State.countReadback_sched (s : State) :
    (s.countReadback).sched = s.sched := rfl
@[simp] theorem State.countReadback_screen (s : State) :
    (s.countReadback).screen = s.screen := rfl
@[simp] theorem State.countReadback_link (s : State) :
    (s.countReadback).link = s.link := rfl
@[simp] theorem State.countReadback_sup (s : State) :
    (s.countReadback).sup = s.sup := rfl
@[simp] theorem State.countReadback_screenDue (s : State) :
    (s.countReadback).screenDue = s.screenDue := rfl
@[simp] theorem State.countReadback_ticksDue (s : State) :
    (s.countReadback).ticksDue = s.ticksDue := rfl

/-! ### updatePeer -/

@[simp] theorem State.updatePeer_pending (x : Station) (f : PeerEntry → PeerEntry) (s : State) :
    (s.updatePeer x f).pending = s.pending := rfl
@[simp] theorem State.updatePeer_start (x : Station) (f : PeerEntry → PeerEntry) (s : State) :
    (s.updatePeer x f).start = s.start := rfl
@[simp] theorem State.updatePeer_resetHeld (x : Station) (f : PeerEntry → PeerEntry) (s : State) :
    (s.updatePeer x f).resetHeld = s.resetHeld := rfl
@[simp] theorem State.updatePeer_number (x : Station) (f : PeerEntry → PeerEntry) (s : State) :
    (s.updatePeer x f).number = s.number := rfl
@[simp] theorem State.updatePeer_cfg (x : Station) (f : PeerEntry → PeerEntry) (s : State) :
    (s.updatePeer x f).cfg = s.cfg := rfl
@[simp] theorem State.updatePeer_load (x : Station) (f : PeerEntry → PeerEntry) (s : State) :
    (s.updatePeer x f).load = s.load := rfl
@[simp] theorem State.updatePeer_listenCount (x : Station) (f : PeerEntry → PeerEntry) (s : State) :
    (s.updatePeer x f).listenCount = s.listenCount := rfl
@[simp] theorem State.updatePeer_flags (x : Station) (f : PeerEntry → PeerEntry) (s : State) :
    (s.updatePeer x f).flags = s.flags := rfl
@[simp] theorem State.updatePeer_clock (x : Station) (f : PeerEntry → PeerEntry) (s : State) :
    (s.updatePeer x f).clock = s.clock := rfl
@[simp] theorem State.updatePeer_pause (x : Station) (f : PeerEntry → PeerEntry) (s : State) :
    (s.updatePeer x f).pause = s.pause := rfl
@[simp] theorem State.updatePeer_lapse (x : Station) (f : PeerEntry → PeerEntry) (s : State) :
    (s.updatePeer x f).lapse = s.lapse := rfl
@[simp] theorem State.updatePeer_overlap (x : Station) (f : PeerEntry → PeerEntry) (s : State) :
    (s.updatePeer x f).overlap = s.overlap := rfl
@[simp] theorem State.updatePeer_beatTimer (x : Station) (f : PeerEntry → PeerEntry) (s : State) :
    (s.updatePeer x f).beatTimer = s.beatTimer := rfl
@[simp] theorem State.updatePeer_tally (x : Station) (f : PeerEntry → PeerEntry) (s : State) :
    (s.updatePeer x f).tally = s.tally := rfl
@[simp] theorem State.updatePeer_line (x : Station) (f : PeerEntry → PeerEntry) (s : State) :
    (s.updatePeer x f).line = s.line := rfl
@[simp] theorem State.updatePeer_peers (x : Station) (f : PeerEntry → PeerEntry) (s : State) :
    (s.updatePeer x f).peers = { s.peers with entries := s.peers.entries.set x (f (s.peer x)) } := rfl
@[simp] theorem State.updatePeer_floor (x : Station) (f : PeerEntry → PeerEntry) (s : State) :
    (s.updatePeer x f).floor = s.floor := rfl
@[simp] theorem State.updatePeer_port (x : Station) (f : PeerEntry → PeerEntry) (s : State) :
    (s.updatePeer x f).port = s.port := rfl
@[simp] theorem State.updatePeer_asm (x : Station) (f : PeerEntry → PeerEntry) (s : State) :
    (s.updatePeer x f).asm = s.asm := rfl
@[simp] theorem State.updatePeer_intake (x : Station) (f : PeerEntry → PeerEntry) (s : State) :
    (s.updatePeer x f).intake = s.intake := rfl
@[simp] theorem State.updatePeer_sched (x : Station) (f : PeerEntry → PeerEntry) (s : State) :
    (s.updatePeer x f).sched = s.sched := rfl
@[simp] theorem State.updatePeer_screen (x : Station) (f : PeerEntry → PeerEntry) (s : State) :
    (s.updatePeer x f).screen = s.screen := rfl
@[simp] theorem State.updatePeer_link (x : Station) (f : PeerEntry → PeerEntry) (s : State) :
    (s.updatePeer x f).link = s.link := rfl
@[simp] theorem State.updatePeer_sup (x : Station) (f : PeerEntry → PeerEntry) (s : State) :
    (s.updatePeer x f).sup = s.sup := rfl
@[simp] theorem State.updatePeer_screenDue (x : Station) (f : PeerEntry → PeerEntry) (s : State) :
    (s.updatePeer x f).screenDue = s.screenDue := rfl
@[simp] theorem State.updatePeer_ticksDue (x : Station) (f : PeerEntry → PeerEntry) (s : State) :
    (s.updatePeer x f).ticksDue = s.ticksDue := rfl

/-! ### forgetPeer -/

@[simp] theorem State.forgetPeer_pending (x : Station) (s : State) :
    (s.forgetPeer x).pending = s.pending := rfl
@[simp] theorem State.forgetPeer_start (x : Station) (s : State) :
    (s.forgetPeer x).start = s.start := rfl
@[simp] theorem State.forgetPeer_resetHeld (x : Station) (s : State) :
    (s.forgetPeer x).resetHeld = s.resetHeld := rfl
@[simp] theorem State.forgetPeer_number (x : Station) (s : State) :
    (s.forgetPeer x).number = s.number := rfl
@[simp] theorem State.forgetPeer_cfg (x : Station) (s : State) :
    (s.forgetPeer x).cfg = s.cfg := rfl
@[simp] theorem State.forgetPeer_load (x : Station) (s : State) :
    (s.forgetPeer x).load = s.load := rfl
@[simp] theorem State.forgetPeer_listenCount (x : Station) (s : State) :
    (s.forgetPeer x).listenCount = s.listenCount := rfl
@[simp] theorem State.forgetPeer_flags (x : Station) (s : State) :
    (s.forgetPeer x).flags = s.flags ||| Flag.mask .peerGone := rfl
@[simp] theorem State.forgetPeer_clock (x : Station) (s : State) :
    (s.forgetPeer x).clock = s.clock := rfl
@[simp] theorem State.forgetPeer_pause (x : Station) (s : State) :
    (s.forgetPeer x).pause = s.pause := rfl
@[simp] theorem State.forgetPeer_lapse (x : Station) (s : State) :
    (s.forgetPeer x).lapse = s.lapse := rfl
@[simp] theorem State.forgetPeer_overlap (x : Station) (s : State) :
    (s.forgetPeer x).overlap = s.overlap := rfl
@[simp] theorem State.forgetPeer_beatTimer (x : Station) (s : State) :
    (s.forgetPeer x).beatTimer = s.beatTimer := rfl
@[simp] theorem State.forgetPeer_tally (x : Station) (s : State) :
    (s.forgetPeer x).tally = s.tally := rfl
@[simp] theorem State.forgetPeer_line (x : Station) (s : State) :
    (s.forgetPeer x).line = s.line := rfl
@[simp] theorem State.forgetPeer_floor (x : Station) (s : State) :
    (s.forgetPeer x).floor = s.floor := rfl
@[simp] theorem State.forgetPeer_port (x : Station) (s : State) :
    (s.forgetPeer x).port = s.port := rfl
@[simp] theorem State.forgetPeer_asm (x : Station) (s : State) :
    (s.forgetPeer x).asm = s.asm := rfl
@[simp] theorem State.forgetPeer_intake (x : Station) (s : State) :
    (s.forgetPeer x).intake = s.intake := rfl
@[simp] theorem State.forgetPeer_sched (x : Station) (s : State) :
    (s.forgetPeer x).sched = s.sched := rfl
@[simp] theorem State.forgetPeer_screen (x : Station) (s : State) :
    (s.forgetPeer x).screen = s.screen := rfl
@[simp] theorem State.forgetPeer_link (x : Station) (s : State) :
    (s.forgetPeer x).link = s.link := rfl
@[simp] theorem State.forgetPeer_sup (x : Station) (s : State) :
    (s.forgetPeer x).sup = s.sup := rfl
@[simp] theorem State.forgetPeer_screenDue (x : Station) (s : State) :
    (s.forgetPeer x).screenDue = s.screenDue := rfl
@[simp] theorem State.forgetPeer_ticksDue (x : Station) (s : State) :
    (s.forgetPeer x).ticksDue = s.ticksDue := rfl

/-! ### strayFrame -/

@[simp] theorem State.strayFrame_pending (s : State) :
    (s.strayFrame).pending = s.pending := rfl
@[simp] theorem State.strayFrame_start (s : State) :
    (s.strayFrame).start = s.start := rfl
@[simp] theorem State.strayFrame_resetHeld (s : State) :
    (s.strayFrame).resetHeld = s.resetHeld := rfl
@[simp] theorem State.strayFrame_number (s : State) :
    (s.strayFrame).number = s.number := rfl
@[simp] theorem State.strayFrame_cfg (s : State) :
    (s.strayFrame).cfg = s.cfg := rfl
@[simp] theorem State.strayFrame_load (s : State) :
    (s.strayFrame).load = s.load := rfl
@[simp] theorem State.strayFrame_listenCount (s : State) :
    (s.strayFrame).listenCount = s.listenCount := rfl
@[simp] theorem State.strayFrame_flags (s : State) :
    (s.strayFrame).flags = s.flags ||| Flag.mask .floorStray := rfl
@[simp] theorem State.strayFrame_clock (s : State) :
    (s.strayFrame).clock = s.clock := rfl
@[simp] theorem State.strayFrame_pause (s : State) :
    (s.strayFrame).pause = s.pause := rfl
@[simp] theorem State.strayFrame_lapse (s : State) :
    (s.strayFrame).lapse = s.lapse := rfl
@[simp] theorem State.strayFrame_overlap (s : State) :
    (s.strayFrame).overlap = s.overlap := rfl
@[simp] theorem State.strayFrame_beatTimer (s : State) :
    (s.strayFrame).beatTimer = s.beatTimer := rfl
@[simp] theorem State.strayFrame_tally (s : State) :
    (s.strayFrame).tally = s.tally := rfl
@[simp] theorem State.strayFrame_line (s : State) :
    (s.strayFrame).line = s.line := rfl
@[simp] theorem State.strayFrame_peers (s : State) :
    (s.strayFrame).peers = s.peers := rfl
@[simp] theorem State.strayFrame_floor (s : State) :
    (s.strayFrame).floor = { s.floor with strays := rise s.floor.strays 1 } := rfl
@[simp] theorem State.strayFrame_port (s : State) :
    (s.strayFrame).port = s.port := rfl
@[simp] theorem State.strayFrame_asm (s : State) :
    (s.strayFrame).asm = s.asm := rfl
@[simp] theorem State.strayFrame_intake (s : State) :
    (s.strayFrame).intake = s.intake := rfl
@[simp] theorem State.strayFrame_sched (s : State) :
    (s.strayFrame).sched = s.sched := rfl
@[simp] theorem State.strayFrame_screen (s : State) :
    (s.strayFrame).screen = s.screen := rfl
@[simp] theorem State.strayFrame_link (s : State) :
    (s.strayFrame).link = s.link := rfl
@[simp] theorem State.strayFrame_sup (s : State) :
    (s.strayFrame).sup = s.sup := rfl
@[simp] theorem State.strayFrame_screenDue (s : State) :
    (s.strayFrame).screenDue = s.screenDue := rfl
@[simp] theorem State.strayFrame_ticksDue (s : State) :
    (s.strayFrame).ticksDue = s.ticksDue := rfl

/-! ### runFloorTimers -/

@[simp] theorem State.runFloorTimers_pending (old new : View) (s : State) :
    (s.runFloorTimers old new).pending = s.pending := rfl
@[simp] theorem State.runFloorTimers_start (old new : View) (s : State) :
    (s.runFloorTimers old new).start = s.start := rfl
@[simp] theorem State.runFloorTimers_resetHeld (old new : View) (s : State) :
    (s.runFloorTimers old new).resetHeld = s.resetHeld := rfl
@[simp] theorem State.runFloorTimers_number (old new : View) (s : State) :
    (s.runFloorTimers old new).number = s.number := rfl
@[simp] theorem State.runFloorTimers_cfg (old new : View) (s : State) :
    (s.runFloorTimers old new).cfg = s.cfg := rfl
@[simp] theorem State.runFloorTimers_load (old new : View) (s : State) :
    (s.runFloorTimers old new).load = s.load := rfl
@[simp] theorem State.runFloorTimers_listenCount (old new : View) (s : State) :
    (s.runFloorTimers old new).listenCount = s.listenCount := rfl
@[simp] theorem State.runFloorTimers_flags (old new : View) (s : State) :
    (s.runFloorTimers old new).flags = s.flags := rfl
@[simp] theorem State.runFloorTimers_clock (old new : View) (s : State) :
    (s.runFloorTimers old new).clock = s.clock := rfl
@[simp] theorem State.runFloorTimers_pause (old new : View) (s : State) :
    (s.runFloorTimers old new).pause = s.pause := rfl
@[simp] theorem State.runFloorTimers_beatTimer (old new : View) (s : State) :
    (s.runFloorTimers old new).beatTimer = s.beatTimer := rfl
@[simp] theorem State.runFloorTimers_tally (old new : View) (s : State) :
    (s.runFloorTimers old new).tally = s.tally := rfl
@[simp] theorem State.runFloorTimers_line (old new : View) (s : State) :
    (s.runFloorTimers old new).line = s.line := rfl
@[simp] theorem State.runFloorTimers_peers (old new : View) (s : State) :
    (s.runFloorTimers old new).peers = s.peers := rfl
@[simp] theorem State.runFloorTimers_floor (old new : View) (s : State) :
    (s.runFloorTimers old new).floor = s.floor := rfl
@[simp] theorem State.runFloorTimers_port (old new : View) (s : State) :
    (s.runFloorTimers old new).port = s.port := rfl
@[simp] theorem State.runFloorTimers_asm (old new : View) (s : State) :
    (s.runFloorTimers old new).asm = s.asm := rfl
@[simp] theorem State.runFloorTimers_intake (old new : View) (s : State) :
    (s.runFloorTimers old new).intake = s.intake := rfl
@[simp] theorem State.runFloorTimers_sched (old new : View) (s : State) :
    (s.runFloorTimers old new).sched = s.sched := rfl
@[simp] theorem State.runFloorTimers_screen (old new : View) (s : State) :
    (s.runFloorTimers old new).screen = s.screen := rfl
@[simp] theorem State.runFloorTimers_link (old new : View) (s : State) :
    (s.runFloorTimers old new).link = s.link := rfl
@[simp] theorem State.runFloorTimers_sup (old new : View) (s : State) :
    (s.runFloorTimers old new).sup = s.sup := rfl
@[simp] theorem State.runFloorTimers_screenDue (old new : View) (s : State) :
    (s.runFloorTimers old new).screenDue = s.screenDue := rfl
@[simp] theorem State.runFloorTimers_ticksDue (old new : View) (s : State) :
    (s.runFloorTimers old new).ticksDue = s.ticksDue := rfl

/-! ### stampLastWord -/

@[simp] theorem State.stampLastWord_pending (g : HeldSegment) (s : State) :
    (s.stampLastWord g).pending = s.pending := rfl
@[simp] theorem State.stampLastWord_start (g : HeldSegment) (s : State) :
    (s.stampLastWord g).start = s.start := rfl
@[simp] theorem State.stampLastWord_resetHeld (g : HeldSegment) (s : State) :
    (s.stampLastWord g).resetHeld = s.resetHeld := rfl
@[simp] theorem State.stampLastWord_number (g : HeldSegment) (s : State) :
    (s.stampLastWord g).number = s.number := rfl
@[simp] theorem State.stampLastWord_cfg (g : HeldSegment) (s : State) :
    (s.stampLastWord g).cfg = s.cfg := rfl
@[simp] theorem State.stampLastWord_load (g : HeldSegment) (s : State) :
    (s.stampLastWord g).load = s.load := rfl
@[simp] theorem State.stampLastWord_listenCount (g : HeldSegment) (s : State) :
    (s.stampLastWord g).listenCount = s.listenCount := rfl
@[simp] theorem State.stampLastWord_flags (g : HeldSegment) (s : State) :
    (s.stampLastWord g).flags = s.flags := rfl
@[simp] theorem State.stampLastWord_clock (g : HeldSegment) (s : State) :
    (s.stampLastWord g).clock = s.clock := rfl
@[simp] theorem State.stampLastWord_pause (g : HeldSegment) (s : State) :
    (s.stampLastWord g).pause = s.pause := rfl
@[simp] theorem State.stampLastWord_lapse (g : HeldSegment) (s : State) :
    (s.stampLastWord g).lapse = s.lapse := rfl
@[simp] theorem State.stampLastWord_overlap (g : HeldSegment) (s : State) :
    (s.stampLastWord g).overlap = s.overlap := rfl
@[simp] theorem State.stampLastWord_beatTimer (g : HeldSegment) (s : State) :
    (s.stampLastWord g).beatTimer = s.beatTimer := rfl
@[simp] theorem State.stampLastWord_tally (g : HeldSegment) (s : State) :
    (s.stampLastWord g).tally = s.tally := rfl
@[simp] theorem State.stampLastWord_line (g : HeldSegment) (s : State) :
    (s.stampLastWord g).line = s.line := rfl
@[simp] theorem State.stampLastWord_peers (g : HeldSegment) (s : State) :
    (s.stampLastWord g).peers = s.peers := rfl
@[simp] theorem State.stampLastWord_floor (g : HeldSegment) (s : State) :
    (s.stampLastWord g).floor = s.floor := rfl
@[simp] theorem State.stampLastWord_port (g : HeldSegment) (s : State) :
    (s.stampLastWord g).port = s.port := rfl
@[simp] theorem State.stampLastWord_asm (g : HeldSegment) (s : State) :
    (s.stampLastWord g).asm = s.asm := rfl
@[simp] theorem State.stampLastWord_sched (g : HeldSegment) (s : State) :
    (s.stampLastWord g).sched = s.sched := rfl
@[simp] theorem State.stampLastWord_screen (g : HeldSegment) (s : State) :
    (s.stampLastWord g).screen = s.screen := rfl
@[simp] theorem State.stampLastWord_link (g : HeldSegment) (s : State) :
    (s.stampLastWord g).link = s.link := rfl
@[simp] theorem State.stampLastWord_sup (g : HeldSegment) (s : State) :
    (s.stampLastWord g).sup = s.sup := rfl
@[simp] theorem State.stampLastWord_screenDue (g : HeldSegment) (s : State) :
    (s.stampLastWord g).screenDue = s.screenDue := rfl
@[simp] theorem State.stampLastWord_ticksDue (g : HeldSegment) (s : State) :
    (s.stampLastWord g).ticksDue = s.ticksDue := rfl

/-! ### arm -/

@[simp] theorem State.arm_pending (P : Option Frame) (t : Station) (s : State) :
    (s.arm P t).pending = s.pending := rfl
@[simp] theorem State.arm_start (P : Option Frame) (t : Station) (s : State) :
    (s.arm P t).start = s.start := rfl
@[simp] theorem State.arm_resetHeld (P : Option Frame) (t : Station) (s : State) :
    (s.arm P t).resetHeld = s.resetHeld := rfl
@[simp] theorem State.arm_number (P : Option Frame) (t : Station) (s : State) :
    (s.arm P t).number = s.number := rfl
@[simp] theorem State.arm_cfg (P : Option Frame) (t : Station) (s : State) :
    (s.arm P t).cfg = s.cfg := rfl
@[simp] theorem State.arm_load (P : Option Frame) (t : Station) (s : State) :
    (s.arm P t).load = s.load := rfl
@[simp] theorem State.arm_listenCount (P : Option Frame) (t : Station) (s : State) :
    (s.arm P t).listenCount = s.listenCount := rfl
@[simp] theorem State.arm_flags (P : Option Frame) (t : Station) (s : State) :
    (s.arm P t).flags = s.flags := rfl
@[simp] theorem State.arm_clock (P : Option Frame) (t : Station) (s : State) :
    (s.arm P t).clock = s.clock := rfl
@[simp] theorem State.arm_pause (P : Option Frame) (t : Station) (s : State) :
    (s.arm P t).pause = s.pause := rfl
@[simp] theorem State.arm_lapse (P : Option Frame) (t : Station) (s : State) :
    (s.arm P t).lapse = s.lapse := rfl
@[simp] theorem State.arm_overlap (P : Option Frame) (t : Station) (s : State) :
    (s.arm P t).overlap = s.overlap := rfl
@[simp] theorem State.arm_beatTimer (P : Option Frame) (t : Station) (s : State) :
    (s.arm P t).beatTimer = s.beatTimer := rfl
@[simp] theorem State.arm_tally (P : Option Frame) (t : Station) (s : State) :
    (s.arm P t).tally = s.tally := rfl
@[simp] theorem State.arm_line (P : Option Frame) (t : Station) (s : State) :
    (s.arm P t).line = s.line := rfl
@[simp] theorem State.arm_peers (P : Option Frame) (t : Station) (s : State) :
    (s.arm P t).peers = s.peers := rfl
@[simp] theorem State.arm_floor (P : Option Frame) (t : Station) (s : State) :
    (s.arm P t).floor = s.floor := rfl
@[simp] theorem State.arm_port (P : Option Frame) (t : Station) (s : State) :
    (s.arm P t).port = s.port := rfl
@[simp] theorem State.arm_asm (P : Option Frame) (t : Station) (s : State) :
    (s.arm P t).asm = s.asm := rfl
@[simp] theorem State.arm_intake (P : Option Frame) (t : Station) (s : State) :
    (s.arm P t).intake = { s.intake with armed := P.map fun P => ⟨P, t⟩ } := rfl
@[simp] theorem State.arm_sched (P : Option Frame) (t : Station) (s : State) :
    (s.arm P t).sched = s.sched := rfl
@[simp] theorem State.arm_screen (P : Option Frame) (t : Station) (s : State) :
    (s.arm P t).screen = s.screen := rfl
@[simp] theorem State.arm_link (P : Option Frame) (t : Station) (s : State) :
    (s.arm P t).link = s.link := rfl
@[simp] theorem State.arm_sup (P : Option Frame) (t : Station) (s : State) :
    (s.arm P t).sup = s.sup := rfl
@[simp] theorem State.arm_screenDue (P : Option Frame) (t : Station) (s : State) :
    (s.arm P t).screenDue = s.screenDue := rfl
@[simp] theorem State.arm_ticksDue (P : Option Frame) (t : Station) (s : State) :
    (s.arm P t).ticksDue = s.ticksDue := rfl

/-! ### recomputeNow -/

@[simp] theorem State.recomputeNow_pending (s : State) :
    (s.recomputeNow).pending = s.pending := rfl
@[simp] theorem State.recomputeNow_start (s : State) :
    (s.recomputeNow).start = s.start := rfl
@[simp] theorem State.recomputeNow_resetHeld (s : State) :
    (s.recomputeNow).resetHeld = s.resetHeld := rfl
@[simp] theorem State.recomputeNow_number (s : State) :
    (s.recomputeNow).number = s.number := rfl
@[simp] theorem State.recomputeNow_cfg (s : State) :
    (s.recomputeNow).cfg = s.cfg := rfl
@[simp] theorem State.recomputeNow_load (s : State) :
    (s.recomputeNow).load = s.load := rfl
@[simp] theorem State.recomputeNow_listenCount (s : State) :
    (s.recomputeNow).listenCount = s.listenCount := rfl
@[simp] theorem State.recomputeNow_flags (s : State) :
    (s.recomputeNow).flags = s.flags := rfl
@[simp] theorem State.recomputeNow_clock (s : State) :
    (s.recomputeNow).clock = s.clock := rfl
@[simp] theorem State.recomputeNow_pause (s : State) :
    (s.recomputeNow).pause = s.pause := rfl
@[simp] theorem State.recomputeNow_lapse (s : State) :
    (s.recomputeNow).lapse = s.lapse := rfl
@[simp] theorem State.recomputeNow_overlap (s : State) :
    (s.recomputeNow).overlap = s.overlap := rfl
@[simp] theorem State.recomputeNow_beatTimer (s : State) :
    (s.recomputeNow).beatTimer = s.beatTimer := rfl
@[simp] theorem State.recomputeNow_tally (s : State) :
    (s.recomputeNow).tally = s.tally := rfl
@[simp] theorem State.recomputeNow_line (s : State) :
    (s.recomputeNow).line = s.line := rfl
@[simp] theorem State.recomputeNow_peers (s : State) :
    (s.recomputeNow).peers = s.peers := rfl
@[simp] theorem State.recomputeNow_floor (s : State) :
    (s.recomputeNow).floor = s.floor := rfl
@[simp] theorem State.recomputeNow_port (s : State) :
    (s.recomputeNow).port = s.port := rfl
@[simp] theorem State.recomputeNow_asm (s : State) :
    (s.recomputeNow).asm = s.asm := rfl
@[simp] theorem State.recomputeNow_intake (s : State) :
    (s.recomputeNow).intake = s.intake := rfl
@[simp] theorem State.recomputeNow_sched (s : State) :
    (s.recomputeNow).sched = { s.sched with cues := recompute s.timingEnv s.clock.count s.sched.cues } := rfl
@[simp] theorem State.recomputeNow_screen (s : State) :
    (s.recomputeNow).screen = s.screen := rfl
@[simp] theorem State.recomputeNow_link (s : State) :
    (s.recomputeNow).link = s.link := rfl
@[simp] theorem State.recomputeNow_sup (s : State) :
    (s.recomputeNow).sup = s.sup := rfl
@[simp] theorem State.recomputeNow_screenDue (s : State) :
    (s.recomputeNow).screenDue = s.screenDue := rfl
@[simp] theorem State.recomputeNow_ticksDue (s : State) :
    (s.recomputeNow).ticksDue = s.ticksDue := rfl

/-! ### countLateAmend -/

@[simp] theorem State.countLateAmend_pending (s : State) :
    (s.countLateAmend).pending = s.pending := rfl
@[simp] theorem State.countLateAmend_start (s : State) :
    (s.countLateAmend).start = s.start := rfl
@[simp] theorem State.countLateAmend_resetHeld (s : State) :
    (s.countLateAmend).resetHeld = s.resetHeld := rfl
@[simp] theorem State.countLateAmend_number (s : State) :
    (s.countLateAmend).number = s.number := rfl
@[simp] theorem State.countLateAmend_cfg (s : State) :
    (s.countLateAmend).cfg = s.cfg := rfl
@[simp] theorem State.countLateAmend_load (s : State) :
    (s.countLateAmend).load = s.load := rfl
@[simp] theorem State.countLateAmend_listenCount (s : State) :
    (s.countLateAmend).listenCount = s.listenCount := rfl
@[simp] theorem State.countLateAmend_flags (s : State) :
    (s.countLateAmend).flags = s.flags ||| Flag.mask .outLateAmend := rfl
@[simp] theorem State.countLateAmend_clock (s : State) :
    (s.countLateAmend).clock = s.clock := rfl
@[simp] theorem State.countLateAmend_pause (s : State) :
    (s.countLateAmend).pause = s.pause := rfl
@[simp] theorem State.countLateAmend_lapse (s : State) :
    (s.countLateAmend).lapse = s.lapse := rfl
@[simp] theorem State.countLateAmend_overlap (s : State) :
    (s.countLateAmend).overlap = s.overlap := rfl
@[simp] theorem State.countLateAmend_beatTimer (s : State) :
    (s.countLateAmend).beatTimer = s.beatTimer := rfl
@[simp] theorem State.countLateAmend_tally (s : State) :
    (s.countLateAmend).tally = s.tally := rfl
@[simp] theorem State.countLateAmend_line (s : State) :
    (s.countLateAmend).line = s.line := rfl
@[simp] theorem State.countLateAmend_peers (s : State) :
    (s.countLateAmend).peers = s.peers := rfl
@[simp] theorem State.countLateAmend_floor (s : State) :
    (s.countLateAmend).floor = s.floor := rfl
@[simp] theorem State.countLateAmend_port (s : State) :
    (s.countLateAmend).port = s.port := rfl
@[simp] theorem State.countLateAmend_asm (s : State) :
    (s.countLateAmend).asm = s.asm := rfl
@[simp] theorem State.countLateAmend_intake (s : State) :
    (s.countLateAmend).intake = s.intake := rfl
@[simp] theorem State.countLateAmend_sched (s : State) :
    (s.countLateAmend).sched = { s.sched with lateAmends := rise s.sched.lateAmends 1 } := rfl
@[simp] theorem State.countLateAmend_screen (s : State) :
    (s.countLateAmend).screen = s.screen := rfl
@[simp] theorem State.countLateAmend_link (s : State) :
    (s.countLateAmend).link = s.link := rfl
@[simp] theorem State.countLateAmend_sup (s : State) :
    (s.countLateAmend).sup = s.sup := rfl
@[simp] theorem State.countLateAmend_screenDue (s : State) :
    (s.countLateAmend).screenDue = s.screenDue := rfl
@[simp] theorem State.countLateAmend_ticksDue (s : State) :
    (s.countLateAmend).ticksDue = s.ticksDue := rfl

/-! ### reportLeft -/

@[simp] theorem State.reportLeft_pending (gone : List VisibleCue) (s : State) :
    (s.reportLeft gone).pending = s.pending := rfl
@[simp] theorem State.reportLeft_start (gone : List VisibleCue) (s : State) :
    (s.reportLeft gone).start = s.start := rfl
@[simp] theorem State.reportLeft_resetHeld (gone : List VisibleCue) (s : State) :
    (s.reportLeft gone).resetHeld = s.resetHeld := rfl
@[simp] theorem State.reportLeft_number (gone : List VisibleCue) (s : State) :
    (s.reportLeft gone).number = s.number := rfl
@[simp] theorem State.reportLeft_cfg (gone : List VisibleCue) (s : State) :
    (s.reportLeft gone).cfg = s.cfg := rfl
@[simp] theorem State.reportLeft_load (gone : List VisibleCue) (s : State) :
    (s.reportLeft gone).load = s.load := rfl
@[simp] theorem State.reportLeft_listenCount (gone : List VisibleCue) (s : State) :
    (s.reportLeft gone).listenCount = s.listenCount := rfl
@[simp] theorem State.reportLeft_flags (gone : List VisibleCue) (s : State) :
    (s.reportLeft gone).flags = s.flags := rfl
@[simp] theorem State.reportLeft_clock (gone : List VisibleCue) (s : State) :
    (s.reportLeft gone).clock = s.clock := rfl
@[simp] theorem State.reportLeft_pause (gone : List VisibleCue) (s : State) :
    (s.reportLeft gone).pause = s.pause := rfl
@[simp] theorem State.reportLeft_lapse (gone : List VisibleCue) (s : State) :
    (s.reportLeft gone).lapse = s.lapse := rfl
@[simp] theorem State.reportLeft_overlap (gone : List VisibleCue) (s : State) :
    (s.reportLeft gone).overlap = s.overlap := rfl
@[simp] theorem State.reportLeft_beatTimer (gone : List VisibleCue) (s : State) :
    (s.reportLeft gone).beatTimer = s.beatTimer := rfl
@[simp] theorem State.reportLeft_tally (gone : List VisibleCue) (s : State) :
    (s.reportLeft gone).tally = s.tally := rfl
@[simp] theorem State.reportLeft_line (gone : List VisibleCue) (s : State) :
    (s.reportLeft gone).line = s.line := rfl
@[simp] theorem State.reportLeft_peers (gone : List VisibleCue) (s : State) :
    (s.reportLeft gone).peers = s.peers := rfl
@[simp] theorem State.reportLeft_floor (gone : List VisibleCue) (s : State) :
    (s.reportLeft gone).floor = s.floor := rfl
@[simp] theorem State.reportLeft_port (gone : List VisibleCue) (s : State) :
    (s.reportLeft gone).port = s.port := rfl
@[simp] theorem State.reportLeft_asm (gone : List VisibleCue) (s : State) :
    (s.reportLeft gone).asm = s.asm := rfl
@[simp] theorem State.reportLeft_intake (gone : List VisibleCue) (s : State) :
    (s.reportLeft gone).intake = s.intake := rfl
@[simp] theorem State.reportLeft_screen (gone : List VisibleCue) (s : State) :
    (s.reportLeft gone).screen = s.screen := rfl
@[simp] theorem State.reportLeft_link (gone : List VisibleCue) (s : State) :
    (s.reportLeft gone).link = s.link := rfl
@[simp] theorem State.reportLeft_sup (gone : List VisibleCue) (s : State) :
    (s.reportLeft gone).sup = s.sup := rfl
@[simp] theorem State.reportLeft_screenDue (gone : List VisibleCue) (s : State) :
    (s.reportLeft gone).screenDue = s.screenDue := rfl
@[simp] theorem State.reportLeft_ticksDue (gone : List VisibleCue) (s : State) :
    (s.reportLeft gone).ticksDue = s.ticksDue := rfl

/-! ### takeOff -/

@[simp] theorem State.takeOff_pending (n : Counter) (s : State) :
    (s.takeOff n).pending = s.pending := rfl
@[simp] theorem State.takeOff_start (n : Counter) (s : State) :
    (s.takeOff n).start = s.start := rfl
@[simp] theorem State.takeOff_resetHeld (n : Counter) (s : State) :
    (s.takeOff n).resetHeld = s.resetHeld := rfl
@[simp] theorem State.takeOff_number (n : Counter) (s : State) :
    (s.takeOff n).number = s.number := rfl
@[simp] theorem State.takeOff_cfg (n : Counter) (s : State) :
    (s.takeOff n).cfg = s.cfg := rfl
@[simp] theorem State.takeOff_load (n : Counter) (s : State) :
    (s.takeOff n).load = s.load := rfl
@[simp] theorem State.takeOff_listenCount (n : Counter) (s : State) :
    (s.takeOff n).listenCount = s.listenCount := rfl
@[simp] theorem State.takeOff_flags (n : Counter) (s : State) :
    (s.takeOff n).flags = s.flags := rfl
@[simp] theorem State.takeOff_clock (n : Counter) (s : State) :
    (s.takeOff n).clock = s.clock := rfl
@[simp] theorem State.takeOff_pause (n : Counter) (s : State) :
    (s.takeOff n).pause = s.pause := rfl
@[simp] theorem State.takeOff_lapse (n : Counter) (s : State) :
    (s.takeOff n).lapse = s.lapse := rfl
@[simp] theorem State.takeOff_overlap (n : Counter) (s : State) :
    (s.takeOff n).overlap = s.overlap := rfl
@[simp] theorem State.takeOff_beatTimer (n : Counter) (s : State) :
    (s.takeOff n).beatTimer = s.beatTimer := rfl
@[simp] theorem State.takeOff_tally (n : Counter) (s : State) :
    (s.takeOff n).tally = s.tally := rfl
@[simp] theorem State.takeOff_line (n : Counter) (s : State) :
    (s.takeOff n).line = s.line := rfl
@[simp] theorem State.takeOff_peers (n : Counter) (s : State) :
    (s.takeOff n).peers = s.peers := rfl
@[simp] theorem State.takeOff_floor (n : Counter) (s : State) :
    (s.takeOff n).floor = s.floor := rfl
@[simp] theorem State.takeOff_port (n : Counter) (s : State) :
    (s.takeOff n).port = s.port := rfl
@[simp] theorem State.takeOff_asm (n : Counter) (s : State) :
    (s.takeOff n).asm = s.asm := rfl
@[simp] theorem State.takeOff_intake (n : Counter) (s : State) :
    (s.takeOff n).intake = s.intake := rfl
@[simp] theorem State.takeOff_sched (n : Counter) (s : State) :
    (s.takeOff n).sched = s.sched.remove n := rfl
@[simp] theorem State.takeOff_link (n : Counter) (s : State) :
    (s.takeOff n).link = s.link := rfl
@[simp] theorem State.takeOff_sup (n : Counter) (s : State) :
    (s.takeOff n).sup = s.sup := rfl
@[simp] theorem State.takeOff_screenDue (n : Counter) (s : State) :
    (s.takeOff n).screenDue = s.screenDue := rfl
@[simp] theorem State.takeOff_ticksDue (n : Counter) (s : State) :
    (s.takeOff n).ticksDue = s.ticksDue := rfl

/-! ### rewriteVisible -/

@[simp] theorem State.rewriteVisible_pending (n : Counter) (t : Text) (s : State) :
    (s.rewriteVisible n t).pending = s.pending := rfl
@[simp] theorem State.rewriteVisible_start (n : Counter) (t : Text) (s : State) :
    (s.rewriteVisible n t).start = s.start := rfl
@[simp] theorem State.rewriteVisible_resetHeld (n : Counter) (t : Text) (s : State) :
    (s.rewriteVisible n t).resetHeld = s.resetHeld := rfl
@[simp] theorem State.rewriteVisible_number (n : Counter) (t : Text) (s : State) :
    (s.rewriteVisible n t).number = s.number := rfl
@[simp] theorem State.rewriteVisible_cfg (n : Counter) (t : Text) (s : State) :
    (s.rewriteVisible n t).cfg = s.cfg := rfl
@[simp] theorem State.rewriteVisible_load (n : Counter) (t : Text) (s : State) :
    (s.rewriteVisible n t).load = s.load := rfl
@[simp] theorem State.rewriteVisible_listenCount (n : Counter) (t : Text) (s : State) :
    (s.rewriteVisible n t).listenCount = s.listenCount := rfl
@[simp] theorem State.rewriteVisible_flags (n : Counter) (t : Text) (s : State) :
    (s.rewriteVisible n t).flags = s.flags := rfl
@[simp] theorem State.rewriteVisible_clock (n : Counter) (t : Text) (s : State) :
    (s.rewriteVisible n t).clock = s.clock := rfl
@[simp] theorem State.rewriteVisible_pause (n : Counter) (t : Text) (s : State) :
    (s.rewriteVisible n t).pause = s.pause := rfl
@[simp] theorem State.rewriteVisible_lapse (n : Counter) (t : Text) (s : State) :
    (s.rewriteVisible n t).lapse = s.lapse := rfl
@[simp] theorem State.rewriteVisible_overlap (n : Counter) (t : Text) (s : State) :
    (s.rewriteVisible n t).overlap = s.overlap := rfl
@[simp] theorem State.rewriteVisible_beatTimer (n : Counter) (t : Text) (s : State) :
    (s.rewriteVisible n t).beatTimer = s.beatTimer := rfl
@[simp] theorem State.rewriteVisible_tally (n : Counter) (t : Text) (s : State) :
    (s.rewriteVisible n t).tally = s.tally := rfl
@[simp] theorem State.rewriteVisible_line (n : Counter) (t : Text) (s : State) :
    (s.rewriteVisible n t).line = s.line := rfl
@[simp] theorem State.rewriteVisible_peers (n : Counter) (t : Text) (s : State) :
    (s.rewriteVisible n t).peers = s.peers := rfl
@[simp] theorem State.rewriteVisible_floor (n : Counter) (t : Text) (s : State) :
    (s.rewriteVisible n t).floor = s.floor := rfl
@[simp] theorem State.rewriteVisible_port (n : Counter) (t : Text) (s : State) :
    (s.rewriteVisible n t).port = s.port := rfl
@[simp] theorem State.rewriteVisible_asm (n : Counter) (t : Text) (s : State) :
    (s.rewriteVisible n t).asm = s.asm := rfl
@[simp] theorem State.rewriteVisible_intake (n : Counter) (t : Text) (s : State) :
    (s.rewriteVisible n t).intake = s.intake := rfl
@[simp] theorem State.rewriteVisible_sched (n : Counter) (t : Text) (s : State) :
    (s.rewriteVisible n t).sched = s.sched := rfl
@[simp] theorem State.rewriteVisible_link (n : Counter) (t : Text) (s : State) :
    (s.rewriteVisible n t).link = s.link := rfl
@[simp] theorem State.rewriteVisible_sup (n : Counter) (t : Text) (s : State) :
    (s.rewriteVisible n t).sup = s.sup := rfl
@[simp] theorem State.rewriteVisible_screenDue (n : Counter) (t : Text) (s : State) :
    (s.rewriteVisible n t).screenDue = s.screenDue := rfl
@[simp] theorem State.rewriteVisible_ticksDue (n : Counter) (t : Text) (s : State) :
    (s.rewriteVisible n t).ticksDue = s.ticksDue := rfl

/-! ### handOrder -/

@[simp] theorem State.handOrder_pending (o : Order) (s : State) :
    (s.handOrder o).pending = s.pending := rfl
@[simp] theorem State.handOrder_start (o : Order) (s : State) :
    (s.handOrder o).start = s.start := rfl
@[simp] theorem State.handOrder_resetHeld (o : Order) (s : State) :
    (s.handOrder o).resetHeld = s.resetHeld := rfl
@[simp] theorem State.handOrder_number (o : Order) (s : State) :
    (s.handOrder o).number = s.number := rfl
@[simp] theorem State.handOrder_cfg (o : Order) (s : State) :
    (s.handOrder o).cfg = s.cfg := rfl
@[simp] theorem State.handOrder_load (o : Order) (s : State) :
    (s.handOrder o).load = s.load := rfl
@[simp] theorem State.handOrder_listenCount (o : Order) (s : State) :
    (s.handOrder o).listenCount = s.listenCount := rfl
@[simp] theorem State.handOrder_clock (o : Order) (s : State) :
    (s.handOrder o).clock = s.clock := rfl
@[simp] theorem State.handOrder_pause (o : Order) (s : State) :
    (s.handOrder o).pause = s.pause := rfl
@[simp] theorem State.handOrder_lapse (o : Order) (s : State) :
    (s.handOrder o).lapse = s.lapse := rfl
@[simp] theorem State.handOrder_overlap (o : Order) (s : State) :
    (s.handOrder o).overlap = s.overlap := rfl
@[simp] theorem State.handOrder_beatTimer (o : Order) (s : State) :
    (s.handOrder o).beatTimer = s.beatTimer := rfl
@[simp] theorem State.handOrder_tally (o : Order) (s : State) :
    (s.handOrder o).tally = s.tally := rfl
@[simp] theorem State.handOrder_line (o : Order) (s : State) :
    (s.handOrder o).line = s.line := rfl
@[simp] theorem State.handOrder_peers (o : Order) (s : State) :
    (s.handOrder o).peers = s.peers := rfl
@[simp] theorem State.handOrder_floor (o : Order) (s : State) :
    (s.handOrder o).floor = s.floor := rfl
@[simp] theorem State.handOrder_port (o : Order) (s : State) :
    (s.handOrder o).port = s.port := rfl
@[simp] theorem State.handOrder_asm (o : Order) (s : State) :
    (s.handOrder o).asm = s.asm := rfl
@[simp] theorem State.handOrder_intake (o : Order) (s : State) :
    (s.handOrder o).intake = s.intake := rfl
@[simp] theorem State.handOrder_sched (o : Order) (s : State) :
    (s.handOrder o).sched = s.sched := rfl
@[simp] theorem State.handOrder_screen (o : Order) (s : State) :
    (s.handOrder o).screen = { s.screen with lastOrder := o.last } := rfl
@[simp] theorem State.handOrder_link (o : Order) (s : State) :
    (s.handOrder o).link = (s.link.hand o).1 := rfl
@[simp] theorem State.handOrder_sup (o : Order) (s : State) :
    (s.handOrder o).sup = s.sup := rfl
@[simp] theorem State.handOrder_screenDue (o : Order) (s : State) :
    (s.handOrder o).screenDue = s.screenDue := rfl
@[simp] theorem State.handOrder_ticksDue (o : Order) (s : State) :
    (s.handOrder o).ticksDue = s.ticksDue := rfl

/-! ### withRef -/

@[simp] theorem State.withRef_pending (r : RefState) (s : State) :
    (s.withRef r).pending = s.pending := rfl
@[simp] theorem State.withRef_start (r : RefState) (s : State) :
    (s.withRef r).start = s.start := rfl
@[simp] theorem State.withRef_resetHeld (r : RefState) (s : State) :
    (s.withRef r).resetHeld = s.resetHeld := rfl
@[simp] theorem State.withRef_number (r : RefState) (s : State) :
    (s.withRef r).number = s.number := rfl
@[simp] theorem State.withRef_cfg (r : RefState) (s : State) :
    (s.withRef r).cfg = s.cfg := rfl
@[simp] theorem State.withRef_load (r : RefState) (s : State) :
    (s.withRef r).load = s.load := rfl
@[simp] theorem State.withRef_listenCount (r : RefState) (s : State) :
    (s.withRef r).listenCount = s.listenCount := rfl
@[simp] theorem State.withRef_flags (r : RefState) (s : State) :
    (s.withRef r).flags = s.flags := rfl
@[simp] theorem State.withRef_clock (r : RefState) (s : State) :
    (s.withRef r).clock = { s.clock with ref := r } := rfl
@[simp] theorem State.withRef_pause (r : RefState) (s : State) :
    (s.withRef r).pause = s.pause := rfl
@[simp] theorem State.withRef_lapse (r : RefState) (s : State) :
    (s.withRef r).lapse = s.lapse := rfl
@[simp] theorem State.withRef_overlap (r : RefState) (s : State) :
    (s.withRef r).overlap = s.overlap := rfl
@[simp] theorem State.withRef_beatTimer (r : RefState) (s : State) :
    (s.withRef r).beatTimer = s.beatTimer := rfl
@[simp] theorem State.withRef_tally (r : RefState) (s : State) :
    (s.withRef r).tally = s.tally := rfl
@[simp] theorem State.withRef_line (r : RefState) (s : State) :
    (s.withRef r).line = s.line := rfl
@[simp] theorem State.withRef_peers (r : RefState) (s : State) :
    (s.withRef r).peers = s.peers := rfl
@[simp] theorem State.withRef_floor (r : RefState) (s : State) :
    (s.withRef r).floor = s.floor := rfl
@[simp] theorem State.withRef_port (r : RefState) (s : State) :
    (s.withRef r).port = s.port := rfl
@[simp] theorem State.withRef_asm (r : RefState) (s : State) :
    (s.withRef r).asm = s.asm := rfl
@[simp] theorem State.withRef_intake (r : RefState) (s : State) :
    (s.withRef r).intake = s.intake := rfl
@[simp] theorem State.withRef_sched (r : RefState) (s : State) :
    (s.withRef r).sched = s.sched := rfl
@[simp] theorem State.withRef_screen (r : RefState) (s : State) :
    (s.withRef r).screen = s.screen := rfl
@[simp] theorem State.withRef_link (r : RefState) (s : State) :
    (s.withRef r).link = s.link := rfl
@[simp] theorem State.withRef_sup (r : RefState) (s : State) :
    (s.withRef r).sup = s.sup := rfl
@[simp] theorem State.withRef_screenDue (r : RefState) (s : State) :
    (s.withRef r).screenDue = s.screenDue := rfl
@[simp] theorem State.withRef_ticksDue (r : RefState) (s : State) :
    (s.withRef r).ticksDue = s.ticksDue := rfl

/-! ### advance -/

@[simp] theorem State.advance_pending (gzl gzu : Bool) (s : State) :
    (s.advance gzl gzu).pending = s.pending := rfl
@[simp] theorem State.advance_start (gzl gzu : Bool) (s : State) :
    (s.advance gzl gzu).start = s.start := rfl
@[simp] theorem State.advance_resetHeld (gzl gzu : Bool) (s : State) :
    (s.advance gzl gzu).resetHeld = s.resetHeld := rfl
@[simp] theorem State.advance_number (gzl gzu : Bool) (s : State) :
    (s.advance gzl gzu).number = s.number := rfl
@[simp] theorem State.advance_cfg (gzl gzu : Bool) (s : State) :
    (s.advance gzl gzu).cfg = s.cfg := rfl
@[simp] theorem State.advance_load (gzl gzu : Bool) (s : State) :
    (s.advance gzl gzu).load = s.load := rfl
@[simp] theorem State.advance_flags (gzl gzu : Bool) (s : State) :
    (s.advance gzl gzu).flags = s.flags := rfl
@[simp] theorem State.advance_clock (gzl gzu : Bool) (s : State) :
    (s.advance gzl gzu).clock = { s.clock with count := s.clock.count + 1#32, gzl := gzl, gzu := gzu } := rfl
@[simp] theorem State.advance_pause (gzl gzu : Bool) (s : State) :
    (s.advance gzl gzu).pause = s.pause := rfl
@[simp] theorem State.advance_lapse (gzl gzu : Bool) (s : State) :
    (s.advance gzl gzu).lapse = s.lapse := rfl
@[simp] theorem State.advance_overlap (gzl gzu : Bool) (s : State) :
    (s.advance gzl gzu).overlap = s.overlap := rfl
@[simp] theorem State.advance_beatTimer (gzl gzu : Bool) (s : State) :
    (s.advance gzl gzu).beatTimer = s.beatTimer.tick := rfl
@[simp] theorem State.advance_tally (gzl gzu : Bool) (s : State) :
    (s.advance gzl gzu).tally = s.tally.tick := rfl
@[simp] theorem State.advance_line (gzl gzu : Bool) (s : State) :
    (s.advance gzl gzu).line = s.line := rfl
@[simp] theorem State.advance_peers (gzl gzu : Bool) (s : State) :
    (s.advance gzl gzu).peers = s.peers := rfl
@[simp] theorem State.advance_floor (gzl gzu : Bool) (s : State) :
    (s.advance gzl gzu).floor = { s.floor with lapsed := false } := rfl
@[simp] theorem State.advance_port (gzl gzu : Bool) (s : State) :
    (s.advance gzl gzu).port = s.port := rfl
@[simp] theorem State.advance_asm (gzl gzu : Bool) (s : State) :
    (s.advance gzl gzu).asm = s.asm := rfl
@[simp] theorem State.advance_intake (gzl gzu : Bool) (s : State) :
    (s.advance gzl gzu).intake = s.intake := rfl
@[simp] theorem State.advance_sched (gzl gzu : Bool) (s : State) :
    (s.advance gzl gzu).sched = s.sched := rfl
@[simp] theorem State.advance_screen (gzl gzu : Bool) (s : State) :
    (s.advance gzl gzu).screen = s.screen := rfl
@[simp] theorem State.advance_link (gzl gzu : Bool) (s : State) :
    (s.advance gzl gzu).link = s.link := rfl
@[simp] theorem State.advance_sup (gzl gzu : Bool) (s : State) :
    (s.advance gzl gzu).sup = s.sup := rfl
@[simp] theorem State.advance_screenDue (gzl gzu : Bool) (s : State) :
    (s.advance gzl gzu).screenDue = s.screenDue := rfl
@[simp] theorem State.advance_ticksDue (gzl gzu : Bool) (s : State) :
    (s.advance gzl gzu).ticksDue = ⟨true, true, true⟩ := rfl

/-! ### beginBlank -/

@[simp] theorem State.beginBlank_pending (s : State) :
    (s.beginBlank).pending = s.pending := rfl
@[simp] theorem State.beginBlank_start (s : State) :
    (s.beginBlank).start = s.start := rfl
@[simp] theorem State.beginBlank_resetHeld (s : State) :
    (s.beginBlank).resetHeld = s.resetHeld := rfl
@[simp] theorem State.beginBlank_number (s : State) :
    (s.beginBlank).number = s.number := rfl
@[simp] theorem State.beginBlank_cfg (s : State) :
    (s.beginBlank).cfg = s.cfg := rfl
@[simp] theorem State.beginBlank_load (s : State) :
    (s.beginBlank).load = s.load := rfl
@[simp] theorem State.beginBlank_listenCount (s : State) :
    (s.beginBlank).listenCount = s.listenCount := rfl
@[simp] theorem State.beginBlank_flags (s : State) :
    (s.beginBlank).flags = s.flags := rfl
@[simp] theorem State.beginBlank_clock (s : State) :
    (s.beginBlank).clock = s.clock := rfl
@[simp] theorem State.beginBlank_pause (s : State) :
    (s.beginBlank).pause = s.pause := rfl
@[simp] theorem State.beginBlank_lapse (s : State) :
    (s.beginBlank).lapse = s.lapse := rfl
@[simp] theorem State.beginBlank_overlap (s : State) :
    (s.beginBlank).overlap = s.overlap := rfl
@[simp] theorem State.beginBlank_beatTimer (s : State) :
    (s.beginBlank).beatTimer = s.beatTimer := rfl
@[simp] theorem State.beginBlank_tally (s : State) :
    (s.beginBlank).tally = s.tally := rfl
@[simp] theorem State.beginBlank_line (s : State) :
    (s.beginBlank).line = s.line := rfl
@[simp] theorem State.beginBlank_peers (s : State) :
    (s.beginBlank).peers = s.peers := rfl
@[simp] theorem State.beginBlank_floor (s : State) :
    (s.beginBlank).floor = s.floor := rfl
@[simp] theorem State.beginBlank_port (s : State) :
    (s.beginBlank).port = s.port := rfl
@[simp] theorem State.beginBlank_asm (s : State) :
    (s.beginBlank).asm = s.asm := rfl
@[simp] theorem State.beginBlank_intake (s : State) :
    (s.beginBlank).intake = s.intake := rfl
@[simp] theorem State.beginBlank_sched (s : State) :
    (s.beginBlank).sched = s.sched := rfl
@[simp] theorem State.beginBlank_screen (s : State) :
    (s.beginBlank).screen = s.screen := rfl
@[simp] theorem State.beginBlank_link (s : State) :
    (s.beginBlank).link = { s.link with startWait := false } := rfl
@[simp] theorem State.beginBlank_sup (s : State) :
    (s.beginBlank).sup = s.sup := rfl
@[simp] theorem State.beginBlank_screenDue (s : State) :
    (s.beginBlank).screenDue = s.screenDue := rfl
@[simp] theorem State.beginBlank_ticksDue (s : State) :
    (s.beginBlank).ticksDue = s.ticksDue := rfl

/-! ### acknowledge -/

@[simp] theorem State.acknowledge_pending (a : Bool) (s : State) :
    (s.acknowledge a).pending = s.pending := rfl
@[simp] theorem State.acknowledge_start (a : Bool) (s : State) :
    (s.acknowledge a).start = s.start := rfl
@[simp] theorem State.acknowledge_resetHeld (a : Bool) (s : State) :
    (s.acknowledge a).resetHeld = s.resetHeld := rfl
@[simp] theorem State.acknowledge_number (a : Bool) (s : State) :
    (s.acknowledge a).number = s.number := rfl
@[simp] theorem State.acknowledge_cfg (a : Bool) (s : State) :
    (s.acknowledge a).cfg = s.cfg := rfl
@[simp] theorem State.acknowledge_load (a : Bool) (s : State) :
    (s.acknowledge a).load = s.load := rfl
@[simp] theorem State.acknowledge_listenCount (a : Bool) (s : State) :
    (s.acknowledge a).listenCount = s.listenCount := rfl
@[simp] theorem State.acknowledge_flags (a : Bool) (s : State) :
    (s.acknowledge a).flags = s.flags := rfl
@[simp] theorem State.acknowledge_clock (a : Bool) (s : State) :
    (s.acknowledge a).clock = s.clock := rfl
@[simp] theorem State.acknowledge_pause (a : Bool) (s : State) :
    (s.acknowledge a).pause = s.pause := rfl
@[simp] theorem State.acknowledge_lapse (a : Bool) (s : State) :
    (s.acknowledge a).lapse = s.lapse := rfl
@[simp] theorem State.acknowledge_overlap (a : Bool) (s : State) :
    (s.acknowledge a).overlap = s.overlap := rfl
@[simp] theorem State.acknowledge_beatTimer (a : Bool) (s : State) :
    (s.acknowledge a).beatTimer = s.beatTimer := rfl
@[simp] theorem State.acknowledge_tally (a : Bool) (s : State) :
    (s.acknowledge a).tally = s.tally := rfl
@[simp] theorem State.acknowledge_line (a : Bool) (s : State) :
    (s.acknowledge a).line = s.line := rfl
@[simp] theorem State.acknowledge_peers (a : Bool) (s : State) :
    (s.acknowledge a).peers = s.peers := rfl
@[simp] theorem State.acknowledge_floor (a : Bool) (s : State) :
    (s.acknowledge a).floor = s.floor := rfl
@[simp] theorem State.acknowledge_port (a : Bool) (s : State) :
    (s.acknowledge a).port = s.port := rfl
@[simp] theorem State.acknowledge_asm (a : Bool) (s : State) :
    (s.acknowledge a).asm = s.asm := rfl
@[simp] theorem State.acknowledge_intake (a : Bool) (s : State) :
    (s.acknowledge a).intake = s.intake := rfl
@[simp] theorem State.acknowledge_sched (a : Bool) (s : State) :
    (s.acknowledge a).sched = s.sched := rfl
@[simp] theorem State.acknowledge_screen (a : Bool) (s : State) :
    (s.acknowledge a).screen = s.screen := rfl
@[simp] theorem State.acknowledge_link (a : Bool) (s : State) :
    (s.acknowledge a).link = s.link := rfl
@[simp] theorem State.acknowledge_sup (a : Bool) (s : State) :
    (s.acknowledge a).sup = { s.sup with acked := a } := rfl
@[simp] theorem State.acknowledge_screenDue (a : Bool) (s : State) :
    (s.acknowledge a).screenDue = s.screenDue := rfl
@[simp] theorem State.acknowledge_ticksDue (a : Bool) (s : State) :
    (s.acknowledge a).ticksDue = s.ticksDue := rfl

/-! ### answerRead -/

@[simp] theorem State.answerRead_pending (count : Nat) (item : List Byte) (s : State) :
    (s.answerRead count item).pending = s.pending := rfl
@[simp] theorem State.answerRead_start (count : Nat) (item : List Byte) (s : State) :
    (s.answerRead count item).start = s.start := rfl
@[simp] theorem State.answerRead_resetHeld (count : Nat) (item : List Byte) (s : State) :
    (s.answerRead count item).resetHeld = s.resetHeld := rfl
@[simp] theorem State.answerRead_number (count : Nat) (item : List Byte) (s : State) :
    (s.answerRead count item).number = s.number := rfl
@[simp] theorem State.answerRead_cfg (count : Nat) (item : List Byte) (s : State) :
    (s.answerRead count item).cfg = s.cfg := rfl
@[simp] theorem State.answerRead_load (count : Nat) (item : List Byte) (s : State) :
    (s.answerRead count item).load = s.load := rfl
@[simp] theorem State.answerRead_listenCount (count : Nat) (item : List Byte) (s : State) :
    (s.answerRead count item).listenCount = s.listenCount := rfl
@[simp] theorem State.answerRead_flags (count : Nat) (item : List Byte) (s : State) :
    (s.answerRead count item).flags = s.flags := rfl
@[simp] theorem State.answerRead_clock (count : Nat) (item : List Byte) (s : State) :
    (s.answerRead count item).clock = s.clock := rfl
@[simp] theorem State.answerRead_pause (count : Nat) (item : List Byte) (s : State) :
    (s.answerRead count item).pause = s.pause := rfl
@[simp] theorem State.answerRead_lapse (count : Nat) (item : List Byte) (s : State) :
    (s.answerRead count item).lapse = s.lapse := rfl
@[simp] theorem State.answerRead_overlap (count : Nat) (item : List Byte) (s : State) :
    (s.answerRead count item).overlap = s.overlap := rfl
@[simp] theorem State.answerRead_beatTimer (count : Nat) (item : List Byte) (s : State) :
    (s.answerRead count item).beatTimer = s.beatTimer := rfl
@[simp] theorem State.answerRead_tally (count : Nat) (item : List Byte) (s : State) :
    (s.answerRead count item).tally = s.tally := rfl
@[simp] theorem State.answerRead_line (count : Nat) (item : List Byte) (s : State) :
    (s.answerRead count item).line = s.line := rfl
@[simp] theorem State.answerRead_peers (count : Nat) (item : List Byte) (s : State) :
    (s.answerRead count item).peers = s.peers := rfl
@[simp] theorem State.answerRead_floor (count : Nat) (item : List Byte) (s : State) :
    (s.answerRead count item).floor = s.floor := rfl
@[simp] theorem State.answerRead_port (count : Nat) (item : List Byte) (s : State) :
    (s.answerRead count item).port = s.port := rfl
@[simp] theorem State.answerRead_asm (count : Nat) (item : List Byte) (s : State) :
    (s.answerRead count item).asm = s.asm := rfl
@[simp] theorem State.answerRead_intake (count : Nat) (item : List Byte) (s : State) :
    (s.answerRead count item).intake = s.intake := rfl
@[simp] theorem State.answerRead_sched (count : Nat) (item : List Byte) (s : State) :
    (s.answerRead count item).sched = s.sched := rfl
@[simp] theorem State.answerRead_screen (count : Nat) (item : List Byte) (s : State) :
    (s.answerRead count item).screen = s.screen := rfl
@[simp] theorem State.answerRead_link (count : Nat) (item : List Byte) (s : State) :
    (s.answerRead count item).link = s.link := rfl
@[simp] theorem State.answerRead_sup (count : Nat) (item : List Byte) (s : State) :
    (s.answerRead count item).sup = { s.sup with response := returned count item, acked := true } := rfl
@[simp] theorem State.answerRead_screenDue (count : Nat) (item : List Byte) (s : State) :
    (s.answerRead count item).screenDue = s.screenDue := rfl
@[simp] theorem State.answerRead_ticksDue (count : Nat) (item : List Byte) (s : State) :
    (s.answerRead count item).ticksDue = s.ticksDue := rfl

/-! ### denyRead -/

@[simp] theorem State.denyRead_pending (s : State) :
    (s.denyRead).pending = s.pending := rfl
@[simp] theorem State.denyRead_start (s : State) :
    (s.denyRead).start = s.start := rfl
@[simp] theorem State.denyRead_resetHeld (s : State) :
    (s.denyRead).resetHeld = s.resetHeld := rfl
@[simp] theorem State.denyRead_number (s : State) :
    (s.denyRead).number = s.number := rfl
@[simp] theorem State.denyRead_cfg (s : State) :
    (s.denyRead).cfg = s.cfg := rfl
@[simp] theorem State.denyRead_load (s : State) :
    (s.denyRead).load = s.load := rfl
@[simp] theorem State.denyRead_listenCount (s : State) :
    (s.denyRead).listenCount = s.listenCount := rfl
@[simp] theorem State.denyRead_flags (s : State) :
    (s.denyRead).flags = s.flags := rfl
@[simp] theorem State.denyRead_clock (s : State) :
    (s.denyRead).clock = s.clock := rfl
@[simp] theorem State.denyRead_pause (s : State) :
    (s.denyRead).pause = s.pause := rfl
@[simp] theorem State.denyRead_lapse (s : State) :
    (s.denyRead).lapse = s.lapse := rfl
@[simp] theorem State.denyRead_overlap (s : State) :
    (s.denyRead).overlap = s.overlap := rfl
@[simp] theorem State.denyRead_beatTimer (s : State) :
    (s.denyRead).beatTimer = s.beatTimer := rfl
@[simp] theorem State.denyRead_tally (s : State) :
    (s.denyRead).tally = s.tally := rfl
@[simp] theorem State.denyRead_line (s : State) :
    (s.denyRead).line = s.line := rfl
@[simp] theorem State.denyRead_peers (s : State) :
    (s.denyRead).peers = s.peers := rfl
@[simp] theorem State.denyRead_floor (s : State) :
    (s.denyRead).floor = s.floor := rfl
@[simp] theorem State.denyRead_port (s : State) :
    (s.denyRead).port = s.port := rfl
@[simp] theorem State.denyRead_asm (s : State) :
    (s.denyRead).asm = s.asm := rfl
@[simp] theorem State.denyRead_intake (s : State) :
    (s.denyRead).intake = s.intake := rfl
@[simp] theorem State.denyRead_sched (s : State) :
    (s.denyRead).sched = s.sched := rfl
@[simp] theorem State.denyRead_screen (s : State) :
    (s.denyRead).screen = s.screen := rfl
@[simp] theorem State.denyRead_link (s : State) :
    (s.denyRead).link = s.link := rfl
@[simp] theorem State.denyRead_sup (s : State) :
    (s.denyRead).sup = { s.sup with response := [], acked := false } := rfl
@[simp] theorem State.denyRead_screenDue (s : State) :
    (s.denyRead).screenDue = s.screenDue := rfl
@[simp] theorem State.denyRead_ticksDue (s : State) :
    (s.denyRead).ticksDue = s.ticksDue := rfl

/-! ### blank -/

@[simp] theorem State.blank_pending (n : Station) (c : Configuration) (l : LoadResult) (q : List Instr) :
    (State.blank n c l q).pending = q := rfl
@[simp] theorem State.blank_start (n : Station) (c : Configuration) (l : LoadResult) (q : List Instr) :
    (State.blank n c l q).start = .loading := rfl
@[simp] theorem State.blank_resetHeld (n : Station) (c : Configuration) (l : LoadResult) (q : List Instr) :
    (State.blank n c l q).resetHeld = false := rfl
@[simp] theorem State.blank_number (n : Station) (c : Configuration) (l : LoadResult) (q : List Instr) :
    (State.blank n c l q).number = n := rfl
@[simp] theorem State.blank_cfg (n : Station) (c : Configuration) (l : LoadResult) (q : List Instr) :
    (State.blank n c l q).cfg = c := rfl
@[simp] theorem State.blank_load (n : Station) (c : Configuration) (l : LoadResult) (q : List Instr) :
    (State.blank n c l q).load = l := rfl
@[simp] theorem State.blank_flags (n : Station) (c : Configuration) (l : LoadResult) (q : List Instr) :
    (State.blank n c l q).flags = 0#24 := rfl
@[simp] theorem State.blank_clock (n : Station) (c : Configuration) (l : LoadResult) (q : List Instr) :
    (State.blank n c l q).clock = .initial := rfl
@[simp] theorem State.blank_floor (n : Station) (c : Configuration) (l : LoadResult) (q : List Instr) :
    (State.blank n c l q).floor = .initial := rfl
@[simp] theorem State.blank_peers (n : Station) (c : Configuration) (l : LoadResult) (q : List Instr) :
    (State.blank n c l q).peers = .initial := rfl
@[simp] theorem State.blank_line (n : Station) (c : Configuration) (l : LoadResult) (q : List Instr) :
    (State.blank n c l q).line = .initial := rfl
@[simp] theorem State.blank_port (n : Station) (c : Configuration) (l : LoadResult) (q : List Instr) :
    (State.blank n c l q).port = .initial := rfl
@[simp] theorem State.blank_asm (n : Station) (c : Configuration) (l : LoadResult) (q : List Instr) :
    (State.blank n c l q).asm = .initial := rfl
@[simp] theorem State.blank_intake (n : Station) (c : Configuration) (l : LoadResult) (q : List Instr) :
    (State.blank n c l q).intake = .initial := rfl
@[simp] theorem State.blank_sched (n : Station) (c : Configuration) (l : LoadResult) (q : List Instr) :
    (State.blank n c l q).sched = .initial := rfl
@[simp] theorem State.blank_screen (n : Station) (c : Configuration) (l : LoadResult) (q : List Instr) :
    (State.blank n c l q).screen = .initial := rfl
@[simp] theorem State.blank_link (n : Station) (c : Configuration) (l : LoadResult) (q : List Instr) :
    (State.blank n c l q).link = .initial := rfl
@[simp] theorem State.blank_sup (n : Station) (c : Configuration) (l : LoadResult) (q : List Instr) :
    (State.blank n c l q).sup = .initial := rfl

end Sys2Proof.Machine
end

