-- ==== Sys2Proof/Laws/PortFrames.lean ====
section
/-! SUPPORT. What the operations of the cue line controller's queues, the segment assembler and the writer port
leave alone, one lemma per operation: `PortFrame s t` lists every field they never touch, says that flags
only grow, and that the capacities of R19 and R78 are kept. -/

namespace Sys2Proof.Machine

/-- Every flag set in a word is set in another. -/
def FlagsGrow (a b : FlagWord) : Prop := ∀ f, hasFlag a f = true → hasFlag b f = true

theorem FlagsGrow.refl (a : FlagWord) : FlagsGrow a a := fun _ h => h

theorem FlagsGrow.trans {a b c : FlagWord} (h : FlagsGrow a b) (h' : FlagsGrow b c) : FlagsGrow a c :=
  fun f k => h' f (h f k)

theorem flagsGrow_or (a m : FlagWord) : FlagsGrow a (a ||| m) := by
  intro f h
  simp only [hasFlag, BitVec.getLsbD_or, Bool.or_eq_true] at *
  exact .inl h

theorem hasFlag_or_mask (a : FlagWord) (f : Flag) : hasFlag (a ||| f.mask) f = true := by
  cases f <;> simp [hasFlag, Flag.mask, Flag.bit]

/-- What the line queues, the assembler and the writer port leave alone. -/
structure PortFrame (s t : State) : Prop where
  pending : t.pending = s.pending
  start : t.start = s.start
  resetHeld : t.resetHeld = s.resetHeld
  number : t.number = s.number
  cfg : t.cfg = s.cfg
  load : t.load = s.load
  listenCount : t.listenCount = s.listenCount
  clock : t.clock = s.clock
  lapse : t.lapse = s.lapse
  overlap : t.overlap = s.overlap
  beatTimer : t.beatTimer = s.beatTimer
  entries : t.peers.entries = s.peers.entries
  floor : t.floor = s.floor
  intake : t.intake = s.intake
  sched : t.sched = s.sched
  screen : t.screen = s.screen
  link : t.link = s.link
  sup : t.sup = s.sup
  screenDue : t.screenDue = s.screenDue
  footing : t.line.footing = s.line.footing
  arb : t.line.arb = s.line.arb
  flags : FlagsGrow s.flags t.flags
  queues : s.queuesWithin → t.queuesWithin
  notices : s.noticesWithin → t.noticesWithin

theorem PortFrame.refl (s : State) : PortFrame s s :=
  ⟨rfl, rfl, rfl, rfl, rfl, rfl, rfl, rfl, rfl, rfl, rfl, rfl, rfl, rfl, rfl, rfl, rfl, rfl, rfl, rfl,
    rfl, .refl _, id, id⟩

theorem PortFrame.trans {a b c : State} (h : PortFrame a b) (k : PortFrame b c) : PortFrame a c :=
  ⟨k.pending.trans h.pending, k.start.trans h.start, k.resetHeld.trans h.resetHeld,
    k.number.trans h.number, k.cfg.trans h.cfg, k.load.trans h.load, k.listenCount.trans h.listenCount,
    k.clock.trans h.clock, k.lapse.trans h.lapse, k.overlap.trans h.overlap,
    k.beatTimer.trans h.beatTimer, k.entries.trans h.entries, k.floor.trans h.floor,
    k.intake.trans h.intake, k.sched.trans h.sched, k.screen.trans h.screen, k.link.trans h.link,
    k.sup.trans h.sup, k.screenDue.trans h.screenDue, k.footing.trans h.footing, k.arb.trans h.arb,
    h.flags.trans k.flags, k.queues ∘ h.queues, k.notices ∘ h.notices⟩

theorem PortFrame.after {a b c : State} (k : PortFrame b c) (h : PortFrame a b) : PortFrame a c := h.trans k

/-- An update whose untouched fields hold by definition is a frame once its queues stay within their
capacities. -/
theorem PortFrame.of_queues {s t : State} (hs : t.pending = s.pending ∧ t.start = s.start ∧
      t.resetHeld = s.resetHeld ∧ t.number = s.number ∧ t.cfg = s.cfg ∧ t.load = s.load ∧
      t.listenCount = s.listenCount ∧ t.clock = s.clock ∧ t.lapse = s.lapse ∧ t.overlap = s.overlap ∧
      t.beatTimer = s.beatTimer ∧ t.peers.entries = s.peers.entries ∧ t.floor = s.floor ∧
      t.intake = s.intake ∧ t.sched = s.sched ∧ t.screen = s.screen ∧ t.link = s.link ∧ t.sup = s.sup ∧
      t.screenDue = s.screenDue ∧ t.line.footing = s.line.footing ∧ t.line.arb = s.line.arb)
    (hf : FlagsGrow s.flags t.flags) (hq : s.queuesWithin → t.queuesWithin)
    (hn : s.noticesWithin → t.noticesWithin) : PortFrame s t := by
  obtain ⟨h1, h2, h3, h4, h5, h6, h7, h8, h9, h10, h11, h12, h13, h14, h15, h16, h17, h18, h19, h20,
    h21⟩ := hs
  exact ⟨h1, h2, h3, h4, h5, h6, h7, h8, h9, h10, h11, h12, h13, h14, h15, h16, h17, h18, h19, h20, h21,
    hf, hq, hn⟩

/-! ### The cue line controller's queues -/

theorem raiseMask_portFrame (w : FlagWord) (s : State) : PortFrame s (s.raiseMask w) :=
  .of_queues (by and_intros <;> rfl) (flagsGrow_or _ _) id id

theorem raise_portFrame (f : Flag) (s : State) : PortFrame s (s.raise f) := raiseMask_portFrame _ s

theorem raise_sets (f : Flag) (s : State) : hasFlag (s.raise f).flags f = true := hasFlag_or_mask _ _

theorem countDrops_portFrame (n : Nat) (s : State) : PortFrame s (s.countDrops n) := by
  unfold State.countDrops
  split
  · exact .refl s
  · exact (raise_portFrame _ _).after (.of_queues (by and_intros <;> rfl) (.refl _) id id)

/-- Everything that counting some source drops does (R49). -/
theorem countDrops_eq (n : Nat) (s : State) (h : n ≠ 0) :
    s.countDrops n = { s with
      peers.counters.drops := s.dropsAfter n
      flags := s.flags ||| Flag.mask .srcDrop } := by
  unfold State.countDrops; rw [if_neg h]; rfl

theorem countDrops_line (n : Nat) (s : State) : (s.countDrops n).line = s.line := by
  unfold State.countDrops; split <;> rfl

theorem countDrops_asm (n : Nat) (s : State) : (s.countDrops n).asm = s.asm := by
  unfold State.countDrops; split <;> rfl

theorem countDrops_port (n : Nat) (s : State) : (s.countDrops n).port = s.port := by
  unfold State.countDrops; split <;> rfl

theorem settleRatio_queues (l : Line) :
    l.settleRatio.amendQ = l.amendQ ∧ l.settleRatio.segQ = l.segQ ∧ l.settleRatio.footing = l.footing ∧
      l.settleRatio.arb = l.arb ∧ l.settleRatio.floorQ = l.floorQ ∧ l.settleRatio.beat = l.beat ∧
      l.settleRatio.inFlight = l.inFlight ∧ l.settleRatio.held = l.held := by
  unfold Line.settleRatio; split <;> simp

theorem ratioAfterAmend_queues (w : AmendWeight) (l : Line) :
    (l.ratioAfterAmend w).amendQ = l.amendQ ∧ (l.ratioAfterAmend w).segQ = l.segQ ∧
      (l.ratioAfterAmend w).footing = l.footing ∧ (l.ratioAfterAmend w).arb = l.arb := by
  cases w <;> simp [Line.ratioAfterAmend, settleRatio_queues]

theorem depositFloor_portFrame (f : FloorFrame) (s : State) : PortFrame s (s.depositFloor f) :=
  .of_queues (by and_intros <;> rfl) (.refl _) id id

theorem depositAmend_portFrame (b : AmendBody) (s : State) : PortFrame s (s.depositAmend b).1 := by
  unfold State.depositAmend
  split
  · exact countDrops_portFrame 1 s
  · rename_i h
    simp only [Bool.or_eq_true, decide_eq_true_eq, not_or, not_le] at h
    refine .of_queues (by and_intros <;> rfl) (.refl _) (fun k => ⟨?_, k.2⟩) id
    simp; omega

theorem depositBeat_portFrame (s : State) : PortFrame s s.depositBeat := by
  unfold State.depositBeat
  split
  · exact .of_queues (by and_intros <;> rfl) (.refl _) id id
  · split
    · exact .of_queues (by and_intros <;> rfl) (.refl _) id id
    · exact .refl s

theorem countBeatLoss_portFrame (s : State) : PortFrame s s.countBeatLoss := by
  unfold State.countBeatLoss
  split
  · exact .refl s
  · split
    · exact .refl s
    · split <;> exact .of_queues (by and_intros <;> rfl) (.refl _) id id

theorem countReadback_portFrame (s : State) : PortFrame s s.countReadback :=
  (raise_portFrame _ _).after (.of_queues (by and_intros <;> rfl) (.refl _) id id)

theorem readbackInFlight_portFrame (c : Bool) (s : State) : PortFrame s (s.readbackInFlight c) := by
  unfold State.readbackInFlight
  split
  · split
    · exact .trans (countReadback_portFrame s) (.of_queues (by and_intros <;> rfl) (.refl _) id id)
    · exact .refl s
  · exact .refl s

/-! ### The segment assembler -/

theorem removeSegment_portFrame (m : Byte) (s : State) : PortFrame s (s.removeSegment m) := by
  unfold State.removeSegment
  refine .of_queues (by and_intros <;> first | rfl | exact (settleRatio_queues _).2.2.1 |
    exact (settleRatio_queues _).2.2.2.1) (.refl _) (fun k => ?_) id
  simp only [State.queuesWithin, settleRatio_queues]
  exact ⟨k.1, (List.length_filter_le _ _).trans k.2⟩

theorem makeSegmentRoom_portFrame (s : State) : PortFrame s s.makeSegmentRoom := by
  unfold State.makeSegmentRoom
  split
  · exact .refl s
  · split
    · exact .refl s
    · refine (countDrops_portFrame _ _).after (.of_queues (by and_intros <;> rfl) (.refl _) (fun k => ?_) id)
      simp only [State.queuesWithin]
      exact ⟨k.1, (List.length_eraseIdx_le _ _).trans k.2⟩

theorem makeSegmentRoom_room (s : State) (h : s.queuesWithin) :
    s.makeSegmentRoom.line.segQ.length < segmentCapacity := by
  unfold State.makeSegmentRoom
  split
  · assumption
  · rename_i hge
    have h8 : s.line.segQ.length = 8 := by
      have := h.2; simp [segmentCapacity] at *; omega
    have hd : s.line.discardable < s.line.segQ.length := by
      unfold Line.discardable; split <;> omega
    rw [List.getElem?_eq_getElem hd]
    simp only [countDrops_line, List.length_eraseIdx]
    rw [if_pos hd, h8]; decide

theorem depositSegment_portFrame (g : QueuedSegment) (s : State) : PortFrame s (s.depositSegment g) := by
  unfold State.depositSegment
  split
  · exact (countDrops_portFrame _ _).after (.of_queues (by and_intros <;> rfl) (.refl _) id id)
  · have h := makeSegmentRoom_portFrame s
    refine ⟨h.pending, h.start, h.resetHeld, h.number, h.cfg, h.load, h.listenCount, h.clock, h.lapse,
      h.overlap, h.beatTimer, h.entries, h.floor, h.intake, h.sched, h.screen, h.link, h.sup, h.screenDue,
      h.footing, h.arb, h.flags, fun k => ?_, h.notices⟩
    have h' := makeSegmentRoom_room s k
    refine ⟨(h.queues k).1, ?_⟩
    simp; omega

theorem checkDrain_portFrame (s : State) : PortFrame s s.checkDrain := by
  unfold State.checkDrain
  split
  · exact (depositFloor_portFrame _ _).after (.of_queues (by and_intros <;> rfl) (.refl _) id id)
  · exact .refl s

theorem closeFirst_portFrame (n : Nat) (s : State) : PortFrame s (s.closeFirst n) :=
  (depositSegment_portFrame _ _).after (.of_queues (by and_intros <;> rfl) (.refl _) id id)

theorem closeOpen_portFrame (s : State) : PortFrame s s.closeOpen := by
  unfold State.closeOpen
  split
  · exact .refl s
  · exact .trans (closeFirst_portFrame _ s) (.of_queues (by and_intros <;> rfl) (.refl _) id id)

theorem joinWord_portFrame (t : Text) (s : State) : PortFrame s (s.joinWord t) :=
  .of_queues (by and_intros <;> rfl) (.refl _) id id

theorem addWord_portFrame (t : Text) (s : State) : PortFrame s (s.addWord t) := by
  have key : ∀ u, PortFrame s u → PortFrame s
      (if (u.joinWord t).asm.closesAfter (u.joinWord t).cfg.softLimit t then (u.joinWord t).closeOpen
       else u.joinWord t) := by
    intro u h
    split
    · exact (closeOpen_portFrame _).after ((joinWord_portFrame t u).after h)
    · exact (joinWord_portFrame t u).after h
  refine key _ ?_
  split
  · exact .refl s
  · exact closeOpen_portFrame s

theorem breakSegment_portFrame (s : State) : PortFrame s s.breakSegment :=
  .trans (closeOpen_portFrame s) (.of_queues (by and_intros <;> rfl) (.refl _) id id)

theorem pauseExpiry_portFrame (s : State) : PortFrame s s.pauseExpiry := by
  unfold State.pauseExpiry
  split
  · simp only
    split
    · exact (closeOpen_portFrame _).after (.of_queues (by and_intros <;> rfl) (.refl _) id id)
    · exact .of_queues (by and_intros <;> rfl) (.refl _) id id
  · exact .refl s

theorem discardOpen_portFrame (s : State) : PortFrame s s.discardOpen := by
  unfold State.discardOpen
  split
  · exact .refl s
  · exact (countDrops_portFrame _ _).after (.of_queues (by and_intros <;> rfl) (.refl _) id id)

/-- Held work with a withdrawal of segment m is what was held, where it holds that withdrawal,
and that with the withdrawal at its end otherwise. -/
theorem holdWithdrawal_cases (m : Byte) (byRecord : Bool) (ws : List HeldWork) :
    (holdWithdrawal m byRecord ws = ws ∧ (.withdrawSegment m true ∈ ws ∨ .withdrawSegment m byRecord ∈ ws)) ∨
      holdWithdrawal m byRecord ws = ws ++ [.withdrawSegment m byRecord] := by
  unfold holdWithdrawal
  split
  · rename_i h
    exact .inl ⟨rfl, by simpa using h⟩
  · exact .inr rfl

theorem withdrawSegments_portFrame (byRecord : Bool) (s : State) :
    PortFrame s (s.withdrawSegments byRecord) := by
  unfold State.withdrawSegments
  split
  · refine (countDrops_portFrame _ _).after
      (.of_queues (by and_intros <;> first | rfl | exact (settleRatio_queues _).2.2.1 |
        exact (settleRatio_queues _).2.2.2.1) (.refl _) (fun k => ?_) id)
    simp only [State.queuesWithin, settleRatio_queues]
    exact ⟨k.1, Nat.zero_le _⟩
  · refine (countDrops_portFrame _ _).after (.of_queues (by and_intros <;> rfl) (.refl _) (fun k => ?_) id)
    simp only [State.queuesWithin, List.length_take]
    exact ⟨k.1, (Nat.min_le_right _ _).trans k.2⟩

theorem withdrawHeld_portFrame (m : Byte) (s : State) : PortFrame s (s.withdrawHeld m) := by
  unfold State.withdrawHeld
  split
  · exact ((removeSegment_portFrame m s).trans (countDrops_portFrame _ _)).trans (checkDrain_portFrame _)
  · exact .refl s

theorem loseRight_portFrame (s : State) : PortFrame s s.loseRight := by
  have h : PortFrame s { s.discardOpen with asm.newSpeaker := false } :=
    .trans (discardOpen_portFrame s) (.of_queues (by and_intros <;> rfl) (.refl _) id id)
  exact .trans ((withdrawSegments_portFrame _ _).after h) (.of_queues (by and_intros <;> rfl) (.refl _) id id)

theorem deleteOpen_portFrame (q : Nat) (s : State) : PortFrame s (s.deleteOpen q) :=
  .of_queues (by and_intros <;> rfl) (.refl _) id id

theorem deleteQueued_portFrame (g : QueuedSegment) (q : Nat) (s : State) :
    PortFrame s (s.deleteQueued g q) := by
  unfold State.deleteQueued
  simp only
  split
  · exact (checkDrain_portFrame _).after ((removeSegment_portFrame _ _).after
      (.of_queues (by and_intros <;> rfl) (.refl _) id id))
  · refine .of_queues (by and_intros <;> rfl) (.refl _) (fun k => ?_) id
    simpa [State.queuesWithin] using k

theorem deleteSent_portFrame (m : Byte) (q : Nat) (s : State) : PortFrame s (s.deleteSent m q).1 := by
  unfold State.deleteSent
  split
  · exact .refl s
  · rename_i c _
    have h := depositAmend_portFrame ⟨m, BitVec.ofNat 8 (c - q), .delete (BitVec.ofNat 8 q)⟩ s
    split
    · rename_i e; rw [e] at h; exact h
    · rename_i e; rw [e] at h
      exact h.trans (.of_queues (by and_intros <;> rfl) (.refl _) id id)

theorem deleteGroups_portFrame (gs : List WindowRecord) (s : State) :
    PortFrame s (State.deleteGroups gs s) := by
  induction gs generalizing s with
  | nil => exact .refl s
  | cons r rest ih =>
    unfold State.deleteGroups
    split
    · exact .of_queues (by and_intros <;> rfl) (.refl _) id id
    · split
      · exact (deleteQueued_portFrame _ _ s).trans (ih _)
      · have h := deleteSent_portFrame r.number r.count s
        split
        · rename_i e; rw [e] at h; exact h.trans (ih _)
        · rename_i e; rw [e] at h; exact h

theorem applyDelete_portFrame (gs : List (Place × Nat)) (s : State) : PortFrame s (s.applyDelete gs) := by
  unfold State.applyDelete
  refine .trans ?_ (deleteGroups_portFrame _ _)
  generalize (List.map (fun g => g.2) (List.filter (fun g => g.1.segment.isNone) gs)) = qs
  induction qs generalizing s with
  | nil => exact .refl s
  | cons q qs ih => exact (deleteOpen_portFrame q s).trans (ih _)

theorem splitOpen_portFrame (fuel : Nat) (s : State) : PortFrame s (State.splitOpen fuel s) := by
  induction fuel generalizing s with
  | zero => exact .refl s
  | succ fuel ih =>
    unfold State.splitOpen
    split
    · exact .refl s
    · exact (closeFirst_portFrame _ s).trans (ih _)

theorem replaceOpen_portFrame (i : Nat) (ws : List Text) (s : State) :
    PortFrame s (s.replaceOpen i ws) := by
  unfold State.replaceOpen
  split
  · exact .refl s
  · exact (splitOpen_portFrame _ _).after (.of_queues (by and_intros <;> rfl) (.refl _) id id)

theorem replaceQueued_portFrame (g : QueuedSegment) (i : Nat) (ws : List Text) (s : State) :
    PortFrame s (s.replaceQueued g i ws) := by
  refine .of_queues (by and_intros <;> rfl) (.refl _) (fun k => ?_) id
  simpa [State.queuesWithin, State.replaceQueued] using k

theorem replaceSent_portFrame (m : Byte) (i : Nat) (ws : List Text) (s : State) :
    PortFrame s (s.replaceSent m i ws) := by
  unfold State.replaceSent
  split
  · exact .refl s
  · have h := depositAmend_portFrame ⟨m, BitVec.ofNat 8 i, .replace ws⟩ s
    split
    · rename_i e; rw [e] at h; exact h
    · rename_i e; rw [e] at h
      exact h.trans (.of_queues (by and_intros <;> rfl) (.refl _) id id)

theorem replaceClosed_portFrame (m : Byte) (i : Nat) (ws : List Text) (s : State) :
    PortFrame s (s.replaceClosed m i ws) := by
  unfold State.replaceClosed
  split
  · exact .of_queues (by and_intros <;> rfl) (.refl _) id id
  · split
    · exact replaceQueued_portFrame _ _ _ s
    · exact replaceSent_portFrame _ _ _ s

theorem correctDelete_portFrame (n : Nat) (s t : State) (h : s.correctDelete n = some t) :
    PortFrame s t := by
  unfold State.correctDelete at h
  simp only at h
  split at h
  · cases h
  · cases h; exact applyDelete_portFrame _ s

theorem correctReplace_portFrame (k : Nat) (ws : List Text) (s t : State)
    (h : s.correctReplace k ws = some t) : PortFrame s t := by
  unfold State.correctReplace at h
  split at h
  · cases h
  · split at h
    · cases h
    · split at h
      · cases h
      · split at h <;> cases h
        · exact replaceOpen_portFrame _ _ s
        · exact replaceClosed_portFrame _ _ _ s
        · exact replaceSent_portFrame _ _ _ s

end Sys2Proof.Machine
end

