-- ==== Sys2Proof/Laws/Schedule.lean ====
section
/-! SUPPORT. What the timing arithmetic, cue breaking and the cue schedule keep of every record: some words,
within the row width, a scheduled end its duration after its onset, and a duration up to d_max. -/

namespace Sys2Proof.Machine

/-- What every record of a schedule keeps under a configuration. -/
def RecordsKept (cfg : Configuration) (cs : List Cue) : Prop :=
  ∀ c ∈ cs, c.words ≠ [] ∧ c.n ≤ cfg.rowWidth ∧ c.tOff = c.tOn + BitVec.ofNat 32 c.d ∧ c.d ≤ cfg.dMax

theorem RecordsKept.sub {cfg : Configuration} {cs ds : List Cue} (h : RecordsKept cfg cs)
    (hs : ∀ c ∈ ds, c ∈ cs) : RecordsKept cfg ds := fun c hc => h c (hs c hc)

theorem RecordsKept.map {cfg : Configuration} {cs : List Cue} (f : Cue → Cue)
    (hf : ∀ c ∈ cs, (f c).words ≠ [] ∧ (f c).n ≤ cfg.rowWidth ∧
      (f c).tOff = (f c).tOn + BitVec.ofNat 32 (f c).d ∧ (f c).d ≤ cfg.dMax) :
    RecordsKept cfg (cs.map f) := by
  intro c hc
  obtain ⟨d, hd, rfl⟩ := List.mem_map.mp hc
  exact hf d hd

/-! ### Computations (R130 to R138) -/

theorem stage6_le_dMax (dMin dMax dRead span : Nat) : stage6 dMin dMax dRead span ≤ dMax :=
  Nat.min_le_left _ _

theorem dMin_le_stage6 (dMin dMax dRead span : Nat) (h : dMin ≤ dMax) :
    dMin ≤ stage6 dMin dMax dRead span := by unfold stage6; omega

/-- The least whole number of frames that n characters need (R135). -/
theorem stage5_least (f n r : Nat) (hr : 0 < r) :
    n * f * 10 ≤ stage5 f n r * r ∧ ∀ m, n * f * 10 ≤ m * r → stage5 f n r ≤ m := by
  unfold stage5 ceilDiv
  generalize n * f * 10 = a
  constructor
  · have h := Nat.div_add_mod (a + r - 1) r
    have h' := Nat.mod_lt (a + r - 1) hr
    rw [Nat.mul_comm r] at h
    omega
  · intro m hm
    rw [Nat.div_le_iff_le_mul_add_pred hr, Nat.mul_comm r]
    omega

theorem durationOnly_kept (cfg : Configuration) (c : Cue) :
    (c.durationOnly cfg).tOff = (c.durationOnly cfg).tOn + BitVec.ofNat 32 (c.durationOnly cfg).d ∧
      (c.durationOnly cfg).d ≤ cfg.dMax ∧ (c.durationOnly cfg).words = c.words ∧
      (c.durationOnly cfg).tOn = c.tOn ∧ (c.durationOnly cfg).rung = c.rung :=
  ⟨rfl, stage6_le_dMax _ _ _ _, rfl, rfl, rfl⟩

theorem compute_kept (env : TimingEnv) (k : Frame) (ahead : List Cue) (c : Cue) :
    (c.compute env k ahead).tOff =
        (c.compute env k ahead).tOn + BitVec.ofNat 32 (c.compute env k ahead).d ∧
      (c.compute env k ahead).d ≤ env.cfg.dMax ∧ (c.compute env k ahead).words = c.words ∧
      (c.compute env k ahead).number = c.number ∧ (c.compute env k ahead).shown = c.shown :=
  ⟨rfl, stage6_le_dMax _ _ _ _, rfl, rfl, rfl⟩

theorem recomputeFrom_kept (env : TimingEnv) (k : Frame) (cs ahead : List Cue)
    (h : RecordsKept env.cfg cs) : RecordsKept env.cfg (recomputeFrom env k ahead cs) := by
  induction cs generalizing ahead with
  | nil => intro c hc; cases hc
  | cons a cs ih =>
    intro c hc
    simp only [recomputeFrom, List.mem_cons] at hc
    obtain rfl | hc := hc
    · have ha := h a (by simp)
      split
      · exact ha
      · exact ⟨ha.1, ha.2.1, (compute_kept env k ahead a).1, (compute_kept env k ahead a).2.1⟩
    · exact ih _ (h.sub (by simp_all)) c hc

theorem recompute_kept (env : TimingEnv) (k : Frame) (cs : List Cue) (h : RecordsKept env.cfg cs) :
    RecordsKept env.cfg (recompute env k cs) := recomputeFrom_kept env k cs [] h

/-- A recompute keeps the records, their numbers and their order. -/
theorem recompute_numbers (env : TimingEnv) (k : Frame) (cs ahead : List Cue) :
    (recomputeFrom env k ahead cs).map Cue.number = cs.map Cue.number := by
  induction cs generalizing ahead with
  | nil => rfl
  | cons a cs ih =>
    simp only [recomputeFrom, List.map_cons, ih, List.cons.injEq, and_true]
    split <;> rfl

/-! ### Cue breaking (R124) -/

theorem joinText_length_single (w : TimedWord) : rowLength [w] = w.text.length := rfl

theorem cutText_length (fuel w : Nat) (t : Text) (hw : 1 ≤ w) (h : t.length ≤ fuel + w) :
    ∀ p ∈ cutText fuel w t, p.length ≤ w := by
  induction fuel generalizing t with
  | zero => intro p hp; simp only [cutText, List.mem_singleton] at hp; subst hp; omega
  | succ fuel ih =>
    intro p hp
    unfold cutText at hp
    split at hp
    · simp only [List.mem_singleton] at hp; subst hp; assumption
    · simp only [List.mem_cons] at hp
      obtain rfl | hp := hp
      · simp
      · exact ih _ (by simp; omega) p hp

theorem cutWord_length (w : Nat) (word : TimedWord) (hw : 1 ≤ w) :
    ∀ p ∈ cutWord w word, p.text.length ≤ w := by
  intro p hp
  obtain ⟨j, hj, rfl⟩ := List.mem_mapIdx.mp hp
  exact cutText_length _ w _ hw (by omega) _ (List.getElem_mem _)

theorem closeRow_kept (w : Nat) (rows : List (List TimedWord)) (cur : List TimedWord)
    (h : ∀ r ∈ rows, r ≠ [] ∧ rowLength r ≤ w) (hc : rowLength cur ≤ w) :
    ∀ r ∈ closeRow rows cur, r ≠ [] ∧ rowLength r ≤ w := by
  intro r hr
  unfold closeRow at hr
  split at hr
  · exact h r hr
  · simp only [List.mem_append, List.mem_singleton] at hr
    obtain hr | rfl := hr
    · exact h r hr
    · exact ⟨by simp_all, hc⟩

theorem buildRows_kept (w : Nat) (hw : 1 ≤ w) (ws : List TimedWord) (rows : List (List TimedWord))
    (cur : List TimedWord) (h : ∀ r ∈ rows, r ≠ [] ∧ rowLength r ≤ w) (hc : rowLength cur ≤ w) :
    ∀ r ∈ buildRows w rows cur ws, r ≠ [] ∧ rowLength r ≤ w := by
  induction ws generalizing rows cur with
  | nil => exact closeRow_kept w rows cur h hc
  | cons word ws ih =>
    unfold buildRows
    split
    · split
      · rename_i hl hcond
        refine ih _ _ h ?_
        simp only [Bool.or_eq_true, List.isEmpty_iff, decide_eq_true_eq] at hcond
        obtain rfl | hcond := hcond
        · exact hl
        · exact hcond
      · exact ih _ _ (closeRow_kept w rows cur h hc) (by simpa [joinText_length_single])
    · have hp := cutWord_length w word hw
      refine ih _ _ ?_ ?_
      · intro r hr
        simp only [List.mem_append, List.mem_map] at hr
        obtain hr | ⟨p, hp', rfl⟩ := hr
        · exact closeRow_kept w rows cur h hc r hr
        · exact ⟨by simp, hp p (List.dropLast_subset _ hp')⟩
      · cases hl : (cutWord w word).getLast? with
        | none => simp [rowLength, wordTexts, joinText]
        | some p => exact hp p (List.mem_of_getLast? hl)

/-- Every row holds some words, within the row width (R124). -/
theorem breakRows_kept (w : Nat) (hw : 1 ≤ w) (ws : List TimedWord) :
    ∀ r ∈ breakRows w ws, r ≠ [] ∧ rowLength r ≤ w :=
  buildRows_kept w hw ws [] [] (by simp) (Nat.zero_le _)

/-! ### Placing and dropping (R144 to R148) -/

theorem removeOldestPending_mem (keep : Option Counter) (cs ds : List Cue)
    (h : removeOldestPending keep cs = some ds) : ∀ c ∈ ds, c ∈ cs := by
  induction cs generalizing ds with
  | nil => cases h
  | cons a cs ih =>
    unfold removeOldestPending at h
    split at h
    · cases h; exact fun c hc => List.mem_cons_of_mem _ hc
    · obtain ⟨es, he, rfl⟩ := Option.map_eq_some_iff.mp h
      intro c hc
      simp only [List.mem_cons] at hc ⊢
      exact hc.imp id (ih es he c)

theorem retireKey_kept (cfg : Configuration) (key : SegKey) (ws : List TimedWord) (cs : List Cue)
    (h : RecordsKept cfg cs) : RecordsKept cfg (retireKey key ws cs) := by
  unfold retireKey
  split
  · exact h
  · refine RecordsKept.map _ fun c hc => ?_
    have := h c hc
    split <;> exact this

theorem makeRoom_kept (env : TimingEnv) (now : Frame) (keep : Option Counter) (h : Schedule)
    (hk : RecordsKept env.cfg h.cues) : RecordsKept env.cfg (h.makeRoom env now keep).1.cues := by
  unfold Schedule.makeRoom
  split
  · exact hk
  · split
    · exact hk
    · rename_i cs he
      exact recompute_kept env now cs (hk.sub (removeOldestPending_mem keep _ _ he))

theorem catchUp_kept (env : TimingEnv) (now : Frame) (fuel : Nat) (h : Schedule)
    (hk : RecordsKept env.cfg h.cues) : RecordsKept env.cfg (Schedule.catchUp env now fuel h).1.cues := by
  induction fuel generalizing h with
  | zero => exact hk
  | succ fuel ih =>
    unfold Schedule.catchUp
    split
    · exact hk
    · split
      · exact hk
      · split
        · exact hk
        · rename_i cs he
          exact ih _ (recompute_kept env now cs (hk.sub (removeOldestPending_mem _ _ _ he)))

theorem place_kept (env : TimingEnv) (now : Frame) (c : NewCue) (h : Schedule)
    (hk : RecordsKept env.cfg h.cues) (hc : c.words ≠ [] ∧ rowLength c.words ≤ env.cfg.rowWidth) :
    RecordsKept env.cfg (h.place env now c).1.cues := by
  unfold Schedule.place
  refine catchUp_kept env now _ _ ?_
  have h1 := makeRoom_kept env now none { h with cues := retireKey c.key c.words h.cues }
    (retireKey_kept env.cfg c.key c.words h.cues hk)
  intro d hd
  simp only [List.mem_append, List.mem_singleton] at hd
  obtain hd | rfl := hd
  · exact h1 d hd
  · exact ⟨hc.1, hc.2, (compute_kept _ _ _ _).1, (compute_kept _ _ _ _).2.1⟩

theorem placeAll_kept (env : TimingEnv) (now : Frame) (cs : List NewCue) (h : Schedule)
    (hk : RecordsKept env.cfg h.cues)
    (hc : ∀ c ∈ cs, c.words ≠ [] ∧ rowLength c.words ≤ env.cfg.rowWidth) :
    RecordsKept env.cfg (Schedule.placeAll env now cs h).1.cues := by
  induction cs generalizing h with
  | nil => exact hk
  | cons c cs ih =>
    exact ih _ (place_kept env now c h hk (hc c (by simp))) fun d hd => hc d (by simp [hd])

/-! ### Re-breaking (R154) -/

theorem joinAfter_mem (n : Counter) (r : Cue) (cs : List Cue) :
    ∀ c ∈ joinAfter n r cs, c = r ∨ c ∈ cs := by
  induction cs with
  | nil => intro c hc; simp_all [joinAfter]
  | cons a cs ih =>
    intro c hc
    unfold joinAfter at hc
    split at hc
    · simp only [List.mem_cons] at hc ⊢; tauto
    · simp only [List.mem_cons] at hc ⊢
      obtain rfl | hc := hc
      · tauto
      · have := ih c hc; tauto

theorem joinRows_kept (env : TimingEnv) (now : Frame) (broken : Cue) (rows : List (List TimedWord))
    (joined : List Counter) (h : Schedule) (hk : RecordsKept env.cfg h.cues)
    (hb : broken.tOff = broken.tOn + BitVec.ofNat 32 broken.d ∧ broken.d ≤ env.cfg.dMax)
    (hr : ∀ r ∈ rows, r ≠ [] ∧ rowLength r ≤ env.cfg.rowWidth) :
    RecordsKept env.cfg (Schedule.joinRows env now broken joined rows h).1.cues := by
  induction rows generalizing joined h with
  | nil => exact hk
  | cons row rows ih =>
    unfold Schedule.joinRows
    refine ih _ _ ?_ fun r hr' => hr r (by simp [hr'])
    intro c hc
    have h1 : RecordsKept env.cfg (Schedule.makeRoom env now (some broken.number)
        (match broken.key with
          | some k => { h with cues := retireKey k row h.cues }
          | none => h)).1.cues := by
      refine makeRoom_kept _ _ _ _ ?_
      split
      · exact retireKey_kept _ _ _ _ hk
      · exact hk
    obtain rfl | hc := joinAfter_mem _ _ _ c hc
    · exact ⟨(hr row (by simp)).1, (hr row (by simp)).2, hb.1, hb.2⟩
    · exact h1 c hc

theorem update_kept (cfg : Configuration) (n : Counter) (f : Cue → Cue) (h : Schedule)
    (hk : RecordsKept cfg h.cues)
    (hf : ∀ c ∈ h.cues, (f c).words ≠ [] ∧ (f c).n ≤ cfg.rowWidth ∧
      (f c).tOff = (f c).tOn + BitVec.ofNat 32 (f c).d ∧ (f c).d ≤ cfg.dMax) :
    RecordsKept cfg (h.update n f).cues := by
  refine RecordsKept.map _ fun c hc => ?_
  split
  · exact hf c hc
  · exact hk c hc

theorem remove_kept (cfg : Configuration) (n : Counter) (h : Schedule) (hk : RecordsKept cfg h.cues) :
    RecordsKept cfg (h.remove n).cues := hk.sub fun _ hc => (List.mem_filter.mp hc).1

theorem rebreak_kept (env : TimingEnv) (now : Frame) (c : Cue) (ws : List TimedWord) (h : Schedule)
    (hw : 1 ≤ env.cfg.rowWidth) (hk : RecordsKept env.cfg h.cues) (hc : c ∈ h.cues) :
    RecordsKept env.cfg (h.rebreak env now c ws).1.cues := by
  unfold Schedule.rebreak
  have hb := breakRows_kept env.cfg.rowWidth hw ws
  have h0 := hk c hc
  split
  · exact hk
  · rename_i row rows he
    rw [he] at hb
    refine joinRows_kept _ _ _ _ _ _ ?_ ⟨h0.2.2.1, h0.2.2.2⟩ fun r hr => hb r (by simp [hr])
    exact update_kept _ _ _ _ hk fun _ _ =>
      ⟨(hb row (by simp)).1, (hb row (by simp)).2, h0.2.2.1, h0.2.2.2⟩

end Sys2Proof.Machine
end

