-- ==== Sys2Proof/Laws/OutputFrames.lean ====
section
/-! SUPPORT. What the operations of intake, the cue schedule and the screen unit leave alone: `OutputFrame s t`
says that nothing but these blocks changes, that flags only grow, and that every record keeps its form. -/

namespace Sys2Proof.Machine

/-- Nothing but intake, the schedule, the screen unit and the inserter link differs, and flags only grow. -/
structure OutputFrame (s t : State) : Prop where
  rest : t = { s with
    flags := t.flags, intake := t.intake, sched := t.sched, screen := t.screen, link := t.link
    screenDue := t.screenDue }
  flags : FlagsGrow s.flags t.flags
  records : 1 ≤ s.cfg.rowWidth → RecordsKept s.cfg s.sched.cues → RecordsKept s.cfg t.sched.cues
  ordered : s.linkOrdered → t.linkOrdered

theorem OutputFrame.refl (s : State) : OutputFrame s s := ⟨rfl, .refl _, fun _ h => h, id⟩

theorem OutputFrame.cfg {s t : State} (h : OutputFrame s t) : t.cfg = s.cfg := by rw [h.rest]

theorem OutputFrame.clock {s t : State} (h : OutputFrame s t) : t.clock = s.clock := by rw [h.rest]

theorem OutputFrame.floor {s t : State} (h : OutputFrame s t) : t.floor = s.floor := by rw [h.rest]

theorem OutputFrame.number {s t : State} (h : OutputFrame s t) : t.number = s.number := by rw [h.rest]

theorem OutputFrame.trans {a b c : State} (h : OutputFrame a b) (k : OutputFrame b c) :
    OutputFrame a c := by
  refine ⟨?_, h.flags.trans k.flags, fun hw hk => ?_, k.ordered ∘ h.ordered⟩
  · rw [k.rest, h.rest]
  · have := k.records (by rw [h.cfg]; exact hw)
    rw [h.cfg] at this
    exact this (h.records hw hk)

theorem OutputFrame.after {a b c : State} (k : OutputFrame b c) (h : OutputFrame a b) : OutputFrame a c :=
  h.trans k

theorem raiseMask_outputFrame (w : FlagWord) (s : State) : OutputFrame s (s.raiseMask w) :=
  ⟨rfl, flagsGrow_or _ _, fun _ h => h, id⟩

theorem raise_outputFrame (f : Flag) (s : State) : OutputFrame s (s.raise f) := raiseMask_outputFrame _ s

/-! ### The cue schedule -/

theorem placeCues_outputFrame (cs : List NewCue) (s : State)
    (hc : 1 ≤ s.cfg.rowWidth → ∀ c ∈ cs, c.words ≠ [] ∧ rowLength c.words ≤ s.cfg.rowWidth) :
    OutputFrame s (s.placeCues cs) :=
  (raiseMask_outputFrame _ _).after
    ⟨rfl, .refl _, fun hw hk => placeAll_kept s.timingEnv s.clock.count cs s.sched hk (hc hw), id⟩

theorem recomputeNow_outputFrame (s : State) : OutputFrame s s.recomputeNow :=
  ⟨rfl, .refl _, fun _ hk => recompute_kept s.timingEnv _ _ hk, id⟩

theorem countLateAmend_outputFrame (s : State) : OutputFrame s s.countLateAmend :=
  (raise_outputFrame _ _).after ⟨rfl, .refl _, fun _ h => h, id⟩

/-! ### The screen unit -/

theorem foldl_remove_kept (cfg : Configuration) (gone : List VisibleCue) (h : Schedule)
    (hk : RecordsKept cfg h.cues) :
    RecordsKept cfg (gone.foldl (fun h v => h.remove v.number) h).cues := by
  induction gone generalizing h with
  | nil => exact hk
  | cons v gone ih => exact ih _ (remove_kept cfg v.number h hk)

theorem reportLeft_outputFrame (gone : List VisibleCue) (s : State) : OutputFrame s (s.reportLeft gone) :=
  ⟨rfl, .refl _, fun _ hk => foldl_remove_kept s.cfg gone s.sched hk, id⟩

theorem expireCues_outputFrame (s : State) : OutputFrame s s.expireCues :=
  (reportLeft_outputFrame _ _).after ⟨rfl, .refl _, fun _ h => h, id⟩

theorem joinVisible_outputFrame (c : Cue) (s : State) : OutputFrame s (s.joinVisible c) :=
  (reportLeft_outputFrame _ _).after ⟨rfl, .refl _, fun _ h => h, id⟩

theorem compareOnset_outputFrame (s : State) : OutputFrame s s.compareOnset := by
  unfold State.compareOnset
  split
  · exact .refl s
  · exact ⟨rfl, .refl _, fun _ hk => update_kept s.cfg _ _ s.sched hk fun c hc => hk c hc, id⟩

theorem showDue_outputFrame (s : State) : OutputFrame s s.showDue := by
  have key : ∀ u, OutputFrame s u → OutputFrame s (match u.awaited with
      | none => u
      | some c => u.joinVisible c) := by
    intro u h
    split
    · exact h
    · exact (joinVisible_outputFrame _ u).after h
  refine key _ ?_
  split
  · exact .refl s
  · exact compareOnset_outputFrame s

theorem takeOff_outputFrame (n : Counter) (s : State) : OutputFrame s (s.takeOff n) :=
  ⟨rfl, .refl _, fun _ hk => remove_kept s.cfg n s.sched hk, id⟩

theorem rewriteVisible_outputFrame (n : Counter) (t : Text) (s : State) :
    OutputFrame s (s.rewriteVisible n t) := ⟨rfl, .refl _, fun _ h => h, id⟩

theorem enterConflict_outputFrame (s : State) : OutputFrame s s.enterConflict := by
  unfold State.enterConflict
  refine (recomputeNow_outputFrame _).after ((reportLeft_outputFrame _ _).after ?_)
  exact (raise_outputFrame _ _).after ⟨rfl, .refl _, fun _ h => h, id⟩

theorem zoneStage_outputFrame (s : State) : OutputFrame s s.zoneStage := by
  have h0 : OutputFrame s { s with
      screen := (s.screen.takeZone (zoneAsked s.clock.gzl s.clock.gzu) s.clock.count) } :=
    ⟨rfl, .refl _, fun _ h => h, id⟩
  unfold State.zoneStage
  simp only
  split
  · exact .refl s
  · split
    · exact (enterConflict_outputFrame _).after h0
    · split
      · exact (recomputeNow_outputFrame _).after h0
      · exact h0

theorem hand_ordered (o : Order) (l : Link) : (l.hand o).1.sending ≠ none := by
  unfold Link.hand
  split
  · simp
  · split <;> simp_all

theorem handOrder_outputFrame (o : Order) (s : State) : OutputFrame s (s.handOrder o) :=
  (raiseMask_outputFrame _ _).after
    ⟨rfl, .refl _, fun _ h => h, fun _ e => absurd e (hand_ordered o s.link)⟩

theorem compose_outputFrame (s : State) : OutputFrame s s.compose := by
  have h0 : OutputFrame s { s with screen.mark := false } := ⟨rfl, .refl _, fun _ h => h, id⟩
  unfold State.compose
  split
  · exact .refl s
  · simp only
    split
    · exact (handOrder_outputFrame _ _).after h0
    · exact h0

theorem screenFrom3_outputFrame (s : State) : OutputFrame s s.screenFrom3 :=
  .trans ((compose_outputFrame _).after (showDue_outputFrame s)) ⟨rfl, .refl _, fun _ h => h, id⟩

theorem screenFrom2_outputFrame (s : State) : OutputFrame s s.screenFrom2 :=
  (screenFrom3_outputFrame _).after (expireCues_outputFrame s)

/-! ### Amends at the output (R152 to R156) -/

theorem amendShown_outputFrame (c : Cue) (ws : List TimedWord) (b : Bool) (s : State) :
    OutputFrame s (s.amendShown c ws b).1 := by
  unfold State.amendShown
  split
  · simp only
    split
    · exact ⟨rfl, .refl _, fun _ h => h, id⟩
    · exact .refl s
  · split
    · exact takeOff_outputFrame _ s
    · split
      · exact ⟨rfl, .refl _, fun _ h => h, id⟩
      · rename_i hne hle
        refine (rewriteVisible_outputFrame _ _ _).after
          ⟨rfl, .refl _, fun _ hk => update_kept s.cfg _ _ s.sched hk fun d hd => ?_, id⟩
        exact ⟨by simpa [Cue.amendWords] using hne, by simpa [Cue.n, Cue.amendWords] using hle,
          (hk d hd).2.2.1, (hk d hd).2.2.2⟩

theorem amendPending_outputFrame (c : Cue) (ws : List TimedWord) (s : State) (hc : c ∈ s.sched.cues) :
    OutputFrame s (s.amendPending c ws).1 := by
  unfold State.amendPending
  split
  · exact ⟨rfl, .refl _, fun _ hk => remove_kept s.cfg _ s.sched hk, id⟩
  · split
    · rename_i hne hle
      refine ⟨rfl, .refl _, fun _ hk => update_kept s.cfg _ _ s.sched hk fun d hd => ?_, id⟩
      have hd' := durationOnly_kept s.cfg (d.amendWords ws)
      exact ⟨by rw [hd'.2.2.1]; simpa [Cue.amendWords] using hne,
        by unfold Cue.n; rw [hd'.2.2.1]; simpa [Cue.amendWords] using hle, hd'.1, hd'.2.1⟩
    · exact (raiseMask_outputFrame _ _).after
        ⟨rfl, .refl _, fun hw hk => rebreak_kept s.timingEnv s.clock.count c ws s.sched hw hk hc, id⟩

theorem find_mem (n : Counter) (h : Schedule) (c : Cue) (hc : h.find n = some c) : c ∈ h.cues :=
  List.mem_of_find?_eq_some hc

theorem amendCourse_outputFrame (any : Bool) (a : AmendCourse) (t : AmendTarget) :
    OutputFrame a.state (AmendCourse.step any a t).state := by
  unfold AmendCourse.step
  split
  · exact .refl _
  · split
    · exact .refl _
    · split
      · exact amendShown_outputFrame _ _ _ _
      · exact amendPending_outputFrame _ _ _ (find_mem _ _ _ ‹_›)

theorem renumberAll_kept (i : Nat) (op : AmendOp) (ws : List TimedWord) :
    wordTexts (op.renumberAll i ws) = wordTexts ws := by
  unfold AmendOp.renumberAll wordTexts
  rw [List.map_map]
  refine List.map_congr_left fun w _ => ?_
  simp only [Function.comp]
  split
  · rfl
  · unfold AmendOp.renumber
    split
    · rfl
    · split <;> rfl

theorem scheduleAmend_outputFrame (x : Station) (b : AmendBody) (s : State) :
    OutputFrame s (s.scheduleAmend x b) := by
  have h0 : OutputFrame s { s with sched := s.sched.renumber x b.segment b.index.toNat b.op } := by
    refine ⟨rfl, .refl _, fun _ hk => RecordsKept.map _ fun c hc => ?_, id⟩
    have := hk c hc
    split
    · refine ⟨?_, ?_, this.2.2.1, this.2.2.2⟩
      · simpa [AmendOp.renumberAll] using this.1
      · simpa [Cue.n, rowLength, renumberAll_kept] using this.2.1
    · exact this
  unfold State.scheduleAmend
  simp only
  split
  · exact (countLateAmend_outputFrame _).after h0
  · have key : ∀ (any : Bool) (ts : List AmendTarget) (a : AmendCourse), OutputFrame s a.state →
        OutputFrame s (ts.foldl (AmendCourse.step any) a).state := by
      intro any ts
      induction ts with
      | nil => exact fun a h => h
      | cons t ts ih => exact fun a h => ih _ ((amendCourse_outputFrame any a t).after h)
    have h1 := key ((s.sched.amendTargets x b.segment b.index.toNat b.op).any (·.first))
      (s.sched.amendTargets x b.segment b.index.toNat b.op) ⟨_, false, false⟩ h0
    split
    · exact (recomputeNow_outputFrame _).after h1
    · exact h1

/-! ### Intake (R112 to R126) -/

theorem cues_kept (w : Nat) (trimmed : Bool) (g : HeldSegment) (hw : 1 ≤ w) :
    ∀ c ∈ g.cues w trimmed, c.words ≠ [] ∧ rowLength c.words ≤ w := by
  intro c hc
  obtain ⟨j, hj, rfl⟩ := List.mem_mapIdx.mp hc
  exact breakRows_kept w hw g.words _ (List.getElem_mem _)

theorem goOn_outputFrame (trimmed : Bool) (g : HeldSegment) (s : State) :
    OutputFrame s (s.goOn trimmed g) := by
  have h0 : OutputFrame s { s with
      intake.armed := (s.intake.armed.filter fun a => a.station == g.source) } :=
    ⟨rfl, .refl _, fun _ h => h, id⟩
  exact (placeCues_outputFrame _ _ fun hw => cues_kept _ trimmed g hw).after h0

theorem goOn_hold (trimmed : Bool) (g : HeldSegment) (s : State) :
    (s.goOn trimmed g).intake.hold = s.intake.hold := rfl

theorem trimAndGo_outputFrame (P : Frame) (emptied : State → State) (g : HeldSegment) (s : State)
    (h : ∀ u, OutputFrame u (emptied u)) : OutputFrame s (s.trimAndGo P emptied g) := by
  have h0 : OutputFrame s { s with
      intake.trimmed := (rise s.intake.trimmed
        (g.words.length - (g.words.filter (survives s.cfg.trimMargin P)).length)) } :=
    ⟨rfl, .refl _, fun _ h => h, id⟩
  unfold State.trimAndGo
  simp only
  split
  · exact (h _).after h0
  · exact (goOn_outputFrame _ _ _).after h0

theorem trimAndGo_hold (P : Frame) (emptied : State → State) (g : HeldSegment) (s : State)
    (h : ∀ u, (emptied u).intake.hold = u.intake.hold) :
    (s.trimAndGo P emptied g).intake.hold = s.intake.hold := by
  unfold State.trimAndGo
  simp only
  split
  · rw [h]
  · rfl

theorem mergeHeld_outputFrame (P : Option Frame) (s : State) (g : HeldSegment) :
    OutputFrame s (s.mergeHeld P g) := by
  cases P with
  | none => exact goOn_outputFrame _ _ s
  | some P =>
    exact trimAndGo_outputFrame P
      (fun s => { s with intake.emptied := (rise s.intake.emptied 1) }) g s
      fun u => ⟨rfl, .refl _, fun _ h => h, id⟩

theorem mergeHeld_hold (P : Option Frame) (s : State) (g : HeldSegment) :
    (s.mergeHeld P g).intake.hold = s.intake.hold := by
  cases P with
  | none => rfl
  | some P => exact trimAndGo_hold P _ g s fun u => rfl

theorem stampLastWord_outputFrame (g : HeldSegment) (s : State) : OutputFrame s (s.stampLastWord g) :=
  ⟨rfl, .refl _, fun _ h => h, id⟩

theorem takeHolder_outputFrame (g : HeldSegment) (s : State) : OutputFrame s (s.takeHolder g) := by
  have h0 : OutputFrame s { s with intake.armed := none } := ⟨rfl, .refl _, fun _ h => h, id⟩
  unfold State.takeHolder
  split
  · exact goOn_outputFrame _ _ s
  · split
    · exact goOn_outputFrame _ _ s
    · split
      · exact (goOn_outputFrame _ _ _).after h0
      · exact trimAndGo_outputFrame _ _ _ s fun u => .refl u

theorem takeHolder_hold (g : HeldSegment) (s : State) :
    (s.takeHolder g).intake.hold = s.intake.hold := by
  unfold State.takeHolder
  split
  · rfl
  · split
    · rfl
    · split
      · rfl
      · exact trimAndGo_hold _ _ _ s fun u => rfl

theorem holdOverflow_outputFrame (s : State) : OutputFrame s s.holdOverflow := by
  unfold State.holdOverflow
  split
  · exact .refl s
  · rename_i g rest _
    have h0 : OutputFrame s { s with intake.hold := rest, intake.overflows := rise s.intake.overflows 1 } :=
      ⟨rfl, .refl _, fun _ h => h, id⟩
    exact (mergeHeld_outputFrame _ _ g).after h0

theorem holdOverflow_hold (s : State) : s.holdOverflow.intake.hold = s.intake.hold.tail := by
  unfold State.holdOverflow
  split
  · simp [*]
  · rename_i g rest he
    simp only [mergeHeld_hold, he, List.tail_cons]

theorem takeIncoming_outputFrame (g : HeldSegment) (s : State) : OutputFrame s (s.takeIncoming g) := by
  have key : ∀ u, OutputFrame s u → OutputFrame s { u with intake.hold := u.intake.hold ++ [g] } :=
    fun u h => h.trans ⟨rfl, .refl _, fun _ h => h, id⟩
  refine key _ ?_
  split
  · exact .refl s
  · exact holdOverflow_outputFrame s

/-- A segment that joins the hold list leaves it within its capacity (R116). -/
theorem takeIncoming_hold (g : HeldSegment) (s : State) (h : s.intake.hold.length ≤ holdCapacity) :
    (s.takeIncoming g).intake.hold.length ≤ holdCapacity := by
  unfold State.takeIncoming
  simp only [List.length_append, List.length_singleton]
  split
  · omega
  · rw [holdOverflow_hold, List.length_tail]
    have : 1 ≤ holdCapacity := by decide
    omega

theorem takeSegment_outputFrame (x : Station) (b : SegmentBody) (m : Mark) (s : State) :
    OutputFrame s (s.takeSegment x b m) := by
  cases m with
  | holder => exact (takeHolder_outputFrame _ _).after (stampLastWord_outputFrame _ s)
  | outgoing => exact (goOn_outputFrame _ _ _).after (stampLastWord_outputFrame _ s)
  | incoming => exact takeIncoming_outputFrame _ s

theorem foldl_mergeHeld (P : Option Frame) (gs : List HeldSegment) (s : State) :
    OutputFrame s (gs.foldl (fun s g => s.mergeHeld P g) s) ∧
      (gs.foldl (fun s g => s.mergeHeld P g) s).intake.hold = s.intake.hold := by
  induction gs generalizing s with
  | nil => exact ⟨.refl s, rfl⟩
  | cons g gs ih =>
    have h := ih (s.mergeHeld P g)
    exact ⟨h.1.after (mergeHeld_outputFrame P s g), h.2.trans (mergeHeld_hold P s g)⟩

theorem mergeAll_outputFrame (P : Option Frame) (s : State) : OutputFrame s (s.mergeAll P) := by
  have h0 : OutputFrame s { s with intake.hold := [] } := ⟨rfl, .refl _, fun _ h => h, id⟩
  exact (foldl_mergeHeld P s.intake.hold _).1.after h0

/-- A merge leaves the hold list empty (R117, R118). -/
theorem mergeAll_hold (P : Option Frame) (s : State) : (s.mergeAll P).intake.hold = [] :=
  (foldl_mergeHeld P s.intake.hold _).2

theorem takeIntakeEvent_outputFrame (s : State) (e : IntakeEvent) : OutputFrame s (s.takeIntakeEvent e) := by
  cases e with
  | opened h => exact ⟨rfl, .refl _, fun _ h => h, id⟩
  | releaseMerge h t p =>
    exact .trans (mergeAll_outputFrame _ s) ⟨rfl, .refl _, fun _ h => h, id⟩
  | fallbackMerge h t =>
    exact .trans (mergeAll_outputFrame _ s) ⟨rfl, .refl _, fun _ h => h, id⟩
  | discard => exact ⟨rfl, .refl _, fun _ h => h, id⟩

/-- Every overlap event leaves the hold list empty (R115, R117, R118, R121). -/
theorem takeIntakeEvent_hold (s : State) (e : IntakeEvent) : (s.takeIntakeEvent e).intake.hold = [] := by
  cases e with
  | opened h => rfl
  | releaseMerge h t p => exact mergeAll_hold _ s
  | fallbackMerge h t => exact mergeAll_hold _ s
  | discard => rfl

theorem intakeAmend_outputFrame (x : Station) (b : AmendBody) (s : State) :
    OutputFrame s (s.intakeAmend x b) := by
  unfold State.intakeAmend
  split
  · exact scheduleAmend_outputFrame x b s
  · split
    · exact countLateAmend_outputFrame s
    · exact ⟨rfl, .refl _, fun _ h => h, id⟩

end Sys2Proof.Machine
end

