-- ==== Sys2Proof/Laws/WriterFrames.lean ====
section
/-! SUPPORT. What the writer port's operations leave alone: each is a `PortFrame`. -/

namespace Sys2Proof.Machine

/-! ### Notices (R78) -/

theorem eraseFirst_length_le {α : Type} (p : α → Bool) (n : Nat) (l : List α) :
    (eraseFirst p n l).length ≤ l.length := by
  induction l generalizing n with
  | nil => cases n <;> simp [eraseFirst]
  | cons a l ih =>
    cases n with
    | zero => simp [eraseFirst]
    | succ n =>
      unfold eraseFirst
      split
      · exact (ih n).trans (by simp)
      · simpa using ih (n + 1)

theorem eraseFirst_length_lt {α : Type} (p : α → Bool) (n : Nat) (l : List α) (h : l.any p = true) :
    (eraseFirst p (n + 1) l).length < l.length := by
  induction l with
  | nil => simp at h
  | cons a l ih =>
    unfold eraseFirst
    split
    · exact Nat.lt_succ_of_le (eraseFirst_length_le p n l)
    · rename_i ha
      simp only [List.any_cons, Bool.or_eq_true, ha] at h
      simpa using ih (by simpa using h)

theorem makeNoticeRoom_length (q : List Notice) (h : q ≠ []) : (makeNoticeRoom q).length < q.length := by
  unfold makeNoticeRoom
  split
  · exact eraseFirst_length_lt _ 0 q ‹_›
  · cases q with
    | nil => exact absurd rfl h
    | cons a q => simp

theorem enqueue_sending (n : Notice) (p : WriterPort) : (p.enqueue n).sending ≠ none := by
  unfold WriterPort.enqueue
  split
  · simp
  · simp_all

theorem enqueue_notices (n : Notice) (p : WriterPort)
    (h : p.notices.length ≤ noticeCapacity) : (p.enqueue n).notices.length ≤ noticeCapacity := by
  unfold WriterPort.enqueue
  split
  · exact h
  · split
    · simpa using ‹_›
    · have h' : p.notices ≠ [] := by
        intro e; rename_i hlt; simp [e, noticeCapacity] at hlt
      have := makeNoticeRoom_length p.notices h'
      simp; omega

theorem notify_portFrame (n : Notice) (s : State) : PortFrame s (s.notify n) :=
  .of_queues (by and_intros <;> rfl) (.refl _) id
    fun k => ⟨enqueue_notices n s.port k.1, fun e => absurd e (enqueue_sending n s.port)⟩

theorem answer_portFrame (o : Answer) (s : State) : PortFrame s (s.answer o) := notify_portFrame _ s

theorem refuseWith_portFrame (r : RefuseReason) (f : Flag) (s : State) :
    PortFrame s (s.refuseWith r f) := (raise_portFrame _ _).after (notify_portFrame _ s)

theorem answerAborted_portFrame (s : State) : PortFrame s s.answerAborted :=
  (raise_portFrame _ _).after (answer_portFrame _ s)

/-! ### The writer state (R79, R80) -/

theorem requestTally_portFrame (p : Pattern) (s : State) : PortFrame s (s.requestTally p) :=
  .of_queues (by and_intros <;> rfl) (.refl _) id id

theorem changeWriterState_portFrame (w : WriterState) (s : State) :
    PortFrame s (s.changeWriterState w) := by
  have h : PortFrame s ((State.notify (.state w) { s with port.wstate := w }).requestTally w.pattern) :=
    (requestTally_portFrame _ _).after ((notify_portFrame _ _).after
      (.of_queues (by and_intros <;> rfl) (.refl _) id id))
  unfold State.changeWriterState
  simp only
  split
  · exact (loseRight_portFrame _).after h
  · exact h

theorem workOut_portFrame (s : State) : PortFrame s s.workOut := by
  unfold State.workOut
  split
  · exact .refl s
  · exact changeWriterState_portFrame _ s

/-! ### Requests (R84 to R91) -/

theorem abortRequest_portFrame (p : PendingRequest) (s : State) : PortFrame s (s.abortRequest p) := by
  have key : ∀ u, PortFrame s u → PortFrame s u.answerAborted.workOut := fun u h =>
    (workOut_portFrame _).after ((answerAborted_portFrame u).after h)
  refine key _ ?_
  split <;> exact .of_queues (by and_intros <;> rfl) (.refl _) id id

theorem abortPending_portFrame (s : State) : PortFrame s s.abortPending.1 := by
  unfold State.abortPending
  split
  · exact abortRequest_portFrame _ s
  · exact .refl s

theorem takeFloor_portFrame (s : State) : PortFrame s s.takeFloor := by
  unfold State.takeFloor
  split
  · exact answer_portFrame _ s
  · split
    · exact (workOut_portFrame _).after (depositFloor_portFrame _ s)
    · split
      · exact (workOut_portFrame _).after (depositFloor_portFrame _ s)
      · exact answer_portFrame _ s
    · exact answer_portFrame _ s

theorem handFloor_portFrame (sc : Successor) (s : State) : PortFrame s (s.handFloor sc) := by
  unfold State.handFloor
  split
  · exact answer_portFrame _ s
  · split
    · exact answer_portFrame _ s
    · exact (workOut_portFrame _).after (depositFloor_portFrame _ s)

theorem decideLeave_portFrame (ab idle : Bool) (s : State) : PortFrame s (s.decideLeave ab idle) := by
  unfold State.decideLeave
  split
  · exact .of_queues (by and_intros <;> rfl) (.refl _) id id
  · split
    · exact (depositFloor_portFrame _ _).after (abortPending_portFrame s)
    · split
      · exact .refl s
      · split <;> exact answer_portFrame _ s

theorem leaveFloor_portFrame (ab idle : Bool) (s : State) : PortFrame s (s.leaveFloor ab idle) :=
  (workOut_portFrame _).after ((decideLeave_portFrame ab idle _).after
    (.trans ((withdrawSegments_portFrame _ _).after (discardOpen_portFrame s))
      (.of_queues (by and_intros <;> rfl) (.refl _) id id)))

theorem doneFloor_portFrame (ab : Bool) (s : State) : PortFrame s (s.doneFloor ab) := by
  unfold State.doneFloor
  split
  · exact (checkDrain_portFrame _).after ((workOut_portFrame _).after
      (.trans (closeOpen_portFrame s) (.of_queues (by and_intros <;> rfl) (.refl _) id id)))
  · exact leaveFloor_portFrame _ _ s
  · exact leaveFloor_portFrame _ _ s
  · exact answer_portFrame _ s

theorem autoClaim_portFrame (s : State) : PortFrame s s.autoClaim := by
  unfold State.autoClaim
  split
  · exact takeFloor_portFrame s
  · exact .refl s

/-! ### Changes of view (R86 to R94) -/

theorem withdrawRequest_portFrame (s : State) : PortFrame s s.withdrawRequest := by
  unfold State.withdrawRequest
  split
  all_goals first
    | exact .refl s
    | exact .of_queues (by and_intros <;> rfl) (.refl _) id id

theorem answerView_portFrame (old new : View) (cause : ViewCause) (s : State) :
    PortFrame s (s.answerView old new cause) := by
  have h1 : PortFrame s { s with port.splitIdle := cause == .split } :=
    .of_queues (by and_intros <;> rfl) (.refl _) id id
  have h2 : ∀ ans : ViewAnswer, ∀ u, PortFrame s u → PortFrame s
      (match ans with
      | .withdrawn .aborted => u.withdrawRequest.answerAborted
      | .withdrawn o => u.withdrawRequest.answer o
      | .stands => u) := by
    intro ans u h
    split
    · exact (answerAborted_portFrame _).after ((withdrawRequest_portFrame u).after h)
    · exact (answer_portFrame _ _).after ((withdrawRequest_portFrame u).after h)
    · exact h
  have h3 : ∀ (c : Bool) u, PortFrame s u → PortFrame s (if c then u.answer .lostFloor else u) := by
    intro c u h
    split
    · exact (answer_portFrame _ u).after h
    · exact h
  have h4 : ∀ u, PortFrame s u → PortFrame s
      (if cause = .lapse ∧ old.heldBy s.number then u.answer .lapsed else u) := by
    intro u h
    split
    · exact (answer_portFrame _ u).after h
    · exact h
  have hn : ∀ u, PortFrame s u → PortFrame s
      (if cause = .lapse ∧ old.heldBy u.number then u.answer .lapsed else u) := by
    intro u h; rw [h.number]; exact h4 u h
  exact hn _ (h3 _ _ (h2 _ _ h1))

theorem dropReplacement_portFrame (s : State) : PortFrame s s.dropReplacement := by
  unfold State.dropReplacement
  split
  · exact .refl s
  · exact (raise_portFrame _ _).after (.of_queues (by and_intros <;> rfl) (.refl _) id id)

theorem reactToView_portFrame (old new : View) (cause : ViewCause) (s : State) :
    PortFrame s (s.reactToView old new cause) := by
  have h := (workOut_portFrame _).after (answerView_portFrame old new cause s)
  unfold State.reactToView
  simp only
  split
  · exact (autoClaim_portFrame _).after h
  · exact h

theorem portView_portFrame (old new : View) (cause : ViewCause) (s : State) :
    PortFrame s (s.portView old new cause) := by
  unfold State.portView
  split
  · exact .refl s
  · split
    · exact .of_queues (by and_intros <;> rfl) (.refl _) id id
    · exact reactToView_portFrame old new cause s

theorem answerEnd_portFrame (b : FrameBody) (s : State) : PortFrame s (s.answerEnd b) := by
  cases b with
  | claim => exact answer_portFrame _ s
  | offer sc => exact answer_portFrame _ s
  | take h => exact answer_portFrame _ s
  | release p m =>
    have h0 : PortFrame s { s with asm.drain := .idle } :=
      .of_queues (by and_intros <;> rfl) (.refl _) id id
    exact (answer_portFrame _ _).after h0
  | yield => exact answer_portFrame _ s
  | amend b => exact .refl s
  | segment b => exact .refl s
  | beat b => exact .refl s

theorem decideLeaves_portFrame (s : State) : PortFrame s s.decideLeaves := by
  have key : ∀ (ls : List Bool) u, PortFrame s u →
      PortFrame s (ls.foldl (fun s ab => s.decideLeave ab false) u) := by
    intro ls
    induction ls with
    | nil => exact fun u h => h
    | cons a ls ih => exact fun u h => ih _ ((decideLeave_portFrame a false u).after h)
  exact key _ _ (.of_queues (by and_intros <;> rfl) (.refl _) id id)

theorem endReport_portFrame (f : InFlight) (before : View) (s : State) :
    PortFrame s (s.endReport f before) := by
  have h0 : PortFrame s { s with line.inFlight := none } :=
    .of_queues (by and_intros <;> rfl) (.refl _) id id
  unfold State.endReport
  generalize ({ s with line.inFlight := none } : State) = u at h0
  simp only
  split
  · exact h0
  · refine (checkDrain_portFrame _).after ((workOut_portFrame _).after
      ((decideLeaves_portFrame _).after ?_))
    have h1 := (answerEnd_portFrame f.body u).after h0
    generalize u.answerEnd f.body = v at h1
    split
    · exact h1
    · exact (answerView_portFrame _ _ _ _).after h1

/-! ### Records (R75 to R91) -/

theorem badRecord_portFrame (s : State) : PortFrame s s.badRecord :=
  (refuseWith_portFrame _ _ _).after (dropReplacement_portFrame s)

theorem notOnAir_portFrame (s : State) : PortFrame s s.notOnAir := refuseWith_portFrame _ _ s

theorem corrected_portFrame (r : Option State) (s : State) (h : ∀ t, r = some t → PortFrame s t) :
    PortFrame s (s.corrected r) := by
  cases r with
  | none => exact notify_portFrame _ s
  | some t => exact h t rfl

theorem takeRepword_portFrame (t : Text) (s : State) : PortFrame s (s.takeRepword t) := by
  unfold State.takeRepword
  split
  · exact badRecord_portFrame s
  · simp only
    split
    · exact .of_queues (by and_intros <;> rfl) (.refl _) id id
    · have h0 : PortFrame s { s with port.replacement := none } :=
        .of_queues (by and_intros <;> rfl) (.refl _) id id
      exact (corrected_portFrame _ _ fun t e => correctReplace_portFrame _ _ _ t e).after h0

theorem takeReady_portFrame (s : State) : PortFrame s s.takeReady := by
  unfold State.takeReady
  split
  · exact .refl s
  · exact (autoClaim_portFrame _).after ((workOut_portFrame _).after
      (.of_queues (by and_intros <;> rfl) (.refl _) id id))

theorem unreadyLeave_portFrame (idle : Bool) (s : State) : PortFrame s (s.unreadyLeave idle) :=
  (leaveFloor_portFrame _ _ _).after (abortPending_portFrame s)

theorem takeUnready_portFrame (s : State) : PortFrame s s.takeUnready := by
  have h0 : PortFrame s { s with port.ready := false } :=
    .of_queues (by and_intros <;> rfl) (.refl _) id id
  unfold State.takeUnready
  split
  · exact .refl s
  · simp only
    split
    · exact (workOut_portFrame _).after (.trans h0 (.of_queues (by and_intros <;> rfl) (.refl _) id id))
    · exact (unreadyLeave_portFrame _ _).after h0

theorem floorRequest_portFrame (r : WriterRecord) (act : Bool → State → State) (s : State)
    (h : ∀ ab u, PortFrame u (act ab u)) : PortFrame s (s.floorRequest r act) := by
  unfold State.floorRequest
  split
  · exact answer_portFrame _ s
  · split
    · exact .of_queues (by and_intros <;> rfl) (.refl _) id id
    · exact (h _ _).after (abortPending_portFrame s)

theorem performWell_portFrame (r : WriterRecord) (s : State) : PortFrame s (s.performWell r) := by
  have h := dropReplacement_portFrame s
  have hn := fun u => notOnAir_portFrame u
  cases r with
  | word t =>
    refine PortFrame.trans h ?_
    simp only [State.performWell, State.takeWord]; split
    · exact addWord_portFrame _ _
    · exact hn _
  | speakerBreak =>
    refine PortFrame.trans h ?_
    simp only [State.performWell, State.takeBreak]; split
    · exact hn _
    · exact breakSegment_portFrame _
  | flush =>
    refine PortFrame.trans h ?_
    simp only [State.performWell, State.takeFlush]; split
    · exact hn _
    · exact closeOpen_portFrame _
  | delete n =>
    refine PortFrame.trans h ?_
    simp only [State.performWell, State.takeDelete]; split
    · exact hn _
    · exact corrected_portFrame _ _ fun t e => correctDelete_portFrame _ _ t e
  | replace k m =>
    refine PortFrame.trans h ?_
    simp only [State.performWell, State.takeReplace]; split
    · exact hn _
    · exact .of_queues (by and_intros <;> rfl) (.refl _) id id
  | repword t => exact takeRepword_portFrame t s
  | ready => exact .trans h (takeReady_portFrame _)
  | unready => exact .trans h (takeUnready_portFrame _)
  | floorTake => exact .trans h (floorRequest_portFrame _ _ _ fun _ u => takeFloor_portFrame u)
  | floorHand sc => exact .trans h (floorRequest_portFrame _ _ _ fun _ u => handFloor_portFrame sc u)
  | floorDone => exact .trans h (floorRequest_portFrame _ _ _ fun ab u => doneFloor_portFrame ab u)
  | floorLeave => exact .trans h (floorRequest_portFrame _ _ _ fun ab u => leaveFloor_portFrame ab _ u)

theorem performRecord_portFrame (r : Option WriterRecord) (c : Bool) (s : State) :
    PortFrame s (s.performRecord r c) := by
  cases r with
  | none => exact badRecord_portFrame s
  | some r =>
    refine (performWell_portFrame r _).after ?_
    split
    · exact raise_portFrame _ s
    · exact .refl s

theorem takeRecord_portFrame (r : Option WriterRecord) (c : Bool) (s : State) :
    PortFrame s (s.takeRecord r c) := by
  unfold State.takeRecord
  split
  · exact .of_queues (by and_intros <;> rfl) (.refl _) id id
  · exact performRecord_portFrame r c s

theorem recordIn_portFrame (kind : Byte) (content : List Byte) (framing : Bool) (s : State) :
    PortFrame s (s.recordIn kind content framing) := by
  unfold State.recordIn
  split
  · exact .refl s
  · exact takeRecord_portFrame _ _ s

theorem recordGap_portFrame (received : List Byte) (s : State) : PortFrame s (s.recordGap received) := by
  unfold State.recordGap
  split
  · exact takeRecord_portFrame _ _ s
  · exact .refl s

/-! ### Held work (R26) -/

theorem performHeld_portFrame (w : HeldWork) (s : State) : PortFrame s (s.performHeld w) := by
  cases w with
  | record r c => exact performRecord_portFrame r c s
  | deleteGroups gs => exact deleteGroups_portFrame gs s
  | replaceWord m i ws => exact replaceClosed_portFrame m i ws s
  | withdrawSegment m _ => exact withdrawHeld_portFrame m s
  | leave idle => exact unreadyLeave_portFrame idle s
  | viewChange old new cause => exact reactToView_portFrame old new cause s

theorem performAllHeld_portFrame (s : State) : PortFrame s s.performAllHeld := by
  have key : ∀ (ws : List HeldWork) u, PortFrame s u →
      PortFrame s (ws.foldl (fun s w => s.performHeld w) u) := by
    intro ws
    induction ws with
    | nil => exact fun u h => h
    | cons a ws ih => exact fun u h => ih _ ((performHeld_portFrame a u).after h)
  exact key _ _ (.of_queues (by and_intros <;> rfl) (.refl _) id id)

/-! ### The notice queue's order (R78) -/

theorem noticeSent_notices (p : WriterPort) (h : p.notices.length ≤ noticeCapacity) :
    p.noticeSent.notices.length ≤ noticeCapacity := by
  unfold WriterPort.noticeSent
  split
  · exact h
  · simp; omega

end Sys2Proof.Machine
end

