-- ==== Sys2Proof/Laws/BlockFrames.lean ====
section
/-! SUPPORT. What no operation of the station between two resets touches: `BlockFrame s t` holds of every
operation of the floor unit, the peer table, the receiver, the controller and the tick's work. -/

namespace Sys2Proof.Machine

/-- The fields that a reset, a tick or a supervisory transfer alone can change stand, flags only grow, and the
capacities, the link's order and the form of every record are kept. -/
structure BlockFrame (s t : State) : Prop where
  pending : t.pending = s.pending
  resetHeld : t.resetHeld = s.resetHeld
  number : t.number = s.number
  cfg : t.cfg = s.cfg
  load : t.load = s.load
  clock : t.clock = s.clock
  sup : t.sup = s.sup
  flags : FlagsGrow s.flags t.flags
  queues : s.queuesWithin → t.queuesWithin
  notices : s.noticesWithin → t.noticesWithin
  ordered : s.linkOrdered → t.linkOrdered
  records : 1 ≤ s.cfg.rowWidth → RecordsKept s.cfg s.sched.cues → RecordsKept s.cfg t.sched.cues

theorem BlockFrame.refl (s : State) : BlockFrame s s :=
  ⟨rfl, rfl, rfl, rfl, rfl, rfl, rfl, .refl _, id, id, id, fun _ h => h⟩

theorem BlockFrame.trans {a b c : State} (h : BlockFrame a b) (k : BlockFrame b c) : BlockFrame a c := by
  refine ⟨k.pending.trans h.pending, k.resetHeld.trans h.resetHeld, k.number.trans h.number,
    k.cfg.trans h.cfg, k.load.trans h.load, k.clock.trans h.clock, k.sup.trans h.sup,
    h.flags.trans k.flags, k.queues ∘ h.queues, k.notices ∘ h.notices, k.ordered ∘ h.ordered,
    fun hw hk => ?_⟩
  have := k.records (by rw [h.cfg]; exact hw)
  rw [h.cfg] at this
  exact this (h.records hw hk)

theorem BlockFrame.after {a b c : State} (k : BlockFrame b c) (h : BlockFrame a b) : BlockFrame a c :=
  h.trans k

theorem PortFrame.block {s t : State} (h : PortFrame s t) : BlockFrame s t :=
  ⟨h.pending, h.resetHeld, h.number, h.cfg, h.load, h.clock, h.sup, h.flags, h.queues, h.notices,
    by unfold State.linkOrdered; rw [h.link]; exact id, by rw [h.sched]; exact fun _ k => k⟩

theorem OutputFrame.block {s t : State} (h : OutputFrame s t) : BlockFrame s t :=
  ⟨by rw [h.rest], by rw [h.rest], h.number, h.cfg, by rw [h.rest], h.clock, by rw [h.rest], h.flags,
    by rw [h.rest]; exact id, by rw [h.rest]; exact id, h.ordered, h.records⟩

/-! ### The peer table -/

theorem updatePeer_blockFrame (x : Station) (f : PeerEntry → PeerEntry) (s : State) :
    BlockFrame s (s.updatePeer x f) :=
  ⟨rfl, rfl, rfl, rfl, rfl, rfl, rfl, .refl _, id, id, id, fun _ h => h⟩

theorem updatePeer_same (x : Station) (f : PeerEntry → PeerEntry) (s : State) :
    (s.updatePeer x f).peer x = f (s.peer x) := by simp [State.peer, State.updatePeer]

theorem updatePeer_other (x y : Station) (f : PeerEntry → PeerEntry) (s : State) (h : y ≠ x) :
    (s.updatePeer x f).peer y = s.peer y := by
  simp only [State.peer, State.updatePeer]
  exact Vector.getElem_set_ne _ _ fun e => h (Fin.ext e.symm)

theorem report_blockFrame (j : Judgement) (s : State) : BlockFrame s (s.report j) := by
  have h0 := (raiseMask_portFrame j.flags s).block
  have up : ∀ u (p : Peers), BlockFrame u { u with peers := p } := fun u p =>
    ⟨rfl, rfl, rfl, rfl, rfl, rfl, rfl, .refl _, id, id, id, fun _ h => h⟩
  cases j with
  | accepted x g w b => exact (updatePeer_blockFrame _ _ _).after h0
  | malformed x g w => exact .trans h0 (up _ _)
  | lost x => exact (updatePeer_blockFrame _ _ _).after h0
  | anonymous => exact .trans h0 (up _ _)
  | refused x => exact .trans h0 (up _ _)
  | oversize x => exact .trans h0 (up _ _)

theorem countMissed_blockFrame (x : Station) (n : Nat) (s : State) : BlockFrame s (s.countMissed x n) :=
  (raise_portFrame _ _).block.after (updatePeer_blockFrame _ _ s)

theorem compareLast_blockFrame (x : Station) (last : Byte) (start : Bool) (s : State) :
    BlockFrame s (s.compareLast x last start) := by
  unfold State.compareLast
  simp only
  split
  · exact updatePeer_blockFrame _ _ s
  · split
    · exact updatePeer_blockFrame _ _ s
    · split
      · exact .refl s
      · split
        · exact (updatePeer_blockFrame _ _ _).after (countMissed_blockFrame _ _ s)
        · exact .refl s

theorem expect_blockFrame (x : Station) (m : Byte) (s : State) : BlockFrame s (s.expect x m) :=
  updatePeer_blockFrame _ _ s

theorem checkSequence_blockFrame (x : Station) (b : SegmentBody) (s : State) :
    BlockFrame s (s.checkSequence x b).1 := by
  have he : BlockFrame s (s.expect x (b.number + 1#8)) := expect_blockFrame _ _ s
  unfold State.checkSequence
  simp only
  split
  · exact he
  · rename_i e _
    split
    · exact he
    · split
      · exact he
      · split
        · have := (expect_blockFrame x (b.number + 1#8) _).after
            (countMissed_blockFrame x (ahead b.number e) s)
          exact this
        · have := updatePeer_blockFrame x (fun e =>
            { e with counters := { e.counters with stale := rise e.counters.stale 1 } }) s
          exact this

theorem recordBeat_blockFrame (x : Station) (b : BeatBody) (s : State) : BlockFrame s (s.recordBeat x b) :=
  (compareLast_blockFrame _ _ _ _).after (updatePeer_blockFrame _ _ s)

theorem forgetPeer_blockFrame (x : Station) (s : State) : BlockFrame s (s.forgetPeer x) :=
  (raise_portFrame _ _).block.after (updatePeer_blockFrame _ _ s)

/-! ### Changes of view (R53, R64, R65) -/

theorem foldl_takeIntakeEvent (es : List IntakeEvent) (s : State) :
    OutputFrame s (es.foldl State.takeIntakeEvent s) := by
  induction es generalizing s with
  | nil => exact .refl s
  | cons e es ih => exact (ih _).after (takeIntakeEvent_outputFrame s e)

theorem foldl_takeIntakeEvent_hold (es : List IntakeEvent) (s : State) (h : es ≠ []) :
    (es.foldl State.takeIntakeEvent s).intake.hold = [] := by
  induction es generalizing s with
  | nil => exact absurd rfl h
  | cons e es ih =>
    cases es with
    | nil => exact takeIntakeEvent_hold s e
    | cons d es => exact ih (s.takeIntakeEvent e) (by simp)

theorem tellIntake_outputFrame (old new : View) (cause : ViewCause) (s : State) :
    OutputFrame s (s.tellIntake old new cause) := by
  unfold State.tellIntake
  split
  · exact foldl_takeIntakeEvent _ s
  · exact .refl s

/-- A view that leaves OVERLAP, or enters it, leaves the hold list empty (R64, R115). -/
theorem tellIntake_hold (old new : View) (cause : ViewCause) (s : State) (ho : s.hasOutput = true)
    (h : old.isOverlap = true ∨ new.isOverlap = true) :
    (s.tellIntake old new cause).intake.hold = [] := by
  unfold State.tellIntake
  rw [if_pos ho]
  refine foldl_takeIntakeEvent_hold _ s ?_
  unfold intakeEvents
  cases old <;> cases new <;> cases cause <;> simp_all [View.isOverlap] <;> split <;> simp

theorem tellLamp_portFrame (old new : View) (s : State) : PortFrame s (s.tellLamp old new) := by
  unfold State.tellLamp
  split
  · split
    · exact requestTally_portFrame _ s
    · exact .refl s
  · exact .refl s

/-- The state right after a view changed, before the port is told. -/
theorem changeView_blockFrame (own : Bool) (new : View) (cause : ViewCause) (s : State) :
    BlockFrame s (s.changeView own new cause) := by
  unfold State.changeView
  simp only
  have h0 : BlockFrame s (State.runFloorTimers s.floor.view new { s with floor.view := new, floor.lapsed := false }) :=
    ⟨rfl, rfl, rfl, rfl, rfl, rfl, rfl, .refl _, id, id, id, fun _ h => h⟩
  have h1 := (tellLamp_portFrame s.floor.view new _).block.after
    ((tellIntake_outputFrame s.floor.view new cause _).block.after h0)
  split
  · exact .refl s
  · split
    · exact h1
    · exact (portView_portFrame _ _ _ _).block.after h1

theorem OutputFrame.afterFloor {s t : State} (h : OutputFrame s t) :
    t.floor = s.floor ∧ t.lapse = s.lapse ∧ t.overlap = s.overlap ∧ t.peers = s.peers := by
  rw [h.rest]; exact ⟨rfl, rfl, rfl, rfl⟩

/-- The floor after a change of view: the new view, the counters as they stood, the timers of R53, and the peer
entries. -/
theorem changeView_floor (own : Bool) (new : View) (cause : ViewCause) (s : State)
    (h : new ≠ s.floor.view) :
    (s.changeView own new cause).floor = { s.floor with view := new, lapsed := false } ∧
      (s.changeView own new cause).lapse = (if new.isOffered then some s.cfg.lapseInterval
        else if s.floor.view.isOffered then none else s.lapse) ∧
      (s.changeView own new cause).overlap = (if new.isOverlap then some s.cfg.overlapLimit
        else if s.floor.view.isOverlap then none else s.overlap) ∧
      (s.changeView own new cause).peers.entries = s.peers.entries := by
  have ho := (tellIntake_outputFrame s.floor.view new cause
    (State.runFloorTimers s.floor.view new { s with floor.view := new, floor.lapsed := false })).afterFloor
  have hl := tellLamp_portFrame s.floor.view new
    (State.tellIntake s.floor.view new cause
      (State.runFloorTimers s.floor.view new { s with floor.view := new, floor.lapsed := false }))
  have hall : ∀ t, PortFrame (State.tellLamp s.floor.view new
      (State.tellIntake s.floor.view new cause
        (State.runFloorTimers s.floor.view new { s with floor.view := new, floor.lapsed := false }))) t →
      t.floor = { s.floor with view := new, lapsed := false } ∧
        t.lapse = (if new.isOffered then some s.cfg.lapseInterval
          else if s.floor.view.isOffered then none else s.lapse) ∧
        t.overlap = (if new.isOverlap then some s.cfg.overlapLimit
          else if s.floor.view.isOverlap then none else s.overlap) ∧
        t.peers.entries = s.peers.entries := fun t ht => by
    have k := hl.trans ht
    refine ⟨k.floor.trans ho.1, k.lapse.trans ho.2.1, k.overlap.trans ho.2.2.1, ?_⟩
    rw [k.entries, ho.2.2.2]; rfl
  unfold State.changeView
  simp only [if_neg h]
  split
  · exact hall _ (.refl _)
  · exact hall _ (portView_portFrame _ _ _ _)

/-! ### Floor frames (R54 to R60) -/

theorem floor_blockFrame (f : Floor) (s : State) : BlockFrame s { s with floor := f } :=
  ⟨rfl, rfl, rfl, rfl, rfl, rfl, rfl, .refl _, id, id, id, fun _ h => h⟩

theorem strayFrame_blockFrame (s : State) : BlockFrame s s.strayFrame :=
  (raise_portFrame _ _).block.after (floor_blockFrame _ s)

theorem takeClaim_blockFrame (own : Bool) (c : Station) (s : State) : BlockFrame s (s.takeClaim own c) := by
  unfold State.takeClaim
  split
  · exact changeView_blockFrame _ _ _ s
  · exact floor_blockFrame _ s

theorem makeOffer_blockFrame (own : Bool) (h : Station) (sc : Successor) (s : State) :
    BlockFrame s (s.makeOffer own h sc) :=
  .trans (changeView_blockFrame _ _ _ s)
    ⟨rfl, rfl, rfl, rfl, rfl, rfl, rfl, .refl _, id, id, id, fun _ h => h⟩

theorem takeOffer_blockFrame (own : Bool) (x : Station) (sc : Successor) (s : State) :
    BlockFrame s (s.takeOffer own x sc) := by
  unfold State.takeOffer
  split
  · split
    · exact makeOffer_blockFrame _ _ _ s
    · exact strayFrame_blockFrame s
  · split
    · exact makeOffer_blockFrame _ _ _ s
    · exact strayFrame_blockFrame s
  · exact strayFrame_blockFrame s

theorem takeTake_blockFrame (own : Bool) (x hx : Station) (s : State) :
    BlockFrame s (s.takeTake own x hx) := by
  unfold State.takeTake
  split
  · split
    · exact changeView_blockFrame _ _ _ s
    · exact strayFrame_blockFrame s
  · exact strayFrame_blockFrame s

theorem takeRelease_blockFrame (own : Bool) (x : Station) (p : Age) (m : Byte) (s : State) :
    BlockFrame s (s.takeRelease own x p m) := by
  unfold State.takeRelease
  split
  · split
    · exact (changeView_blockFrame _ _ _ _).after (compareLast_blockFrame _ _ _ s)
    · exact strayFrame_blockFrame s
  · exact strayFrame_blockFrame s

theorem takeYield_blockFrame (own : Bool) (x : Station) (s : State) : BlockFrame s (s.takeYield own x) := by
  unfold State.takeYield
  split
  · exact changeView_blockFrame _ _ _ s
  · exact strayFrame_blockFrame s

theorem segmentAtFloor_blockFrame (own : Bool) (x : Station) (b : SegmentBody) (s : State) :
    BlockFrame s (s.segmentAtFloor own x b) := by
  have h0 : BlockFrame s (s.implicitClaim own x) := by
    unfold State.implicitClaim
    split
    · exact changeView_blockFrame _ _ _ s
    · exact .refl s
  unfold State.segmentAtFloor
  simp only
  split
  · exact (updatePeer_blockFrame _ _ _).after h0
  · split
    · exact (takeSegment_outputFrame _ _ _ _).block.after h0
    · exact h0

theorem lapseOffer_blockFrame (s : State) : BlockFrame s s.lapseOffer := by
  unfold State.lapseOffer
  split
  · exact (floor_blockFrame _ _).after
      ((raise_portFrame _ _).block.after (changeView_blockFrame _ _ _ _))
  · exact .refl s

/-- A block is sent with 4 bytes behind its data (R175). -/
@[simp] theorem blockBytes_length (data : List Byte) : (blockBytes data).length = data.length + 4 := by
  simp [blockBytes]

/-- The floor after a lapse: HELD of the holder, the counters as they stood, and the lapse marked (R61). -/
theorem lapseOffer_floor (s : State) (h : Station) (sc : Successor) (hv : s.floor.view = .offered h sc) :
    s.lapseOffer.floor = { s.floor with view := .held h, lapsed := true } := by
  have hf := (changeView_floor false (.held h) .lapse s (by simp [hv])).1
  simp [State.lapseOffer, hv, hf]

theorem endOverlap_blockFrame (s : State) : BlockFrame s s.endOverlap := by
  unfold State.endOverlap
  split
  · exact changeView_blockFrame _ _ _ _
  · exact .refl s

theorem lapseExpiry_blockFrame (s : State) : BlockFrame s s.lapseExpiry := by
  unfold State.lapseExpiry
  split
  · simp only
    split
    · exact (lapseOffer_blockFrame _).after
        ⟨rfl, rfl, rfl, rfl, rfl, rfl, rfl, .refl _, id, id, id, fun _ h => h⟩
    · exact ⟨rfl, rfl, rfl, rfl, rfl, rfl, rfl, .refl _, id, id, id, fun _ h => h⟩
  · exact .refl s

theorem overlapExpiry_blockFrame (s : State) : BlockFrame s s.overlapExpiry := by
  unfold State.overlapExpiry
  split
  · simp only
    split
    · exact (endOverlap_blockFrame _).after
        ⟨rfl, rfl, rfl, rfl, rfl, rfl, rfl, .refl _, id, id, id, fun _ h => h⟩
    · exact ⟨rfl, rfl, rfl, rfl, rfl, rfl, rfl, .refl _, id, id, id, fun _ h => h⟩
  · exact .refl s

theorem ageOut_blockFrame (x : Station) (s : State) : BlockFrame s (s.ageOut x) := by
  unfold State.ageOut
  split
  · exact (changeView_blockFrame _ _ _ _).after (forgetPeer_blockFrame x s)
  · exact .refl s

theorem adopt_blockFrame (v : View) (cause : ViewCause) (s : State) : BlockFrame s (s.adopt v cause) := by
  unfold State.adopt
  simp only
  split
  · exact .refl s
  · exact (changeView_blockFrame _ _ _ _).after (floor_blockFrame _ s)

theorem beatAtFloor_blockFrame (y : Station) (b : BeatBody) (s : State) :
    BlockFrame s (s.beatAtFloor y b) := by
  unfold State.beatAtFloor
  split
  · exact .refl s
  · split
    · split
      · exact adopt_blockFrame _ _ s
      · exact .refl s
    · split
      · split
        · exact (raise_portFrame _ _).block.after (adopt_blockFrame _ _ s)
        · exact .refl s
      · split
        · exact adopt_blockFrame _ _ s
        · exact .refl s

/-! ### Reception (R28 to R34) -/

theorem dispatch_blockFrame (own : Bool) (x : Station) (b : FrameBody) (s : State) :
    BlockFrame s (s.dispatch own x b) := by
  cases b with
  | claim => exact takeClaim_blockFrame own x s
  | offer sc => exact takeOffer_blockFrame own x sc s
  | take h => exact takeTake_blockFrame own x h s
  | release p m => exact takeRelease_blockFrame own x p m s
  | yield => exact takeYield_blockFrame own x s
  | amend a =>
    have h0 : BlockFrame s (s.countAmend x) := updatePeer_blockFrame _ _ s
    unfold State.dispatch
    simp only
    split
    · exact (intakeAmend_outputFrame _ _ _).block.after h0
    · exact h0
  | segment g =>
    have h0 := checkSequence_blockFrame x g s
    unfold State.dispatch
    simp only
    split
    · rename_i e; rw [e] at h0; exact (segmentAtFloor_blockFrame _ _ _ _).after h0
    · rename_i e; rw [e] at h0; exact h0
  | beat a => exact (beatAtFloor_blockFrame _ _ _).after (recordBeat_blockFrame x a s)

theorem takeJudged_blockFrame (own : Bool) (j : Judgement) (s : State) :
    BlockFrame s (s.takeJudged own j) := by
  have h0 := report_blockFrame j s
  unfold State.takeJudged
  simp only
  split
  · exact (dispatch_blockFrame _ _ _ _).after h0
  · exact h0

theorem foreignEnd_blockFrame (j : Judgement) (s : State) : BlockFrame s (s.foreignEnd j) := by
  have key : ∀ u, BlockFrame s u →
      BlockFrame s { u with line.foreign := false, line.winCounted := false } :=
    fun u h => h.trans ⟨rfl, rfl, rfl, rfl, rfl, rfl, rfl, .refl _, id, id, id, fun _ h => h⟩
  refine key _ ?_
  split
  · exact .refl s
  · exact (countBeatLoss_portFrame s).block

/-- Every frame end (R28). -/
theorem frameEnd_blockFrame (j : Judgement) (rb : Bool) (s : State) : BlockFrame s (s.frameEnd j rb) := by
  unfold State.frameEnd
  split
  · exact .refl s
  · split
    · exact (endReport_portFrame _ _ _).block.after
        ((takeJudged_blockFrame _ _ _).after (readbackInFlight_portFrame _ s).block)
    · exact (takeJudged_blockFrame _ _ _).after (foreignEnd_blockFrame j s)

/-! ### A tick's work (R6 to R12, R159) -/

theorem beatExpiry_blockFrame (s : State) : BlockFrame s s.beatExpiry := by
  have h0 : BlockFrame s { s with beatTimer := s.beatTimer.reload } :=
    ⟨rfl, rfl, rfl, rfl, rfl, rfl, rfl, .refl _, id, id, id, fun _ h => h⟩
  unfold State.beatExpiry
  split
  · exact (depositBeat_portFrame _).block.after h0
  · exact .refl s

theorem enterRunning_blockFrame (s : State) : BlockFrame s s.enterRunning := by
  have h0 : BlockFrame s { s with start := .running, beatTimer := .start s.cfg.beatInterval } :=
    ⟨rfl, rfl, rfl, rfl, rfl, rfl, rfl, .refl _, id, id, id, fun _ h => h⟩
  unfold State.enterRunning
  split
  · exact (autoClaim_portFrame _).block.after ((depositBeat_portFrame _).block.after h0)
  · exact .refl s

theorem ageAll_blockFrame (s : State) : BlockFrame s s.ageAll := by
  have key : ∀ (xs : List Station) u, BlockFrame s u →
      BlockFrame s (xs.foldl (fun s x => s.ageOut x) u) := by
    intro xs
    induction xs with
    | nil => exact fun u h => h
    | cons a xs ih => exact fun u h => ih _ ((ageOut_blockFrame a u).after h)
  exact key _ s (.refl s)

theorem perform_blockFrame (e : TickEvent) (s : State) : BlockFrame s (s.perform e) := by
  cases e with
  | tallyOnPartEnd => exact ⟨rfl, rfl, rfl, rfl, rfl, rfl, rfl, .refl _, id, id, id, fun _ h => h⟩
  | tallyBlink =>
    simp only [State.perform, State.blinkExpiry]
    split
    · exact ⟨rfl, rfl, rfl, rfl, rfl, rfl, rfl, .refl _, id, id, id, fun _ h => h⟩
    · exact .refl s
  | pause => exact (pauseExpiry_portFrame s).block
  | lapse => exact lapseExpiry_blockFrame s
  | overlap => exact overlapExpiry_blockFrame s
  | beat => exact beatExpiry_blockFrame s
  | running => exact enterRunning_blockFrame s
  | peerAgeOut => exact ageAll_blockFrame s
  | cueExpires => exact .refl s
  | showCue => exact .refl s
  | zone => exact .refl s

theorem tickWork_blockFrame (left : List TickEvent) (s : State) : BlockFrame s (s.tickWork left) := by
  have key : ∀ (es : List TickEvent) u, BlockFrame s u →
      BlockFrame s (es.foldl (fun s e => s.perform e) u) := by
    intro es
    induction es with
    | nil => exact fun u h => h
    | cons a es ih => exact fun u h => ih _ ((perform_blockFrame a u).after h)
  exact key _ s (.refl s)

theorem screenSettle_outputFrame (s : State) : OutputFrame s s.screenSettle := by
  unfold State.screenSettle
  split
  · exact .refl s
  · exact screenFrom2_outputFrame s
  · exact screenFrom2_outputFrame s
  · exact screenFrom3_outputFrame s

theorem screenTick_outputFrame (left : List TickEvent) (s : State) :
    OutputFrame s (s.screenTick left) := by
  have h0 : OutputFrame s (s.screenStage1 left) := by
    unfold State.screenStage1
    split
    · exact (zoneStage_outputFrame _).after (compareOnset_outputFrame s)
    · exact zoneStage_outputFrame s
  have up : ∀ (d : ScreenDue) u, OutputFrame s u → OutputFrame s { u with screenDue := d } :=
    fun d u h => h.trans ⟨rfl, .refl _, fun _ h => h, id⟩
  unfold State.screenTick
  split
  · exact .refl s
  · simp only
    split
    · exact up _ _ h0
    · split
      · exact up _ _ ((expireCues_outputFrame _).after h0)
      · exact (screenFrom2_outputFrame _).after h0

theorem cueExpiry_outputFrame (s : State) : OutputFrame s s.cueExpiry := by
  unfold State.cueExpiry
  split
  · exact screenFrom2_outputFrame s
  · exact .trans (expireCues_outputFrame s) ⟨rfl, .refl _, fun _ h => h, id⟩
  · exact .refl s

theorem settle_blockFrame (s : State) : BlockFrame s s.settle :=
  (screenSettle_outputFrame _).block.after (tickWork_blockFrame [] s)

/-- A tick raises the count by one and reads the tally levels; the reference state stands (R1, R162). -/
theorem tick_clock (gzl gzu : Bool) (left : List TickEvent) (s : State) :
    (s.tick gzl gzu left).clock = ⟨s.clock.count + 1#32, s.clock.ref, gzl, gzu⟩ := by
  unfold State.tick
  rw [(screenTick_outputFrame left _).clock, (tickWork_blockFrame left _).clock]
  simp only [State.advance]
  rw [(settle_blockFrame s).clock]

end Sys2Proof.Machine
end

