-- ==== Sys2Proof/Laws/PerInstr.lean ====
section
/-! SUPPORT. One family of statements per command: `Form` says what a well-formed command carries on the link
it comes by, a record that parses or a body that the receiver can accept. -/

namespace Sys2Proof.Laws

open Sys2Proof.Machine

/-- The kind byte and the content of the record that a command is. -/
def recordOf : Instr → Option (Byte × List Byte)
  | .word text => some (1#8, text)
  | .speakerBreak => some (2#8, [])
  | .flush => some (3#8, [])
  | .delete n => some (4#8, [n])
  | .replace k m => some (5#8, [k, m])
  | .repword text => some (6#8, text)
  | .ready => some (7#8, [])
  | .unready => some (8#8, [])
  | .floorTake => some (9#8, [])
  | .floorHand successor => some (10#8, [successor])
  | .floorDone => some (11#8, [])
  | .floorLeave => some (12#8, [])
  | _ => none

/-- The body of the frame whose end a command is, where its body has been read. -/
def bodyOf : Instr → Option FrameBody
  | .beatReceived _ b => some (.beat b)
  | .claimReceived _ => some (.claim)
  | .offerReceived _ s => some (.offer s)
  | .takeReceived _ h => some (.take h)
  | .releaseReceived _ point last => some (.release point last)
  | .yieldReceived _ => some (.yield)
  | .segmentReceived _ b => some (.segment b)
  | .amendReceived _ b => some (.amend b)
  | _ => none

namespace Form

/-- A well-formed command carries a record that parses and fits its length byte, if it is a record, and a body
that parses and fits its length byte, if it is a frame's end. -/
def Statement (i : Instr) : Prop :=
  i.wf = true →
    (∀ kind content, recordOf i = some (kind, content) →
      content.length ≤ 255 ∧ ∃ r, parseRecord kind content = some r) ∧
    ∀ b, bodyOf i = some b → b.parses = true ∧ b.length ≤ 255

theorem of_neither {i : Instr} (hr : recordOf i = none) (hb : bodyOf i = none) : Statement i := by
  intro _
  exact ⟨fun k c h => absurd (hr ▸ h) (by simp), fun b h => absurd (hb ▸ h) (by simp)⟩

theorem of_record {i : Instr} {kind : Byte} {content : List Byte} (hr : recordOf i = some (kind, content))
    (hb : bodyOf i = none) (hw : i.wf = wfRecord kind content) : Statement i := by
  intro h
  rw [hw] at h
  simp only [wfRecord, Bool.and_eq_true, decide_eq_true_eq, Option.isSome_iff_exists] at h
  refine ⟨fun k c e => ?_, fun b e => absurd (hb ▸ e) (by simp)⟩
  rw [hr] at e
  cases e
  exact h

theorem of_body {i : Instr} {b : FrameBody} (hr : recordOf i = none) (hb : bodyOf i = some b)
    (hw : i.wf = wfBody b) : Statement i := by
  intro h
  rw [hw] at h
  simp only [wfBody, Bool.and_eq_true, decide_eq_true_eq] at h
  refine ⟨fun k c e => absurd (hr ▸ e) (by simp), fun b' e => ?_⟩
  rw [hb] at e
  cases e
  exact h

theorem powerOn (straps : Station) : Statement (.powerOn straps) := of_neither rfl rfl

theorem resetnAssertion : Statement (.resetnAssertion) := of_neither rfl rfl

theorem resetnRelease (straps : Station) : Statement (.resetnRelease straps) := of_neither rfl rfl

theorem imageLoaded (image : List Byte) : Statement (.imageLoaded image) := of_neither rfl rfl

theorem startupBlankBegins : Statement (.startupBlankBegins) := of_neither rfl rfl

theorem entryIntoRunning : Statement (.entryIntoRunning) := of_neither rfl rfl

theorem frameTick (edge : FpEdge) (gzl gzu : Bool) (later : List TickEvent) :
    Statement (.frameTick edge gzl gzu later) := of_neither rfl rfl

theorem entryIntoFlywheel (gzl gzu : Bool) (later : List TickEvent) :
    Statement (.entryIntoFlywheel gzl gzu later) := of_neither rfl rfl

theorem flywheelTick (gzl gzu : Bool) (later : List TickEvent) :
    Statement (.flywheelTick gzl gzu later) := of_neither rfl rfl

theorem orderSent : Statement (.orderSent) := of_neither rfl rfl

theorem peerAgeOut (x : Station) : Statement (.peerAgeOut x) := of_neither rfl rfl

theorem pauseTimerExpiry : Statement (.pauseTimerExpiry) := of_neither rfl rfl

theorem lapseTimerExpiry : Statement (.lapseTimerExpiry) := of_neither rfl rfl

theorem overlapTimerExpiry : Statement (.overlapTimerExpiry) := of_neither rfl rfl

theorem beatTimerExpiry : Statement (.beatTimerExpiry) := of_neither rfl rfl

theorem tallyBlinkExpiry : Statement (.tallyBlinkExpiry) := of_neither rfl rfl

theorem tallyOnPartEnd : Statement (.tallyOnPartEnd) := of_neither rfl rfl

theorem showCue : Statement (.showCue) := of_neither rfl rfl

theorem cueExpires : Statement (.cueExpires) := of_neither rfl rfl

theorem contentionStart : Statement (.contentionStart) := of_neither rfl rfl

theorem arbitrationLoss (readback : Bool) : Statement (.arbitrationLoss readback) := of_neither rfl rfl

theorem frameWin (own readback : Bool) : Statement (.frameWin own readback) := of_neither rfl rfl

theorem frameNotAccepted (raw : RawFrame) : Statement (.frameNotAccepted raw) := of_neither rfl rfl

theorem beatReceived (rx : Rx) (b : BeatBody) : Statement (.beatReceived rx b) := of_body rfl rfl rfl

theorem claimReceived (rx : Rx) : Statement (.claimReceived rx) := of_body rfl rfl rfl

theorem offerReceived (rx : Rx) (s : Successor) : Statement (.offerReceived rx s) := of_body rfl rfl rfl

theorem takeReceived (rx : Rx) (h : Station) : Statement (.takeReceived rx h) := of_body rfl rfl rfl

theorem releaseReceived (rx : Rx) (point : Age) (last : Byte) :
    Statement (.releaseReceived rx point last) := of_body rfl rfl rfl

theorem yieldReceived (rx : Rx) : Statement (.yieldReceived rx) := of_body rfl rfl rfl

theorem segmentReceived (rx : Rx) (b : SegmentBody) :
    Statement (.segmentReceived rx b) := of_body rfl rfl rfl

theorem drainComplete : Statement (.drainComplete) := of_neither rfl rfl

theorem amendReceived (rx : Rx) (b : AmendBody) : Statement (.amendReceived rx b) := of_body rfl rfl rfl

theorem word (text : Text) : Statement (.word text) := of_record rfl rfl rfl

theorem speakerBreak : Statement (.speakerBreak) := of_record rfl rfl rfl

theorem flush : Statement (.flush) := of_record rfl rfl rfl

theorem delete (n : Byte) : Statement (.delete n) := of_record rfl rfl rfl

theorem replace (k m : Byte) : Statement (.replace k m) := of_record rfl rfl rfl

theorem repword (text : Text) : Statement (.repword text) := of_record rfl rfl rfl

theorem ready : Statement (.ready) := of_record rfl rfl rfl

theorem unready : Statement (.unready) := of_record rfl rfl rfl

theorem floorTake : Statement (.floorTake) := of_record rfl rfl rfl

theorem floorHand (successor : Byte) : Statement (.floorHand successor) := of_record rfl rfl rfl

theorem floorDone : Statement (.floorDone) := of_record rfl rfl rfl

theorem floorLeave : Statement (.floorLeave) := of_record rfl rfl rfl

theorem malformedRecord (kind : Byte) (content : List Byte) (framing : Bool) :
    Statement (.malformedRecord kind content framing) := of_neither rfl rfl

theorem recordGapTimeout (received : List Byte) :
    Statement (.recordGapTimeout received) := of_neither rfl rfl

theorem noticeSent : Statement (.noticeSent) := of_neither rfl rfl

theorem selectStatusWord : Statement (.selectStatusWord) := of_neither rfl rfl

theorem selectConfigurationBlock : Statement (.selectConfigurationBlock) := of_neither rfl rfl

theorem selectWindowReads : Statement (.selectWindowReads) := of_neither rfl rfl

theorem windowSelect (table index : Byte) : Statement (.windowSelect table index) := of_neither rfl rfl

theorem clearCounters : Statement (.clearCounters) := of_neither rfl rfl

theorem restart : Statement (.restart) := of_neither rfl rfl

theorem invalidWrite (bytes : List Byte) : Statement (.invalidWrite bytes) := of_neither rfl rfl

theorem statusWordRead (count : Nat) : Statement (.statusWordRead count) := of_neither rfl rfl

theorem windowRead (count : Nat) : Statement (.windowRead count) := of_neither rfl rfl

theorem lineIdleForGap : Statement (.lineIdleForGap) := of_neither rfl rfl

end Form

end Sys2Proof.Laws
end

