-- ==== Sys2Proof/Tests/Slice0.lean ====
section
/-! SUPPORT. The model's own tests: ill-formed commands that WellFormed refuses, single steps worked by hand from
the spec's rules and examples, and, for every statement with hypotheses, states that meet them, clause by
clause (`test_meets_…`). -/

namespace Sys2Proof.Tests

open Sys2Proof.Machine

/-! ### Helpers -/

/-- The state a command leaves. -/
def after (c : Instr) (s : State) : State :=
  match exec c s with
  | .next t => t
  | _ => s

/-- A station in RUNNING with its footing, in a role and with a floor view. -/
def station (role : Role) (view : View) : State :=
  { State.reset with
    start := .running
    cfg := { Configuration.default with role := role }
    floor := { Floor.initial with view := view }
    line := { Line.initial with footing := true } }

/-- A WRITER station whose writer is ready, in a writer state. -/
def writer (w : WriterState) (view : View) : State :=
  { station .writer view with port := { WriterPort.initial with ready := true, wstate := w } }

/-- A text of n letters a. -/
def text (n : Nat) : Text := List.replicate n 97#8

/-- A clean frame from a station. -/
def heard (x : Station) : Rx := ⟨x, 0, false⟩

/-- A state with a frame count. -/
def atCount (n : Nat) (s : State) : State := { s with clock := { s.clock with count := BitVec.ofNat 32 n } }

/-- A state with other queues on the line. -/
def withLine (f : Line → Line) (s : State) : State := { s with line := f s.line }

/-- A spoken word of a text at a frame. -/
def spoken (n : Nat) (f : Frame) : SpokenWord := ⟨text n, f⟩

/-- A segment body of words. -/
def body (m : Byte) (restart : Bool) (age : Age) (ws : List FrameWord) : SegmentBody :=
  ⟨m, restart, false, age, ws⟩

/-- A timed word. -/
def timed (n : Nat) (f : Frame) (i : Nat) : TimedWord := ⟨text n, f, i, 0⟩

/-- A record of the schedule. -/
def cue (n : Counter) (tOn : Frame) (d : Nat) : Cue :=
  { number := n, key := some ⟨1, 0#8⟩, words := [timed 5 0#32 0], s := 0#32, e := 0#32, k := 0#32
    tIdeal := tOn, tOn := tOn, d := d, tOff := tOn + BitVec.ofNat 32 d, rung := 0, lamQ := 0, lam := 0
    shown := false, attrs := ⟨false, false, false⟩ }

/-- An entry present in the peer table. -/
def present : PeerEntry := { PeerEntry.initial with present := true }

/-- A state whose entry for a station is given. -/
def withPeer (x : Station) (e : PeerEntry) (s : State) : State := s.updatePeer x fun _ => e

/-! ### WellFormed refuses ill-formed commands -/

theorem test_wf_refuses_a_piece_left_twice :
    Instr.wf (.frameTick .rising false false [.pause, .pause]) = false := by decide

theorem test_wf_refuses_a_long_image : Instr.wf (.imageLoaded (List.replicate 74 0#8)) = false := by decide

theorem test_wf_refuses_a_readback_of_another_frame : Instr.wf (.frameWin false true) = false := by decide

theorem test_wf_refuses_long_bodies :
    Instr.wf (.frameNotAccepted ⟨none, 0, [], List.replicate 256 0#8, false⟩) = false := by decide +kernel

theorem test_wf_refuses_seven_blocks :
    Instr.wf (.frameNotAccepted ⟨none, 0, List.replicate 7 none, [], false⟩) = false := by decide

theorem test_wf_refuses_a_doubled_view :
    Instr.wf (.beatReceived (heard 1) ⟨.writer, true, .overlap 1 1, 0#8, false⟩) = false := by decide

theorem test_wf_refuses_a_segment_without_words :
    Instr.wf (.segmentReceived (heard 1) (body 0#8 false 0#16 [])) = false := by decide

theorem test_wf_refuses_a_body_beyond_its_length_byte :
    Instr.wf (.segmentReceived (heard 1)
      (body 0#8 false 0#16 (List.replicate 8 ⟨0#8, text 32⟩))) = false := by decide +kernel

theorem test_wf_refuses_amends_out_of_range :
    Instr.wf (.amendReceived (heard 1) ⟨0#8, 20#8, .delete 1#8⟩) = false ∧
      Instr.wf (.amendReceived (heard 1) ⟨0#8, 0#8, .delete 9#8⟩) = false ∧
      Instr.wf (.amendReceived (heard 1) ⟨0#8, 0#8, .replace []⟩) = false := by decide

theorem test_wf_refuses_malformed_records :
    Instr.wf (.word []) = false ∧ Instr.wf (.word [31#8]) = false ∧ Instr.wf (.repword []) = false ∧
      Instr.wf (.delete 0#8) = false ∧ Instr.wf (.delete 9#8) = false ∧
      Instr.wf (.replace 1#8 5#8) = false ∧ Instr.wf (.floorHand 8#8) = false := by decide

theorem test_wf_refuses_a_text_beyond_its_length_byte : Instr.wf (.word (text 256)) = false := by decide +kernel

theorem test_wf_refuses_a_good_record_as_malformed :
    Instr.wf (.malformedRecord 7#8 [] false) = false ∧
      Instr.wf (.malformedRecord 1#8 (text 256) true) = false := by decide +kernel

theorem test_wf_refuses_a_gap_outside_a_record : Instr.wf (.recordGapTimeout [2#8, 5#8]) = false := by decide

theorem test_wf_refuses_an_unknown_table : Instr.wf (.windowSelect 5#8 0#8) = false := by decide

theorem test_wf_refuses_a_valid_write_as_invalid :
    Instr.wf (.invalidWrite [0#8]) = false ∧ Instr.wf (.invalidWrite [3#8, 4#8, 9#8]) = false := by decide

/-! ### Bytes on the links, written out from Formats -/

/-- A RELEASE of point 300 after segment 9: kind 4, 01 2C 09. -/
theorem test_release_bytes :
    parseBody 4#8 [1#8, 44#8, 9#8] = some (.release 300#16 9#8) ∧
      (FrameBody.release 300#16 9#8).bytes = [1#8, 44#8, 9#8] := by decide

/-- A SEGMENT of one word: number 7, restart, age 75, one word, one character. -/
theorem test_segment_bytes :
    parseBody 7#8 [7#8, 1#8, 0#8, 75#8, 1#8, 1#8, 0#8, 1#8, 65#8] =
      some (.segment (body 7#8 true 75#16 [⟨0#8, [65#8]⟩])) := by decide

/-- A BEAT from a WRITER that holds the floor: role 1, ready, HELD(2), last 255. -/
theorem test_beat_bytes :
    parseBody 8#8 [1#8, 1#8, 1#8, 2#8, 255#8, 255#8] =
      some (.beat ⟨.writer, true, .held 2, 255#8, false⟩) := by decide

/-- A VACANT view whose holder byte is not 255 agrees with no layout (R175). -/
theorem test_vacant_view_names_nobody : parseBody 8#8 [1#8, 0#8, 0#8, 0#8, 255#8, 0#8] = none := by decide

/-- The header of a SEGMENT (class 2) from station 5: 10 101 000, kind 7 (R175). -/
theorem test_header_bytes :
    headerBytes 2 5 (.segment (body 7#8 true 75#16 [⟨0#8, [65#8]⟩])) = ⟨168#8, 7#8, 9#8⟩ := by decide

/-- A STATE notice giving ON_AIR: start byte 1, kind 64, length 1, code 3 (R176). -/
theorem test_notice_bytes : (Notice.state .onAir).bytes = [1#8, 64#8, 1#8, 3#8] := by decide

/-! ### Single steps worked from the rules -/

/-- Half of a tally period of 25 is 12 frames for FAST, and its on part 6 (R10). -/
theorem test_fast_period : Pattern.period 25 .fast = 12 ∧ onPart (Pattern.period 25 .fast) = 6 := by decide

/-- The table of R135, a row of 37 characters: 62 frames at 15 characters a second and 25 frames a second. -/
theorem test_reading_durations :
    stage5 25 37 150 = 62 ∧ stage5 30 42 300 = 42 ∧ stage5 25 1 400 = 1 ∧ stage5 30 42 80 = 158 := by decide

/-- R134's example for the default ladder: 24, 25 and 400 frames give rungs 0, 1 and 7. -/
theorem test_rungs :
    rungOf defaultLadder 24 = 0 ∧ rungOf defaultLadder 25 = 1 ∧ rungOf defaultLadder 400 = 7 := by decide

/-- A count just past its wrap is later than one just before it (R5). -/
theorem test_times_across_the_wrap : later 1#32 4294967295#32 = true ∧ interval 0#32 2147483648#32 < 0 := by
  decide

/-- A DELETE of two of three words leaves the first (R106). -/
theorem test_delete_two_of_three :
    let s := writer .onAir (.held 0)
    let s := after (.word (text 3)) (after (.word (text 2)) (after (.word (text 1)) s))
    (after (.delete 2#8) s).asm.texts = [text 1] := by decide

/-- A comma closes at the soft limit: a first word of 28 and then one of 31 make 60 characters (R96). -/
theorem test_comma_at_the_soft_limit :
    let s := after (.word (text 28)) (writer .onAir (.held 0))
    (after (.word (text 30 ++ [44#8])) s).asm.words = [] ∧
      (after (.word (text 29 ++ [44#8])) s).asm.words.length = 2 := by decide

/-- A WORD in IDLE is refused, and the refusal is sent at once on the idle link (R78, R82). -/
theorem test_word_off_air :
    (after (.word (text 3)) (writer .idle .vacant)).port.sending = some (.refuse .notOnAir) := by decide

/-- A FLOOR_TAKE into VACANT claims: the writer is CLAIMING and the lamp FAST (R85, R80). -/
theorem test_take_into_vacant :
    let s := after .floorTake (writer .idle .vacant)
    s.line.floorQ = some .claim ∧ s.port.wstate = .claiming ∧ s.tally.pattern = .fast := by decide

/-- A FLOOR_HAND to an absent station is BAD_SUCCESSOR (R87). -/
theorem test_hand_to_an_absent_station :
    (after (.floorHand 3#8) (writer .onAir (.held 0))).port.sending = some (.outcome .badSuccessor) := by
  decide

/-- A lower station's CLAIM taken first makes a later one late (R55). -/
theorem test_late_claim :
    let s := after (.claimReceived (heard 5)) (after (.claimReceived (heard 2)) (station .output .vacant))
    s.floor = ⟨.held 2, 0, 1, 0, false⟩ ∧ s.flags = 0#24 := by decide

/-- A re-offer of the frame of the lapse, after it, is stray in HELD; an OFFER that has won the line since, or that
ends at the next frame, is taken (R57, R61, R88). -/
theorem test_reoffer_after_the_lapse :
    let offered := { station .output (.offered 1 .any) with lapse := some 1 }
    let lapsed := after (.frameTick .rising false false []) offered
    let same := after (.offerReceived (heard 1) .any) lapsed
    let fresh := after (.offerReceived (heard 1) .any) (after (.frameWin false false) lapsed)
    let later := after (.offerReceived (heard 1) .any) (after (.frameTick .rising false false []) lapsed)
    lapsed.floor.view = .held 1 ∧ same.floor.view = .held 1 ∧ same.floor.strays = 1 ∧
      fresh.floor.view = .offered 1 .any ∧ fresh.floor.strays = 0 ∧
      later.floor.view = .offered 1 .any ∧ later.floor.strays = 0 := by decide +kernel

/-- A split that passes an overlap of the yielding station to the lower one sends LOST_FLOOR too (R71). -/
theorem test_split_out_of_an_overlap :
    let s := { writer .outgoing (.overlap 2 1) with number := 2 }
    let t := after (.beatReceived (heard 1) ⟨.writer, true, .held 1, 255#8, false⟩) s
    t.floor.view = .held 1 ∧ t.port.sending = some (.outcome .lostFloor) ∧ t.port.wstate = .idle := by decide

/-- A held segment is merged at a RELEASE: of words at 900 and 1000, the point 1000 − 50 = 950 with a margin of
10 leaves the second (R117, R119). -/
theorem test_release_merge_trims :
    let s := atCount 1000 (station .output (.overlap 1 2))
    let s := after (.segmentReceived (heard 2) (body 0#8 true 100#16 [⟨0#8, text 4⟩, ⟨100#8, text 5⟩])) s
    let s := after (.releaseReceived (heard 1) 50#16 255#8) s
    s.intake.hold = [] ∧ s.intake.trimmed = 1 ∧ s.sched.cues.map Cue.text = [text 5] ∧
      s.floor.view = .held 2 := by decide

/-- A word longer than the row is cut: 32 characters at a width of 30 give rows of 30 and 2 (R124). -/
theorem test_long_word_is_cut :
    (breakRows 30 [timed 32 0#32 0, timed 4 0#32 1]).map wordTexts = [[text 30], [text 2, text 4]] := by
  decide

/-- An own CLAIM's end gives GRANTED before STATE ON_AIR (R34, R78, R86). -/
theorem test_own_claim_granted :
    let s := writer .claiming .vacant
    let s := withLine (fun l => { l with inFlight := some ⟨⟨0#8, 1#8, 0#8⟩, .claim, 0#32, false, false⟩ }) s
    let s := after (.claimReceived (heard 0)) s
    s.port.sending = some (.outcome .granted) ∧ s.port.notices = [.state .onAir] := by decide

/-- A reload taken before the tick at which the lapse timer would expire: the tick lowers the new count, and nothing
lapses (R7). -/
theorem test_reload_before_the_tick :
    let s := { station .output (.offered 1 .any) with lapse := some 1 }
    let s := after (.frameTick .rising false false [.lapse]) s
    let s := after (.offerReceived (heard 1) (.station 3)) s
    (after .lapseTimerExpiry s).lapse = some (s.cfg.lapseInterval - 1) ∧
      (after .lapseTimerExpiry s).floor.view = .offered 1 (.station 3) := by decide +kernel

/-- The tick taken before the reload: the offer lapses (R7, R61). -/
theorem test_tick_before_the_reload :
    let s := { station .output (.offered 1 .any) with lapse := some 1 }
    (after (.frameTick .rising false false []) s).floor.view = .held 1 := by decide +kernel

/-- The header of a promoted beat that wins: class 0, station 5, kind 8, six bytes (R15, R25, R175). -/
theorem test_promoted_beat_header :
    let s := { station .output .vacant with number := 5 }
    let s := withLine (fun l => { l with beat := some ⟨16, true⟩, arb := some .beat }) s
    (after (.frameWin true false) s).line.inFlight.map (·.header) = some ⟨40#8, 8#8, 6#8⟩ := by decide

/-- A held withdrawal that loses leaves the drain complete, and its RELEASE is deposited (R102, R110). -/
theorem test_held_withdrawal_completes_the_drain :
    let s := writer .draining (.overlap 0 1)
    let s := { s with asm := { s.asm with drain := .draining } }
    let s := withLine (fun l => { l with
      segQ := [⟨0#8, false, [spoken 1 0#32]⟩], arb := some .segment, held := [.withdrawSegment 0#8 false] }) s
    (after (.arbitrationLoss false) s).line.floorQ = some .release := by decide

/-- A DELETE after an UNREADY whose withdrawal waits for the arbitration field waits too, and is refused when the
segment has gone (R26, R75, R91). -/
theorem test_record_waits_for_a_leave :
    let s := withLine (fun l => { l with
      segQ := [⟨0#8, false, [spoken 1 0#32]⟩], arb := some .segment }) (writer .onAir (.held 0))
    let t := after (.delete 1#8) (after .unready s)
    t.line.held = [.withdrawSegment 0#8 true, .record (some (.delete 1)) false] ∧
      (after (.arbitrationLoss false) t).line.segQ = [] ∧
      (after (.arbitrationLoss false) t).port.notices.getLast? = some (.refuse .notOnAir) := by decide

/-- A split is yielded to the lower station (R70). -/
theorem test_split :
    let s := { station .output (.held 4) with number := 4 }
    let s := after (.beatReceived (heard 2) ⟨.writer, true, .held 2, 255#8, true⟩) s
    s.floor.view = .held 2 ∧ hasFlag s.flags .floorSplit = true ∧ s.floor.adoptions = 1 := by decide

/-- A cue shown at its onset with duration 30 has a countdown of 30, and one PAGE is composed (R160, R164). -/
theorem test_show :
    let s := { station .output .vacant with sched := { Schedule.initial with cues := [cue 0 1#32 30] } }
    let s := after (.frameTick .rising false false []) s
    s.screen.visible = [⟨0, text 5, ⟨false, false, false⟩, 30⟩] ∧
      s.link.sending = some (.page .bottom [⟨⟨false, false, false⟩, text 5⟩]) := by decide +kernel

/-- The status word of a station in RUNNING whose view is HELD(3), with REF_LOSS set (Formats). -/
theorem test_status_word :
    ({ station .output (.held 3) with flags := Flag.mask .refLoss } : State).statusWord =
      [2#8, 0#8, 1#8, 3#8, 255#8, 0#8, 2#8, 0#8, 0#8, 4#8] := by decide

/-- An image of the default values loads as itself, with no flag (R169). -/
theorem test_default_image : loadImage Configuration.default.image = (.default, ⟨false, false⟩) := by decide +kernel

/-- A blank memory reads as all ones and is rejected (R169). -/
theorem test_blank_memory : loadImage [] = (.default, ⟨true, false⟩) := by decide

/-- The untidy ladder of Timing Arithmetic, and what its four steps leave (R129). -/
theorem test_untidy_ladder :
    normaliseLadder [⟨10, 150⟩, ⟨25, 140⟩, ⟨20, 170⟩, ⟨100, 450⟩, ⟨90, 200⟩, ⟨300, 220⟩, ⟨2000, 250⟩,
        ⟨400, 60⟩] =
      [⟨0, 150⟩, ⟨25, 150⟩, ⟨25, 170⟩, ⟨100, 400⟩, ⟨100, 400⟩, ⟨300, 400⟩, ⟨1500, 400⟩, ⟨1500, 400⟩] := by
  decide

/-- A segment discarded from a full queue in LISTENING sets SRC_DROP and leaves the counter (R21, R49). -/
theorem test_drop_in_listening :
    let s := withLine (fun l => { l with segQ := List.replicate 8 ⟨9#8, false, [spoken 1 0#32]⟩ })
      { writer .onAir (.held 0) with start := .listening }
    let t := after .flush (after (.word (text 4)) s)
    t.line.segQ.length = 8 ∧ hasFlag t.flags .srcDrop = true ∧ t.peers.counters.drops = 0#16 := by decide

end Sys2Proof.Tests
end

