-- ==== Sys2Proof/Tests/Witnesses.lean ====
section
/-! SUPPORT. States that meet the hypotheses of each statement of Obligations, clause by clause, at the boundary
values of their ranges. -/

namespace Sys2Proof.Tests

open Sys2Proof.Machine

/-! ### The step and what every step keeps -/

theorem test_meets_LoadingStaysBlank :
    State.reset.loadingBlank ∧ State.reset.start = .loading ∧ step State.reset = .next State.reset :=
  ⟨by decide, rfl, rfl⟩

/-- Every queue at its capacity. -/
def fullQueues : State :=
  { station .both (.held 0) with
    line := { Line.initial with
      amendQ := List.replicate 4 ⟨0#8, 0#8, .delete 1#8⟩
      segQ := List.replicate 8 ⟨0#8, false, [spoken 1 0#32]⟩ }
    port := { WriterPort.initial with
      sending := some (.state .absent), notices := List.replicate 8 (.state .idle) }
    link := { Link.initial with sending := some .blank, waiting := some .blank } }

theorem test_meets_QueuesStayWithin :
    fullQueues.queuesWithin ∧ fullQueues.noticesWithin ∧ fullQueues.linkOrdered ∧
      step fullQueues = .next fullQueues.settle := ⟨by decide, by decide, by decide, rfl⟩

/-- A full hold list. -/
def fullHold : State :=
  { station .output (.overlap 1 2) with
    intake := { Intake.initial with hold := List.replicate 6 ⟨2, 0#8, false, 0#32, [timed 1 0#32 0]⟩ } }

theorem test_meets_ViewAndHoldStayProper :
    fullHold.viewNamesTwo = true ∧ fullHold.holdWithin ∧ step fullHold = .next fullHold.settle :=
  ⟨by decide, by decide, rfl⟩

/-- One record of a full row with the longest duration. -/
def oneRecord : State :=
  { station .output .vacant with
    sched := { Schedule.initial with cues := [{ cue 0 1#32 150 with words := [timed 32 0#32 0, timed 4 0#32 1] }] } }

theorem test_meets_CuesStayWithinTheRow :
    oneRecord.cuesKept ∧ oneRecord.sched.cues.map Cue.n = [37] ∧ step oneRecord = .next oneRecord.settle :=
  ⟨by decide, by decide, rfl⟩

theorem test_meets_FlagsAreSticky :
    let s : State := { station .output .vacant with flags := Flag.mask .cfgClamped }
    resets (.statusWordRead 9) = false ∧ s.sup.select = .status ∧ hasFlag s.flags .cfgClamped = true ∧
      exec (.statusWordRead 9) s = .next (after (.statusWordRead 9) s) := ⟨rfl, rfl, by decide, rfl⟩

theorem test_meets_ClockAndConfigurationMoveOnlyAtTheirEvents :
    ticks .noticeSent = false ∧ resets .noticeSent = false ∧
      exec .noticeSent fullQueues = .next (after .noticeSent fullQueues) := ⟨rfl, rfl, rfl⟩

/-! ### Start-up and resets -/

/-- The station held in reset. -/
def heldInReset : State := after .resetnAssertion (station .output .vacant)

theorem test_meets_ResetsPutEveryBlockAtReset :
    heldInReset.resetHeld = true ∧ State.reset.resetHeld = false ∧ State.reset.start = .loading ∧
      (station .both .vacant).resetHeld = false ∧ (station .both .vacant).start ≠ .loading := by decide

theorem test_meets_ImageLeadsIntoListening :
    State.reset.start = .loading ∧ State.reset.resetHeld = false ∧
      (station .output .vacant).start ≠ .loading ∧ heldInReset.resetHeld = true := by decide

/-- Limits at their ends under the shorter body. -/
def tightConfiguration : Configuration :=
  { Configuration.default with
    maxBody := 96, softLimit := 50, hardLimit := 50, dMin := 100, dMax := 100, amendWeight := .strict }

theorem test_meets_ConfigurationSurvivesItsImage :
    Configuration.default.inForce ∧ tightConfiguration.inForce := ⟨by decide, by decide⟩

/-- LISTENING at its end. -/
def listened : State :=
  { station .writer .vacant with
    start := .listening
    cfg := { Configuration.default with role := .writer, autoClaim := true }
    port := { WriterPort.initial with ready := true, wstate := .idle } }

theorem test_meets_BeatsAreDeposited :
    listened.start = .listening ∧ listened.listenCount = 0 ∧ listened.line.beat = none ∧
      listened.cfg.autoClaim = true ∧ listened.floor.view = .vacant ∧ listened.port.wstate = .idle ∧
      (station .writer .vacant).start ≠ .listening ∧
      (let s := station .output .vacant
       ({ s with beatTimer := ⟨some 0, 25, some 30⟩ } : State).beatTimer.remaining = some 0 ∧
        ({ s with beatTimer := ⟨some 1, 25, none⟩ } : State).beatTimer.remaining ≠ some 0) := by decide

/-! ### The frame clock -/

theorem test_meets_TicksRaiseTheCount :
    let s := station .output .vacant
    let f := { s with clock := { s.clock with ref := .flywheel } }
    s.start ≠ .loading ∧ s.resetHeld = false ∧ FpEdge.rising = s.cfg.fpEdge ∧ s.clock.ref = .locked ∧
      f.clock.ref = .flywheel ∧ FpEdge.falling ≠ s.cfg.fpEdge ∧ State.reset.start = .loading := by decide

/-- A blinking lamp. -/
def blinking (staged : Option Pattern) (r pos : Nat) : State :=
  { station .writer .vacant with tally := ⟨.slow, staged, ⟨some r, 20, none⟩, pos, true⟩ }

theorem test_meets_TallyBlinkAndRequests :
    (blinking none 0 20).tally.timer.remaining = some 0 ∧
      (blinking (some .off) 0 20).tally.staged = some .off ∧
      (blinking (some .steady) 0 20).tally.staged = some .steady ∧
      (blinking none 1 19).tally.timer.remaining ≠ some 0 ∧
      (blinking none 10 10).tally.pattern.blinks = true ∧ 20 / 2 ≤ (blinking none 10 10).tally.position ∧
      (blinking none 11 9).tally.position < 20 / 2 ∧ (blinking none 11 9).tally.pattern = .slow ∧
      Tally.initial.pattern = .off := by decide

/-- A station all of whose timers are two ticks from their ends, and a peer at its timeout less one. -/
def beforeTheEnd (role : Role) : State :=
  atCount 99 (withPeer 1 present { station role .vacant with
    start := .listening, listenCount := 2, pause := some 2, lapse := some 2, overlap := some 2
    beatTimer := ⟨some 2, 25, none⟩, tally := ⟨.slow, none, ⟨some 11, 20, none⟩, 9, true⟩ })

theorem test_meets_TickLowersEveryTimer :
    (beforeTheEnd .writer).quiet ∧ (beforeTheEnd .output).quiet ∧ (station .both .vacant).quiet ∧
      ∀ e ∈ [TickEvent.pause, .lapse], e = .pause ∨ e = .lapse ∨ e = .overlap :=
  ⟨by decide, by decide, by decide, by simp⟩

/-! ### The cue line -/

/-- A line with a beat, amends and segments, as asked for. -/
def queued (f : Option FloorFrame) (b : Option BeatSlot) (amends segs : Bool) (w : AmendWeight) : State :=
  { station .writer (.held 0) with
    cfg := { Configuration.default with role := .writer, amendWeight := w }
    line := { Line.initial with
      footing := true, floorQ := f, beat := b
      amendQ := if amends then [⟨0#8, 0#8, .delete 1#8⟩] else []
      segQ := if segs then [⟨1#8, false, [spoken 1 0#32]⟩] else [] } }

theorem test_meets_ContentionOffersByOrder :
    (queued (some .yield) none false false .strict).mayBegin = true ∧
      (queued none (some ⟨16, true⟩) true true .strict).mayBegin = true ∧
      (queued none (some ⟨15, false⟩) false false .strict).mayBegin = true ∧
      (queued none none true false .strict).mayBegin = true ∧
      (queued none none false true .strict).mayBegin = true ∧
      (queued none none true true .strict).mayBegin = true ∧
      (queued none none true true (.ratio 1)).mayBegin = true ∧
      (queued none none false false .strict).mayBegin = true ∧
      State.reset.mayBegin = false := by decide

/-- A frame of a queue under arbitration. -/
def contending (q : QueueName) (s : State) : State := withLine (fun l => { l with arb := some q }) s

theorem test_meets_ForeignWinCountsAgainstBeat :
    let s := fun n => contending .beat (queued none (some ⟨n, false⟩) false false .strict)
    (s 14).line.arb = some .beat ∧ (s 14).line.held = [] ∧ (s 14).start = .running ∧
      (s 14).line.beat = some ⟨14, false⟩ ∧ (s 15).line.beat = some ⟨15, false⟩ ∧
      (contending .segment (queued none none false true .strict)).line.arb = some .segment ∧
      (let r := fun n => queued none (some ⟨n, false⟩) false false .strict
       (r 15).receiving = true ∧ (r 15).line.arb = none ∧ (r 15).line.inFlight = none ∧
        (r 15).line.winCounted = false ∧ (r 15).start = .running ∧
        (r 14).line.beat = some ⟨14, false⟩ ∧ (r 15).line.beat = some ⟨15, false⟩ ∧
        (withLine (fun l => { l with winCounted := true }) (r 15)).line.winCounted = true ∧
        (queued none (some ⟨16, true⟩) false false .strict).line.beat = some ⟨16, true⟩ ∧
        State.reset.receiving = false) := by decide

theorem test_meets_SegmentWinFillsBody :
    let s := contending .segment (queued none (some ⟨15, false⟩) false true .strict)
    s.line.arb = some .segment ∧ s.line.held = [] ∧ s.line.segQ = [⟨1#8, false, [spoken 1 0#32]⟩] ∧
      (s.wonOverBeat true).line.beat = some ⟨16, true⟩ ∧
      (s.wonOverBeat true).peers.counters.promotions = 1#16 := by decide

theorem test_meets_OwnWinsLeaveTheirQueues :
    let b := contending .beat (queued none (some ⟨0, false⟩) false false .strict)
    let f := contending .floor (queued (some .release) (some ⟨14, false⟩) false false .strict)
    let a := fun w => contending .amend (queued none (some ⟨15, false⟩) true true w)
    b.line.held = [] ∧ b.line.arb = some .beat ∧ b.line.beat = some ⟨0, false⟩ ∧
      f.line.held = [] ∧ f.line.arb = some .floor ∧ f.line.floorQ = some .release ∧
      (f.wonOverBeat false).line.beat = some ⟨15, false⟩ ∧
      (a .strict).line.held = [] ∧ (a .strict).line.arb = some .amend ∧
      (a .strict).line.amendQ = [⟨0#8, 0#8, .delete 1#8⟩] ∧ (a .strict).line.segQ ≠ [] ∧
      (a (.ratio 1)).line.arb = some .amend ∧ (a (.ratio 1)).cfg.amendWeight = .ratio 1 := by decide

theorem test_meets_FootingGivesReception :
    (station .output .vacant).start ≠ .loading ∧ (station .output .vacant).resetHeld = false ∧
      State.reset.start = .loading ∧ heldInReset.resetHeld = true ∧
      (withLine (fun l => { l with footing := false }) (station .output .vacant)).line.footing = false := by
  decide

/-! ### Reception -/

/-- A SEGMENT of 255 bytes: seven words of 32 characters and one of 9. -/
def longBody : FrameBody :=
  .segment (body 0#8 false 0#16 (List.replicate 7 ⟨0#8, text 32⟩ ++ [⟨255#8, text 9⟩]))

theorem test_meets_FrameBodySurvivesItsBytes : longBody.parses = true ∧ longBody.length = 255 := by
  decide +kernel

/-- Another station's frame under way with its win counted. -/
def listening : State := withLine (fun l => { l with foreign := true, winCounted := true }) (station .output .vacant)

theorem test_meets_UnacceptedFrameReport :
    let masked : State := { listening with cfg := { listening.cfg with admission := 1#8 } }
    listening.receiving = true ∧ listening.line.inFlight = none ∧ listening.line.winCounted = true ∧
      admitted masked.cfg masked.number 1 = false ∧ masked.receiving = true ∧
      headerSource ⟨72#8, 5#8, 193#8⟩ = 1 ∧ admitted listening.cfg listening.number 1 = true ∧
      listening.cfg.maxBody < (193#8).toNat ∧ (192#8).toNat ≤ listening.cfg.maxBody ∧
      none ∈ [some 0, some 1, some 2, none].take (blockCount (192#8).toNat) ∧
      [some (0 : Fin 4), some 1, some 2].length < blockCount (192#8).toNat ∧
      ([] : List Byte).length < (1#8).toNat ∧
      ([3] : List (Fin 4)).length = blockCount (48#8).toNat ∧
      parseBody 5#8 ((List.replicate 48 0#8).take (48#8).toNat) = none ∧ parseBody 2#8 ([8#8].take 1) = none ∧
      ([] : List (Fin 4)).length = blockCount (0#8).toNat ∧ parseBody 2#8 [] = none := by decide

/-- A station that hears a frame of station 1, its blocks with no, some and too many corrected flips. -/
theorem test_meets_AcceptedFrameRefreshesSource :
    let s := station .output .vacant
    let amend := FrameBody.amend ⟨0#8, 0#8, .delete 1#8⟩
    (∀ w ∈ [(0 : Fin 4), 1, 2, 3], s.hears ⟨1, w, false⟩ .claim ∧ s.hears ⟨1, w, false⟩ amend) ∧
      s.foreignTo (heard 1) ∧ s.cfg.quality = 2 ∧
      (after (.claimReceived (heard 1)) s).floor.view ≠ .vacant ∧
      (after (.yieldReceived (heard 1)) (station .output (.held 1))).floor.view = .vacant ∧
      (writer .claiming .vacant).foreignTo (heard 1) ∧ (writer .claiming .vacant).hears (heard 1) .claim := by
  decide

theorem test_meets_BeatRecordedAndCompared :
    let b := fun m start => (⟨.writer, true, .held 1, m, start⟩ : BeatBody)
    let s := station .output .vacant
    let k := withPeer 1 { present with expected := some 10#8 } s
    s.hears (heard 1) (.beat (b 0#8 true)) ∧ (s.peer 1).present = false ∧
      k.hears (heard 1) (.beat (b 9#8 false)) ∧ (k.peer 1).present = true ∧
      (k.peer 1).expected = some 10#8 ∧ (9#8 + 1#8 - 10#8).toNat = 0 ∧ (10#8 + 1#8 - 10#8).toNat = 1 ∧
      (136#8 + 1#8 - 10#8).toNat = 127 ∧ (137#8 + 1#8 - 10#8).toNat = 128 := by decide

theorem test_meets_SegmentSequenceCheck :
    let g := fun m r => body m r 0#16 [⟨0#8, text 1⟩]
    let s := station .output .vacant
    let k := withPeer 1 { present with expected := some 10#8 } s
    s.hears (heard 1) (.segment (g 0#8 true)) ∧ s.foreignTo (heard 1) ∧
      k.hears (heard 1) (.segment (g 10#8 false)) ∧ k.foreignTo (heard 1) ∧
      (k.peer 1).expected = some 10#8 ∧ (10#8 - 10#8).toNat = 0 ∧ (137#8 - 10#8).toNat = 127 ∧
      (138#8 - 10#8).toNat = 128 := by decide

/-- The timeout of four intervals of 25 is 100 frames. -/
theorem test_meets_PeerAgesOut :
    let s := fun n => atCount n (withPeer 1 present (station .output (.held 1)))
    ((s 101).peer 1).present = true ∧
      ((s 101).cfg.timeoutMultiple * (s 101).cfg.beatInterval : Int) <
        interval (s 101).clock.count ((s 101).peer 1).lastHeard ∧
      interval (s 100).clock.count ((s 100).peer 1).lastHeard ≤
        ((s 100).cfg.timeoutMultiple * (s 100).cfg.beatInterval : Int) ∧
      (State.reset.peer 1).present = false ∧
      (∀ v ∈ [View.held 1, .offered 1 .any, .overlap 1 2, .overlap 2 1, .held 2],
        ((atCount 101 (withPeer 1 present (station .output v))).peer 1).present = true) := by decide

/-! ### The floor -/

theorem test_meets_ClaimAndOfferTaken :
    (station .output .vacant).hears (heard 1) .claim ∧ (station .output (.held 2)).hears (heard 1) .claim ∧
      (station .output (.held 2)).foreignTo (heard 1) ∧
      (station .output (.held 1)).hears (heard 1) (.offer .any) ∧
      (station .output (.offered 1 .any)).hears (heard 1) (.offer (.station 3)) ∧
      (station .output (.held 1)).hears (heard 1) (.offer (.station 1)) ∧
      (station .output (.held 1)).hears (heard 2) (.offer .any) ∧
      (station .output (.held 1)).floor.lapsed = false ∧
      (let s := { station .output (.held 1) with floor := ⟨.held 1, 0, 0, 0, true⟩ }
       s.hears (heard 1) (.offer .any) ∧ s.floor.lapsed = true) := by decide

theorem test_meets_TakeOpensOverlap :
    (station .output (.offered 1 .any)).hears (heard 2) (.take 1) ∧
      (station .output (.offered 1 (.station 2))).hears (heard 2) (.take 1) ∧
      (station .output (.offered 1 .any)).hears (heard 1) (.take 1) := by decide

theorem test_meets_ReleaseMergesOrStrays :
    (station .output (.overlap 1 2)).hears (heard 1) (.release 65535#16 255#8) ∧
      (station .output (.overlap 1 2)).hears (heard 2) (.release 0#16 0#8) ∧
      ((station .output (.overlap 1 2)).peer 1).present = false ∧
      (let s := withPeer 1 { present with expected := some 10#8 } (station .output (.overlap 1 2))
       s.hears (heard 1) (.release 0#16 9#8) ∧ (s.peer 1).present = true ∧ (s.peer 1).expected = some 10#8 ∧
         (9#8 + 1#8 - 10#8).toNat = 0 ∧ (10#8 + 1#8 - 10#8).toNat = 1 ∧
         (136#8 + 1#8 - 10#8).toNat = 127 ∧ (137#8 + 1#8 - 10#8).toNat = 128) := by decide

theorem test_meets_YieldByTable :
    let ok := fun v => (station .output v).hears (heard 1) .yield ∧ (station .output v).viewNamesTwo = true
    ok (.held 1) ∧ ok (.offered 1 .any) ∧ ok (.overlap 1 2) ∧ ok (.overlap 2 1) ∧ ok .vacant ∧
      ok (.offered 2 (.station 1)) := by decide

theorem test_meets_FloorTimersExpire :
    let due : TicksDue := ⟨true, true, true⟩
    let o := fun r => { station .output (.offered 1 .any) with lapse := r, ticksDue := due }
    let v := fun r => { station .output (.overlap 1 2) with overlap := r, ticksDue := due }
    (o (some 1)).lapse = some 1 ∧ (o (some 1)).floor.view = .offered 1 .any ∧
      (v (some 1)).overlap = some 1 ∧ (v (some 1)).floor.view = .overlap 1 2 ∧
      (o (some 1)).ticksDue.lapse = true ∧ (v (some 1)).ticksDue.overlap = true ∧
      (o (some 2)).lapse = some 2 ∧ (v none).overlap = none ∧
      (station .output (.offered 1 .any)).ticksDue.lapse = false ∧
      (station .output (.overlap 1 2)).ticksDue.overlap = false ∧
      (∀ q ∈ [none, some (FloorFrame.offer .any)],
        let s := withLine (fun l => { l with floorQ := q })
          { writer .offering (.offered 0 .any) with lapse := some 1, ticksDue := due }
        s.lapse = some 1 ∧ s.cfg.role ≠ .output ∧ s.port.ready = true ∧ s.port.leaves = [] ∧
          s.line.floorInFlight = false ∧ s.asm.drain = .idle ∧ s.line.floorQ = q) := by decide

theorem test_meets_BeatAdoption :
    let b := fun v => FrameBody.beat ⟨.writer, true, v, 255#8, false⟩
    let s := station .output (.held 1)
    let k := withPeer 2 present s
    let o := station .output (.overlap 1 2)
    s.hears (heard 1) (b .vacant) ∧ s.floor.view.heldBy s.number = false ∧
      s.floor.view.heldBy (heard 1).source = true ∧ k.hears (heard 1) (b (.overlap 1 2)) ∧
      k.adopted 1 (.overlap 1 2) = .overlap 1 2 ∧ s.hears (heard 1) (b (.overlap 1 2)) ∧
      s.adopted 1 (.overlap 1 2) = .held 1 ∧ s.hears (heard 1) (b (.overlap 3 1)) ∧
      s.adopted 1 (.overlap 3 1) = .overlap 3 1 ∧ (s.peer 3).present = false ∧
      s.hears (heard 1) (b (.held 1)) ∧ s.hears (heard 3) (b (.held 3)) ∧
      o.hears (heard 1) (b (.held 2)) ∧ o.adopted 1 (.held 2) ≠ o.floor.view := by decide

theorem test_meets_SplitYieldsToLowerStation :
    let b := fun v => FrameBody.beat ⟨.writer, true, v, 255#8, false⟩
    let s := { writer .onAir (.held 2) with number := 2 }
    let o := { writer .outgoing (.overlap 2 1) with number := 2 }
    s.hears (heard 1) (b (.held 1)) ∧ s.floor.view.heldBy s.number = true ∧ (heard 1).source ≠ s.number ∧
      (heard 1).source.val < s.number.val ∧ s.line.floorUnderArb = false ∧ s.port.ready = true ∧
      s.claimOut = false ∧ s.hears (heard 3) (b (.held 3)) ∧ s.hears (heard 1) (b .vacant) ∧
      s.hears (heard 1) (b (.overlap 1 2)) ∧ s.port.wstate.sending = true ∧
      s.line.floorInFlight = false ∧ s.port.leaves = [] ∧ s.line.floorQ = none ∧ s.asm.drain = .idle ∧
      s.line.arb ≠ some .segment ∧ o.hears (heard 1) (b (.held 1)) ∧
      o.port.wstate.sending = true ∧ o.floor.view = .overlap o.number 1 ∧
      o.adopted 1 (.held 1) = .held 1 ∧
      (∀ q ∈ [(none, Drain.draining), (some FloorFrame.release, .reported)],
        let d := withLine (fun l => { l with floorQ := q.1 })
          { writer .draining (.overlap 2 1) with number := 2, asm := { Assembler.initial with drain := q.2 } }
        d.hears (heard 1) (b (.held 1)) ∧ d.port.wstate.sending = true ∧ d.line.floorInFlight = false ∧
          d.line.floorUnderArb = false ∧ d.line.floorQ = q.1 ∧ d.asm.drain = q.2) := by decide

/-- A writer whose own entry is past its timeout, with a floor frame and a drain. -/
def aged (w : WriterState) (v : View) (f : Option FloorFrame) (d : Drain) : State :=
  let s := atCount 101 (withPeer 0 present (withLine (fun l => { l with floorQ := f }) (writer w v)))
  { s with asm := { s.asm with drain := d } }

theorem test_meets_LossOfFloorTold :
    let b := FrameBody.beat ⟨.writer, true, .held 1, 255#8, false⟩
    let a := aged .onAir (.held 0) none .idle
    let i := writer .incoming (.overlap 1 0)
    (a.peer a.number).present = true ∧
      (a.cfg.timeoutMultiple * a.cfg.beatInterval : Int) <
        interval a.clock.count (a.peer a.number).lastHeard ∧
      i.hears (heard 1) b ∧ (heard 1).source ≠ i.number ∧ i.floor.view.heldBy 1 = true ∧
      (i.adopted 1 (.held 1)).right i.number = false ∧ i.port.wstate.sending = true ∧
      (∀ s ∈ [a, i, aged .onAir (.held 0) (some (.offer .any)) .idle,
          aged .idle (.offered 0 .any) (some .yield) .idle, aged .draining (.overlap 0 1) none .draining,
          aged .draining (.overlap 0 1) (some .release) .reported],
        s.floor.view.right s.number = true ∧ s.cfg.role ≠ .output ∧ s.port.ready = true ∧
          s.port.leaves = [] ∧ s.line.arb = none ∧ s.line.inFlight = none) ∧
      View.vacant.right 0 = false ∧ (View.held 1).right 0 = false := by decide

/-- A writer with an own frame in flight. -/
def flying (b : FrameBody) (w : WriterState) (v : View) : State :=
  withLine (fun l => { l with inFlight := some ⟨⟨0#8, b.code, 0#8⟩, b, 0#32, false, false⟩ }) (writer w v)

theorem test_meets_OwnFrameEndsAnswered :
    (∀ b ∈ [FrameBody.claim, .offer .any, .take 1, .release 0#16 0#8, .yield],
      let s := flying b .idle (.held 1)
      s.line.inFlight.map (·.body) = some b ∧ s.hears (heard 0) b ∧ (heard 0).source = s.number ∧
        s.cfg.role ≠ .output ∧ s.port.ready = true ∧ s.port.leaves = [] ∧ s.port.splitIdle = false ∧
        s.line.floorQ = none ∧ s.asm.drain = .idle ∧ s.receiving = true) ∧
      (flying .claim .claiming .vacant).hears ⟨0, 0, true⟩ .claim ∧
      headerSource ⟨7#8, 1#8, 0#8⟩ = (flying .claim .claiming .vacant).number ∧
      parseBody 9#8 [] = none ∧
      (let g := FrameBody.segment (body 0#8 true 0#16 [⟨0#8, text 1⟩])
       ∀ q ∈ [[], [(⟨1#8, false, [spoken 1 0#32]⟩ : QueuedSegment)]],
        let s := withLine (fun l => { l with segQ := q })
          { flying g .draining (.overlap 0 1) with asm := { Assembler.initial with drain := .draining } }
        s.hears (heard 0) g ∧ s.port.wstate = .draining ∧ s.asm.drain = .draining ∧ s.line.floorQ = none ∧
          s.port.splitIdle = false ∧ s.port.ready = true ∧ s.line.segQ = q ∧
          (after (receptionOf (heard 0) g) s).floor.view = s.floor.view) := by decide

/-- An own frame at whose end one leave, or none, is decided. -/
theorem test_meets_OwnFrameEndsAnswered_leave :
    let s := fun b v ls => let f := flying b .idle v
      { f with port := { f.port with leaves := ls } }
    (∀ b ∈ [FrameBody.claim, .take 1, .yield], ∀ v ∈ [View.vacant, .held 0, .held 1, .offered 1 .any],
      ∀ ls ∈ [[], [false], [true]],
        (s b v ls).hears (heard 0) b ∧ ¬(s b v ls).foreignTo (heard 0) ∧ (s b v ls).cfg.role ≠ .output ∧
          (s b v ls).port.ready = true ∧ (s b v ls).port.wstate = .idle ∧ (s b v ls).port.leaves = ls ∧
          (s b v ls).port.splitIdle = false ∧ (s b v ls).line.floorQ = none ∧
          (s b v ls).asm.drain = .idle ∧ (s b v ls).start = .running) ∧
      (s (.beat ⟨.writer, true, .vacant, 255#8, false⟩) .vacant [false]).pendingRequest = none ∧
      (after (.claimReceived (heard 0)) (s .claim .vacant [false])).floor.view = .held 0 ∧
      (after (.takeReceived (heard 0) 1) (s (.take 1) .vacant [true])).floor.view = .vacant := by
  decide

/-! ### Intake and the cue schedule -/

theorem test_meets_SegmentFloorCheck :
    let g := fun r m => body m r 0#16 [⟨0#8, text 1⟩]
    let five : State := { fullHold with intake := { fullHold.intake with hold := fullHold.intake.hold.take 5 } }
    let expecting := withPeer 2 { present with expected := some 200#8 } (station .output (.held 1))
    (station .output .vacant).hears (heard 2) (.segment (g true 0#8)) ∧
      (station .output .vacant).inSequence 2 (g true 0#8) ∧
      expecting.hears (heard 2) (.segment (g false 71#8)) ∧ expecting.inSequence 2 (g false 71#8) ∧
      ¬expecting.inSequence 2 (g false 72#8) ∧ (View.held 1).right 2 = false ∧
      five.hears (heard 2) (.segment (g true 0#8)) ∧ five.floor.view = .overlap 1 2 ∧
      five.intake.hold.length = 5 ∧ fullHold.intake.hold.length = 6 ∧
      fullHold.hears (heard 2) (.segment (g true 0#8)) ∧ fullHold.inSequence 2 (g false 0#8) := by decide

theorem test_meets_HolderSegmentTaken :
    let g := body 0#8 true 0#16 [⟨0#8, text 32⟩, ⟨255#8, text 4⟩]
    let s := station .output (.held 1)
    let armed := fun x n => { s with intake := { s.intake with armed := some ⟨BitVec.ofNat 32 n, x⟩ } }
    (∀ v ∈ [View.vacant, .held 1, .offered 1 .any, .overlap 1 2], ∀ role ∈ [Role.output, .both],
      (station role v).hears (heard 1) (.segment g) ∧ (station role v).inSequence 1 g) ∧
      s.hears (heard 1) (.segment g) ∧ s.intake.armed = none ∧ s.sched.cues = [] ∧
      breakRows s.cfg.rowWidth (g.timed s.clock.count) = [g.timed s.clock.count] ∧
      (armed 2 0).hears (heard 1) (.segment g) ∧ (armed 1 0).hears (heard 1) (.segment g) ∧
      (g.timed s.clock.count).head? = some ⟨text 32, 0#32, 0, 0⟩ ∧ s.cfg.trimMargin = 10 ∧
      interval 0#32 (0#32 + 10#32) ≤ 0 ∧ 0 < interval 0#32 (4294967285#32 + 10#32) := by decide

/-- Rows of width 1, pieces of a long word, and a word that exactly fills a row or misses by one character. -/
theorem test_meets_HolderSegmentTaken_rows :
    breakRows 37 [timed 32 0#32 0, timed 4 0#32 1, timed 1 0#32 2] =
        [] ++ [timed 32 0#32 0, timed 4 0#32 1] :: (timed 1 0#32 2 :: []) :: [] ∧
      breakRows 36 [timed 32 0#32 0, timed 4 0#32 1] =
        [] ++ [timed 32 0#32 0] :: (timed 4 0#32 1 :: []) :: [] ∧
      breakRows 1 [timed 2 7#32 3] =
        [] ++ [⟨text 1, 7#32, 3, 0⟩] :: (⟨text 1, 7#32, 3, 1⟩ :: []) :: [] ∧
      breakRows 4 [timed 9 7#32 3] =
        [[⟨text 4, 7#32, 3, 0⟩]] ++ [⟨text 4, 7#32, 3, 1⟩] :: (⟨text 1, 7#32, 3, 2⟩ :: []) :: [] := by
  decide

/-- A full schedule: one SHOWN record and 63 PENDING ones. -/
def fullSchedule : Schedule :=
  { Schedule.initial with
    nextCue := 64
    cues := (List.range 64).map fun j =>
      { cue (BitVec.ofNat 16 j) (BitVec.ofNat 32 (8 * j)) 30 with shown := j == 0 } }

theorem test_meets_PlacementDropsOldest :
    fullSchedule.cues.length = 64 ∧ (∃ r ∈ fullSchedule.cues, r.shown = false) ∧
      (∀ r ∈ fullSchedule.cues, r.number ≠ fullSchedule.nextCue) := by decide

/-- A new cue that finds room behind three records, and one that finds none, each with catch-up drops. -/
theorem test_meets_PlacementDropsOldest_catchup :
    let env : TimingEnv := ⟨{ Configuration.default with lamDrop := 1 }, 1⟩
    let new : NewCue := ⟨⟨1, 9#8⟩, [timed 5 0#32 0], ⟨false, false, false⟩⟩
    let three : Schedule := { Schedule.initial with
      nextCue := 3, cues := [cue 0 1#32 150, cue 1 200#32 150, cue 2 400#32 150] }
    let full : Schedule := { Schedule.initial with
      nextCue := 64
      cues := (List.range 64).map fun j =>
        { cue (BitVec.ofNat 16 j) (BitVec.ofNat 32 j) 150 with shown := decide (j < 62) } }
    three.cues.length = 3 ∧ (three.place env 0#32 new).1.catchUps = 3#16 ∧
      (three.place env 0#32 new).1.overflows = 0#16 ∧
      full.cues.length = 64 ∧ (full.place env 0#32 new).1.overflows = 1#16 ∧
      (full.place env 0#32 new).1.catchUps = 1#16 ∧
      (∀ s ∈ [three, full], ∀ r ∈ s.cues, r.number ≠ s.nextCue) := by decide

/-- A hold list with one segment of three words. -/
def oneHeld (ws : List TimedWord) : State :=
  { station .output (.overlap 1 2) with
    intake := { Intake.initial with hold := [⟨2, 7#8, false, 0#32, ws⟩] } }

theorem test_meets_HeldSegmentAmended :
    let three := [timed 1 0#32 0, timed 2 0#32 1, timed 3 0#32 2]
    let many := (List.range 29).map fun j => timed 1 0#32 j
    (oneHeld three).hears (heard 2) (.amend ⟨7#8, 1#8, .delete 8#8⟩) ∧ (oneHeld three).foreignTo (heard 2) ∧
      (∃ w ∈ three, w.index = (1#8).toNat) ∧
      (∀ w ∈ three, w.index ≠ (3#8).toNat) ∧
      (oneHeld three).hears (heard 2) (.amend ⟨7#8, 1#8, .replace [text 9, text 8]⟩) ∧
      three = [timed 1 0#32 0] ++ timed 2 0#32 1 :: [timed 3 0#32 2] ∧
      (oneHeld many).hears (heard 2) (.amend ⟨7#8, 0#8, .replace (List.replicate 4 (text 9))⟩) ∧
      0 + 4 + (many.drop 1).length = 32 := by decide

/-- A schedule with two records of segment 7 of station 1, the second of words 1 and 2. -/
def twoRows (shown : Bool) (amends : Bool) : State :=
  { station .output (.held 1) with
    cfg := { Configuration.default with role := .output, visibleAmends := amends }
    sched := { Schedule.initial with
      nextCue := 2
      cues := [{ cue 0 1#32 30 with key := some ⟨1, 7#8⟩, shown := shown },
        { cue 1 9#32 30 with
          key := some ⟨1, 7#8⟩, shown := shown, words := [timed 5 0#32 1, timed 30 0#32 2] }] } }

theorem test_meets_ScheduleAmended :
    let ok := fun i op => ∀ a b, (twoRows a b).hears (heard 1) (.amend ⟨7#8, i, op⟩)
    let words := [timed 5 0#32 1, timed 30 0#32 2]
    let long := [timed 32 0#32 1, timed 32 0#32 2, timed 30 0#32 3]
    ok 1#8 (.delete 1#8) ∧ ok 1#8 (.delete 8#8) ∧ ok 1#8 (.replace [text 6]) ∧
      ok 1#8 (.replace [text 32, text 32]) ∧ ok 9#8 (.delete 1#8) ∧
      (twoRows true true).foreignTo (heard 1) ∧ (twoRows true true).intake.hold = [] ∧
      (∃ w ∈ words, 1 ≤ w.index ∧ w.index ≤ 1 ∧ w.piece = 0) ∧ (∀ w ∈ words, ¬(9 ≤ w.index ∧ w.index ≤ 9)) ∧
      (∀ w ∈ [timed 5 0#32 0], ¬(1 ≤ w.index ∧ w.index ≤ 8)) ∧
      (joinText (words.map (·.text))).length ≤ (twoRows true true).cfg.rowWidth ∧
      (twoRows true true).cfg.rowWidth < (joinText (long.map (·.text))).length ∧
      breakRows 37 long = [[timed 32 0#32 1], [timed 32 0#32 2], [timed 30 0#32 3]] ∧
      (∀ r ∈ (twoRows false true).sched.cues, ∀ j, j < 2 → r.number ≠ (2 : Counter) + BitVec.ofNat 16 j) := by
  decide

/-- A SHOWN record before the one that is re-broken into two rows. -/
theorem test_meets_ScheduleAmended_shown :
    let two := (twoRows false true).sched
    let s : State := { twoRows false true with
      sched := { two with cues := two.cues.map fun r => { r with shown := r.number == 0#16 } } }
    let b : AmendBody := ⟨7#8, 2#8, .replace [text 32]⟩
    let t := after (.amendReceived (heard 1) b) s
    s.hears (heard 1) (.amend b) ∧ s.foreignTo (heard 1) ∧ s.sched.cues.map (·.shown) = [true, false] ∧
      breakRows 37 [timed 5 0#32 1, timed 32 0#32 2] = [timed 5 0#32 1] :: [[timed 32 0#32 2]] ∧
      s.sched.cues.length + 1 ≤ 64 ∧ t.sched.cues.map (·.number) = [0, 1, 2] := by decide

/-- An environment with the default configuration. -/
def env : TimingEnv := ⟨.default, 2⟩

theorem test_meets_OnsetAndLateness :
    ((cue 5 0#32 0).compute env 100#32 [cue 4 103#32 30, cue 3 90#32 30]).tIdeal = 0#32 ∧ 1 ≤ env.reff ∧
      ∀ x ∈ [0#32, 101#32, 109#32, 120#32],
        -1073741824 < interval x 100#32 ∧ interval x 100#32 < 1073741824 := by
  refine ⟨rfl, by decide, ?_⟩
  simp [interval]

theorem test_meets_RungAndDuration :
    ladderInForce env.cfg.ladder ∧ env.cfg.ladder[(cue 0 1#32 30).rung]? = some ⟨0, 150⟩ := by decide

/-! ### The screen and the inserter link -/

/-- Two visible cues in a zone since a frame. -/
def zoned (z : Zone) (since : Option Frame) : State :=
  atCount 11 { station .output .vacant with screen := { Screen.initial with
    zone := z, lastChange := since
    visible := [⟨0, text 1, ⟨false, false, false⟩, 9⟩, ⟨1, text 2, ⟨false, false, false⟩, 9⟩] } }

theorem test_meets_ZoneFollowsTallyInputs :
    (zoned .bottom none).quiet ∧ (zoned .conflict (some 0#32)).quiet ∧
      (zoned .bottom none).cfg.role ≠ .writer ∧ (zoned .bottom none).cfg.zoneHold = 12 ∧
      (12 : Int) ≤ interval (11#32 + 1#32) 0#32 ∧ ¬(12 : Int) ≤ interval (11#32 + 1#32) 1#32 := by
  decide

/-- A screen of n SHOWN cues behind which a PENDING one is due, and an order of the link under way or waiting. -/
def showing (n : Nat) (sending waiting : Option Order) : State :=
  atCount 7 { station .output .vacant with
    screenDue := .showing
    sched := { Schedule.initial with
      cues := (List.range n).map (fun j => { cue (BitVec.ofNat 16 (j + 2)) 1#32 30 with shown := true }) ++
        [cue 0 7#32 30, cue 1 20#32 30] }
    screen := { Screen.initial with
      visible := (List.range n).map fun j => ⟨BitVec.ofNat 16 (j + 2), text 5, ⟨false, false, false⟩, 24⟩ }
    link := { Link.initial with sending := sending, waiting := waiting } }

theorem test_meets_ShowCueTakesCueIn :
    (∀ n ∈ [0, 1, 2], ∀ l ∈ [(none, none), (some Order.blank, none), (some Order.blank, some Order.blank)],
      let s := showing n l.1 l.2
      let shown := s.sched.cues.take n
      s.screenDue = .showing ∧ s.sched.cues = shown ++ cue 0 7#32 30 :: [cue 1 20#32 30] ∧
        (∀ r ∈ shown, r.shown = true ∧ (s.screen.visible.any fun v => v.number == r.number) = true) ∧
        (∀ r ∈ shown ++ [cue 1 20#32 30], r.number ≠ (0 : Counter)) ∧
        (∀ v ∈ s.screen.visible, v.number ≠ (0 : Counter)) ∧ atOrAfter s.clock.count 7#32 = true) ∧
      (showing 2 none none).screen.visible.length = rowsInEffect Configuration.default .bottom ∧
      (station .output .vacant).screenDue = .done := by decide

theorem test_meets_CueExpiryAndComposition :
    let at1 := fun due => { station .output .vacant with
      screenDue := due
      screen := { Screen.initial with visible :=
        [⟨0, text 1, ⟨false, false, false⟩, 1⟩, ⟨1, text 2, ⟨false, false, false⟩, 2⟩] } }
    let marked := fun vs mark last => { station .output .vacant with
      screenDue := .showing
      screen := { Screen.initial with visible := vs, mark := mark, lastOrder := last } }
    (at1 .expiryThenShow).screenDue = .expiryThenShow ∧ (at1 .expiry).screenDue = .expiry ∧
      (at1 .done).start ≠ .loading ∧ (at1 .done).resetHeld = false ∧ (at1 .done).cfg.role ≠ .writer ∧
      (∀ vs ∈ [[], (at1 .done).screen.visible], ∀ l ∈ [LastOrder.none, .page, .blank], ∀ m ∈ [true, false],
        (marked vs m l).screenDue = .showing ∧ (marked vs m l).sched.cues = [] ∧
          (marked vs m l).screen.mark = m ∧ (marked vs m l).screen.visible = vs ∧
          (marked vs m l).screen.lastOrder = l) := by decide

theorem test_meets_LinkSendsItsOrders :
    fullQueues.link.sending = some .blank ∧ fullQueues.link.startWait = false ∧
      State.reset.link.sending = none ∧ (Link.startBlank .initial).startWait = true := by decide

/-! ### The writer port and the segment assembler -/

theorem test_meets_WordTakenIntoSegment :
    let s := writer .onAir (.held 0)
    s.takesRecords ∧ s.port.replacement = none ∧ s.port.wstate.takesWords = true ∧
      wordText (text 32) = true ∧ s.asm.hasRoom s.cfg.hardLimit (text 32) = true ∧
      endsSentence (text 32) = false ∧ endsClause (text 32) = false ∧
      endsSentence (text 31 ++ [46#8]) = true ∧ wordText (text 31 ++ [46#8]) = true ∧
      s.line.segQ.length < 8 ∧ 6 + ([spoken 32 0#32].map fun w => w.text.length + 2).sum ≤ s.cfg.maxBody ∧
      endsClause [44#8] = true ∧ charCount (s.asm.texts ++ [[44#8]]) < s.cfg.softLimit := by decide

/-- A writer with n words of a text in the open segment and in the history. -/
def manyOpen (n : Nat) (t : Text) : State :=
  let s := writer .onAir (.held 0)
  { s with asm := { s.asm with
      words := List.replicate n ⟨t, 0#32, 0#32⟩
      history := (List.range n).map fun i => ⟨t, 0#32, .opened i⟩ } }

/-- A comma at the soft limit of 60, and no room after 20 words and beyond the hard limit of 120. -/
theorem test_meets_WordTakenIntoSegment_closes :
    let s := manyOpen 1 (text 32)
    let comma := text 26 ++ [44#8]
    s.takesRecords ∧ s.port.wstate.takesWords = true ∧ s.cfg.softLimit = 60 ∧
      charCount (s.asm.texts ++ [comma]) = 60 ∧ charCount (s.asm.texts ++ [comma.drop 1]) = 59 ∧
      endsClause comma = true ∧ wordText comma = true ∧ s.asm.hasRoom s.cfg.hardLimit comma = true ∧
      s.asm.hasRoom s.cfg.hardLimit (text 32) = true ∧
      (manyOpen 3 (text 32)).asm.hasRoom s.cfg.hardLimit (text 21) = true ∧
      (manyOpen 3 (text 32)).asm.hasRoom s.cfg.hardLimit (text 22) = false ∧
      (manyOpen 20 (text 1)).asm.hasRoom s.cfg.hardLimit (text 1) = false := by decide

/-- A writer with one word in the open segment. -/
def oneOpen : State := after (.word (text 4)) (writer .onAir (.held 0))

theorem test_meets_SegmentClosesOnRequest :
    let due := fun r => { oneOpen with pause := r, ticksDue := ⟨true, false, false⟩ }
    let full := withLine (fun l => { l with
      segQ := (List.range 8).map fun j => ⟨BitVec.ofNat 8 (248 + j), false, [spoken 1 0#32]⟩ }) oneOpen
    oneOpen.line.segQ.length ≤ 8 ∧ oneOpen.line.segQ.length ≠ 8 ∧ full.line.segQ.length = 8 ∧
      full.takesRecords ∧ (full.line.segQ[0]?).isSome ∧ (full.line.segQ[1]?).isSome ∧
      6 + (oneOpen.asm.words.map fun w => w.text.length + 2).sum ≤ oneOpen.cfg.maxBody ∧
      oneOpen.takesRecords ∧ oneOpen.port.replacement = none ∧ oneOpen.port.wstate ≠ .absent ∧
      oneOpen.asm.words ≠ [] ∧ (writer .onAir (.held 0)).asm.words = [] ∧
      (due (some 1)).ticksDue.pause = true ∧ (due (some 1)).pause = some 1 ∧ (due (some 1)).asm.words ≠ [] ∧
      (due (some 2)).pause = some 2 ∧ oneOpen.ticksDue.pause = false := by decide

theorem test_meets_DeleteInOpenSegment :
    oneOpen.takesRecords ∧ oneOpen.port.replacement = none ∧ oneOpen.port.wstate ≠ .absent ∧
      1 ≤ (1#8).toNat ∧ (1#8).toNat ≤ oneOpen.asm.history.length ∧
      lastN 1 oneOpen.asm.history = [⟨text 4, oneOpen.clock.count - 75#32, .opened 0⟩] := by decide

/-- A writer with words of a segment in the history, and the segment queued or sent. -/
def corrected (place : Nat → Place) (n : Nat) (l : Line → Line) (window : List WindowRecord) : State :=
  let s := withLine l (writer .onAir (.held 0))
  { s with asm := { s.asm with
      history := (List.range n).map fun j => ⟨text 4, 0#32, place j⟩, window := window } }

theorem test_meets_CorrectionsInClosedSegments :
    let g : QueuedSegment := ⟨7#8, false, [spoken 4 0#32, spoken 4 0#32]⟩
    let h : QueuedSegment := ⟨6#8, false, [spoken 4 0#32]⟩
    let queued := corrected (.queued 7#8) 2 (fun l => { l with segQ := [h, g] }) []
    let contended := corrected (.queued 7#8) 2 (fun l => { l with segQ := [g], arb := some .segment }) []
    let sent := corrected (.sent 7#8) 2 id [⟨6#8, 1⟩, ⟨7#8, 20⟩, ⟨8#8, 1⟩]
    let busy := withLine (fun l => { l with amendQ := List.replicate 4 ⟨0#8, 0#8, .delete 1#8⟩ }) sent
    let waits := fun s : State =>
      { s with port := { s.port with replacement := some ⟨2, 4, List.replicate 3 (text 32)⟩ } }
    (∀ s ∈ [queued, contended, sent, busy, waits queued, waits sent],
      s.takesRecords ∧ s.port.wstate ≠ .absent) ∧
      (∀ e ∈ lastN (2#8).toNat queued.asm.history, e.place = .queued 7#8 0 ∨ e.place = .queued 7#8 1) ∧
      (∀ e ∈ lastN (2#8).toNat sent.asm.history, e.place = .sent 7#8 0 ∨ e.place = .sent 7#8 1) ∧
      queued.line.segQ = [h] ++ g :: [] ∧ contended.line.segQ = [] ++ g :: [] ∧
      contended.line.arb = some .segment ∧ (1#8).toNat < g.words.length ∧ g.words.length ≤ (2#8).toNat ∧
      queued.asm.drain ≠ .draining ∧ sent.asm.window = [⟨6#8, 1⟩] ++ ⟨7#8, 20⟩ :: [⟨8#8, 1⟩] ∧
      20 - (1#8).toNat = 19 ∧ sent.line.amendQ.length < 4 ∧ busy.line.amendQ.length = 4 ∧
      4 ≤ sent.cfg.maxBody ∧ (corrected (.sent 7#8) 2 id [⟨6#8, 1⟩]).asm.window = [⟨6#8, 1⟩] ∧
      (waits queued).asm.history = [] ++ ⟨text 4, 0#32, .queued 7#8 0⟩ :: [⟨text 4, 0#32, .queued 7#8 1⟩] ∧
      (waits sent).asm.history = [] ++ ⟨text 4, 0#32, .sent 7#8 0⟩ :: [⟨text 4, 0#32, .sent 7#8 1⟩] ∧
      charCount ([text 1, text 1, text 1, text 32] ++ [text 4]) ≤ queued.cfg.hardLimit ∧
      4 + (([text 32, text 32, text 32] ++ [text 32]).map fun x => x.length + 1).sum ≤ sent.cfg.maxBody ∧
      queued.cfg.hardLimit < charCount (([text 32, text 32, text 32] ++ [text 32]) ++ [text 4]) := by
  decide

/-- A history entry of a word of four characters in a place. -/
def entry (p : Place) : HistoryEntry := ⟨text 4, 0#32, p⟩

/-- The groups of a DELETE: one open word, two words of queued segment 7, one of sent segment 5, two of sent
segment 6. -/
def openGroup : Place × List HistoryEntry := (.opened 0, [entry (.opened 0)])
def queuedGroup : Place × List HistoryEntry := (.queued 7#8 0, [entry (.queued 7#8 0), entry (.queued 7#8 1)])
def sentGroup : Place × List HistoryEntry := (.sent 5#8 0, [entry (.sent 5#8 0)])
def sentPair : Place × List HistoryEntry := (.sent 6#8 0, [entry (.sent 6#8 0), entry (.sent 6#8 1)])

/-- A writer whose newest words are those of the groups. -/
def grouped (gs : List (Place × List HistoryEntry)) (l : Line) (w : List WindowRecord) : State :=
  { writer .onAir (.held 0) with
    line := l
    asm := { Assembler.initial with
      words := if gs.head? = some openGroup then [⟨text 4, 0#32, 0#32⟩] else []
      history := entry (.sent 4#8 0) :: gs.reverse.flatMap (·.2), window := w } }

/-- A line with segment 7 queued, and one with a full amend queue. -/
def sevenQueued : Line :=
  { Line.initial with footing := true, segQ := [⟨7#8, false, [spoken 4 0#32, spoken 4 0#32]⟩] }
def fullAmends : Line :=
  { Line.initial with footing := true, amendQ := List.replicate 4 ⟨0#8, 0#8, .delete 1#8⟩ }

/-- A DELETE over an open, a queued and a sent segment; over a queued one under arbitration and a sent one; over
two sent ones with a full amend queue; and over an open one and one out of reach. -/
theorem test_meets_CorrectionsInClosedSegments_groups :
    let contends := { sevenQueued with arb := some .segment }
    (∀ x ∈ [([openGroup, queuedGroup, sentGroup], 4#8, sevenQueued, [⟨5#8, 20⟩]),
        ([queuedGroup, sentGroup], 3#8, contends, [⟨5#8, 1⟩]),
        ([sentPair, sentGroup], 3#8, fullAmends, [⟨5#8, 1⟩, ⟨6#8, 2⟩]),
        ([openGroup, sentGroup], 2#8, Line.initial, []),
        ([openGroup, sentGroup], (2#8 : Byte), Line.initial, [(⟨5#8, 21⟩ : WindowRecord)])],
      let s := grouped x.1 x.2.2.1 x.2.2.2
      s.takesRecords ∧ s.port.wstate ≠ .absent ∧ s.port.replacement = none ∧
        x.2.1.toNat = (x.1.map (·.2.length)).sum ∧
        s.asm.history = [entry (.sent 4#8 0)] ++ x.1.reverse.flatMap (·.2) ∧
        (∀ g ∈ x.1, g.2 ≠ [] ∧ ∀ h ∈ g.2, h.place.sameGroup g.1 = true) ∧
        (∀ g ∈ x.1.tail, g.1.segment ≠ none ∧ ∀ h ∈ x.1.head?, h.1.sameGroup g.1 = false)) ∧
      queuedGroup.1.sameGroup sentGroup.1 = false ∧
      (grouped [queuedGroup, sentGroup] contends []).line.segmentUnderArb = some 7#8 ∧
      fullAmends.amendQ.length = 4 ∧ [(⟨5#8, 20⟩ : WindowRecord)] = [] ++ ⟨5#8, 20⟩ :: [] ∧
      20 - sentGroup.2.length = 19 ∧ 21 - sentGroup.2.length = 20 ∧ (1#8).toNat = openGroup.2.length ∧
      (3#8).toNat = ([queuedGroup, sentGroup].map (·.2.length)).sum ∧
      (2#8).toNat = sentPair.2.length ∧ (1#8).toNat = sentGroup.2.length := by decide

theorem test_meets_RecordsRefused :
    let idle := writer .idle .vacant
    let gone := station .writer .vacant
    idle.takesRecords ∧ idle.port.replacement = none ∧ plainText (text 33) = true ∧
      idle.port.wstate.takesWords = false ∧ (text 32).length ≤ 32 ∧ 32 < (text 33).length ∧
      gone.takesRecords ∧ gone.port.wstate = .absent ∧ idle.port.wstate ≠ .absent ∧
      idle.asm.history.length < (1#8).toNat ∧ (8#8).toNat ≤ 8 ∧ (4#8).toNat ≤ 4 := by decide

/-- A writer with one word and a REPLACE that waits for its last word. -/
def replacing : State := after (.repword (text 2)) (after (.replace 1#8 2#8) oneOpen)

theorem test_meets_RecordsRefused_malformed :
    oneOpen.takesRecords ∧ replacing.takesRecords ∧ parseRecord 13#8 [] = none ∧
      partialRecord [9#8, 1#8, 1#8, 2#8, 65#8] = true ∧ partialRecord [1#8, 1#8, 1#8, 65#8] = false ∧
      (station .output .vacant).cfg.role = .output ∧ State.reset.start = .loading := by decide

theorem test_meets_ReplaceCollectsAndApplies :
    let early := after (.replace 1#8 2#8) oneOpen
    oneOpen.takesRecords ∧ oneOpen.port.wstate ≠ .absent ∧ wordText (text 32) = true ∧
      oneOpen.port.replacement = none ∧ early.takesRecords ∧
      early.port.replacement = some ⟨1, 2, []⟩ ∧ replacing.takesRecords ∧
      replacing.port.replacement = some ⟨1, 2, [text 2]⟩ ∧
      replacing.asm.history = [] ++ ⟨text 4, replacing.clock.count - 75#32, .opened 0⟩ :: [] ∧
      replacing.asm.words.map (·.text) = [text 4] ∧
      charCount [text 2, text 32] ≤ replacing.cfg.hardLimit := by decide

/-- Twenty open words whose newest becomes two: one word more than a segment holds. -/
theorem test_meets_ReplaceCollectsAndApplies_split :
    let s := manyOpen 20 (text 1)
    let waits := { s with port := { s.port with replacement := some ⟨1, 2, [text 2]⟩ } }
    waits.takesRecords ∧ waits.port.wstate ≠ .absent ∧
      waits.asm.history = waits.asm.history.take 19 ++ ⟨text 1, 0#32, .opened 19⟩ :: [] ∧
      waits.asm.words[19]? = some ⟨text 1, 0#32, 0#32⟩ ∧ 20 < (waits.asm.words.take 19).length + 2 ∧
      waits.line.segQ.length + 1 ≤ 8 ∧
      (after (.repword (text 2)) waits).line.segQ.map (·.words.length) = [20] ∧
      (after (.repword (text 2)) waits).asm.words.map (·.text) = [text 2] := by decide

theorem test_meets_ReadyAndUnready :
    let gone := station .writer .vacant
    let onAir := writer .onAir (.held 0)
    gone.takesRecords ∧ gone.port.replacement = none ∧ gone.port.ready = false ∧
      gone.port.wstate = .absent ∧ gone.noRequest ∧ gone.port.splitIdle = false ∧
      gone.cfg.autoClaim = false ∧ gone.start = .running ∧ gone.floor.view = .vacant ∧
      (let s := { gone with cfg := { gone.cfg with autoClaim := true } }
       s.cfg.autoClaim = true ∧ s.takesRecords ∧ s.noRequest ∧ s.port.wstate = .absent) ∧ onAir.takesRecords ∧ onAir.port.ready = true ∧ onAir.noRequest ∧
      onAir.line.arb = none ∧ onAir.line.inFlight = none := by decide

theorem test_meets_FloorRequestsDecided :
    let s := writer .idle
    let a := writer .onAir (.held 0)
    (s .vacant).takesRecords ∧ (s .vacant).port.replacement = none ∧ (s .vacant).start = .running ∧
      (s .vacant).pendingRequest = none ∧ (s .vacant).port.ready = true ∧ (s .vacant).port.wstate = .idle ∧
      (s (.offered 1 (.station 0))).pendingRequest = none ∧ (s (.offered 1 (.station 2))).pendingRequest = none ∧
      (s (.held 1)).pendingRequest = none ∧ a.port.wstate ≠ .idle ∧
      a.takesRecords ∧ a.pendingRequest = none ∧ byteSuccessor 15#8 = some .any ∧
      byteSuccessor 7#8 = some (.station 7) ∧ byteSuccessor 0#8 = some (.station a.number) ∧
      (a.peer 7).present = false ∧ a.workState = a.port.wstate ∧ a.port.wstate = .onAir ∧
      (writer .offering (.offered 0 .any)).workState = .offering ∧
      (writer .idle .vacant).workState = .idle ∧
      (flying .claim .idle .vacant).pendingRequest = none ∧ (flying .claim .idle .vacant).port.wstate = .idle := by decide

theorem test_meets_PendingRequestAborted :
    let asks := fun q a d w v =>
      let s := withLine (fun l => { l with floorQ := q, arb := a }) (writer w v)
      { s with asm := { s.asm with drain := d } }
    let claiming := asks (some .claim) none .idle .claiming .vacant
    let draining := asks none none .draining .draining (.overlap 0 1)
    let offering := asks (some (.offer .any)) none .idle .onAir (.held 0)
    let waits := asks (some .claim) (some .floor) .idle .claiming .vacant
    byteSuccessor 15#8 = some .any ∧ listened.takesRecords ∧ listened.start ≠ .running ∧
      waits.takesRecords ∧ waits.line.arb = some .floor ∧ waits.line.floorQ ≠ none ∧
      (∀ s ∈ [claiming, draining, offering],
        s.takesRecords ∧ s.port.replacement = none ∧ s.start = .running ∧ s.line.arb ≠ some .floor ∧
          s.line.floorInFlight = false ∧ s.port.leaves = [] ∧ s.port.ready = true ∧
          s.port.splitIdle = false ∧ (s.port.wstate.sending = true →
            (s.floor.view.writerState s.number).sending = true)) ∧
      claiming.floor.view.right claiming.number = false ∧ draining.floor.view.right draining.number = true ∧
      draining.asm.drain = .draining ∧ draining.floor.view.writerState draining.number = .outgoing := by
  decide

/-- An outgoing writer with a queued segment. -/
def outgoing : State :=
  withLine (fun l => { l with segQ := [⟨0#8, false, [spoken 1 0#32]⟩] }) (writer .outgoing (.overlap 0 1))

theorem test_meets_DrainAndLeave :
    let d := { writer .draining (.overlap 0 1) with asm := { Assembler.initial with drain := .draining } }
    outgoing.takesRecords ∧ outgoing.port.replacement = none ∧ outgoing.start = .running ∧
      outgoing.noRequest ∧ outgoing.port.ready = true ∧ outgoing.port.splitIdle = false ∧
      outgoing.line.inFlight = none ∧ outgoing.port.wstate = .outgoing ∧ outgoing.asm.words = [] ∧
      outgoing.line.segQ ≠ [] ∧ d.asm.drain = .draining ∧ d.line.segQ = [] ∧
      d.line.segmentInFlight = false ∧ oneOpen.takesRecords ∧ oneOpen.port.replacement = none ∧
      oneOpen.start = .running ∧ oneOpen.noRequest ∧ oneOpen.port.ready = true ∧
      oneOpen.port.wstate = .onAir ∧ oneOpen.floor.view = .held oneOpen.number ∧
      oneOpen.line.arb = none ∧ oneOpen.line.inFlight = none := by decide

theorem test_meets_DrainAndLeave_states :
    let words := after (.word (text 4)) outgoing
    let own := withLine (fun l => { l with segQ := [] })
      (flying (.segment (body 0#8 true 0#16 [⟨0#8, text 1⟩])) .outgoing (.overlap 0 1))
    let free : State → Prop := fun s =>
      s.takesRecords ∧ s.port.replacement = none ∧ s.start = .running ∧ s.pendingRequest = none
    free words ∧ words.port.wstate = .outgoing ∧ words.asm.words ≠ [] ∧
      free (writer .outgoing (.overlap 0 1)) ∧ (writer .outgoing (.overlap 0 1)).noRequest ∧
      (writer .outgoing (.overlap 0 1)).line.segQ = [] ∧
      (writer .outgoing (.overlap 0 1)).line.segmentInFlight = false ∧
      free own ∧ own.line.segQ = [] ∧ own.line.segmentInFlight = true ∧ own.asm.words = [] ∧
      free (writer .offering (.offered 0 .any)) ∧ free (writer .idle (.held 1)) ∧
      free (writer .incoming (.overlap 1 0)) ∧
      (writer .incoming (.overlap 1 0)).floor.view.right 0 = true ∧
      (writer .incoming (.overlap 1 0)).line.floorInFlight = false ∧
      (let left := flying .claim .idle .vacant
       let again := { left with port := { left.port with leaves := [false] } }
       again.takesRecords ∧ again.line.floorInFlight = true ∧ again.line.arb = none) ∧
      (writer .idle (.held 1)).floor.view.right 0 = false ∧ (writer .idle (.held 1)).port.leaves = [] ∧
      (writer .idle (.held 1)).asm.drain = .idle ∧ (writer .idle (.held 1)).line.segQ = [] := by decide

/-- Corrections, requests and records that wait for an arbitration field, and the withdrawal held for one. -/
theorem test_meets_ForeignWinCountsAgainstBeat_held :
    let g : QueuedSegment := ⟨1#8, false, [spoken 4 0#32, spoken 4 0#32]⟩
    let k : QueuedSegment := ⟨2#8, false, [spoken 4 0#32]⟩
    let s := corrected (.queued 1#8) 2 (fun l => { l with arb := some .segment, segQ := [g, k] }) []
    let w := { s with port := { s.port with replacement := some ⟨1, 1, []⟩ } }
    let held : Instr → State → Prop := fun c s => s.line.held = [] ∧ (after c s).line.held ≠ []
    let due := fun s : State => contending .floor
      { s with overlap := some 1, ticksDue := ⟨false, false, true⟩ }
    let asks := contending .floor (withLine (fun l => { l with floorQ := some .claim }) (writer .claiming .vacant))
    let waits := after .floorTake asks
    s.line.arb = some .segment ∧ held (.delete 1#8) s ∧ held (.delete 2#8) s ∧ held (.repword (text 2)) w ∧
      (∀ e ∈ s.asm.history, e.place = .queued 1#8 0 ∨ e.place = .queued 1#8 1) ∧
      asks.line.arb = some .floor ∧ asks.line.floorQ ≠ none ∧
      (∀ c ∈ [Instr.floorTake, .floorHand 15#8, .floorDone, .floorLeave, .unready], held c asks) ∧
      (after .unready asks).port.wstate = .absent ∧
      held (.peerAgeOut 0) (contending .floor (aged .idle (.offered 0 .any) (some .yield) .idle)) ∧
      held .overlapTimerExpiry
        (due (withLine (fun l => { l with floorQ := some .release }) (writer .draining (.overlap 0 1)))) ∧
      waits.line.arb ≠ none ∧ waits.line.held.any HeldWork.busiesPort = true ∧ waits.portTakes = true ∧
      s.portTakes = true ∧ s.start = .running ∧ s.pendingRequest = none ∧ s.port.ready = true ∧
      s.line.held = [] ∧ s.line.segQ = g :: [k] ∧
      (∀ c ∈ [Instr.floorLeave, .unready],
        (after c s).line.held.any HeldWork.busiesPort = true ∧ (after c s).portTakes = true) ∧
      (∀ byRecord ∈ [true, false],
        let d := withLine (fun l => { l with held := [.withdrawSegment 1#8 byRecord] }) s
        d.line.arb = some .segment ∧ d.line.held = [.withdrawSegment g.number byRecord] ∧
          d.line.segQ = g :: [k] ∧ k.number ≠ g.number ∧ d.asm.drain ≠ .draining) := by decide

theorem test_meets_NoticeQueueOrder :
    let outcomes : WriterPort := { WriterPort.initial with
      sending := some (.refuse .tooOld), notices := List.replicate 8 (.outcome .granted) }
    fullQueues.port.sending = some (.state .absent) ∧ fullQueues.port.notices.length = 8 ∧
      fullQueues.port.notices = [] ++ .state .idle :: List.replicate 7 (.state .idle) ∧
      outcomes.notices.length = 8 ∧ (∀ x ∈ outcomes.notices, x.isState = false) ∧
      State.reset.port.sending = none := by decide

/-! ### The supervisory port -/

theorem test_meets_SupervisoryWrites :
    State.reset.resetHeld = false ∧ (4#8 : Byte) = Table.hold.code ∧ 5 ≤ (5#8).toNat ∧
      heldInReset.resetHeld = true ∧ 5 < (6#8).toNat ∧ (station .both .vacant).resetHeld = false := by decide

theorem test_meets_SupervisoryReads :
    let s := fun r i => { station .output .vacant with sup := ⟨r, .peer, i, [], true⟩ }
    (s .status 0).resetHeld = false ∧ (s .status 0).sup.select = .status ∧
      (s .window 7).sup.select = .window ∧ (s .window 7).start ≠ .loading ∧
      (s .window 7).sup.index = 7 ∧ (s .window 8).sup.index = 8 ∧ (s .config 0).sup.select = .config ∧
      ({ State.reset with sup := ⟨.window, .peer, 0, [], true⟩ } : State).start = .loading := by decide

/-- The last record and the end of each table, by the tables' lengths at an OUTPUT and at a WRITER station. -/
theorem test_meets_SupervisoryReads_tables :
    let full : State := { fullHold with
      sched := fullSchedule, screen := { Screen.initial with visible := [⟨0, text 5, ⟨false, false, false⟩, 24⟩] } }
    (∀ t ∈ [(Table.peer, 8), (.counters, 13), (.schedule, 64), (.visible, 1), (.hold, 6)], ∀ i ∈ [t.2 - 1, t.2],
      let s : State := { full with sup := ⟨.window, t.1, i, [], true⟩ }
      s.resetHeld = false ∧ s.sup.select = .window ∧ s.start ≠ .loading ∧
        (after (.windowRead 3) s).sup.index = (if i < t.2 then i + 1 else i)) ∧
      full.sched.cues.length = 64 ∧ full.screen.visible.length = 1 ∧ full.intake.hold.length = 6 ∧
      full.cfg.role = .output ∧ (station .writer .vacant).cfg.role = .writer := by decide

end Sys2Proof.Tests
end

/-! # Frame equations, and those of the line's queues and the assembler -/

namespace Sys2Proof.Machine

/-! ## Frame equations

Each frame says which fields an operation can change, as one equation: the state it leaves is the state it was
given with those fields taken from the result. -/

/-- Nothing but the line's queues, the assembler, the pause timer, the flags and the counters differs. -/
def TextFrame (s t : State) : Prop :=
  t = { s with flags := t.flags, pause := t.pause, line := t.line, peers := t.peers, asm := t.asm }

/-- Nothing but what the writer port works on differs: a `TextFrame`, the lamp and the port itself apart. -/
def DeskFrame (s t : State) : Prop :=
  t = { s with
    flags := t.flags, pause := t.pause, tally := t.tally, line := t.line, peers := t.peers, port := t.port
    asm := t.asm }

/-- Nothing but what a change of view reaches differs: a `DeskFrame`, the floor unit with its two timers, intake
and the schedule apart. -/
def ViewFrame (s t : State) : Prop :=
  t = { s with
    flags := t.flags, pause := t.pause, lapse := t.lapse, overlap := t.overlap, tally := t.tally
    line := t.line, peers := t.peers, floor := t.floor, port := t.port, asm := t.asm
    intake := t.intake, sched := t.sched }

/-- Nothing but what the end of a frame reaches differs: a `ViewFrame`, the screen unit apart. -/
def EndFrame (s t : State) : Prop :=
  t = { s with
    flags := t.flags, pause := t.pause, lapse := t.lapse, overlap := t.overlap, tally := t.tally
    line := t.line, peers := t.peers, floor := t.floor, port := t.port, asm := t.asm
    intake := t.intake, sched := t.sched, screen := t.screen }

/-- Nothing but intake, the schedule and the flags differs. -/
def MergeFrame (s t : State) : Prop :=
  t = { s with flags := t.flags, intake := t.intake, sched := t.sched }

/-- Nothing but intake, the schedule, the screen unit and the flags differs. -/
def AmendFrame (s t : State) : Prop :=
  t = { s with flags := t.flags, intake := t.intake, sched := t.sched, screen := t.screen }

/-- Nothing but the schedule, the screen unit, the inserter link and the flags differs. -/
def ScreenFrame (s t : State) : Prop :=
  t = { s with
    flags := t.flags, sched := t.sched, screen := t.screen, link := t.link, screenDue := t.screenDue }

theorem TextFrame.trans {a b c : State} (h : TextFrame a b) (k : TextFrame b c) : TextFrame a c := by
  unfold TextFrame at *; rw [k, h]

theorem TextFrame.after {a b c : State} (k : TextFrame b c) (h : TextFrame a b) : TextFrame a c := h.trans k

theorem DeskFrame.trans {a b c : State} (h : DeskFrame a b) (k : DeskFrame b c) : DeskFrame a c := by
  unfold DeskFrame at *; rw [k, h]

theorem ViewFrame.trans {a b c : State} (h : ViewFrame a b) (k : ViewFrame b c) : ViewFrame a c := by
  unfold ViewFrame at *; rw [k, h]

theorem EndFrame.trans {a b c : State} (h : EndFrame a b) (k : EndFrame b c) : EndFrame a c := by
  unfold EndFrame at *; rw [k, h]

theorem MergeFrame.trans {a b c : State} (h : MergeFrame a b) (k : MergeFrame b c) : MergeFrame a c := by
  unfold MergeFrame at *; rw [k, h]

theorem AmendFrame.trans {a b c : State} (h : AmendFrame a b) (k : AmendFrame b c) : AmendFrame a c := by
  unfold AmendFrame at *; rw [k, h]

theorem ScreenFrame.trans {a b c : State} (h : ScreenFrame a b) (k : ScreenFrame b c) :
    ScreenFrame a c := by
  unfold ScreenFrame at *; rw [k, h]

theorem TextFrame.desk {s t : State} (h : TextFrame s t) : DeskFrame s t := by
  unfold TextFrame at h; unfold DeskFrame; rw [h]

theorem DeskFrame.view {s t : State} (h : DeskFrame s t) : ViewFrame s t := by
  unfold DeskFrame at h; unfold ViewFrame; rw [h]

theorem MergeFrame.view {s t : State} (h : MergeFrame s t) : ViewFrame s t := by
  unfold MergeFrame at h; unfold ViewFrame; rw [h]

theorem ViewFrame.ends {s t : State} (h : ViewFrame s t) : EndFrame s t := by
  unfold ViewFrame at h; unfold EndFrame; rw [h]

theorem MergeFrame.amend {s t : State} (h : MergeFrame s t) : AmendFrame s t := by
  unfold MergeFrame at h; unfold AmendFrame; rw [h]

theorem AmendFrame.ends {s t : State} (h : AmendFrame s t) : EndFrame s t := by
  unfold AmendFrame at h; unfold EndFrame; rw [h]

theorem TextFrame.refl (s : State) : TextFrame s s := rfl
theorem DeskFrame.refl (s : State) : DeskFrame s s := rfl
theorem ViewFrame.refl (s : State) : ViewFrame s s := rfl

/-! ### The line's queues and the assembler -/

theorem countDrops_textFrame (n : Nat) (s : State) : TextFrame s (s.countDrops n) := by
  unfold State.countDrops; split <;> rfl

theorem discardOpen_textFrame (s : State) : TextFrame s s.discardOpen := by
  unfold State.discardOpen
  split
  · rfl
  · exact (countDrops_textFrame 1 _).after rfl

theorem withdrawSegments_textFrame (byRecord : Bool) (s : State) :
    TextFrame s (s.withdrawSegments byRecord) := by
  unfold State.withdrawSegments
  split <;> exact (countDrops_textFrame _ _).after rfl

theorem loseRight_textFrame (s : State) : TextFrame s s.loseRight := by
  have mark : TextFrame s.discardOpen { s.discardOpen with asm.newSpeaker := false } := rfl
  have idle (u : State) : TextFrame u { u with asm.drain := .idle } := rfl
  exact (idle _).after ((withdrawSegments_textFrame false _).after (mark.after (discardOpen_textFrame s)))

theorem checkDrain_textFrame (s : State) : TextFrame s s.checkDrain := by
  unfold State.checkDrain; split <;> rfl

theorem withdrawRequest_textFrame (s : State) : TextFrame s s.withdrawRequest := by
  unfold State.withdrawRequest; split <;> rfl

end Sys2Proof.Machine

/-! # The frames of the writer port -/

namespace Sys2Proof.Machine

/-! ### The writer port -/

theorem DeskFrame.after {a b c : State} (k : DeskFrame b c) (h : DeskFrame a b) : DeskFrame a c := h.trans k

theorem depositFloor_deskFrame (f : FloorFrame) (s : State) : DeskFrame s (s.depositFloor f) := rfl
theorem answerAborted_deskFrame (s : State) : DeskFrame s s.answerAborted := rfl

theorem changeWriterState_deskFrame (w : WriterState) (s : State) :
    DeskFrame s (s.changeWriterState w) := by
  have told : DeskFrame s ((State.notify (.state w) { s with port.wstate := w }).requestTally w.pattern) := rfl
  unfold State.changeWriterState
  simp only
  split
  · exact (loseRight_textFrame _).desk.after told
  · exact told

theorem workOut_deskFrame (s : State) : DeskFrame s s.workOut := by
  unfold State.workOut
  split
  · exact .refl s
  · exact changeWriterState_deskFrame _ s

theorem takeFloor_deskFrame (s : State) : DeskFrame s s.takeFloor := by
  have claim (f : FloorFrame) : DeskFrame s (s.depositFloor f).workOut :=
    (workOut_deskFrame _).after (depositFloor_deskFrame f s)
  unfold State.takeFloor
  split
  · rfl
  · split
    · exact claim _
    · split
      · exact claim _
      · rfl
    · rfl

theorem autoClaim_deskFrame (s : State) : DeskFrame s s.autoClaim := by
  unfold State.autoClaim
  split
  · exact takeFloor_deskFrame s
  · exact .refl s

theorem abortPending_deskFrame (s : State) : DeskFrame s s.abortPending.1 := by
  have told (u : State) (h : DeskFrame s u) : DeskFrame s u.answerAborted.workOut :=
    (workOut_deskFrame _).after ((answerAborted_deskFrame u).after h)
  unfold State.abortPending
  split
  · unfold State.abortRequest
    refine told _ ?_
    split <;> rfl
  · exact .refl s

theorem decideLeave_deskFrame (ab idle : Bool) (s : State) : DeskFrame s (s.decideLeave ab idle) := by
  unfold State.decideLeave
  split
  · rfl
  · split
    · exact (depositFloor_deskFrame _ _).after (abortPending_deskFrame s)
    · split
      · exact .refl s
      · split <;> rfl

theorem decideLeaves_deskFrame (s : State) : DeskFrame s s.decideLeaves := by
  have fold (ls : List Bool) (u : State) (h : DeskFrame s u) :
      DeskFrame s (ls.foldl (fun s ab => s.decideLeave ab false) u) := by
    induction ls generalizing u with
    | nil => exact h
    | cons ab ls ih => exact ih _ ((decideLeave_deskFrame ab false u).after h)
  exact fold _ _ rfl

/-- Nothing but the notices, the flags and the mark of a split's IDLE differs. -/
def TellFrame (s t : State) : Prop :=
  t = { s with
    flags := t.flags
    port := { s.port with
      sending := t.port.sending, notices := t.port.notices, splitIdle := t.port.splitIdle } }

theorem TellFrame.after {a b c : State} (k : TellFrame b c) (h : TellFrame a b) : TellFrame a c := by
  unfold TellFrame at *; rw [k, h]

theorem TellFrame.desk {s t : State} (h : TellFrame s t) : DeskFrame s t := by
  unfold TellFrame at h; unfold DeskFrame; rw [h]

theorem enqueue_rest (n : Notice) (p : WriterPort) :
    p.enqueue n = { p with sending := (p.enqueue n).sending, notices := (p.enqueue n).notices } := by
  unfold WriterPort.enqueue; split <;> rfl

theorem notify_tellFrame (n : Notice) (s : State) : TellFrame s (s.notify n) := by
  unfold TellFrame State.notify
  rw [enqueue_rest]

theorem answer_tellFrame (o : Answer) (s : State) : TellFrame s (s.answer o) := notify_tellFrame _ s

theorem answerAborted_tellFrame (s : State) : TellFrame s s.answerAborted := by
  have raised : TellFrame (s.answer .aborted) ((s.answer .aborted).raise .wrAborted) := rfl
  exact raised.after (answer_tellFrame _ s)

theorem withdrawRequest_splitIdle (b : Bool) (s : State) :
    ({ s with port.splitIdle := b } : State).withdrawRequest =
      { s.withdrawRequest with port.splitIdle := b } := by
  have same : ({ s with port.splitIdle := b } : State).pendingRequest = s.pendingRequest := rfl
  unfold State.withdrawRequest
  rw [same]
  cases s.pendingRequest with
  | none => rfl
  | some p =>
    cases p with
    | drain => rfl
    | frame f => cases f <;> rfl

/-- What the port answers to a change of view: the request pending stands or is withdrawn, and nothing else is
touched but the notices (R86, R88, R90, R92, R93). -/
theorem answerView_cases (old new : View) (cause : ViewCause) (s : State) :
    TellFrame s (s.answerView old new cause) ∨
      s.viewAnswer old new cause ≠ .stands ∧ TellFrame s.withdrawRequest (s.answerView old new cause) := by
  have mark (b : Bool) (u : State) : TellFrame u { u with port.splitIdle := b } := rfl
  have withdrawn (b : Bool) :
      TellFrame s.withdrawRequest ({ s with port.splitIdle := b } : State).withdrawRequest := by
    rw [withdrawRequest_splitIdle b s]
    exact mark b s.withdrawRequest
  have lapsed (P : State → Prop) (hP : ∀ u n, P u → P (u.answer n)) (u : State) (hu : P u) :
      P (if cause = .lapse ∧ old.heldBy u.number then u.answer .lapsed else u) := by
    split
    · exact hP _ _ hu
    · exact hu
  have told (P : State → Prop) (hP : ∀ u n, P u → P (u.answer n)) (lost : Bool) (u : State) (hu : P u) :
      P (let v := if lost then u.answer .lostFloor else u
        if cause = .lapse ∧ old.heldBy v.number then v.answer .lapsed else v) := by
    refine lapsed P hP _ ?_
    split
    · exact hP _ _ hu
    · exact hu
  have tell (b u : State) (n : Answer) (h : TellFrame b u) : TellFrame b (u.answer n) :=
    (answer_tellFrame n u).after h
  unfold State.answerView
  cases ha : s.viewAnswer old new cause with
  | stands => exact .inl (told _ (tell s) _ _ (mark _ s))
  | withdrawn o =>
    refine .inr ⟨by simp, told _ (tell _) _ _ ?_⟩
    cases o with
    | aborted => exact (answerAborted_tellFrame _).after (withdrawn _)
    | _ => exact (answer_tellFrame _ _).after (withdrawn _)

theorem answerView_deskFrame (old new : View) (cause : ViewCause) (s : State) :
    DeskFrame s (s.answerView old new cause) := by
  obtain h | ⟨-, h⟩ := answerView_cases old new cause s
  · exact h.desk
  · exact h.desk.after (withdrawRequest_textFrame s).desk

theorem reactToView_deskFrame (old new : View) (cause : ViewCause) (s : State) :
    DeskFrame s (s.reactToView old new cause) := by
  have h := (workOut_deskFrame _).after (answerView_deskFrame old new cause s)
  unfold State.reactToView
  simp only
  split
  · exact (autoClaim_deskFrame _).after h
  · exact h

theorem portView_deskFrame (old new : View) (cause : ViewCause) (s : State) :
    DeskFrame s (s.portView old new cause) := by
  unfold State.portView
  split
  · exact .refl s
  · split
    · rfl
    · exact reactToView_deskFrame old new cause s

/-- The answer to an own frame's end ends the drain of a RELEASE and touches nothing else but the notices. -/
theorem answerEnd_cases (b : FrameBody) (s : State) :
    TellFrame s (s.answerEnd b) ∨ TellFrame { s with asm.drain := .idle } (s.answerEnd b) := by
  cases b with
  | release p m => exact .inr (answer_tellFrame _ _)
  | amend _ => exact .inl rfl
  | segment _ => exact .inl rfl
  | beat _ => exact .inl rfl
  | _ => exact .inl (answer_tellFrame _ s)

theorem answerEnd_deskFrame (b : FrameBody) (s : State) : DeskFrame s (s.answerEnd b) := by
  obtain h | h := answerEnd_cases b s
  · exact h.desk
  · exact h.desk.after rfl

theorem endReport_deskFrame (f : InFlight) (before : View) (s : State) :
    DeskFrame s (s.endReport f before) := by
  have landed : DeskFrame s { s with line.inFlight := none } := rfl
  unfold State.endReport
  generalize ({ s with line.inFlight := none } : State) = u at landed
  simp only
  split
  · exact landed
  · refine (checkDrain_textFrame _).desk.after ((workOut_deskFrame _).after
      ((decideLeaves_deskFrame _).after ?_))
    have ended := (answerEnd_deskFrame f.body u).after landed
    split
    · exact ended
    · exact (answerView_deskFrame _ _ _ _).after ended

end Sys2Proof.Machine

/-! # The frames of intake, and what a merge leaves -/

namespace Sys2Proof.Machine

/-! ### Intake -/

theorem MergeFrame.refl (s : State) : MergeFrame s s := rfl
theorem MergeFrame.after {a b c : State} (k : MergeFrame b c) (h : MergeFrame a b) : MergeFrame a c := h.trans k
theorem MergeFrame.cfg {s t : State} (h : MergeFrame s t) : t.cfg = s.cfg := by
  unfold MergeFrame at h; rw [h]
theorem MergeFrame.clock {s t : State} (h : MergeFrame s t) : t.clock = s.clock := by
  unfold MergeFrame at h; rw [h]
theorem MergeFrame.screen {s t : State} (h : MergeFrame s t) : t.screen = s.screen := by
  unfold MergeFrame at h; rw [h]

theorem goOn_mergeFrame (trimmed : Bool) (g : HeldSegment) (s : State) : MergeFrame s (s.goOn trimmed g) := rfl

theorem trimAndGo_mergeFrame (P : Frame) (emptied : State → State) (g : HeldSegment) (s : State)
    (h : ∀ u, MergeFrame u (emptied u)) : MergeFrame s (s.trimAndGo P emptied g) := by
  unfold State.trimAndGo
  simp only
  split
  · exact (h _).after rfl
  · exact (goOn_mergeFrame _ _ _).after rfl

theorem mergeHeld_mergeFrame (P : Option Frame) (s : State) (g : HeldSegment) :
    MergeFrame s (s.mergeHeld P g) := by
  cases P with
  | none => exact goOn_mergeFrame _ _ s
  | some P =>
    exact trimAndGo_mergeFrame P
      (fun u => { u with intake.emptied := rise u.intake.emptied 1 }) g s fun _ => rfl

theorem takeHolder_mergeFrame (g : HeldSegment) (s : State) : MergeFrame s (s.takeHolder g) := by
  unfold State.takeHolder
  split
  · exact goOn_mergeFrame _ _ s
  · split
    · exact goOn_mergeFrame _ _ s
    · split
      · exact (goOn_mergeFrame _ _ _).after rfl
      · exact trimAndGo_mergeFrame _ _ _ s fun _ => .refl _

theorem holdOverflow_mergeFrame (s : State) : MergeFrame s s.holdOverflow := by
  unfold State.holdOverflow
  split
  · exact .refl s
  · exact (mergeHeld_mergeFrame _ _ _).after rfl

theorem takeIncoming_mergeFrame (g : HeldSegment) (s : State) : MergeFrame s (s.takeIncoming g) := by
  have joins (u : State) (h : MergeFrame s u) :
      MergeFrame s { u with intake.hold := u.intake.hold ++ [g] } := h.trans rfl
  refine joins _ ?_
  split
  · exact .refl s
  · exact holdOverflow_mergeFrame s

theorem takeSegment_mergeFrame (x : Station) (b : SegmentBody) (m : Mark) (s : State) :
    MergeFrame s (s.takeSegment x b m) := by
  cases m with
  | holder => exact (takeHolder_mergeFrame _ _).after rfl
  | outgoing => exact (goOn_mergeFrame _ _ _).after rfl
  | incoming => exact takeIncoming_mergeFrame _ s

theorem mergeAll_mergeFrame (P : Option Frame) (s : State) : MergeFrame s (s.mergeAll P) := by
  have fold (gs : List HeldSegment) (u : State) (h : MergeFrame s u) :
      MergeFrame s (gs.foldl (fun s g => s.mergeHeld P g) u) := by
    induction gs generalizing u with
    | nil => exact h
    | cons g gs ih => exact ih _ ((mergeHeld_mergeFrame P u g).after h)
  exact fold _ _ rfl

theorem takeIntakeEvent_mergeFrame (s : State) (e : IntakeEvent) : MergeFrame s (s.takeIntakeEvent e) := by
  cases e with
  | opened h => rfl
  | releaseMerge h t p =>
    have arms (P u : _) : MergeFrame u (State.arm P t u) := rfl
    exact (arms _ _).after (mergeAll_mergeFrame _ s)
  | fallbackMerge h t =>
    have arms (P u : _) : MergeFrame u (State.arm P t u) := rfl
    exact (arms _ _).after (mergeAll_mergeFrame _ s)
  | discard => rfl

theorem tellIntake_mergeFrame (old new : View) (cause : ViewCause) (s : State) :
    MergeFrame s (s.tellIntake old new cause) := by
  have fold (es : List IntakeEvent) (u : State) (h : MergeFrame s u) :
      MergeFrame s (es.foldl State.takeIntakeEvent u) := by
    induction es generalizing u with
    | nil => exact h
    | cons e es ih => exact ih _ ((takeIntakeEvent_mergeFrame u e).after h)
  unfold State.tellIntake
  split
  · exact fold _ s (.refl s)
  · exact .refl s

/-! ### Merges (R117 to R119) -/

theorem rise_zero (c : Counter) : rise c 0 = c := by
  have := c.isLt
  apply BitVec.eq_of_toNat_eq
  simp [rise]; omega

theorem rise_rise (c : Counter) (a b : Nat) : rise (rise c a) b = rise c (a + b) := by
  have := c.isLt
  apply BitVec.eq_of_toNat_eq
  simp [rise]; omega

theorem placeAll_append (env : TimingEnv) (now : Frame) (as bs : List NewCue) (h : Schedule) :
    (h.placeAll env now (as ++ bs)).1 = ((h.placeAll env now as).1.placeAll env now bs).1 := by
  induction as generalizing h with
  | nil => rfl
  | cons a as ih => exact ih _

/-- Some held segments merged one after another: their words that stay are placed, and the removed words and the
emptied segments counted (R117 to R119). -/
structure Merges (P : Option Frame) (gs : List HeldSegment) (s t : State) : Prop where
  frame : MergeFrame s t
  sched : t.sched = s.placed (gs.flatMap fun g => s.cuesOf g (s.keptWords P g))
  intake : t.intake = { s.intake with
    armed := t.intake.armed
    trimmed := rise s.intake.trimmed (gs.map fun g => g.words.length - (s.keptWords P g).length).sum
    emptied := if P = none then s.intake.emptied
      else rise s.intake.emptied (gs.countP fun g => (s.keptWords P g).isEmpty) }

theorem Merges.refl (P : Option Frame) (s : State) : Merges P [] s s :=
  ⟨.refl s, rfl, by simp [rise_zero]⟩

theorem Merges.trans {P : Option Frame} {gs ks : List HeldSegment} {a b c : State} (h : Merges P gs a b)
    (k : Merges P ks b c) : Merges P (gs ++ ks) a c := by
  have hkept : b.keptWords P = a.keptWords P := by unfold State.keptWords; rw [h.frame.cfg]
  have hcues : b.cuesOf = a.cuesOf := by unfold State.cuesOf; rw [h.frame.cfg]
  refine ⟨k.frame.after h.frame, ?_, ?_⟩
  · rw [k.sched, hkept, hcues]
    unfold State.placed
    rw [h.frame.cfg, h.frame.clock, h.frame.screen, h.sched, List.flatMap_append, placeAll_append]
    rfl
  · rw [k.intake, hkept, h.intake]
    simp only [rise_rise, List.map_append, List.sum_append, List.countP_append]
    split <;> simp [rise_rise]

theorem keptWords_length_le (P : Option Frame) (g : HeldSegment) (s : State) :
    (s.keptWords P g).length ≤ g.words.length := List.length_filter_le _ _

theorem keptWords_none (g : HeldSegment) (s : State) : s.keptWords none g = g.words :=
  List.filter_eq_self.mpr fun _ _ => rfl

/-- The cues that a held segment's remaining words give are those of the segment with these words alone. -/
theorem cuesOf_eq (g : HeldSegment) (ws : List TimedWord) (s : State) :
    s.cuesOf g ws =
      HeldSegment.cues s.cfg.rowWidth (decide (g.words.length - ws.length ≠ 0 ∨ g.words.length < ws.length))
        { g with words := ws } := by
  have same : (ws.length ≠ g.words.length) = (g.words.length - ws.length ≠ 0 ∨ g.words.length < ws.length) := by
    apply propext; omega
  unfold State.cuesOf HeldSegment.cues
  simp only [same]

theorem mergeHeld_merges (P : Option Frame) (g : HeldSegment) (s : State) :
    Merges P [g] s (s.mergeHeld P g) := by
  have frame := mergeHeld_mergeFrame P s g
  cases P with
  | none =>
    refine ⟨frame, ?_, ?_⟩
    · simp only [List.flatMap_singleton, keptWords_none, cuesOf_eq]
      simp [State.mergeHeld, State.goOn, State.placeCues, State.placed, State.timingEnv]
    · simp [State.mergeHeld, State.goOn, State.placeCues, keptWords_none, rise_zero]
  | some P =>
    have kept : g.words.filter (survives s.cfg.trimMargin P) = s.keptWords (some P) g := rfl
    have le := keptWords_length_le (some P) g s
    unfold State.mergeHeld State.trimAndGo at *
    simp only [kept] at frame ⊢
    split
    · rename_i he
      refine ⟨by simpa [he] using frame, ?_, ?_⟩
      · rw [List.isEmpty_iff] at he
        simp [he, State.cuesOf, breakRows, buildRows, closeRow, State.placed, Schedule.placeAll]
      · simp [he]
    · rename_i he
      refine ⟨by simpa [he] using frame, ?_, ?_⟩
      · have nlt : ¬ g.words.length < (s.keptWords (some P) g).length := by omega
        simp only [List.flatMap_singleton, cuesOf_eq, nlt, or_false]
        rfl
      · simp [State.goOn, State.placeCues, he, rise_zero]

theorem mergeAll_merges (P : Option Frame) (s : State) :
    Merges P s.intake.hold { s with intake.hold := [] } (s.mergeAll P) := by
  have fold (gs ks : List HeldSegment) (u v : State) (h : Merges P gs u v) :
      Merges P (gs ++ ks) u (ks.foldl (fun s g => s.mergeHeld P g) v) := by
    induction ks generalizing gs v with
    | nil => simpa using h
    | cons k ks ih =>
      have := ih _ _ (h.trans (mergeHeld_merges P k v))
      rwa [List.append_assoc, List.singleton_append] at this
  exact fold [] _ _ _ (.refl P _)

/-- A merge of the whole hold list, armed for the station that became holder (R117 to R119). -/
theorem mergedTo_mergeAll (P : Option Frame) (i : Station) (s : State) :
    s.mergedTo P i ((s.mergeAll P).arm P i) := by
  have h := mergeAll_merges P s
  refine ⟨?_, h.sched⟩
  simp only [State.arm]
  rw [h.intake]
  rfl

end Sys2Proof.Machine

/-! # Changes of view -/

namespace Sys2Proof.Machine

/-! ### Changes of view (R53, R64, R65) -/

theorem ViewFrame.after {a b c : State} (k : ViewFrame b c) (h : ViewFrame a b) : ViewFrame a c := h.trans k

/-- The state right after its view has become another one: its two timers follow (R53), and no block has been told. -/
def State.withView (new : View) (s : State) : State :=
  State.runFloorTimers s.floor.view new { s with floor.view := new, floor.lapsed := false }

theorem changeView_eq (own : Bool) (new : View) (cause : ViewCause) (s : State) (h : new ≠ s.floor.view) :
    s.changeView own new cause =
      if own then ((s.withView new).tellIntake s.floor.view new cause).tellLamp s.floor.view new
      else (((s.withView new).tellIntake s.floor.view new cause).tellLamp s.floor.view new).portView
        s.floor.view new cause := by
  unfold State.changeView; rw [if_neg h]; rfl

theorem changeView_same (own : Bool) (cause : ViewCause) (s : State) :
    s.changeView own s.floor.view cause = s := by
  unfold State.changeView; rw [if_pos rfl]

theorem tellLamp_deskFrame (old new : View) (s : State) : DeskFrame s (s.tellLamp old new) := by
  unfold State.tellLamp
  split
  · split <;> rfl
  · exact .refl s

theorem changeView_viewFrame (own : Bool) (new : View) (cause : ViewCause) (s : State) :
    ViewFrame s (s.changeView own new cause) := by
  by_cases h : new = s.floor.view
  · rw [h, changeView_same]; exact .refl s
  · have told := (tellLamp_deskFrame s.floor.view new _).view.after
      ((tellIntake_mergeFrame s.floor.view new cause (s.withView new)).view.after rfl)
    rw [changeView_eq own new cause s h]
    split
    · exact told
    · exact (portView_deskFrame _ _ _ _).view.after told

/-- What a change of view leaves at intake and in the schedule is what it hands to intake (R64). -/
theorem changeView_output (own : Bool) (new : View) (cause : ViewCause) (s : State)
    (h : new ≠ s.floor.view) :
    (s.changeView own new cause).intake = ((s.withView new).tellIntake s.floor.view new cause).intake ∧
      (s.changeView own new cause).sched = ((s.withView new).tellIntake s.floor.view new cause).sched := by
  have desk : DeskFrame ((s.withView new).tellIntake s.floor.view new cause)
      (s.changeView own new cause) := by
    have lamp := tellLamp_deskFrame s.floor.view new ((s.withView new).tellIntake s.floor.view new cause)
    rw [changeView_eq own new cause s h]
    split
    · exact lamp
    · exact (portView_deskFrame _ _ _ _).after lamp
  unfold DeskFrame at desk
  rw [desk]
  exact ⟨rfl, rfl⟩

theorem changeView_timersFollow (own : Bool) (new : View) (cause : ViewCause) (s : State)
    (h : new ≠ s.floor.view) : s.timersFollow new (s.changeView own new cause) :=
  ⟨(changeView_floor own new cause s h).2.1, (changeView_floor own new cause s h).2.2.1⟩

theorem hasOutput_iff (s : State) : s.hasOutput = true ↔ s.cfg.role ≠ .writer := by
  simp [State.hasOutput]

theorem hasWriter_iff (s : State) : s.hasWriter = true ↔ s.cfg.role ≠ .output := by
  simp [State.hasWriter]

/-- A WRITER station has no intake for a change of view to reach (R64). -/
theorem changeView_output_writer (own : Bool) (new : View) (cause : ViewCause) (s : State)
    (h : new ≠ s.floor.view) (hw : s.cfg.role = .writer) :
    (s.changeView own new cause).intake = s.intake ∧ (s.changeView own new cause).sched = s.sched := by
  have none : (s.withView new).hasOutput = false := by simp [State.hasOutput, State.withView,
    State.runFloorTimers, hw]
  rw [(changeView_output own new cause s h).1, (changeView_output own new cause s h).2]
  unfold State.tellIntake
  rw [none]
  exact ⟨rfl, rfl⟩

/-- An OVERLAP that passes to HELD of its incoming station, but by a RELEASE, is a fallback merge (R118). -/
theorem changeView_mergedTo (own : Bool) (h i : Station) (cause : ViewCause) (s : State)
    (hv : s.floor.view = .overlap h i) (ho : s.cfg.role ≠ .writer) (hc : ∀ p, cause ≠ .release p) :
    s.mergedTo ((s.intake.lastWord.filter fun m => m.station == h).map (·.time)) i
      (s.changeView own (.held i) cause) := by
  have out : (s.withView (.held i)).hasOutput = true := (hasOutput_iff _).mpr ho
  have told : (s.withView (.held i)).tellIntake s.floor.view (.held i) cause =
      (s.withView (.held i)).takeIntakeEvent (.fallbackMerge h i) := by
    unfold State.tellIntake
    rw [if_pos out, hv]
    cases cause <;> simp_all [intakeEvents]
  obtain ⟨intake, sched⟩ := changeView_output own (.held i) cause s (by simp [hv])
  rw [told] at intake sched
  have merged := mergedTo_mergeAll ((s.withView (.held i)).intake.lastWordOf h) i (s.withView (.held i))
  exact ⟨intake.trans merged.1, sched.trans merged.2⟩

/-- What a change of view, but by a RELEASE, leaves at intake (R64, R115, R118, R121). -/
theorem changeView_intakeFollows (own : Bool) (new : View) (cause : ViewCause) (s : State)
    (h : new ≠ s.floor.view) (ho : s.cfg.role ≠ .writer) (hc : ∀ p, cause ≠ .release p) :
    s.intakeFollows new (s.changeView own new cause) := by
  have out : (s.withView new).hasOutput = true := (hasOutput_iff _).mpr ho
  obtain ⟨intake, sched⟩ := changeView_output own new cause s h
  have opens : ∀ k : Intake, ∀ u : State, u.intake = k →
      ((match new with
        | .overlap h _ => [IntakeEvent.opened h]
        | _ => []).foldl State.takeIntakeEvent u).intake = k.openedBy new ∧
      ((match new with
        | .overlap h _ => [IntakeEvent.opened h]
        | _ => []).foldl State.takeIntakeEvent u).sched = u.sched := by
    rintro k u rfl
    cases new <;> exact ⟨rfl, rfl⟩
  unfold State.intakeFollows
  unfold State.tellIntake at intake sched
  rw [if_pos out] at intake sched
  unfold intakeEvents at intake sched
  cases hv : s.floor.view with
  | overlap a i =>
    by_cases hi : new = .held i
    · subst hi
      simp only [if_true]
      exact changeView_mergedTo own a i cause s hv ho hc
    · simp only [hv, if_neg hi, List.foldl_cons] at intake sched ⊢
      exact ⟨sched.trans (opens _ _ rfl).2, intake.trans (opens _ _ rfl).1⟩
  | _ =>
    simp only [hv] at intake sched ⊢
    exact ⟨sched.trans (opens _ _ rfl).2, intake.trans (opens _ _ rfl).1⟩

end Sys2Proof.Machine

/-! # The lamp -/

namespace Sys2Proof.Machine

/-! ### The floor queue and the writer state through the port's operations -/

theorem discardOpen_line (s : State) : s.discardOpen.line = s.line := by
  unfold State.discardOpen
  split
  · rfl
  · exact countDrops_line _ _

theorem withdrawSegments_floorQ (byRecord : Bool) (s : State) :
    (s.withdrawSegments byRecord).line.floorQ = s.line.floorQ := by
  unfold State.withdrawSegments
  split
  · rw [countDrops_line]; exact (settleRatio_queues _).2.2.2.2.1
  · rw [countDrops_line]

theorem loseRight_floorQ (s : State) : s.loseRight.line.floorQ = s.line.floorQ :=
  (withdrawSegments_floorQ false _).trans (congrArg Line.floorQ (discardOpen_line s))

/-- A new writer state told: a `TextFrame` from the state with the STATE notice queued and its pattern requested. -/
theorem changeWriterState_textFrame (w : WriterState) (s : State) :
    TextFrame ((State.notify (.state w) { s with port.wstate := w }).requestTally w.pattern)
      (s.changeWriterState w) := by
  unfold State.changeWriterState
  simp only
  split
  · exact loseRight_textFrame _
  · exact .refl _

theorem changeWriterState_floorQ (w : WriterState) (s : State) :
    (s.changeWriterState w).line.floorQ = s.line.floorQ := by
  unfold State.changeWriterState
  simp only
  split
  · exact loseRight_floorQ _
  · rfl

/-- The writer state worked out, and told where it is another one (R79, R80): the port, the lamp and the floor queue. -/
theorem workOut_told (s : State) :
    s.workOut.port = s.port.settled s.workState ∧ s.workOut.tally = s.lampTold s.workState ∧
      s.workOut.line.floorQ = s.line.floorQ := by
  unfold State.workOut
  split
  · rename_i h
    simp [WriterPort.settled, State.lampTold, h]
  · rename_i h
    have text := changeWriterState_textFrame s.workState s
    refine ⟨?_, ?_, changeWriterState_floorQ _ s⟩
    · rw [text]; simp [WriterPort.settled, h]
    · rw [text]; simp [State.lampTold, h]

theorem enqueue_wstate (n : Notice) (p : WriterPort) : (p.enqueue n).wstate = p.wstate := by
  rw [enqueue_rest]

theorem settled_wstate (w : WriterState) (p : WriterPort) : (p.settled w).wstate = w := by
  unfold WriterPort.settled
  split
  · exact Eq.symm ‹_›
  · rw [enqueue_wstate]

theorem settled_ready (w : WriterState) (p : WriterPort) : (p.settled w).ready = p.ready := by
  unfold WriterPort.settled
  split
  · rfl
  · rw [enqueue_rest]

theorem workOut_wstate (s : State) : s.workOut.port.wstate = s.workState := by
  rw [(workOut_told s).1, settled_wstate]

theorem workOut_ready (s : State) : s.workOut.port.ready = s.port.ready := by
  rw [(workOut_told s).1, settled_ready]

/-- Whether auto-claim applies (R94). -/
def State.claims (s : State) : Prop :=
  s.cfg.autoClaim = true ∧ s.cfg.role ≠ .output ∧ s.start = .running ∧ s.floor.view = .vacant ∧
    s.port.wstate = .idle ∧ s.pendingRequest = none ∧ s.line.floorInFlight = false

theorem autoClaim_claims (s : State) (h : s.claims) : s.autoClaim = (s.depositFloor .claim).workOut := by
  obtain ⟨auto, role, running, vacant, idle, alone, landed⟩ := h
  unfold State.autoClaim
  rw [if_pos (by simp [auto, (hasWriter_iff s).mpr role, running, vacant, idle, alone, landed])]
  simp [State.takeFloor, idle, vacant]

theorem autoClaim_left (s : State) (h : ¬ s.claims) : s.autoClaim = s := by
  unfold State.autoClaim
  refine if_neg fun k => h ?_
  simp only [Bool.and_eq_true, beq_iff_eq, Option.isNone_iff_eq_none, Bool.not_eq_true'] at k
  obtain ⟨⟨⟨⟨⟨⟨auto, role⟩, running⟩, vacant⟩, idle⟩, alone⟩, landed⟩ := k
  exact ⟨auto, (hasWriter_iff s).mp role, running, vacant, idle, alone, landed⟩

/-- Auto-claim does nothing, or deposits a CLAIM and works the writer state out (R94). -/
theorem autoClaim_cases (s : State) :
    s.autoClaim = s ∨
      s.port.wstate = .idle ∧ s.line.floorQ = none ∧ s.autoClaim = (s.depositFloor .claim).workOut := by
  by_cases h : s.claims
  · have claimed := autoClaim_claims s h
    obtain ⟨-, -, -, -, idle, alone, -⟩ := h
    refine .inr ⟨idle, ?_, claimed⟩
    revert alone
    unfold State.pendingRequest
    cases s.line.floorQ <;> simp
  · exact .inl (autoClaim_left s h)

/-- A CLAIM queued by a writer that is ready is CLAIMING (R79, line 2). -/
theorem workState_claim (s : State) (h : s.port.ready = true) :
    (s.depositFloor .claim).workState = .claiming := by
  simp [State.workState, h, State.claimOut, FloorFrame.claims]

/-- A writer state other than ABSENT is that of a ready writer (R79, line 1). -/
theorem ready_of_workState (s : State) (h : s.workState ≠ .absent) : s.port.ready = true := by
  cases hr : s.port.ready with
  | true => rfl
  | false => simp [State.workState, hr] at h

/-! ### The lamp (R13, R80, R94) -/

/-- What the rules of the lamp read of the writer port stands, the lamp with it. -/
structure DeskStands (s t : State) : Prop where
  cfg : t.cfg = s.cfg
  tally : t.tally = s.tally
  wstate : t.port.wstate = s.port.wstate
  floorQ : t.line.floorQ = s.line.floorQ

theorem DeskStands.refl (s : State) : DeskStands s s := ⟨rfl, rfl, rfl, rfl⟩

theorem DeskStands.trans {a b c : State} (h : DeskStands a b) (k : DeskStands b c) : DeskStands a c :=
  ⟨k.cfg.trans h.cfg, k.tally.trans h.tally, k.wstate.trans h.wstate, k.floorQ.trans h.floorQ⟩

theorem MergeFrame.deskStands {s t : State} (h : MergeFrame s t) : DeskStands s t := by
  unfold MergeFrame at h; rw [h]; exact ⟨rfl, rfl, rfl, rfl⟩

theorem TellFrame.deskStands {s t : State} (h : TellFrame s t) : DeskStands s t := by
  unfold TellFrame at h; rw [h]; exact ⟨rfl, rfl, rfl, rfl⟩

/-- The lamp follows between two states if it does between two others that stand as these do; the view counts at
an OUTPUT station alone. -/
theorem lampFollows_congr {s a b t : State} (h : DeskStands s a) (k : DeskStands b t)
    (hv : s.cfg.role = .output → a.floor.view = s.floor.view ∧ t.floor.view = b.floor.view)
    (hl : a.lampFollows b) : s.lampFollows t := by
  unfold State.lampFollows State.lampTold at *
  simp only [h.cfg, h.tally, h.wstate, h.floorQ] at hl
  simp only [k.tally, k.wstate, k.floorQ]
  rw [hl]
  by_cases ho : s.cfg.role = .output
  · simp only [if_pos ho, (hv ho).1, (hv ho).2]
  · simp only [if_neg ho]

theorem lampFollows_of_stands {s t : State} (h : DeskStands s t)
    (hv : s.cfg.role = .output → t.floor.view = s.floor.view) : s.lampFollows t := by
  unfold State.lampFollows State.lampTold
  simp only [h.tally, h.wstate, h.floorQ, if_true]
  by_cases ho : s.cfg.role = .output
  · simp [ho, hv ho]
  · simp [ho]

/-- Where no CLAIM has been deposited, the lamp of a WRITER or BOTH station follows its writer state (R80). -/
theorem lampFollows_writer {s t : State} (ho : s.cfg.role ≠ .output)
    (hq : t.line.floorQ = some .claim → s.line.floorQ = some .claim)
    (hl : t.tally = s.lampTold t.port.wstate) : s.lampFollows t := by
  unfold State.lampFollows
  rw [if_neg ho, if_neg (fun h => h.2 (hq h.1))]
  exact hl

/-- The port's answers, and what they withdraw: the lamp, the writer state and the waiting leaves stand, the floor
queue keeps its frame or loses it, and no request comes to be pending. -/
structure Answered (s t : State) : Prop where
  cfg : t.cfg = s.cfg
  tally : t.tally = s.tally
  wstate : t.port.wstate = s.port.wstate
  leaves : t.port.leaves = s.port.leaves
  inFlight : t.line.inFlight = s.line.inFlight
  floorQ : t.line.floorQ = s.line.floorQ ∨ t.line.floorQ = none
  pending : s.pendingRequest = none → t.pendingRequest = none

theorem Answered.refl (s : State) : Answered s s := ⟨rfl, rfl, rfl, rfl, rfl, .inl rfl, id⟩

theorem Answered.trans {a b c : State} (h : Answered a b) (k : Answered b c) : Answered a c := by
  refine ⟨k.cfg.trans h.cfg, k.tally.trans h.tally, k.wstate.trans h.wstate, k.leaves.trans h.leaves,
    k.inFlight.trans h.inFlight, ?_, k.pending ∘ h.pending⟩
  obtain e | e := k.floorQ
  · rw [e]; exact h.floorQ
  · exact .inr e

theorem TellFrame.answered {s t : State} (h : TellFrame s t) : Answered s t := by
  unfold TellFrame at h; rw [h]; exact ⟨rfl, rfl, rfl, rfl, rfl, .inl rfl, id⟩

theorem endDrain_answered (s : State) : Answered s { s with asm.drain := .idle } := by
  refine ⟨rfl, rfl, rfl, rfl, rfl, .inl rfl, ?_⟩
  unfold State.pendingRequest
  cases s.line.floorQ <;> simp

theorem withdrawRequest_answered (s : State) : Answered s s.withdrawRequest := by
  cases hp : s.pendingRequest with
  | none =>
    have same : s.withdrawRequest = s := by unfold State.withdrawRequest; rw [hp]
    rw [same]; exact .refl s
  | some p =>
    unfold State.withdrawRequest
    split <;> exact ⟨rfl, rfl, rfl, rfl, rfl, by simp, by simp [hp]⟩

theorem answerView_answered (old new : View) (cause : ViewCause) (s : State) :
    Answered s (s.answerView old new cause) := by
  obtain h | ⟨-, h⟩ := answerView_cases old new cause s
  · exact h.answered
  · exact (withdrawRequest_answered s).trans h.answered

/-- A queued CLAIM stands while the new view names no holder (R86). -/
theorem answerView_claim (old : View) (cause : ViewCause) (s : State)
    (hq : s.line.floorQ = some .claim) : (s.answerView old .vacant cause).line.floorQ = some .claim := by
  obtain h | ⟨hans, -⟩ := answerView_cases old .vacant cause s
  · exact h.deskStands.floorQ.trans hq
  · simp [State.viewAnswer, State.pendingRequest, hq, View.heldBy, View.holder] at hans

/-- The lamp and the writer state stand, and no CLAIM has been deposited. -/
structure NoClaim (s t : State) : Prop where
  cfg : t.cfg = s.cfg
  tally : t.tally = s.tally
  wstate : t.port.wstate = s.port.wstate
  claim : t.line.floorQ = some .claim → s.line.floorQ = some .claim

theorem NoClaim.refl (s : State) : NoClaim s s := ⟨rfl, rfl, rfl, id⟩

theorem NoClaim.trans {a b c : State} (h : NoClaim a b) (k : NoClaim b c) : NoClaim a c :=
  ⟨k.cfg.trans h.cfg, k.tally.trans h.tally, k.wstate.trans h.wstate, h.claim ∘ k.claim⟩

theorem Answered.noClaim {s t : State} (h : Answered s t) : NoClaim s t := by
  refine ⟨h.cfg, h.tally, h.wstate, fun hq => ?_⟩
  obtain e | e := h.floorQ
  · exact e ▸ hq
  · simp [e] at hq

theorem DeskStands.noClaim {s t : State} (h : DeskStands s t) : NoClaim s t :=
  ⟨h.cfg, h.tally, h.wstate, fun hq => h.floorQ ▸ hq⟩

theorem depositFloor_noClaim (f : FloorFrame) (s : State) (hf : f ≠ .claim) :
    NoClaim s (s.depositFloor f) := ⟨rfl, rfl, rfl, fun hq => absurd (Option.some.inj hq) hf⟩

/-- The lamp once the writer state has been worked out: the pattern of that state is requested where it is another
one (R80). -/
theorem workOut_lampTold {s u : State} (h : NoClaim s u) : u.workOut.tally = s.lampTold u.workState := by
  rw [(workOut_told u).2.1]
  unfold State.lampTold
  rw [h.wstate, h.cfg, h.tally]

/-- The lamp follows over one working-out of the writer state, where no CLAIM is deposited before or after it. -/
theorem workOut_lamp {s u t : State} (ho : s.cfg.role ≠ .output) (h : NoClaim s u)
    (k : NoClaim u.workOut t) : s.lampFollows t := by
  refine lampFollows_writer ho (fun hq => h.claim ?_) ?_
  · rw [← (workOut_told u).2.2]; exact k.claim hq
  · rw [k.tally, k.wstate, workOut_wstate, workOut_lampTold h]

/-- The lamp where auto-claim follows: it claims from IDLE, with no CLAIM queued before (R94). -/
theorem autoClaim_lamp {s u : State} (ho : s.cfg.role ≠ .output) (answered : Answered s u)
    (claim : s.line.floorQ = some .claim → u.line.floorQ = some .claim) :
    s.lampFollows u.workOut.autoClaim := by
  have told := workOut_lampTold answered.noClaim
  obtain h | ⟨hidle, hnone, h⟩ := autoClaim_cases u.workOut
  · rw [h]; exact workOut_lamp ho answered.noClaim (.refl _)
  · have idle : u.workState = .idle := by rw [← workOut_wstate]; exact hidle
    have ready : u.workOut.port.ready = true := by
      rw [workOut_ready]; exact ready_of_workState u (by simp [idle])
    have fresh : s.line.floorQ ≠ some .claim := fun hq => by
      rw [(workOut_told u).2.2, claim hq] at hnone; simp at hnone
    obtain ⟨-, tally, floorQ⟩ := workOut_told (u.workOut.depositFloor .claim)
    have cfg : u.workOut.cfg = s.cfg := (workOut_portFrame u).cfg.trans answered.cfg
    unfold State.lampFollows
    rw [if_neg ho, h, floorQ, if_pos ⟨rfl, fresh⟩, tally, workState_claim _ ready]
    simp [State.lampTold, hidle, told, idle, cfg, WriterState.pattern]

theorem reactToView_lamp (old new : View) (cause : ViewCause) (s : State) (ho : s.cfg.role ≠ .output) :
    s.lampFollows (s.reactToView old new cause) := by
  have answered := answerView_answered old new cause s
  unfold State.reactToView
  simp only
  split
  · rename_i freed
    refine autoClaim_lamp ho answered fun hq => ?_
    rw [freed.1]
    exact answerView_claim old cause s hq
  · exact workOut_lamp ho answered.noClaim (.refl _)

theorem portView_lamp (old new : View) (cause : ViewCause) (s : State) (ho : s.cfg.role ≠ .output) :
    s.lampFollows (s.portView old new cause) := by
  have writer : s.hasWriter = true := (hasWriter_iff s).mpr ho
  unfold State.portView
  rw [writer]
  simp only [Bool.not_true, Bool.false_eq_true, if_false]
  split
  · exact lampFollows_of_stands ⟨rfl, rfl, rfl, rfl⟩ fun h => absurd h ho
  · exact reactToView_lamp old new cause s ho

theorem withView_tellIntake_stands (new : View) (cause : ViewCause) (s : State) :
    DeskStands s ((s.withView new).tellIntake s.floor.view new cause) := by
  have seen : DeskStands s (s.withView new) := ⟨rfl, rfl, rfl, rfl⟩
  exact seen.trans (tellIntake_mergeFrame _ _ _ _).deskStands

/-- The blocks that hear of a change of view before the port leave the writer's desk, and the lamp too but at an
OUTPUT station. -/
theorem changeView_own_stands (new : View) (cause : ViewCause) (s : State) (ho : s.cfg.role ≠ .output) :
    DeskStands s (s.changeView true new cause) := by
  by_cases h : new = s.floor.view
  · rw [h, changeView_same]; exact .refl s
  · have told := withView_tellIntake_stands new cause s
    have dark : ((s.withView new).tellIntake s.floor.view new cause).cfg.role ≠ .output := by
      rw [told.cfg]; exact ho
    rw [changeView_eq true new cause s h, if_pos rfl]
    unfold State.tellLamp
    rw [if_neg dark]
    exact told

/-- The lamp of an OUTPUT station at a change of view (R13). -/
theorem changeView_lamp_output (own : Bool) (new : View) (cause : ViewCause) (s : State)
    (ho : s.cfg.role = .output) : s.lampFollows (s.changeView own new cause) := by
  by_cases h : new = s.floor.view
  · rw [h, changeView_same]; exact lampFollows_of_stands (.refl s) fun _ => rfl
  · have view := congrArg Floor.view (changeView_floor own new cause s h).1
    have told := withView_tellIntake_stands new cause s
    have lamp : (s.changeView own new cause).tally =
        (((s.withView new).tellIntake s.floor.view new cause).tellLamp s.floor.view new).tally := by
      have role : (((s.withView new).tellIntake s.floor.view new cause).tellLamp s.floor.view new).cfg.role =
          .output := by rw [(tellLamp_portFrame _ _ _).cfg, told.cfg]; exact ho
      rw [changeView_eq own new cause s h]
      split
      · rfl
      · simp [State.portView, State.hasWriter, role]
    unfold State.lampFollows
    rw [if_pos ho, lamp, view]
    generalize (s.withView new).tellIntake s.floor.view new cause = u at told
    unfold State.tellLamp State.requestTally outputTally
    rw [if_pos (by rw [told.cfg]; exact ho), ← told.cfg, ← told.tally]
    by_cases hn : new = .vacant
    · have hs : s.floor.view ≠ .vacant := fun e => h (hn.trans e.symm)
      simp [hn, hs]
    · by_cases hs : s.floor.view = .vacant <;> simp [hn, hs]

/-- The lamp at a change of view that the port hears of at once (R13, R80, R94). -/
theorem changeView_lamp (new : View) (cause : ViewCause) (s : State) :
    s.lampFollows (s.changeView false new cause) := by
  by_cases ho : s.cfg.role = .output
  · exact changeView_lamp_output false new cause s ho
  · by_cases h : new = s.floor.view
    · rw [h, changeView_same]; exact lampFollows_of_stands (.refl s) fun _ => rfl
    · have stands := changeView_own_stands new cause s ho
      rw [changeView_eq true new cause s h, if_pos rfl] at stands
      rw [changeView_eq false new cause s h, if_neg (by simp)]
      exact lampFollows_congr stands (.refl _) (fun h => absurd h ho)
        (portView_lamp _ _ _ _ (by rw [stands.cfg]; exact ho))

end Sys2Proof.Machine

/-! # Amends, and what the dispatch of a frame is made of -/

namespace Sys2Proof.Machine

/-! ### Amends at the output (R122, R123, R152 to R156) -/

theorem AmendFrame.after {a b c : State} (k : AmendFrame b c) (h : AmendFrame a b) : AmendFrame a c := h.trans k
theorem AmendFrame.refl (s : State) : AmendFrame s s := rfl

theorem amendShown_amendFrame (c : Cue) (ws : List TimedWord) (counted : Bool) (s : State) :
    AmendFrame s (s.amendShown c ws counted).1 := by
  unfold State.amendShown
  split
  · simp only
    split <;> rfl
  · split
    · rfl
    · split <;> rfl

theorem amendPending_amendFrame (c : Cue) (ws : List TimedWord) (s : State) :
    AmendFrame s (s.amendPending c ws).1 := by
  unfold State.amendPending
  split
  · rfl
  · split <;> rfl

theorem amendCourse_amendFrame (anyFirst : Bool) (a : AmendCourse) (t : AmendTarget) :
    AmendFrame a.state (AmendCourse.step anyFirst a t).state := by
  unfold AmendCourse.step
  split
  · exact .refl _
  · split
    · exact .refl _
    · split
      · exact amendShown_amendFrame _ _ _ _
      · exact amendPending_amendFrame _ _ _

theorem scheduleAmend_amendFrame (x : Station) (b : AmendBody) (s : State) :
    AmendFrame s (s.scheduleAmend x b) := by
  have late (u : State) : AmendFrame u u.countLateAmend := rfl
  have again (u : State) : AmendFrame u u.recomputeNow := rfl
  have fold (anyFirst : Bool) (ts : List AmendTarget) (a : AmendCourse) (h : AmendFrame s a.state) :
      AmendFrame s (ts.foldl (AmendCourse.step anyFirst) a).state := by
    induction ts generalizing a with
    | nil => exact h
    | cons t ts ih => exact ih _ ((amendCourse_amendFrame anyFirst a t).after h)
  unfold State.scheduleAmend
  simp only
  split
  · exact (late _).after rfl
  · split
    · exact (again _).after (fold _ _ _ rfl)
    · exact fold _ _ _ rfl

theorem intakeAmend_amendFrame (x : Station) (b : AmendBody) (s : State) :
    AmendFrame s (s.intakeAmend x b) := by
  unfold State.intakeAmend
  split
  · exact scheduleAmend_amendFrame x b s
  · split <;> rfl

/-! ### What a frame's dispatch is made of (R33) -/

/-- The part of a peer entry that nothing after a frame's report moves: whether and when the station was heard, its
grades, and the counters of accepted frames. -/
def PeerEntry.heard (e : PeerEntry) : Bool × Frame × Fin 4 × LastOutcome × Counter × Counter × Counter × Counter :=
  (e.present, e.lastHeard, e.worst, e.lastOutcome, e.counters.accepted, e.counters.corrected,
    e.counters.marginal, e.counters.amends)

/-- A step at a frame of station x that leaves the floor view, the line and the writer's desk alone, and of the peer
table touches x's entry at most, and there not what it heard. -/
structure Still (x : Station) (s t : State) : Prop where
  rest : t = { s with
    flags := t.flags, lapse := t.lapse, peers := t.peers, floor := t.floor, intake := t.intake
    sched := t.sched, screen := t.screen }
  view : t.floor.view = s.floor.view
  others : ∀ y, y ≠ x → t.peer y = s.peer y
  heard : (t.peer x).heard = (s.peer x).heard

theorem Still.refl (x : Station) (s : State) : Still x s s := ⟨rfl, rfl, fun _ _ => rfl, rfl⟩

theorem Still.trans {x : Station} {a b c : State} (h : Still x a b) (k : Still x b c) : Still x a c := by
  refine ⟨?_, k.view.trans h.view, fun y hy => (k.others y hy).trans (h.others y hy), k.heard.trans h.heard⟩
  rw [k.rest, h.rest]

theorem Still.after {x : Station} {a b c : State} (k : Still x b c) (h : Still x a b) : Still x a c := h.trans k

theorem Still.number {x : Station} {s t : State} (h : Still x s t) : t.number = s.number := by rw [h.rest]

theorem Still.ends {x : Station} {s t : State} (h : Still x s t) : EndFrame s t := by
  unfold EndFrame; rw [h.rest]

theorem Still.deskStands {x : Station} {s t : State} (h : Still x s t) : DeskStands s t := by
  rw [h.rest]; exact ⟨rfl, rfl, rfl, rfl⟩

theorem AmendFrame.still {s t : State} (x : Station) (h : AmendFrame s t) : Still x s t := by
  unfold AmendFrame at h
  rw [h]
  exact ⟨rfl, rfl, fun _ _ => rfl, rfl⟩

theorem updatePeer_still (x : Station) (f : PeerEntry → PeerEntry) (s : State)
    (h : (f (s.peer x)).heard = (s.peer x).heard) : Still x s (s.updatePeer x f) :=
  ⟨rfl, rfl, fun y hy => updatePeer_other x y f s hy, by rw [updatePeer_same]; exact h⟩

theorem raise_still (x : Station) (f : Flag) (s : State) : Still x s (s.raise f) :=
  ⟨rfl, rfl, fun _ _ => rfl, rfl⟩

theorem strayFrame_still (x : Station) (s : State) : Still x s s.strayFrame :=
  ⟨rfl, rfl, fun _ _ => rfl, rfl⟩

theorem countMissed_still (x : Station) (n : Nat) (s : State) : Still x s (s.countMissed x n) :=
  (raise_still x _ _).after (updatePeer_still x _ s rfl)

theorem expect_still (x : Station) (m : Byte) (s : State) : Still x s (s.expect x m) :=
  updatePeer_still x _ s rfl

theorem compareLast_still (x : Station) (last : Byte) (start : Bool) (s : State) :
    Still x s (s.compareLast x last start) := by
  unfold State.compareLast
  simp only
  split
  · exact expect_still x _ s
  · split
    · exact expect_still x _ s
    · split
      · exact .refl x s
      · split
        · exact (expect_still x _ _).after (countMissed_still x _ s)
        · exact .refl x s

theorem checkSequence_still (x : Station) (b : SegmentBody) (s : State) :
    Still x s (s.checkSequence x b).1 := by
  unfold State.checkSequence
  simp only
  split
  · exact expect_still x _ s
  · split
    · exact expect_still x _ s
    · split
      · exact expect_still x _ s
      · split
        · exact (expect_still x _ _).after (countMissed_still x _ s)
        · exact updatePeer_still x (fun e =>
            { e with counters := { e.counters with stale := rise e.counters.stale 1 } }) s rfl

theorem recordBeat_still (x : Station) (b : BeatBody) (s : State) : Still x s (s.recordBeat x b) :=
  (compareLast_still x _ _ _).after (updatePeer_still x _ s rfl)

/-- A step at a frame of station x: one change of view at most, told to the port at once unless the frame is this
station's own, between steps that leave the view. -/
def OneView (own : Bool) (x : Station) (s t : State) : Prop :=
  ∃ a b, Still x s a ∧ (b = a ∨ ∃ v cause, b = a.changeView own v cause) ∧ Still x b t

theorem Still.oneView {x : Station} {s t : State} (own : Bool) (h : Still x s t) : OneView own x s t :=
  ⟨t, t, h, .inl rfl, .refl x t⟩

theorem changeView_oneView (own : Bool) (x : Station) (v : View) (cause : ViewCause) (s : State) :
    OneView own x s (s.changeView own v cause) := ⟨s, _, .refl x s, .inr ⟨v, cause, rfl⟩, .refl x _⟩

theorem OneView.before {own : Bool} {x : Station} {s t u : State} (k : OneView own x t u)
    (h : Still x s t) : OneView own x s u := by
  obtain ⟨a, b, ha, hb, hu⟩ := k
  exact ⟨a, b, h.trans ha, hb, hu⟩

theorem OneView.then {own : Bool} {x : Station} {s t u : State} (h : OneView own x s t)
    (k : Still x t u) : OneView own x s u := by
  obtain ⟨a, b, ha, hb, ht⟩ := h
  exact ⟨a, b, ha, hb, ht.trans k⟩

theorem makeOffer_oneView (own : Bool) (x h : Station) (sc : Successor) (s : State) :
    OneView own x s (s.makeOffer own h sc) :=
  (changeView_oneView own x _ _ s).then ⟨rfl, rfl, fun _ _ => rfl, rfl⟩

theorem adopt_oneView (x : Station) (v : View) (cause : ViewCause) (s : State) :
    OneView false x s (s.adopt v cause) := by
  have counted : Still x s { s with floor.adoptions := rise s.floor.adoptions 1 } :=
    ⟨rfl, rfl, fun _ _ => rfl, rfl⟩
  unfold State.adopt
  simp only
  split
  · exact (Still.refl x s).oneView false
  · exact (changeView_oneView false x _ _ _).before counted

theorem beatAtFloor_oneView (x : Station) (b : BeatBody) (s : State) :
    OneView false x s (s.beatAtFloor x b) := by
  have same := (Still.refl x s).oneView false
  unfold State.beatAtFloor
  split
  · exact same
  · split
    · split
      · exact adopt_oneView x _ _ s
      · exact same
    · split
      · split
        · exact (adopt_oneView x _ _ s).then (raise_still x _ _)
        · exact same
      · split
        · exact adopt_oneView x _ _ s
        · exact same

theorem segmentAtFloor_oneView (own : Bool) (x : Station) (b : SegmentBody) (s : State) :
    OneView own x s (s.segmentAtFloor own x b) := by
  have claimed : OneView own x s (s.implicitClaim own x) := by
    unfold State.implicitClaim
    split
    · exact changeView_oneView own x _ _ s
    · exact (Still.refl x s).oneView own
  unfold State.segmentAtFloor
  simp only
  split
  · exact claimed.then (updatePeer_still x _ _ rfl)
  · split
    · exact claimed.then ((takeSegment_mergeFrame x b _ _).amend.still x)
    · exact claimed

/-- A frame counted by its kind, before anything else is done with it: an AMEND alone is (R48). -/
def State.countKind (x : Station) (b : FrameBody) (s : State) : State :=
  match b with
  | .amend _ => s.countAmend x
  | _ => s

/-- The dispatch of an accepted frame: counted by its kind, it then changes the view once at most (R33). An own
BEAT goes no further than the peer table, so that its change of view is never another station's. -/
theorem dispatch_oneView (own : Bool) (x : Station) (b : FrameBody) (s : State)
    (hx : own = true → x = s.number) : OneView own x (s.countKind x b) (s.dispatch own x b) := by
  have same := (Still.refl x s).oneView own
  have stray := (strayFrame_still x s).oneView own
  have view := fun v cause => changeView_oneView own x v cause s
  cases b with
  | claim =>
    unfold State.dispatch State.takeClaim
    simp only
    split
    · exact view _ _
    · exact Still.oneView own ⟨rfl, rfl, fun _ _ => rfl, rfl⟩
  | offer sc =>
    unfold State.dispatch State.takeOffer
    simp only
    split
    · split
      · exact makeOffer_oneView own x _ sc s
      · exact stray
    · split
      · exact makeOffer_oneView own x _ sc s
      · exact stray
    · exact stray
  | take h =>
    unfold State.dispatch State.takeTake
    simp only
    split
    · split
      · exact view _ _
      · exact stray
    · exact stray
  | release p m =>
    unfold State.dispatch State.takeRelease
    simp only
    split
    · split
      · rename_i he
        subst he
        exact (changeView_oneView own x _ _ _).before (compareLast_still x m false s)
      · exact stray
    · exact stray
  | yield =>
    unfold State.dispatch State.takeYield
    simp only
    split
    · exact view _ _
    · exact stray
  | amend a =>
    unfold State.dispatch State.countKind
    simp only
    split
    · exact ((intakeAmend_amendFrame x a _).still x).oneView own
    · exact (Still.refl x _).oneView own
  | segment g =>
    have checked := checkSequence_still x g s
    unfold State.dispatch
    simp only
    split
    · rename_i e
      rw [e] at checked
      exact (segmentAtFloor_oneView own x g _).before checked
    · rename_i e
      rw [e] at checked
      exact checked.oneView own
  | beat a =>
    have recorded := recordBeat_still x a s
    cases own with
    | false => exact (beatAtFloor_oneView x a _).before recorded
    | true =>
      have mine : (s.recordBeat x a).beatAtFloor x a = s.recordBeat x a := by
        unfold State.beatAtFloor
        rw [if_pos (by rw [recorded.number]; exact hx rfl)]
      unfold State.dispatch
      simp only [mine]
      exact recorded.oneView true

end Sys2Proof.Machine

/-! # The end report of an own frame -/

namespace Sys2Proof.Machine

/-! ### The end report of an own frame (R34) -/

theorem answerEnd_answered (b : FrameBody) (s : State) : Answered s (s.answerEnd b) := by
  obtain h | h := answerEnd_cases b s
  · exact h.answered
  · exact (endDrain_answered s).trans h.answered

/-- A leave decided with no request pending and no floor frame in flight deposits a YIELD or answers (R91). -/
theorem decideLeave_noClaim (ab idle : Bool) (s : State) (hp : s.pendingRequest = none)
    (hf : s.line.inFlight = none) : NoClaim s (s.decideLeave ab idle) := by
  have landed : s.line.floorInFlight = false := by unfold Line.floorInFlight; rw [hf]
  have alone : s.abortPending.1 = s := by unfold State.abortPending; rw [hp]
  unfold State.decideLeave
  rw [landed, alone]
  simp only [Bool.false_eq_true, if_false]
  split
  · exact depositFloor_noClaim .yield s (by simp)
  · split
    · exact .refl s
    · split <;> exact (answer_tellFrame _ s).answered.noClaim

theorem decideLeaves_noClaim (s : State)
    (hl : s.port.leaves = [] ∨ s.port.leaves.length = 1 ∧ s.pendingRequest = none)
    (hf : s.line.inFlight = none) : NoClaim s s.decideLeaves := by
  have clear : NoClaim s { s with port.leaves := [] } := ⟨rfl, rfl, rfl, id⟩
  unfold State.decideLeaves
  obtain h | ⟨h, hp⟩ := hl
  · rw [h]; exact clear
  · obtain ⟨ab, hab⟩ := List.length_eq_one_iff.mp h
    rw [hab]
    exact clear.trans (decideLeave_noClaim ab false { s with port.leaves := [] } hp hf)

theorem checkDrain_noClaim (s : State) : NoClaim s s.checkDrain := by
  have reported : NoClaim s { s with asm.drain := .reported } := ⟨rfl, rfl, rfl, id⟩
  unfold State.checkDrain
  split
  · exact reported.trans (depositFloor_noClaim .release _ (by simp))
  · exact .refl s

/-- The lamp at the end report of an own frame: the writer state is worked out once, since at most one leave waits
and no request is pending then (R80, R91). -/
theorem endReport_lamp (f : InFlight) (before : View) (s : State) (ho : s.cfg.role ≠ .output)
    (hl : s.port.leaves = [] ∨ s.port.leaves.length = 1 ∧ s.pendingRequest = none) :
    s.lampFollows (s.endReport f before) := by
  have writer : ({ s with line.inFlight := none } : State).hasWriter = true := (hasWriter_iff _).mpr ho
  have landed : NoClaim s { s with line.inFlight := none } := ⟨rfl, rfl, rfl, id⟩
  unfold State.endReport
  simp only [writer, Bool.not_true, Bool.false_eq_true, if_false]
  generalize hu : ({ s with line.inFlight := none } : State) = u at landed
  have settles (v : State) (h : Answered u v) : s.lampFollows v.decideLeaves.workOut.checkDrain := by
    have leaves : v.port.leaves = [] ∨ v.port.leaves.length = 1 ∧ v.pendingRequest = none := by
      rw [h.leaves, ← hu]
      exact hl.imp_right fun ⟨hlen, hp⟩ => ⟨hlen, h.pending (by rw [← hu]; exact hp)⟩
    have flown : v.line.inFlight = none := by rw [h.inFlight, ← hu]
    exact workOut_lamp ho ((landed.trans h.noClaim).trans (decideLeaves_noClaim v leaves flown))
      (checkDrain_noClaim _)
  refine settles _ ?_
  split
  · exact answerEnd_answered f.body u
  · exact (answerEnd_answered f.body u).trans (answerView_answered _ _ _ _)

theorem endReport_lamp_output (f : InFlight) (before : View) (s : State) (ho : s.cfg.role = .output) :
    s.endReport f before = { s with line.inFlight := none } := by
  unfold State.endReport State.hasWriter
  simp [ho]

/-! ### A change of view at most: what follows of it -/

theorem EndFrame.after {a b c : State} (k : EndFrame b c) (h : EndFrame a b) : EndFrame a c := h.trans k

theorem OneView.ends {own : Bool} {x : Station} {s t : State} (h : OneView own x s t) : EndFrame s t := by
  obtain ⟨a, b, ha, hb, ht⟩ := h
  refine ht.ends.after (EndFrame.after ?_ ha.ends)
  obtain rfl | ⟨v, cause, rfl⟩ := hb
  · rfl
  · exact (changeView_viewFrame _ _ _ _).ends

theorem changeView_peer (own : Bool) (v : View) (cause : ViewCause) (s : State) (y : Station) :
    (s.changeView own v cause).peer y = s.peer y := by
  by_cases h : v = s.floor.view
  · rw [h, changeView_same]
  · unfold State.peer
    rw [(changeView_floor own v cause s h).2.2.2]

theorem OneView.peers {own : Bool} {x : Station} {s t : State} (h : OneView own x s t) :
    (t.peer x).heard = (s.peer x).heard ∧ ∀ y, y ≠ x → t.peer y = s.peer y := by
  obtain ⟨a, b, ha, hb, ht⟩ := h
  have mid (y : Station) : b.peer y = a.peer y := by
    obtain rfl | ⟨v, cause, rfl⟩ := hb
    · rfl
    · exact changeView_peer _ _ _ _ y
  exact ⟨by rw [ht.heard, mid, ha.heard], fun y hy => by rw [ht.others y hy, mid, ha.others y hy]⟩

theorem OneView.lamp_foreign {x : Station} {s t : State} (h : OneView false x s t) : s.lampFollows t := by
  obtain ⟨a, b, ha, hb, ht⟩ := h
  refine lampFollows_congr ha.deskStands ht.deskStands (fun _ => ⟨ha.view, ht.view⟩) ?_
  obtain rfl | ⟨v, cause, rfl⟩ := hb
  · exact lampFollows_of_stands (.refl b) fun _ => rfl
  · exact changeView_lamp v cause a

theorem OneView.lamp_output {own : Bool} {x : Station} {s t : State} (h : OneView own x s t)
    (ho : s.cfg.role = .output) : s.lampFollows t := by
  obtain ⟨a, b, ha, hb, ht⟩ := h
  refine lampFollows_congr ha.deskStands ht.deskStands (fun _ => ⟨ha.view, ht.view⟩) ?_
  obtain rfl | ⟨v, cause, rfl⟩ := hb
  · exact lampFollows_of_stands (.refl b) fun _ => rfl
  · exact changeView_lamp_output own v cause a (by rw [ha.deskStands.cfg]; exact ho)

/-- The port, the line and the assembler hear nothing of a change of view that an own frame makes, until its end report. -/
theorem changeView_own_desk (v : View) (cause : ViewCause) (s : State) :
    (s.changeView true v cause).line = s.line ∧ (s.changeView true v cause).port = s.port ∧
      (s.changeView true v cause).asm = s.asm := by
  by_cases h : v = s.floor.view
  · rw [h, changeView_same]; exact ⟨rfl, rfl, rfl⟩
  · have told := tellIntake_mergeFrame s.floor.view v cause (s.withView v)
    unfold MergeFrame at told
    rw [changeView_eq true v cause s h, if_pos rfl]
    unfold State.tellLamp
    rw [told]
    split
    · split <;> exact ⟨rfl, rfl, rfl⟩
    · exact ⟨rfl, rfl, rfl⟩

theorem OneView.own_desk {x : Station} {s t : State} (h : OneView true x s t) :
    t.line = s.line ∧ t.port = s.port ∧ t.asm = s.asm := by
  obtain ⟨a, b, ha, hb, ht⟩ := h
  have mid : b.line = a.line ∧ b.port = a.port ∧ b.asm = a.asm := by
    obtain rfl | ⟨v, cause, rfl⟩ := hb
    · exact ⟨rfl, rfl, rfl⟩
    · exact changeView_own_desk v cause a
  rw [ht.rest]
  refine ⟨mid.1.trans ?_, mid.2.1.trans ?_, mid.2.2.trans ?_⟩ <;> rw [ha.rest]

theorem OneView.own_stands {x : Station} {s t : State} (h : OneView true x s t)
    (ho : s.cfg.role ≠ .output) : DeskStands s t := by
  obtain ⟨a, b, ha, hb, ht⟩ := h
  refine ha.deskStands.trans (.trans ?_ ht.deskStands)
  obtain rfl | ⟨v, cause, rfl⟩ := hb
  · exact .refl b
  · exact changeView_own_stands v cause a (by rw [ha.deskStands.cfg]; exact ho)

end Sys2Proof.Machine

/-! # Reception of an accepted frame -/

namespace Sys2Proof.Machine

/-! ### Reception of an accepted frame (R28 to R38) -/

/-- The judgement of a frame that the station hears. -/
theorem judgeBody_of_hears {rx : Rx} {b : FrameBody} {s : State} (h : s.hears rx b) :
    judgeBody s.cfg s.number rx b =
      .accepted rx.source (gradeOf s.cfg.quality rx.worst) rx.worst b := by
  obtain ⟨-, parses, known, fits⟩ := h
  simp [judgeBody, judgeHeader, known, parses, Nat.not_lt.mpr fits]

theorem exec_receptionOf (rx : Rx) (b : FrameBody) (s : State) :
    exec (receptionOf rx b) s = .next (s.receive rx b) := by cases b <;> rfl

/-- A step before a frame's report: nothing but the line's own marks, counters and flags differs. -/
structure Prelude (s t : State) : Prop where
  rest : t = { s with flags := t.flags, line := t.line, peers := t.peers }
  floorQ : t.line.floorQ = s.line.floorQ
  entries : t.peers.entries = s.peers.entries

theorem countBeatLoss_prelude (s : State) : Prelude s s.countBeatLoss := by
  unfold State.countBeatLoss
  split
  · exact ⟨rfl, rfl, rfl⟩
  · split
    · exact ⟨rfl, rfl, rfl⟩
    · split <;> exact ⟨rfl, rfl, rfl⟩

theorem foreignEnd_prelude (j : Judgement) (s : State) : Prelude s (s.foreignEnd j) := by
  have left (u : State) (h : Prelude s u) :
      Prelude s { u with line.foreign := false, line.winCounted := false } :=
    ⟨by rw [h.rest], h.floorQ, h.entries⟩
  refine left _ ?_
  split
  · exact ⟨rfl, rfl, rfl⟩
  · exact countBeatLoss_prelude s

theorem readbackInFlight_prelude (fault : Bool) (s : State) : Prelude s (s.readbackInFlight fault) := by
  unfold State.readbackInFlight
  split
  · split <;> exact ⟨rfl, rfl, rfl⟩
  · exact ⟨rfl, rfl, rfl⟩

/-- The state at which an accepted frame is dispatched, its kind counted. -/
def State.reported (x : Station) (g : Grade) (w : Fin 4) (b : FrameBody) (s : State) : State :=
  (s.report (.accepted x g w b)).countKind x b

theorem reported_rest (x : Station) (g : Grade) (w : Fin 4) (b : FrameBody) (s : State) :
    s.reported x g w b =
      { s with flags := (s.reported x g w b).flags, peers := (s.reported x g w b).peers } := by
  cases b <;> rfl

theorem hear_counters (now : Frame) (e : PeerEntry) :
    (e.hear now).counters = e.counters ∧ (e.hear now).worst = e.worst ∧ (e.hear now).present = true ∧
      (e.hear now).lastHeard = now := by
  unfold PeerEntry.hear
  split <;> simp_all

/-- The amends counter after a frame of a kind (R48). -/
def FrameBody.amendsAfter (n : Counter) : FrameBody → Counter
  | .amend _ => rise n 1
  | _ => n

/-- What the entry of an accepted frame's source has heard after it (R37, R38, R48). -/
def State.heardAfter (x : Station) (g : Grade) (w : Fin 4) (b : FrameBody) (s : State) :
    Bool × Frame × Fin 4 × LastOutcome × Counter × Counter × Counter × Counter :=
  (true, s.clock.count, max (s.peer x).worst w, g.outcome, rise (s.peer x).counters.accepted 1,
    riseIf (g == .corrected) (s.peer x).counters.corrected,
    riseIf (g == .marginal) (s.peer x).counters.marginal, b.amendsAfter (s.peer x).counters.amends)

theorem reported_heard (x : Station) (g : Grade) (w : Fin 4) (b : FrameBody) (s : State) :
    ((s.reported x g w b).peer x).heard = s.heardAfter x g w b := by
  have report : (s.report (.accepted x g w b)).peer x = (s.peer x).accept s.clock.count g w :=
    updatePeer_same x _ _
  obtain ⟨counters, worst, present, lastHeard⟩ := hear_counters s.clock.count (s.peer x)
  have accepted : ((s.peer x).accept s.clock.count g w).heard =
      (true, s.clock.count, max (s.peer x).worst w, g.outcome, rise (s.peer x).counters.accepted 1,
        riseIf (g == .corrected) (s.peer x).counters.corrected,
        riseIf (g == .marginal) (s.peer x).counters.marginal, (s.peer x).counters.amends) := by
    simp only [PeerEntry.accept, PeerEntry.heard, counters, worst, present, lastHeard]
  cases b with
  | amend a =>
    have counted : ((s.report (.accepted x g w (.amend a))).countAmend x).peer x =
        { (s.peer x).accept s.clock.count g w with
          counters := { ((s.peer x).accept s.clock.count g w).counters with
            amends := rise ((s.peer x).accept s.clock.count g w).counters.amends 1 } } := by
      rw [← report]; exact updatePeer_same x _ _
    unfold State.reported State.countKind
    simp only [counted]
    simp only [PeerEntry.heard, State.heardAfter, Prod.mk.injEq] at accepted ⊢
    obtain ⟨h1, h2, h3, h4, h5, h6, h7, h8⟩ := accepted
    exact ⟨h1, h2, h3, h4, h5, h6, h7, congrArg (rise · 1) h8⟩
  | _ =>
    unfold State.reported State.countKind
    simp only [report]
    exact accepted

theorem reported_others (x y : Station) (g : Grade) (w : Fin 4) (b : FrameBody) (s : State) (h : y ≠ x) :
    (s.reported x g w b).peer y = s.peer y := by
  have report : (s.report (.accepted x g w b)).peer y = s.peer y := updatePeer_other x y _ _ h
  cases b with
  | amend a => exact (updatePeer_other x y _ _ h).trans report
  | _ => exact report

theorem takeJudged_oneView (own : Bool) (x : Station) (g : Grade) (w : Fin 4) (b : FrameBody) (s : State)
    (hx : own = true → x = s.number) :
    OneView own x (s.reported x g w b) (s.takeJudged own (.accepted x g w b)) :=
  dispatch_oneView own x b (s.report (.accepted x g w b)) hx

theorem takeJudged_marginal (own : Bool) (x : Station) (w : Fin 4) (b : FrameBody) (s : State) :
    hasFlag (s.takeJudged own (.accepted x .marginal w b)).flags .lineMarginal = true :=
  (dispatch_blockFrame own x b (s.report (.accepted x .marginal w b))).flags _
    (hasFlag_or_mask s.flags .lineMarginal)

/-- What a heard frame's end does: as another station's frame, or as the own frame in flight with its end report (R34). -/
theorem receive_cases {rx : Rx} {b : FrameBody} {s : State} (h : s.hears rx b) :
    let j := Judgement.accepted rx.source (gradeOf s.cfg.quality rx.worst) rx.worst b
    s.receive rx b = (s.foreignEnd j).takeJudged false j ∨
      ∃ f, s.line.inFlight = some f ∧ rx.source = s.number ∧
        s.receive rx b =
          ((s.readbackInFlight rx.readback).takeJudged true j).endReport f s.floor.view := by
  intro j
  have receiving := h.1
  unfold State.receive State.frameEnd
  rw [judgeBody_of_hears h, receiving]
  simp only [Bool.not_true, Bool.false_eq_true, if_false]
  split
  · rename_i f hf
    simp only [State.ownFrame, Judgement.source?, Option.some.injEq, reduceCtorEq, false_or] at hf
    split at hf
    · exact .inr ⟨f, hf, ‹_›, rfl⟩
    · cases hf
  · exact .inl rfl

/-- From the state at a frame's end to the state at its dispatch: the lamp, the view and the desk stand. -/
theorem Prelude.to_reported {s u : State} (pre : Prelude s u) (x : Station) (g : Grade) (w : Fin 4)
    (b : FrameBody) :
    EndFrame s (u.reported x g w b) ∧ DeskStands s (u.reported x g w b) ∧
      (u.reported x g w b).floor = s.floor ∧ (u.reported x g w b).port = s.port ∧
      (u.reported x g w b).asm = s.asm := by
  have floorQ := pre.floorQ
  have rest := reported_rest x g w b u
  generalize u.reported x g w b = r at rest
  unfold EndFrame
  rw [rest, pre.rest]
  exact ⟨rfl, ⟨rfl, rfl, rfl, floorQ⟩, rfl, rfl, rfl⟩

theorem Prelude.peer {s u : State} (pre : Prelude s u) (x : Station) : u.peer x = s.peer x := by
  unfold State.peer; rw [pre.entries]

theorem Prelude.clock {s u : State} (pre : Prelude s u) : u.clock = s.clock := by rw [pre.rest]

theorem Prelude.number {s u : State} (pre : Prelude s u) : u.number = s.number := by rw [pre.rest]

theorem receive_ends {rx : Rx} {b : FrameBody} {s : State} (h : s.hears rx b) :
    EndFrame s (s.receive rx b) := by
  obtain e | ⟨f, -, hx, e⟩ := receive_cases h
  · have pre := foreignEnd_prelude
      (.accepted rx.source (gradeOf s.cfg.quality rx.worst) rx.worst b) s
    rw [e]
    exact (takeJudged_oneView false _ _ _ b _ (by simp)).ends.after (pre.to_reported _ _ _ b).1
  · have pre := readbackInFlight_prelude rx.readback s
    rw [e]
    exact (endReport_deskFrame f _ _).view.ends.after
      ((takeJudged_oneView true _ _ _ b _ fun _ => hx.trans pre.number.symm).ends.after
        (pre.to_reported _ _ _ b).1)

theorem Prelude.heardAfter {s u : State} (pre : Prelude s u) (x : Station) (g : Grade) (w : Fin 4)
    (b : FrameBody) : u.heardAfter x g w b = s.heardAfter x g w b := by
  unfold State.heardAfter; rw [pre.peer, pre.clock]

theorem takeJudged_peers {own : Bool} {s u : State} (pre : Prelude s u) (x : Station) (g : Grade) (w : Fin 4)
    (b : FrameBody) (hx : own = true → x = u.number) :
    ((u.takeJudged own (.accepted x g w b)).peer x).heard = s.heardAfter x g w b ∧
      ∀ y, y ≠ x → (u.takeJudged own (.accepted x g w b)).peer y = s.peer y := by
  obtain ⟨heard, others⟩ := (takeJudged_oneView own x g w b u hx).peers
  refine ⟨?_, fun y hy => ?_⟩
  · rw [heard, reported_heard, pre.heardAfter]
  · rw [others y hy, reported_others x y g w b u hy, pre.peer]

theorem endReport_peer (f : InFlight) (before : View) (s : State) (y : Station) :
    (s.endReport f before).peer y = s.peer y := by
  unfold State.peer; rw [(endReport_portFrame f before s).entries]

/-- What the source's entry has heard after a frame's end, and that no other entry has changed (R37, R38, R48). -/
theorem receive_peers {rx : Rx} {b : FrameBody} {s : State} (h : s.hears rx b) :
    ((s.receive rx b).peer rx.source).heard =
        s.heardAfter rx.source (gradeOf s.cfg.quality rx.worst) rx.worst b ∧
      ∀ y, y ≠ rx.source → (s.receive rx b).peer y = s.peer y := by
  obtain e | ⟨f, -, hx, e⟩ := receive_cases h
  · rw [e]
    exact takeJudged_peers (foreignEnd_prelude _ s) _ _ _ b (by simp)
  · have pre := readbackInFlight_prelude rx.readback s
    rw [e]
    simp only [endReport_peer]
    exact takeJudged_peers pre _ _ _ b fun _ => hx.trans pre.number.symm

/-- The lamp at a frame's end: another station's, or an own one with one leave waiting at most (R13, R80, R94). -/
theorem receive_lamp {rx : Rx} {b : FrameBody} {s : State} (h : s.hears rx b)
    (hl : s.foreignTo rx ∨ s.port.leaves = [] ∨ s.port.leaves.length = 1 ∧ s.pendingRequest = none) :
    s.lampFollows (s.receive rx b) := by
  obtain e | ⟨f, hf, hx, e⟩ := receive_cases h
  · have pre := foreignEnd_prelude
      (.accepted rx.source (gradeOf s.cfg.quality rx.worst) rx.worst b) s
    obtain ⟨-, stands, floor, -, -⟩ :=
      pre.to_reported rx.source (gradeOf s.cfg.quality rx.worst) rx.worst b
    rw [e]
    exact lampFollows_congr stands (.refl _) (fun _ => ⟨by rw [floor], rfl⟩)
      (takeJudged_oneView false _ _ _ b _ (by simp)).lamp_foreign
  · have pre := readbackInFlight_prelude rx.readback s
    obtain ⟨-, stands, floor, port, asm⟩ :=
      pre.to_reported rx.source (gradeOf s.cfg.quality rx.worst) rx.worst b
    have once := takeJudged_oneView true rx.source (gradeOf s.cfg.quality rx.worst) rx.worst b
      (s.readbackInFlight rx.readback) fun _ => hx.trans pre.number.symm
    have waiting : s.port.leaves = [] ∨ s.port.leaves.length = 1 ∧ s.pendingRequest = none :=
      hl.resolve_left (by simp [State.foreignTo, hf, hx])
    rw [e]
    by_cases ho : s.cfg.role = .output
    · have dark := once.lamp_output (by rw [stands.cfg]; exact ho)
      have role : ((s.readbackInFlight rx.readback).takeJudged true
          (.accepted rx.source (gradeOf s.cfg.quality rx.worst) rx.worst b)).cfg.role = .output := by
        rw [(takeJudged_blockFrame _ _ _).cfg, pre.rest]; exact ho
      rw [endReport_lamp_output _ _ _ role]
      exact lampFollows_congr stands ⟨rfl, rfl, rfl, rfl⟩ (fun _ => ⟨by rw [floor], rfl⟩) dark
    · have desk := stands.trans (once.own_stands (by rw [stands.cfg]; exact ho))
      obtain ⟨line, port', asm'⟩ := once.own_desk
      refine lampFollows_congr desk (.refl _) (fun k => absurd k ho)
        (endReport_lamp f _ _ (by rw [desk.cfg]; exact ho) ?_)
      have pending (hp : s.pendingRequest = none) : State.pendingRequest
          ((s.readbackInFlight rx.readback).takeJudged true
            (.accepted rx.source (gradeOf s.cfg.quality rx.worst) rx.worst b)) = none := by
        unfold State.pendingRequest at hp ⊢
        rw [desk.floorQ, asm', asm]
        exact hp
      rw [port', port]
      exact waiting.imp_right (And.imp_right pending)

theorem receive_marginal {rx : Rx} {b : FrameBody} {s : State} (h : s.hears rx b)
    (hq : s.cfg.quality ≤ rx.worst.val) (h0 : 0 < rx.worst.val) :
    hasFlag (s.receive rx b).flags .lineMarginal = true := by
  have grade : gradeOf s.cfg.quality rx.worst = .marginal := by
    unfold gradeOf; rw [if_neg (by omega), if_neg (by omega)]
  obtain e | ⟨f, -, -, e⟩ := receive_cases h
  · rw [e, grade]; exact takeJudged_marginal _ _ _ _ _
  · rw [e, grade]; exact (endReport_portFrame _ _ _).flags _ (takeJudged_marginal _ _ _ _ _)

theorem gradeOf_corrected (q : Nat) (w : Fin 4) :
    (gradeOf q w == .corrected) = decide (0 < w.val ∧ w.val < q) := by
  unfold gradeOf
  split
  · exact (decide_eq_false (by omega)).symm
  · split
    · exact (decide_eq_true (by omega)).symm
    · exact (decide_eq_false (by omega)).symm

theorem gradeOf_marginal (q : Nat) (w : Fin 4) :
    (gradeOf q w == .marginal) = decide (0 < w.val ∧ q ≤ w.val) := by
  unfold gradeOf
  split
  · exact (decide_eq_false (by omega)).symm
  · split
    · exact (decide_eq_false (by omega)).symm
    · exact (decide_eq_true (by omega)).symm

/-- Settles O24: the report refreshes the source's entry (`receive_peers`), the dispatch and an own frame's end report
change the view once at most (`receive_cases`, `dispatch_oneView`), and the lamp follows that one change. -/
theorem acceptedFrameRefreshesSource : Obligations.AcceptedFrameRefreshesSource := by
  unfold Obligations.AcceptedFrameRefreshesSource
  intro rx b s h
  obtain ⟨heard, others⟩ := receive_peers h
  simp only [PeerEntry.heard, State.heardAfter, Prod.mk.injEq] at heard
  obtain ⟨present, lastHeard, worst, outcome, accepted, corrected, marginal, amends⟩ := heard
  refine ⟨_, exec_receptionOf rx b s, present, lastHeard, accepted, ?_, ?_, ?_, worst, ?_,
    receive_marginal h, others, receive_lamp h, receive_ends h⟩
  · rw [corrected, gradeOf_corrected]; simp [riseIf]
  · rw [marginal, gradeOf_marginal]; simp [riseIf]
  · rw [amends]; cases b <;> rfl
  · rw [outcome]; unfold gradeOf; split
    · rfl
    · split <;> rfl

end Sys2Proof.Machine

/-! # The ageing of a peer entry -/

namespace Sys2Proof.Machine

/-! ### The ageing of an entry (R40, R41, R63) -/

theorem agedOut_iff (x : Station) (s : State) :
    s.agedOut x = true ↔ (s.peer x).present = true ∧
      (s.cfg.timeoutMultiple * s.cfg.beatInterval : Int) < interval s.clock.count (s.peer x).lastHeard := by
  simp [State.agedOut, Configuration.peerTimeout]

theorem ageOut_due (x : Station) (s : State) (h : s.agedOut x = true) :
    s.ageOut x =
      (s.forgetPeer x).changeView false (s.floor.view.afterGone x) (.gone x) := by
  unfold State.ageOut; rw [if_pos h]; rfl

theorem ageOut_quiet (x : Station) (s : State) (h : s.agedOut x = false) : s.ageOut x = s := by
  unfold State.ageOut; rw [h]; rfl

theorem forgetPeer_stands (x : Station) (s : State) : DeskStands s (s.forgetPeer x) := ⟨rfl, rfl, rfl, rfl⟩

theorem forgetPeer_viewFrame (x : Station) (s : State) : ViewFrame s (s.forgetPeer x) := rfl

theorem ageOut_blocks (x : Station) (s : State) (h : s.agedOut x = true) :
    hasFlag (s.ageOut x).flags .peerGone = true ∧
      (s.ageOut x).peer x = (s.peer x).forget ∧ ∀ y, y ≠ x → (s.ageOut x).peer y = s.peer y := by
  rw [ageOut_due x s h]
  refine ⟨(changeView_blockFrame _ _ _ _).flags _ (raise_sets _ _), ?_, fun y hy => ?_⟩
  · rw [changeView_peer]; exact updatePeer_same x _ s
  · rw [changeView_peer]; exact updatePeer_other x y _ s hy

/-- The lamp, the floor unit and intake after the loss of a station (R13, R53, R63, R64, R80). -/
theorem ageOut_view (x : Station) (s : State) (h : s.agedOut x = true)
    (hv : s.floor.view.afterGone x ≠ s.floor.view) :
    let t := s.ageOut x
    let v := s.floor.view.afterGone x
    t.floor = { s.floor with view := v, lapsed := false } ∧ s.timersFollow v t ∧
      (s.cfg.role ≠ .writer → s.intakeFollows v t) ∧
      (s.cfg.role = .writer → t.intake = s.intake ∧ t.sched = s.sched) := by
  rw [ageOut_due x s h]
  exact ⟨(changeView_floor false _ _ (s.forgetPeer x) hv).1,
    changeView_timersFollow false _ _ (s.forgetPeer x) hv,
    fun ho => changeView_intakeFollows false _ _ (s.forgetPeer x) hv ho (by simp),
    fun hw => changeView_output_writer false _ _ (s.forgetPeer x) hv hw⟩

theorem ageOut_lamp (x : Station) (s : State) : s.lampFollows (s.ageOut x) := by
  cases h : s.agedOut x with
  | false => rw [ageOut_quiet x s h]; exact lampFollows_of_stands (.refl s) fun _ => rfl
  | true =>
    rw [ageOut_due x s h]
    exact lampFollows_congr (forgetPeer_stands x s) (.refl _) (fun _ => ⟨rfl, rfl⟩)
      (changeView_lamp _ _ (s.forgetPeer x))

/-- Settles O27: the entry is forgotten and the view changes by the GONE table (`ageOut_due`), which the floor unit,
intake and the lamp follow as they do any change of view. -/
theorem peerAgesOut : Obligations.PeerAgesOut := by
  unfold Obligations.PeerAgesOut
  intro x s
  refine ⟨fun present silent => ?_, fun still => ?_⟩
  · have due : s.agedOut x = true := (agedOut_iff x s).mpr ⟨present, silent⟩
    obtain ⟨flag, entry, others⟩ := ageOut_blocks x s due
    intro v
    have gone : v = s.floor.view.afterGone x := by
      simp only [v]; unfold View.afterGone; cases s.floor.view <;> rfl
    clear_value v
    subst gone
    refine ⟨s.ageOut x, rfl, flag, entry, others, fun same => ?_, ageOut_lamp x s,
      fun hv => ageOut_view x s due hv, ?_⟩
    · rw [ageOut_due x s due, same]
      rw [show s.floor.view = (s.forgetPeer x).floor.view from rfl, changeView_same]
      rfl
    · rw [ageOut_due x s due]
      exact (changeView_viewFrame false _ _ _).after (forgetPeer_viewFrame x s)
  · have young : s.agedOut x = false := by
      rw [← Bool.not_eq_true, agedOut_iff]
      rintro ⟨present, silent⟩
      obtain h | h := still
      · simp [h] at present
      · omega
    exact congrArg Host.Outcome.next (ageOut_quiet x s young)

end Sys2Proof.Machine

/-! # The lapse and overlap timers -/

namespace Sys2Proof.Machine

/-! ### The lapse and overlap timers (R6, R61, R62) -/

/-- A lapse hands nothing to intake. -/
theorem tellIntake_lapse (h : Station) (sc : Successor) (s : State) :
    s.tellIntake (.offered h sc) (.held h) .lapse = s := by
  unfold State.tellIntake
  split <;> rfl

theorem lapse_output (h : Station) (sc : Successor) (s : State) (hv : s.floor.view = .offered h sc) :
    (s.changeView false (.held h) .lapse).intake = s.intake ∧
      (s.changeView false (.held h) .lapse).sched = s.sched := by
  obtain ⟨intake, sched⟩ := changeView_output false (.held h) .lapse s (by simp [hv])
  rw [intake, sched, hv, tellIntake_lapse]
  exact ⟨rfl, rfl⟩

/-- A writer state worked out that sends changes the port and the lamp alone (R80, R102). -/
theorem workOut_sending (s : State) (h : s.workState.sending = true) :
    s.workOut = { s with port := s.workOut.port, tally := s.workOut.tally } := by
  unfold State.workOut State.changeWriterState
  rw [h]
  split
  · rfl
  · simp only [Bool.not_true, Bool.and_false, Bool.false_eq_true, if_false]
    rfl

theorem lossOfFloor_lapse (old new : View) (s : State) : s.lossOfFloor old new .lapse = false := by
  simp [State.lossOfFloor]

/-- A lapse leaves a queued re-offer standing (R88). -/
theorem viewAnswer_lapse (h : Station) (sc : Successor) (s : State)
    (offers : s.line.floorQ = none ∨ ∃ sc', s.line.floorQ = some (.offer sc')) (idle : s.asm.drain = .idle) :
    s.viewAnswer (.offered h sc) (.held h) .lapse = .stands := by
  unfold State.viewAnswer State.pendingRequest
  obtain e | ⟨sc', e⟩ := offers
  · simp [e, idle]
  · simp [e, lossOfFloor_lapse]

/-- A lapse tells LAPSED, and nothing else, to the writer of the station that offered (R88). -/
theorem answerView_lapse (h : Station) (sc : Successor) (s : State) (hh : h = s.number)
    (offers : s.line.floorQ = none ∨ ∃ sc', s.line.floorQ = some (.offer sc')) (idle : s.asm.drain = .idle) :
    s.answerView (.offered h sc) (.held h) .lapse =
      ({ s with port.splitIdle := false } : State).answer .lapsed := by
  subst hh
  unfold State.answerView
  simp only [lossOfFloor_lapse, viewAnswer_lapse s.number sc s offers idle, Bool.false_eq_true, if_false]
  rw [if_pos ⟨trivial, by simp [View.heldBy, View.holder]⟩]
  rfl

theorem body_of_not_floorInFlight {l : Line} {f : InFlight} (h : l.floorInFlight = false)
    (hf : l.inFlight = some f) : f.body ≠ .claim ∧ (∀ x, f.body ≠ .take x) ∧ f.body ≠ .yield := by
  unfold Line.floorInFlight at h
  rw [hf] at h
  refine ⟨?_, fun x => ?_, ?_⟩ <;> intro e <;> simp [e] at h

/-- The writer of a holder with no leave, drain, CLAIM, TAKE or YIELD of its own is ON_AIR (R79). -/
theorem workState_onAir (s : State) (hv : s.floor.view = .held s.number) (ready : s.port.ready = true)
    (leaves : s.port.leaves = []) (split : s.port.splitIdle = false)
    (landed : s.line.floorInFlight = false) (idle : s.asm.drain = .idle)
    (offers : s.line.floorQ = none ∨ ∃ sc', s.line.floorQ = some (.offer sc')) :
    s.workState = .onAir := by
  have claim : s.claimOut = false := by
    have queued : (s.line.floorQ.map FloorFrame.claims).getD false = false := by
      obtain e | ⟨sc', e⟩ := offers <;> rw [e] <;> rfl
    unfold State.claimOut
    rw [queued, Bool.false_or]
    split
    · rename_i f hf
      obtain ⟨noClaim, noTake, -⟩ := body_of_not_floorInFlight landed hf
      split
      · exact absurd ‹_› noClaim
      · exact absurd ‹_› (noTake _)
      · exact Bool.and_false _
    · rfl
  have leave : s.leaveOut = false := by
    have queued : (s.line.floorQ == some .yield) = false := by
      obtain e | ⟨sc', e⟩ := offers <;> rw [e] <;> rfl
    have flying : (s.line.inFlight.map (·.body) == some .yield) = false := by
      cases hf : s.line.inFlight with
      | none => rfl
      | some f => simpa using (body_of_not_floorInFlight landed hf).2.2
    simp [State.leaveOut, leaves, queued, flying]
  simp [State.workState, ready, claim, leave, split, idle, hv, View.writerState]

/-- The writer of the station whose offer lapses is told LAPSED and is ON_AIR, with no floor frame in flight and no
request but an OFFER queued, which is kept (R88). -/
theorem reactToView_lapse (h : Station) (sc : Successor) (s : State) (hh : h = s.number)
    (hv : s.floor.view = .held h) (ready : s.port.ready = true) (leaves : s.port.leaves = [])
    (landed : s.line.floorInFlight = false) (idle : s.asm.drain = .idle)
    (offers : s.line.floorQ = none ∨ ∃ sc', s.line.floorQ = some (.offer sc')) :
    let t := s.reactToView (.offered h sc) (.held h) .lapse
    t.port = ({ s.port with splitIdle := false }.told [.outcome .lapsed]).settled .onAir ∧
      t.flags = s.flags ∧ t.line = s.line ∧ t.asm = s.asm ∧ t.pause = s.pause := by
  have reacts : s.reactToView (.offered h sc) (.held h) .lapse =
      (({ s with port.splitIdle := false } : State).answer .lapsed).workOut := by
    unfold State.reactToView
    rw [answerView_lapse h sc s hh offers idle]
    simp
  have onAir : (({ s with port.splitIdle := false } : State).answer .lapsed).workState = .onAir := by
    have port : (({ s with port.splitIdle := false } : State).answer .lapsed).port =
        ({ s.port with splitIdle := false } : WriterPort).enqueue (.outcome .lapsed) := rfl
    refine workState_onAir _ (by rw [← hh]; exact hv) ?_ ?_ ?_ landed idle offers <;>
      rw [port, enqueue_rest] <;> assumption
  intro t
  simp only [t, reacts]
  refine ⟨by rw [(workOut_told _).1, onAir]; rfl, ?_⟩
  rw [workOut_sending _ (by rw [onAir]; rfl)]
  exact ⟨rfl, rfl, rfl, rfl⟩

/-- A one-shot timer that is STOPPED or has two ticks to go does not expire at its tick (R6). -/
theorem tick_not_due (t : OneShot) (h : t = none ∨ ∃ r, t = some r ∧ 2 ≤ r) :
    OneShot.due (OneShot.tick t) = false := by
  obtain rfl | ⟨r, rfl, hr⟩ := h
  · rfl
  · simp [OneShot.due, OneShot.tick]; omega

theorem lapseExpiry_counts (s : State) (due : s.ticksDue.lapse = true)
    (h : s.lapse = none ∨ ∃ r, s.lapse = some r ∧ 2 ≤ r) :
    s.lapseExpiry = { s with
      lapse := s.lapse.map (· - 1), ticksDue := { s.ticksDue with lapse := false } } := by
  unfold State.lapseExpiry
  simp only [due, tick_not_due _ h, if_true, Bool.false_eq_true, if_false]
  rfl

theorem lapseExpiry_left (s : State) (h : s.ticksDue.lapse = false) : s.lapseExpiry = s := by
  unfold State.lapseExpiry; rw [h]; rfl

theorem overlapExpiry_counts (s : State) (due : s.ticksDue.overlap = true)
    (h : s.overlap = none ∨ ∃ r, s.overlap = some r ∧ 2 ≤ r) :
    s.overlapExpiry = { s with
      overlap := s.overlap.map (· - 1), ticksDue := { s.ticksDue with overlap := false } } := by
  unfold State.overlapExpiry
  simp only [due, tick_not_due _ h, if_true, Bool.false_eq_true, if_false]
  rfl

theorem overlapExpiry_left (s : State) (h : s.ticksDue.overlap = false) : s.overlapExpiry = s := by
  unfold State.overlapExpiry; rw [h]; rfl

/-- The state in which the lapse timer's expiry is taken: its tick taken, the timer stopped. -/
def State.lapseTaken (s : State) : State := { s with lapse := none, ticksDue.lapse := false }

/-- The state in which the overlap timer's expiry is taken: its tick taken, the timer stopped. -/
def State.overlapTaken (s : State) : State := { s with overlap := none, ticksDue.overlap := false }

theorem lapseExpiry_expires (h : Station) (sc : Successor) (s : State) (due : s.ticksDue.lapse = true)
    (last : s.lapse = some 1) (hv : s.floor.view = .offered h sc) :
    s.lapseExpiry =
      { (s.lapseTaken.changeView false (.held h) .lapse).raise .floorLapse with floor.lapsed := true } := by
  unfold State.lapseExpiry
  simp [due, last, OneShot.tick, OneShot.due, State.lapseOffer, hv, State.lapseTaken]

theorem overlapExpiry_expires (h i : Station) (s : State) (due : s.ticksDue.overlap = true)
    (last : s.overlap = some 1) (hv : s.floor.view = .overlap h i) :
    s.overlapExpiry = s.overlapTaken.changeView false (.held i) .overlapTimer := by
  unfold State.overlapExpiry
  simp [due, last, OneShot.tick, OneShot.due, State.endOverlap, hv, State.overlapTaken]

theorem lapseTaken_stands (s : State) : DeskStands s s.lapseTaken := ⟨rfl, rfl, rfl, rfl⟩

theorem overlapTaken_stands (s : State) : DeskStands s s.overlapTaken := ⟨rfl, rfl, rfl, rfl⟩

/-- What the writer of a lapsed offer is told at the timer's expiry, all its own affairs being settled (R88). -/
theorem lapse_told (h : Station) (sc : Successor) (s : State) (hv : s.floor.view = .offered h sc)
    (hh : h = s.number) (role : s.cfg.role ≠ .output) (ready : s.port.ready = true)
    (leaves : s.port.leaves = []) (landed : s.line.floorInFlight = false) (idle : s.asm.drain = .idle)
    (offers : s.line.floorQ = none ∨ ∃ sc', s.line.floorQ = some (.offer sc')) :
    let t := s.changeView false (.held h) .lapse
    t.port = ({ s.port with splitIdle := false }.told [.outcome .lapsed]).settled .onAir ∧
      t.flags = s.flags ∧ t.line = s.line ∧ t.asm = s.asm ∧ t.pause = s.pause := by
  have silent : ((s.withView (.held h)).tellIntake s.floor.view (.held h) .lapse).tellLamp
      s.floor.view (.held h) = s.withView (.held h) := by
    rw [hv, tellIntake_lapse]
    exact if_neg role
  have writer : (s.withView (.held h)).hasWriter = true := (hasWriter_iff _).mpr role
  have stands : (s.withView (.held h)).viewAnswer (.offered h sc) (.held h) .lapse = .stands :=
    viewAnswer_lapse h sc _ offers idle
  have reacts : s.changeView false (.held h) .lapse =
      (s.withView (.held h)).reactToView (.offered h sc) (.held h) .lapse := by
    rw [changeView_eq false _ _ s (by simp [hv]), if_neg (by simp), silent, hv]
    unfold State.portView
    rw [writer, stands]
    simp
  intro t
  simp only [t, reacts]
  exact reactToView_lapse h sc (s.withView (.held h)) hh rfl ready leaves landed idle offers

/-- Settles O32: each timer's piece counts, is left, or expires (`lapseExpiry_expires`, `overlapExpiry_expires`); an
expiry is a change of view, and a lapse tells its writer (`lapse_told`). -/
theorem floorTimersExpire : Obligations.FloorTimersExpire := by
  unfold Obligations.FloorTimersExpire
  intro s
  refine ⟨fun h sc due last hv => ?_, fun due h => congrArg Host.Outcome.next (lapseExpiry_counts s due h),
    fun h => congrArg Host.Outcome.next (lapseExpiry_left s h), fun h i due last hv => ?_,
    fun due h => congrArg Host.Outcome.next (overlapExpiry_counts s due h),
    fun h => congrArg Host.Outcome.next (overlapExpiry_left s h)⟩
  · have hne : View.held h ≠ s.lapseTaken.floor.view := by simp [State.lapseTaken, hv]
    obtain ⟨floor, lapse, overlap, entries⟩ := changeView_floor false (.held h) .lapse s.lapseTaken hne
    obtain ⟨intake, sched⟩ := lapse_output h sc s.lapseTaken hv
    have lamp := changeView_lamp (.held h) .lapse s.lapseTaken
    have told := lapse_told h sc s.lapseTaken hv
    have frame := changeView_viewFrame false (.held h) .lapse s.lapseTaken
    have expires := lapseExpiry_expires h sc s due last hv
    refine ⟨s.lapseExpiry, rfl, ?_⟩
    rw [expires]
    generalize s.lapseTaken.changeView false (.held h) .lapse = u at *
    have stopped : u.lapse = none := by simp [lapse, View.isOffered, State.lapseTaken, hv]
    have left : u.overlap = s.overlap := by simp [overlap, View.isOverlap, State.lapseTaken, hv]
    refine ⟨by simp [floor, State.lapseTaken], stopped, raise_sets _ _,
      fun hh role ready leaves landed idle offers => ?_, ?_, entries, ?_⟩
    · obtain ⟨port, flags, line, asm, pause⟩ := told hh role ready leaves landed idle offers
      exact ⟨port, congrArg (· ||| Flag.mask .floorLapse) flags, line, asm, pause⟩
    · exact lampFollows_congr (lapseTaken_stands s) ⟨rfl, rfl, rfl, rfl⟩ (fun _ => ⟨rfl, rfl⟩) lamp
    · unfold ViewFrame at frame
      rw [intake, sched, left] at frame
      rw [frame]
      rfl
  · have hne : View.held i ≠ s.overlapTaken.floor.view := by simp [State.overlapTaken, hv]
    obtain ⟨floor, lapse, overlap, entries⟩ :=
      changeView_floor false (.held i) .overlapTimer s.overlapTaken hne
    have frame := changeView_viewFrame false (.held i) .overlapTimer s.overlapTaken
    have lamp := changeView_lamp (.held i) .overlapTimer s.overlapTaken
    have merged := changeView_mergedTo false h i .overlapTimer s.overlapTaken hv
    have expires := overlapExpiry_expires h i s due last hv
    refine ⟨s.overlapExpiry, rfl, ?_⟩
    rw [expires]
    generalize s.overlapTaken.changeView false (.held i) .overlapTimer = u at *
    have stopped : u.overlap = none := by simp [overlap, View.isOverlap, State.overlapTaken, hv]
    have left : u.lapse = s.lapse := by simp [lapse, View.isOffered, State.overlapTaken, hv]
    refine ⟨floor, stopped, lampFollows_congr (overlapTaken_stands s) (.refl _) (fun _ => ⟨rfl, rfl⟩) lamp,
      entries, fun ho => merged ho (by simp), ?_⟩
    unfold ViewFrame at frame
    rw [left] at frame
    rw [frame]
    rfl

end Sys2Proof.Machine

/-! # The tally blink generator, and where beats are deposited -/

namespace Sys2Proof.Machine

/-! ### The tally blink generator (R10 to R12) -/

theorem blinks_iff (p : Pattern) : p.blinks = true ↔ p = .slow ∨ p = .fast := by
  cases p <;> simp [Pattern.blinks]

theorem contTimer_due_iff (t : ContTimer) : t.due = true ↔ t.remaining = some 0 := by
  simp [ContTimer.due]

theorem blinkExpiry_due (s : State) (h : s.tally.timer.remaining = some 0) :
    s.blinkExpiry = { s with tally := s.tally.expire } := by
  unfold State.blinkExpiry; rw [if_pos ((contTimer_due_iff _).mpr h)]

theorem blinkExpiry_left (s : State) (h : s.tally.timer.remaining ≠ some 0) : s.blinkExpiry = s := by
  unfold State.blinkExpiry; rw [if_neg (fun k => h ((contTimer_due_iff _).mp k))]

/-- The lamp, its pattern and its timer after the blink timer's expiry (R8, R9, R11). -/
theorem expire_eq (u : Tally) :
    u.expire = ⟨u.staged.getD u.pattern, none,
      (if u.staged = some .off ∨ u.staged = some .steady then ⟨none, u.timer.staged.getD u.timer.period, none⟩
        else ⟨some (u.timer.staged.getD u.timer.period), u.timer.staged.getD u.timer.period, none⟩), 0,
      decide (u.staged ≠ some .off)⟩ := by
  obtain ⟨pattern, staged, timer, position, lamp⟩ := u
  cases staged with
  | none => rfl
  | some p => cases p <;> rfl

theorem endOnPart_blinks (u : Tally) (hb : u.pattern.blinks = true) (hp : onPart u.timer.period ≤ u.position) :
    u.endOnPart = { u with lamp := false } := by
  unfold Tally.endOnPart
  split
  · rfl
  · rename_i h
    have dark : u.lamp = false := by simpa [Tally.onPartDue, hb, hp] using h
    rw [← dark]

theorem endOnPart_left (u : Tally) (h : u.onPartDue = false) : u.endOnPart = u := by
  unfold Tally.endOnPart; rw [h]; rfl

theorem onPartDue_early (u : Tally) (h : u.position < onPart u.timer.period) : u.onPartDue = false := by
  simp [Tally.onPartDue, Nat.not_le.mpr h]

/-- A request while the pattern in force blinks is staged (R11). -/
theorem request_blinking (P : Nat) (p : Pattern) (u : Tally) (r : Nat) (hb : u.pattern.blinks = true)
    (hr : u.timer.remaining = some r) :
    u.request P p = { u with
      staged := some p
      timer := ⟨some r, u.timer.period, some (if p.blinks then p.period P else u.timer.period)⟩ } := by
  unfold Tally.request ContTimer.writePeriod
  rw [if_pos hb]
  simp [hr]

theorem request_steady (P : Nat) (p : Pattern) (u : Tally) (hb : u.pattern.blinks = false) :
    u.request P p = if p = u.pattern then u else u.takeForce P p := by
  unfold Tally.request; rw [hb]; rfl

/-- Settles O16: the expiry by its equation (`expire_eq`), the on part's end, and a request by whether the pattern in
force blinks. -/
theorem tallyBlinkAndRequests : Obligations.TallyBlinkAndRequests := by
  unfold Obligations.TallyBlinkAndRequests
  refine ⟨fun s => ⟨fun h => ?_, fun h => congrArg Host.Outcome.next (blinkExpiry_left s h), fun hb hp => ?_,
    fun hp => ?_⟩, fun P p u => ⟨fun hb r hr => ?_, fun hn => ?_⟩⟩
  · refine ⟨s.blinkExpiry, rfl, ?_⟩
    rw [blinkExpiry_due s h]
    refine ⟨rfl, ?_⟩
    simp only [expire_eq, true_and]
  · exact congrArg (fun u => Host.Outcome.next { s with tally := u }) (endOnPart_blinks s.tally hb hp)
  · exact congrArg (fun u => Host.Outcome.next { s with tally := u })
      (endOnPart_left s.tally (onPartDue_early s.tally hp))
  · rw [request_blinking P p u r ((blinks_iff _).mpr hb) hr]
    cases p <;> rfl
  · have still : u.pattern.blinks = false := by obtain h | h := hn <;> rw [h] <;> rfl
    rw [request_steady P p u still]
    refine ⟨fun same => if_pos same, fun other => ?_⟩
    rw [if_neg other]
    cases p <;> exact ⟨rfl, rfl, rfl, rfl, rfl⟩

/-! ### Where beats are deposited (R8, R22, R42) -/

theorem depositBeat_eq (s : State) :
    s.depositBeat = { s with line := { s.line with
      beat := some (s.line.beat.getD ⟨0, false⟩)
      beatReplace := s.line.beatReplace || (s.line.beat.isSome && s.line.arb == some .beat) } } := by
  unfold State.depositBeat
  split
  · rename_i h
    simp [h]
  · rename_i b h
    split
    · rename_i ha
      simp [h, ha]
    · rename_i ha
      have away : (s.line.arb == some .beat) = false := by simpa using ha
      have kept : some (s.line.beat.getD ⟨0, false⟩) = s.line.beat := by rw [h]; rfl
      rw [away, Bool.and_false, Bool.or_false, kept]

theorem beatExpiry_due (s : State) (h : s.beatTimer.remaining = some 0) :
    s.beatExpiry = ({ s with beatTimer := s.beatTimer.reload } : State).depositBeat := by
  unfold State.beatExpiry; rw [if_pos ((contTimer_due_iff _).mpr h)]

theorem beatExpiry_left (s : State) (h : s.beatTimer.remaining ≠ some 0) : s.beatExpiry = s := by
  unfold State.beatExpiry; rw [if_neg (fun k => h ((contTimer_due_iff _).mp k))]

theorem enterRunning_left (s : State) (h : s.start ≠ .listening ∨ s.listenCount ≠ 0) :
    s.enterRunning = s := by
  unfold State.enterRunning
  exact if_neg fun k => h.elim (· k.1) (· k.2)

/-- Auto-claim's CLAIM, deposited in IDLE: the port and the lamp tell of it, and nothing else changes (R85, R94). -/
theorem claim_rest (s : State) (h : s.port.wstate = .idle) :
    (s.depositFloor .claim).workOut = { s with
      line := { s.line with floorQ := some .claim }
      port := (s.depositFloor .claim).workOut.port
      tally := (s.depositFloor .claim).workOut.tally } := by
  unfold State.workOut
  split
  · rfl
  · unfold State.changeWriterState
    simp only [State.depositFloor_port, h, WriterState.sending, Bool.false_and, Bool.false_eq_true, if_false]
    rfl

/-- The state at the entry into RUNNING, its beat deposited, before auto-claim is considered (R42). -/
theorem enterRunning_due (s : State) (hs : s.start = .listening) (hc : s.listenCount = 0)
    (hb : s.line.beat = none) :
    s.enterRunning = ({ s with
      start := .running
      beatTimer := ⟨some s.cfg.beatInterval, s.cfg.beatInterval, none⟩
      line := { s.line with beat := some ⟨0, false⟩ } } : State).autoClaim := by
  unfold State.enterRunning
  rw [if_pos ⟨hs, hc⟩]
  unfold State.depositBeat
  simp only [hb]
  rfl

/-- Settles O13: the entry into RUNNING deposits a beat and lets auto-claim decide (`autoClaim_claims`,
`autoClaim_left`); the beat timer's expiry reloads and deposits. -/
theorem beatsAreDeposited : Obligations.BeatsAreDeposited := by
  unfold Obligations.BeatsAreDeposited
  refine ⟨fun s => ⟨fun hs hc hb => ?_, fun h => congrArg Host.Outcome.next (enterRunning_left s h)⟩,
    fun s => ⟨fun h => ?_, fun h => congrArg Host.Outcome.next (beatExpiry_left s h)⟩⟩
  · refine ⟨s.enterRunning, rfl, ?_⟩
    rw [enterRunning_due s hs hc hb]
    generalize hu : ({ s with
      start := .running
      beatTimer := ⟨some s.cfg.beatInterval, s.cfg.beatInterval, none⟩
      line := { s.line with beat := some ⟨0, false⟩ } } : State) = u
    have applies : u.claims ↔ s.cfg.autoClaim = true ∧ s.cfg.role ≠ .output ∧ s.floor.view = .vacant ∧
        s.port.wstate = .idle ∧ s.pendingRequest = none ∧ s.line.floorInFlight = false := by
      subst hu
      simp only [State.claims, true_and]
      rfl
    by_cases h : u.claims
    · have idle := h.2.2.2.2.1
      rw [if_pos (applies.mp h), autoClaim_claims u h, claim_rest u idle]
      subst hu
      exact ⟨rfl, rfl, rfl, rfl, rfl⟩
    · rw [if_neg (mt applies.mpr h), autoClaim_left u h]
      subst hu
      exact ⟨rfl, rfl, rfl, rfl, rfl⟩
  · refine congrArg Host.Outcome.next ?_
    rw [beatExpiry_due s h, depositBeat_eq]
    rfl

end Sys2Proof.Machine

/-! # Closing the open segment -/

namespace Sys2Proof.Machine

/-! ### Closing the open segment (R97 to R99) -/

/-- The open segment as it closes: under the next number, with the new-speaker mark (R99). -/
def State.openSegment (s : State) : QueuedSegment :=
  ⟨s.asm.nextNumber, s.asm.newSpeaker, s.asm.words.map fun w => ⟨w.text, w.speech⟩⟩

/-- The assembler with its open segment closed. -/
def Assembler.closed (a : Assembler) : Assembler :=
  { a with
    words := [], newSpeaker := false, nextNumber := a.nextNumber + 1#8
    history := closeEntries a.nextNumber a.words.length a.history }

theorem openSegment_bodyLength (s : State) :
    s.openSegment.bodyLength = 6 + (s.asm.words.map fun w => w.text.length + 2).sum := by
  simp [QueuedSegment.bodyLength, State.openSegment, Function.comp_def]

/-- An open segment that holds words and fits the body closes by being deposited (R99). -/
theorem closeOpen_deposits (s : State) (hw : s.asm.words ≠ [])
    (fits : 6 + (s.asm.words.map fun w => w.text.length + 2).sum ≤ s.cfg.maxBody) :
    s.closeOpen =
      { ({ s with asm := s.asm.closed } : State).makeSegmentRoom with
        line.segQ := ({ s with asm := s.asm.closed } : State).makeSegmentRoom.line.segQ ++ [s.openSegment]
        pause := none } := by
  have closes : s.closeFirst s.asm.words.length =
      ({ s with asm := s.asm.closed } : State).depositSegment s.openSegment := by
    unfold State.closeFirst
    simp only [List.drop_length, List.take_length]
    rfl
  rw [← openSegment_bodyLength] at fits
  unfold State.closeOpen
  rw [if_neg (by simpa using hw), closes]
  unfold State.depositSegment
  rw [if_neg (Nat.not_lt.mpr fits)]

theorem makeSegmentRoom_roomy (s : State) (h : s.line.segQ.length < 8) : s.makeSegmentRoom = s := by
  unfold State.makeSegmentRoom; exact if_pos h

/-- Room made in a full segment queue: the oldest segment not under arbitration goes with its words, and a source
drop is counted (R21, R49, R99). -/
theorem makeSegmentRoom_full (s : State) (g : QueuedSegment) (h : s.line.segQ.length = 8)
    (hg : s.line.segQ[s.line.discardable]? = some g) :
    s.makeSegmentRoom = { s with
      line.segQ := s.line.segQ.eraseIdx s.line.discardable
      asm.history := dropQueued g.number s.asm.history
      peers.counters.drops := s.dropsAfter 1
      flags := s.flags ||| Flag.mask .srcDrop } := by
  unfold State.makeSegmentRoom
  rw [if_neg (by simp [segmentCapacity, h]), hg]
  exact countDrops_eq 1 _ (by decide)

theorem discardable_lt (s : State) (h : s.line.segQ.length = 8) :
    s.line.discardable < s.line.segQ.length := by
  unfold Line.discardable; split <;> omega

theorem closeOpen_room (s : State) (hw : s.asm.words ≠ [])
    (fits : 6 + (s.asm.words.map fun w => w.text.length + 2).sum ≤ s.cfg.maxBody)
    (room : s.line.segQ.length < 8) :
    s.closeOpen = { s with
      asm := s.asm.closed, line.segQ := s.line.segQ ++ [s.openSegment], pause := none } := by
  rw [closeOpen_deposits s hw fits, makeSegmentRoom_roomy { s with asm := s.asm.closed } room]

theorem closeOpen_full (s : State) (hw : s.asm.words ≠ [])
    (fits : 6 + (s.asm.words.map fun w => w.text.length + 2).sum ≤ s.cfg.maxBody) (g : QueuedSegment)
    (full : s.line.segQ.length = 8) (hg : s.line.segQ[s.line.discardable]? = some g) :
    s.closeOpen = { s with
      asm := { s.asm.closed with history := dropQueued g.number s.asm.closed.history }
      line.segQ := s.line.segQ.eraseIdx s.line.discardable ++ [s.openSegment]
      peers.counters.drops := s.dropsAfter 1
      flags := s.flags ||| Flag.mask .srcDrop
      pause := none } := by
  rw [closeOpen_deposits s hw fits, makeSegmentRoom_full { s with asm := s.asm.closed } g full hg]
  rfl

theorem closeOpen_empty (s : State) (h : s.asm.words = []) : s.closeOpen = s := by
  unfold State.closeOpen; rw [h]; rfl

/-- What a closed segment leaves, whatever becomes of the new-speaker mark and of the ticks still due (R21, R49,
R99). -/
def State.closesTo (s t : State) : Prop :=
  let full := s.line.segQ.length = 8
  let oldest := if s.line.arb = some .segment then 1 else 0
  let moved := s.asm.history.map fun e => match e.place with
    | .opened i =>
      { e with place := if i < s.asm.words.length then .queued s.asm.nextNumber i
          else .opened (i - s.asm.words.length) }
    | _ => e
  t.asm.words = [] ∧ t.asm.nextNumber = s.asm.nextNumber + 1#8 ∧ t.pause = none ∧
    t.line = { s.line with segQ := (if full then s.line.segQ.eraseIdx oldest else s.line.segQ) ++
      [⟨s.asm.nextNumber, s.asm.newSpeaker, s.asm.words.map fun w => ⟨w.text, w.speech⟩⟩] } ∧
    t.flags = s.flags ||| (if full then Flag.mask .srcDrop else 0#24) ∧
    t.peers = (if full then { s.peers with counters := { s.peers.counters with
      drops := s.dropsAfter 1 } } else s.peers) ∧
    (¬full → t.asm.history = moved) ∧
    (full → ∃ g, s.line.segQ[oldest]? = some g ∧
      t.asm.history = moved.filter fun e => match e.place with
        | .queued m _ => m != g.number
        | _ => true) ∧
    t = { s with
      flags := t.flags, pause := t.pause, line := t.line, peers := t.peers, ticksDue := t.ticksDue
      asm := { s.asm with
        words := t.asm.words, newSpeaker := t.asm.newSpeaker, nextNumber := t.asm.nextNumber
        history := t.asm.history } }

theorem closeOpen_closesTo (s : State) (due : TicksDue) (timer : OneShot) (mark : Bool)
    (hw : s.asm.words ≠ []) (hl : s.line.segQ.length ≤ 8)
    (fits : 6 + (s.asm.words.map fun w => w.text.length + 2).sum ≤ s.cfg.maxBody) :
    s.closesTo { ({ s with ticksDue := due, pause := timer } : State).closeOpen with
      asm.newSpeaker := mark } := by
  by_cases full : s.line.segQ.length = 8
  · have hg := List.getElem?_eq_getElem (discardable_lt s full)
    rw [closeOpen_full { s with ticksDue := due, pause := timer } hw fits _ full hg]
    refine ⟨rfl, rfl, rfl, ?_, ?_, ?_, fun n => absurd full n, fun _ => ⟨_, hg, rfl⟩, rfl⟩
    · rw [if_pos full]; rfl
    · rw [if_pos full]
    · rw [if_pos full]; rfl
  · have room : s.line.segQ.length < 8 := by omega
    rw [closeOpen_room { s with ticksDue := due, pause := timer } hw fits room]
    refine ⟨rfl, rfl, rfl, ?_, ?_, ?_, fun _ => rfl, fun f => absurd f full, rfl⟩
    · rw [if_neg full]; rfl
    · rw [if_neg full, BitVec.or_zero]
    · rw [if_neg full]

/-! ### The pause timer and the records that close (R82, R97, R98) -/

theorem pauseExpiry_expires (s : State) (due : s.ticksDue.pause = true) (last : s.pause = some 1) :
    s.pauseExpiry =
      ({ s with ticksDue := { s.ticksDue with pause := false }, pause := none } : State).closeOpen := by
  unfold State.pauseExpiry
  simp [due, last, OneShot.tick, OneShot.due]

theorem pauseExpiry_counts (s : State) (due : s.ticksDue.pause = true)
    (h : s.pause = none ∨ ∃ r, s.pause = some r ∧ 2 ≤ r) :
    s.pauseExpiry = { s with
      pause := s.pause.map (· - 1), ticksDue := { s.ticksDue with pause := false } } := by
  unfold State.pauseExpiry
  simp only [due, tick_not_due _ h, if_true, Bool.false_eq_true, if_false]
  rfl

theorem pauseExpiry_left (s : State) (h : s.ticksDue.pause = false) : s.pauseExpiry = s := by
  unfold State.pauseExpiry; rw [h]; rfl

/-- A record that the port takes at once, with no REPLACE waiting, is taken by its own rule (R75, R83). -/
theorem recordIn_performs (kind : Byte) (content : List Byte) (s : State) (r : WriterRecord)
    (takes : s.takesRecords) (hr : parseRecord kind content = some r) (hc : clips kind content = false) :
    s.recordIn kind content false = s.performWell r := by
  unfold State.recordIn State.takeRecord State.performRecord
  simp only [takes.1, takes.2, hr, hc, Bool.not_true, Bool.false_eq_true, if_false, Bool.false_and]

theorem dropReplacement_none (s : State) (h : s.port.replacement = none) : s.dropReplacement = s := by
  unfold State.dropReplacement; rw [h]

theorem exec_speakerBreak_takes (s : State) (takes : s.takesRecords) (alone : s.port.replacement = none)
    (present : s.port.wstate ≠ .absent) : exec .speakerBreak s = .next s.breakSegment := by
  refine congrArg Host.Outcome.next ((recordIn_performs _ _ s .speakerBreak takes rfl rfl).trans ?_)
  unfold State.performWell State.takeBreak
  simp only [dropReplacement_none s alone, if_neg present]

theorem exec_flush_takes (s : State) (takes : s.takesRecords) (alone : s.port.replacement = none)
    (present : s.port.wstate ≠ .absent) : exec .flush s = .next s.closeOpen := by
  refine congrArg Host.Outcome.next ((recordIn_performs _ _ s .flush takes rfl rfl).trans ?_)
  unfold State.performWell State.takeFlush
  simp only [dropReplacement_none s alone, if_neg present]

/-- A closed segment leaves the mark clear and the ticks still due as they stood (R98, R99). -/
theorem closeOpen_mark (s : State) (hw : s.asm.words ≠ []) (hl : s.line.segQ.length ≤ 8)
    (fits : 6 + (s.asm.words.map fun w => w.text.length + 2).sum ≤ s.cfg.maxBody) :
    s.closeOpen.asm.newSpeaker = false ∧ s.closeOpen.ticksDue = s.ticksDue := by
  by_cases full : s.line.segQ.length = 8
  · rw [closeOpen_full s hw fits _ full (List.getElem?_eq_getElem (discardable_lt s full))]
    exact ⟨rfl, rfl⟩
  · rw [closeOpen_room s hw fits (by omega)]
    exact ⟨rfl, rfl⟩

theorem withMark_self (s : State) (b : Bool) (h : s.asm.newSpeaker = b) :
    { s with asm.newSpeaker := b } = s := by rw [← h]

/-- Settles O49: BREAK, FLUSH and the pause timer's expiry all close by `closeOpen`, whose effect is
`closeOpen_closesTo`. -/
theorem segmentClosesOnRequest : Obligations.SegmentClosesOnRequest := by
  unfold Obligations.SegmentClosesOnRequest
  intro s hl fits full oldest moved closed
  refine ⟨fun takes alone present => ⟨fun hw => ⟨⟨_, exec_speakerBreak_takes s takes alone present, ?_⟩,
    ⟨_, exec_flush_takes s takes alone present, ?_⟩⟩, fun he => ⟨?_, ?_⟩⟩, fun due last hw => ?_,
    fun due h => congrArg Host.Outcome.next (pauseExpiry_counts s due h),
    fun h => congrArg Host.Outcome.next (pauseExpiry_left s h)⟩
  · exact ⟨closeOpen_closesTo s s.ticksDue s.pause true hw hl fits, rfl, (closeOpen_mark s hw hl fits).2⟩
  · obtain ⟨mark, ticks⟩ := closeOpen_mark s hw hl fits
    have closes := closeOpen_closesTo s s.ticksDue s.pause false hw hl fits
    rw [withMark_self s.closeOpen false mark] at closes
    exact ⟨closes, mark, ticks⟩
  · rw [exec_speakerBreak_takes s takes alone present]
    unfold State.breakSegment
    rw [closeOpen_empty s he]
  · rw [exec_flush_takes s takes alone present, closeOpen_empty s he]
  · obtain ⟨mark, ticks⟩ := closeOpen_mark
      { s with ticksDue := { s.ticksDue with pause := false }, pause := none } hw hl fits
    have closes := closeOpen_closesTo s { s.ticksDue with pause := false } none false hw hl fits
    rw [withMark_self _ false mark] at closes
    refine ⟨s.pauseExpiry, rfl, ?_⟩
    rw [pauseExpiry_expires s due last]
    exact ⟨closes, mark, ticks⟩

end Sys2Proof.Machine

/-! # The frame tick -/

namespace Sys2Proof.Machine

/-! ### The screen's stages (R159) -/

theorem ScreenFrame.refl (s : State) : ScreenFrame s s := rfl
theorem ScreenFrame.after {a b c : State} (k : ScreenFrame b c) (h : ScreenFrame a b) : ScreenFrame a c :=
  h.trans k

theorem expireCues_screenFrame (s : State) : ScreenFrame s s.expireCues := rfl

theorem joinVisible_screenFrame (c : Cue) (s : State) : ScreenFrame s (s.joinVisible c) := rfl

theorem compareOnset_screenFrame (s : State) : ScreenFrame s s.compareOnset := by
  unfold State.compareOnset; split <;> rfl

theorem showDue_screenFrame (s : State) : ScreenFrame s s.showDue := by
  have taken (u : State) (h : ScreenFrame s u) : ScreenFrame s (match u.awaited with
      | none => u
      | some c => u.joinVisible c) := by
    split
    · exact h
    · exact (joinVisible_screenFrame _ u).after h
  refine taken _ ?_
  split
  · exact .refl s
  · exact compareOnset_screenFrame s

theorem zoneStage_screenFrame (s : State) : ScreenFrame s s.zoneStage := by
  unfold State.zoneStage
  simp only
  split
  · exact .refl s
  · split
    · rfl
    · split <;> rfl

theorem compose_screenFrame (s : State) : ScreenFrame s s.compose := by
  unfold State.compose
  split
  · exact .refl s
  · simp only
    split <;> rfl

theorem screenFrom3_screenFrame (s : State) : ScreenFrame s s.screenFrom3 := by
  have done (u : State) : ScreenFrame u { u with screenDue := .done } := rfl
  exact (done _).after ((compose_screenFrame _).after (showDue_screenFrame s))

theorem screenFrom2_screenFrame (s : State) : ScreenFrame s s.screenFrom2 :=
  (screenFrom3_screenFrame _).after (expireCues_screenFrame s)

theorem screenTick_screenFrame (left : List TickEvent) (s : State) : ScreenFrame s (s.screenTick left) := by
  have first : ScreenFrame s (s.screenStage1 left) := by
    unfold State.screenStage1
    split
    · exact (zoneStage_screenFrame _).after (compareOnset_screenFrame s)
    · exact zoneStage_screenFrame s
  have leaves (d : ScreenDue) (u : State) : ScreenFrame u { u with screenDue := d } := rfl
  unfold State.screenTick
  split
  · exact .refl s
  · simp only
    split
    · exact (leaves _ _).after first
    · split
      · exact (leaves _ _).after ((expireCues_screenFrame _).after first)
      · exact (screenFrom2_screenFrame _).after first

/-- A tick that leaves no stage of the screen leaves none outstanding (R159). -/
theorem screenTick_done (left : List TickEvent) (s : State) (hd : s.screenDue = .done)
    (he : TickEvent.cueExpires ∉ left) (hs : TickEvent.showCue ∉ left) :
    (s.screenTick left).screenDue = .done := by
  unfold State.screenTick
  split
  · exact hd
  · simp only [List.contains_iff_mem, he, hs, if_false]
    rfl

/-! ### The pieces of a tick's work (log entry 6) -/

/-- One piece of a tick's work, but where it is left to a later step. -/
def State.performUnless (left : List TickEvent) (e : TickEvent) (s : State) : State :=
  if e ∈ left then s else s.perform e

/-- A tick's work is its pieces in their order, each but where it is left. -/
theorem tickWork_eq (left : List TickEvent) (s : State) :
    s.tickWork left = tickOrder.foldl (fun s e => s.performUnless left e) s := by
  unfold State.tickWork State.performUnless
  rw [List.foldl_filter]
  congr 1
  funext u e
  by_cases h : e ∈ left <;> simp [h]

theorem ageAll_quiet (s : State) (h : ∀ x, s.agedOut x = false) : s.ageAll = s := by
  have fold (xs : List Station) : xs.foldl (fun s x => s.ageOut x) s = s := by
    induction xs with
    | nil => rfl
    | cons x xs ih => rw [List.foldl_cons, ageOut_quiet x s (h x)]; exact ih
  exact fold _

theorem pausePiece (left : List TickEvent) (s : State) (due : s.ticksDue.pause = true)
    (h : s.pause = none ∨ ∃ r, s.pause = some r ∧ 2 ≤ r) :
    s.performUnless left .pause = { s with
      pause := if .pause ∈ left then s.pause else s.pause.map (· - 1)
      ticksDue.pause := decide (.pause ∈ left) } := by
  unfold State.performUnless
  by_cases hl : TickEvent.pause ∈ left
  · simp only [hl, if_true, decide_true, ← due]
  · simp only [hl, if_false, decide_false]
    exact pauseExpiry_counts s due h

theorem lapsePiece (left : List TickEvent) (s : State) (due : s.ticksDue.lapse = true)
    (h : s.lapse = none ∨ ∃ r, s.lapse = some r ∧ 2 ≤ r) :
    s.performUnless left .lapse = { s with
      lapse := if .lapse ∈ left then s.lapse else s.lapse.map (· - 1)
      ticksDue.lapse := decide (.lapse ∈ left) } := by
  unfold State.performUnless
  by_cases hl : TickEvent.lapse ∈ left
  · simp only [hl, if_true, decide_true, ← due]
  · simp only [hl, if_false, decide_false]
    exact lapseExpiry_counts s due h

theorem overlapPiece (left : List TickEvent) (s : State) (due : s.ticksDue.overlap = true)
    (h : s.overlap = none ∨ ∃ r, s.overlap = some r ∧ 2 ≤ r) :
    s.performUnless left .overlap = { s with
      overlap := if .overlap ∈ left then s.overlap else s.overlap.map (· - 1)
      ticksDue.overlap := decide (.overlap ∈ left) } := by
  unfold State.performUnless
  by_cases hl : TickEvent.overlap ∈ left
  · simp only [hl, if_true, decide_true, ← due]
  · simp only [hl, if_false, decide_false]
    exact overlapExpiry_counts s due h

/-- The pieces besides the lamp's on part and the one-shot timers have nothing to do. -/
structure Unhurried (s : State) : Prop where
  blink : s.tally.timer.remaining ≠ some 0
  beat : s.beatTimer.remaining ≠ some 0
  running : s.start ≠ .listening ∨ s.listenCount ≠ 0
  peers : ∀ x, s.agedOut x = false

theorem Unhurried.performUnless {s : State} (h : Unhurried s) (left : List TickEvent) (e : TickEvent)
    (he : e = .tallyBlink ∨ e = .beat ∨ e = .running ∨ e = .peerAgeOut) : s.performUnless left e = s := by
  unfold State.performUnless
  split
  · rfl
  · obtain rfl | rfl | rfl | rfl := he
    · exact blinkExpiry_left s h.blink
    · exact beatExpiry_left s h.beat
    · exact enterRunning_left s h.running
    · exact ageAll_quiet s h.peers

theorem endOnPart_timer (u : Tally) : u.endOnPart.timer = u.timer := by
  unfold Tally.endOnPart; split <;> rfl

/-- A tick's work where nothing comes to its end: the lamp may end its on part, and the one-shot timers that are not
left take the tick. -/
theorem tickWork_unhurried (left : List TickEvent) (s : State) (h : Unhurried s)
    (hl : ∀ e ∈ left, e = .pause ∨ e = .lapse ∨ e = .overlap) (due : s.ticksDue = ⟨true, true, true⟩)
    (hp : s.pause = none ∨ ∃ r, s.pause = some r ∧ 2 ≤ r)
    (hla : s.lapse = none ∨ ∃ r, s.lapse = some r ∧ 2 ≤ r)
    (ho : s.overlap = none ∨ ∃ r, s.overlap = some r ∧ 2 ≤ r) :
    s.tickWork left = { s with
      tally := s.tally.endOnPart
      pause := if .pause ∈ left then s.pause else s.pause.map (· - 1)
      lapse := if .lapse ∈ left then s.lapse else s.lapse.map (· - 1)
      overlap := if .overlap ∈ left then s.overlap else s.overlap.map (· - 1)
      ticksDue := ⟨decide (.pause ∈ left), decide (.lapse ∈ left), decide (.overlap ∈ left)⟩ } := by
  have lamp : s.performUnless left .tallyOnPartEnd = s.onPartEnd :=
    if_neg fun hm => by simpa using hl _ hm
  have h1 : Unhurried s.onPartEnd :=
    ⟨by unfold State.onPartEnd; rw [endOnPart_timer]; exact h.blink, h.beat, h.running, h.peers⟩
  have tail (u : State) (hu : Unhurried u) :
      ((u.performUnless left .beat).performUnless left .running).performUnless left .peerAgeOut = u := by
    rw [hu.performUnless left .beat (by simp), hu.performUnless left .running (by simp),
      hu.performUnless left .peerAgeOut (by simp)]
  rw [tickWork_eq]
  simp only [tickOrder, List.foldl_cons, List.foldl_nil]
  rw [lamp, h1.performUnless left .tallyBlink (by simp), pausePiece, lapsePiece, overlapPiece]
  · exact tail _ ⟨h1.blink, h1.beat, h1.running, h1.peers⟩
  · exact congrArg TicksDue.overlap due
  · exact ho
  · exact congrArg TicksDue.lapse due
  · exact hla
  · exact congrArg TicksDue.pause due
  · exact hp

/-- The count of a timer that has two ticks to go, in the form the pieces take it. -/
theorem oneShot_running {t : OneShot} (h : ∀ r ∈ t, 2 ≤ r) : t = none ∨ ∃ r, t = some r ∧ 2 ≤ r := by
  cases t with
  | none => exact .inl rfl
  | some r => exact .inr ⟨r, rfl, h r rfl⟩

/-- A station whose blink timer, beat timer and listen count are not at 0, and whose entries are young. -/
theorem unhurried_of_quiet {s : State} (h : s.quiet) : Unhurried s := by
  obtain ⟨-, -, -, -, -, -, -, beat, blink, -, listen, peers⟩ := h
  refine ⟨fun e => by simpa using blink 0 e, fun e => by simpa using beat 0 e, ?_, fun x => ?_⟩
  · by_cases hs : s.start = .listening
    · exact .inr (by have := listen hs; omega)
    · exact .inl hs
  · rw [← Bool.not_eq_true, agedOut_iff]
    rintro ⟨present, silent⟩
    have := (peers x present).1
    omega

/-- A quiet station has nothing outstanding of the tick before. -/
theorem settle_quiet (s : State) (h : s.quiet) : s.settle = s := by
  have unhurried := unhurried_of_quiet h
  obtain ⟨-, -, due, screen, -, -, -, -, -, lamp, -, -⟩ := h
  have dark : s.tally.onPartDue = false := by
    rw [← Bool.not_eq_true]
    intro on
    simp only [Tally.onPartDue, Bool.and_eq_true, decide_eq_true_eq] at on
    have := lamp on.1.1 on.1.2
    unfold onPart at on
    omega
  have onPart : s.performUnless [] .tallyOnPartEnd = s := by
    show s.onPartEnd = s
    unfold State.onPartEnd
    rw [endOnPart_left _ dark]
  have pause : s.performUnless [] .pause = s := pauseExpiry_left s (by rw [due])
  have lapse : s.performUnless [] .lapse = s := lapseExpiry_left s (by rw [due])
  have overlap : s.performUnless [] .overlap = s := overlapExpiry_left s (by rw [due])
  have work : s.tickWork [] = s := by
    rw [tickWork_eq]
    simp only [tickOrder, List.foldl_cons, List.foldl_nil, onPart, pause, lapse, overlap,
      unhurried.performUnless [] .tallyBlink (by simp), unhurried.performUnless [] .beat (by simp),
      unhurried.performUnless [] .running (by simp), unhurried.performUnless [] .peerAgeOut (by simp)]
  unfold State.settle State.screenSettle
  rw [work, screen]

/-- The count's advance leaves a quiet station's timers short of their ends. -/
theorem unhurried_advance {s : State} (gzl gzu : Bool) (h : s.quiet) : Unhurried (s.advance gzl gzu) := by
  obtain ⟨-, -, -, -, -, -, -, beat, blink, -, listen, peers⟩ := h
  have short (t : ContTimer) (ht : ∀ r ∈ t.remaining, 2 ≤ r) : t.tick.remaining ≠ some 0 := by
    intro e
    obtain ⟨r, hr, he⟩ := Option.map_eq_some_iff.mp e
    have := ht r hr
    omega
  refine ⟨?_, short _ beat, ?_, fun x => ?_⟩
  · simp only [State.advance, Tally.tick]
    split
    · exact short _ blink
    · exact fun e => by simpa using blink 0 e
  · by_cases hs : s.start = .listening
    · have := listen hs
      exact .inr (by simp only [State.advance, hs, if_true]; omega)
    · exact .inl hs
  · rw [← Bool.not_eq_true, agedOut_iff]
    rintro ⟨present, silent⟩
    have young := (peers x present).2
    exact absurd silent (not_lt.mpr young)

/-- The lamp at a tick of a quiet station (R10). -/
theorem tick_endOnPart (u : Tally) :
    u.tick.endOnPart = if u.pattern.blinks = true then
      { u with
        timer := { u.timer with remaining := u.timer.remaining.map (· - 1) }
        position := u.position + 1
        lamp := u.lamp && decide (u.position + 1 < u.timer.period / 2) }
      else u := by
  unfold Tally.tick
  by_cases hb : u.pattern.blinks = true
  · rw [if_pos hb, if_pos hb]
    unfold Tally.endOnPart Tally.onPartDue onPart
    simp only [hb, Bool.true_and, ContTimer.tick]
    by_cases hp : u.position + 1 < u.timer.period / 2
    · simp [hp, Nat.not_le.mpr hp]
    · cases u.lamp <;> simp [hp, Nat.not_lt.mp hp]
  · rw [if_neg hb, if_neg hb]
    exact endOnPart_left u (by simp [Tally.onPartDue, hb])

/-- The station after the work of a tick at which nothing comes to its end, before the screen's stages. -/
def State.ticked (gzl gzu : Bool) (left : List TickEvent) (s : State) : State :=
  { s with
    clock := ⟨s.clock.count + 1#32, s.clock.ref, gzl, gzu⟩
    pause := if .pause ∈ left then s.pause else s.pause.map (· - 1)
    lapse := if .lapse ∈ left then s.lapse else s.lapse.map (· - 1)
    overlap := if .overlap ∈ left then s.overlap else s.overlap.map (· - 1)
    ticksDue := ⟨decide (.pause ∈ left), decide (.lapse ∈ left), decide (.overlap ∈ left)⟩
    beatTimer := s.beatTimer.tick
    tally := s.tally.tick.endOnPart
    floor := { s.floor with lapsed := false }
    listenCount := if s.start = .listening then s.listenCount - 1 else s.listenCount }

theorem tick_quiet (gzl gzu : Bool) (left : List TickEvent) (s : State) (h : s.quiet)
    (hl : ∀ e ∈ left, e = .pause ∨ e = .lapse ∨ e = .overlap) :
    s.tick gzl gzu left = (s.ticked gzl gzu left).screenTick left := by
  have unhurried := unhurried_advance gzl gzu h
  have settled := settle_quiet s h
  obtain ⟨-, -, -, -, pause, lapse, overlap, -⟩ := h
  unfold State.tick
  rw [settled, tickWork_unhurried left (s.advance gzl gzu) unhurried hl rfl (oneShot_running pause)
    (oneShot_running lapse) (oneShot_running overlap)]
  rfl

theorem live_iff (s : State) : s.live = true ↔ s.start ≠ .loading ∧ s.resetHeld = false := by
  simp [State.live]

theorem fpEdge_active (e : FpEdge) (gzl gzu : Bool) (left : List TickEvent) (s : State)
    (hs : s.start ≠ .loading) (hr : s.resetHeld = false) (he : e = s.cfg.fpEdge) :
    s.fpEdge e gzl gzu left = (s.withRef .locked).tick gzl gzu left := by
  unfold State.fpEdge
  rw [if_pos (by simp [(live_iff s).mpr ⟨hs, hr⟩, he])]

/-- Settles O15: nothing is outstanding before the tick (`settle_quiet`), its work is that of `State.ticked`, and the
screen's stages touch the screen's blocks alone. -/
theorem tickLowersEveryTimer : Obligations.TickLowersEveryTimer := by
  unfold Obligations.TickLowersEveryTimer
  intro gzl gzu left s h hl
  have ⟨running, released, _, screen, _⟩ := h
  have tick : s.fpEdge s.cfg.fpEdge gzl gzu left =
      ((s.withRef .locked).ticked gzl gzu left).screenTick left :=
    (fpEdge_active _ gzl gzu left s running released rfl).trans (tick_quiet gzl gzu left (s.withRef .locked) h hl)
  have done := (screenTick_done left ((s.withRef .locked).ticked gzl gzu left) screen
    (fun hm => by simpa using hl _ hm) (fun hm => by simpa using hl _ hm)).trans screen.symm
  have frame := screenTick_screenFrame left ((s.withRef .locked).ticked gzl gzu left)
  have idle (hw : s.cfg.role = .writer) : ((s.withRef .locked).ticked gzl gzu left).screenTick left =
      (s.withRef .locked).ticked gzl gzu left := by
    unfold State.screenTick
    rw [show ((s.withRef .locked).ticked gzl gzu left).hasOutput = false by
      simp [State.hasOutput, State.ticked, State.withRef, hw]]
    rfl
  refine ⟨s.fpEdge s.cfg.fpEdge gzl gzu left, rfl, ?_⟩
  rw [tick]
  generalize ((s.withRef .locked).ticked gzl gzu left).screenTick left = t at *
  unfold ScreenFrame at frame
  rw [done] at frame
  have lamp : t.tally = s.tally.tick.endOnPart := by rw [frame]; rfl
  rw [tick_endOnPart] at lamp
  refine ⟨by rw [frame]; rfl, by rw [frame]; rfl, by rw [frame]; rfl, by rw [frame]; rfl, by rw [frame]; rfl,
    by rw [frame]; rfl, lamp, by rw [frame]; rfl, by rw [frame]; rfl, fun hw => ?_, ?_⟩
  · rw [idle hw]; exact ⟨rfl, rfl, rfl, rfl⟩
  · rw [frame]
    rfl

/-! ### The three kinds of frame tick (R1, R3, R4) -/

/-- What every tick leaves alone, and that flags only grow. -/
theorem tick_keeps (gzl gzu : Bool) (left : List TickEvent) (s : State) :
    (s.tick gzl gzu left).cfg = s.cfg ∧ (s.tick gzl gzu left).number = s.number ∧
      (s.tick gzl gzu left).load = s.load ∧ (s.tick gzl gzu left).sup = s.sup ∧
      FlagsGrow s.flags (s.tick gzl gzu left).flags := by
  have before := settle_blockFrame s
  unfold State.tick
  generalize s.settle = u at before
  have after := (screenTick_outputFrame left _).block.after (tickWork_blockFrame left (u.advance gzl gzu))
  exact ⟨after.cfg.trans before.cfg, after.number.trans before.number, after.load.trans before.load,
    after.sup.trans before.sup, before.flags.trans after.flags⟩

theorem fpEdge_left (e : FpEdge) (gzl gzu : Bool) (left : List TickEvent) (s : State)
    (h : s.start = .loading ∨ s.resetHeld = true ∨ e ≠ s.cfg.fpEdge) : s.fpEdge e gzl gzu left = s := by
  unfold State.fpEdge
  refine if_neg fun k => ?_
  simp only [Bool.and_eq_true, live_iff, beq_iff_eq] at k
  obtain ⟨⟨hs, hr⟩, he⟩ := k
  exact h.elim hs (Or.elim · (by simp [hr]) (· he))

/-- A tick of the loss watch or of the internal generator takes a station that is live and in the one reference state,
and no other (R3, R4). -/
theorem loseReference_live (gzl gzu : Bool) (left : List TickEvent) (s : State) (h : s.live = true)
    (hr : s.clock.ref = .locked) :
    s.loseReference gzl gzu left = ((s.withRef .flywheel).raise .refLoss).tick gzl gzu left := by
  unfold State.loseReference; simp [h, hr]

theorem loseReference_left (gzl gzu : Bool) (left : List TickEvent) (s : State)
    (h : s.live = false ∨ s.clock.ref = .flywheel) : s.loseReference gzl gzu left = s := by
  unfold State.loseReference
  obtain h | h := h <;> simp [h]

theorem generatorTick_live (gzl gzu : Bool) (left : List TickEvent) (s : State) (h : s.live = true)
    (hr : s.clock.ref = .flywheel) : s.generatorTick gzl gzu left = s.tick gzl gzu left := by
  unfold State.generatorTick; simp [h, hr]

theorem generatorTick_left (gzl gzu : Bool) (left : List TickEvent) (s : State)
    (h : s.live = false ∨ s.clock.ref = .locked) : s.generatorTick gzl gzu left = s := by
  unfold State.generatorTick
  obtain h | h := h <;> simp [h]

/-- Settles O14: each kind of tick is `State.tick` where it applies, whose clock is `tick_clock`, and nothing
elsewhere. -/
theorem ticksRaiseTheCount : Obligations.TicksRaiseTheCount := by
  unfold Obligations.TicksRaiseTheCount
  intro e gzl gzu left s
  have dead (h : s.start = .loading ∨ s.resetHeld = true) : s.live = false := by
    rw [← Bool.not_eq_true, live_iff]
    rintro ⟨hs, hr⟩
    exact h.elim hs (by simp [hr])
  refine ⟨fun hs hr => ⟨fun he => ?_, fun ref => ⟨?_, ?_⟩, fun ref => ⟨?_, ?_⟩⟩,
    fun h => congrArg Host.Outcome.next (fpEdge_left e gzl gzu left s h), fun h => ⟨?_, ?_⟩⟩
  · obtain ⟨cfg, number, load, sup, -⟩ := tick_keeps gzl gzu left (s.withRef .locked)
    exact ⟨_, congrArg Host.Outcome.next (fpEdge_active e gzl gzu left s hs hr he), tick_clock _ _ _ _, cfg,
      number, load, sup⟩
  · obtain ⟨cfg, number, -, -, flags⟩ := tick_keeps gzl gzu left ((s.withRef .flywheel).raise .refLoss)
    exact ⟨_, congrArg Host.Outcome.next (loseReference_live gzl gzu left s ((live_iff s).mpr ⟨hs, hr⟩) ref),
      tick_clock _ _ _ _, flags _ (raise_sets _ _), cfg, number⟩
  · exact congrArg Host.Outcome.next (generatorTick_left gzl gzu left s (.inr ref))
  · obtain ⟨cfg, number, -⟩ := tick_keeps gzl gzu left s
    refine ⟨_, congrArg Host.Outcome.next (generatorTick_live gzl gzu left s ((live_iff s).mpr ⟨hs, hr⟩) ref),
      ?_, cfg, number⟩
    rw [tick_clock, ref]
  · exact congrArg Host.Outcome.next (loseReference_left gzl gzu left s (.inr ref))
  · exact congrArg Host.Outcome.next (loseReference_left gzl gzu left s (.inl (dead h)))
  · exact congrArg Host.Outcome.next (generatorTick_left gzl gzu left s (.inl (dead h)))

end Sys2Proof.Machine

/-! # Resets -/

namespace Sys2Proof.Machine

/-! ### Resets (R168, R170) -/

theorem atReset_blank (number : Station) (cfg : Configuration) (load : LoadResult) (pending : List Instr) :
    (State.blank number cfg load pending).atReset := by
  and_intros <;> rfl

/-- Settles O3: every field of the station after power-on stands at its reset value. -/
theorem resetMeetsTheInvariants : Obligations.ResetMeetsTheInvariants := by
  unfold Obligations.ResetMeetsTheInvariants
  refine ⟨fun _ => rfl, by decide, by decide, fun _ => rfl, rfl, by decide, fun _ => rfl, by decide, ?_⟩
  exact fun c hc => absurd hc List.not_mem_nil

theorem write_restart (s : State) (h : s.resetHeld = false) : s.write [5#8] = s.performWrite .restart := by
  unfold State.write
  rw [h]
  rfl

/-- The entry into LISTENING, field by field (R75, R166, R168). -/
theorem enterListening_eq (s : State) :
    s.enterListening = { s with
      start := .listening
      listenCount := 2 * s.cfg.beatInterval
      link := if s.cfg.role = .writer then s.link else s.link.startBlank
      screen := if s.cfg.role = .writer then s.screen else { s.screen with lastOrder := .blank }
      port := if s.cfg.role = .output then s.port else s.port.enqueue (.state .absent) } := by
  unfold State.enterListening State.hasOutput State.hasWriter State.notify Configuration.listenSpan
  cases hr : s.cfg.role <;> simp [hr]

/-- A RESTART out of LOADING is acknowledged and restarts the station; in LOADING it is neither (R170, R173). -/
theorem exec_restart (s : State) (h : s.resetHeld = false) :
    exec .restart s = .next
      (if s.start = .loading then s.acknowledge false else s.restartStation.acknowledge true) :=
  congrArg Host.Outcome.next (write_restart s h)

/-- Settles O10: POWER_ON and the RESETn levels leave the blank state, and a RESTART enters LISTENING from it
(`enterListening_eq`). -/
theorem resetsPutEveryBlockAtReset : Obligations.ResetsPutEveryBlockAtReset := by
  unfold Obligations.ResetsPutEveryBlockAtReset
  intro n s fresh
  have release : exec (.resetnRelease n) s = .next (s.releaseReset n) := rfl
  refine ⟨⟨_, rfl, ⟨atReset_blank n .default ⟨false, false⟩ s.pending, rfl, rfl, rfl, rfl⟩, rfl, rfl⟩,
    ⟨_, rfl, ⟨atReset_blank s.number s.cfg s.load s.pending, rfl, rfl, rfl, rfl⟩, rfl⟩, fun held => ?_, fun held => ?_,
    fun held hs => ?_, fun held hs => ?_⟩
  · rw [release, State.releaseReset, if_pos held]
    exact ⟨_, rfl, ⟨atReset_blank n s.cfg s.load s.pending, rfl, rfl, rfl, rfl⟩, rfl, rfl⟩
  · rw [release, State.releaseReset, if_neg (by simp [held])]
  · rw [exec_restart s held, if_neg hs]
    unfold State.restartStation
    rw [enterListening_eq]
    exact ⟨_, rfl, atReset_blank s.number s.cfg s.load s.pending, rfl, rfl, rfl, rfl, rfl, rfl, rfl, rfl, rfl, rfl⟩
  · rw [exec_restart s held, if_pos hs]
    rfl

end Sys2Proof.Machine

/-! # What stands between two resets -/

namespace Sys2Proof.Machine

/-! ### What stands between two resets -/

/-- The clock, the configuration, the load result and the station number stand, and a station out of LOADING stays
out of it. -/
structure Standing (s t : State) : Prop where
  clock : t.clock = s.clock
  cfg : t.cfg = s.cfg
  load : t.load = s.load
  number : t.number = s.number
  out : s.start ≠ .loading → t.start ≠ .loading

theorem Standing.refl (s : State) : Standing s s := ⟨rfl, rfl, rfl, rfl, id⟩

theorem Standing.trans {a b c : State} (h : Standing a b) (k : Standing b c) : Standing a c :=
  ⟨k.clock.trans h.clock, k.cfg.trans h.cfg, k.load.trans h.load, k.number.trans h.number, k.out ∘ h.out⟩

theorem Standing.after {a b c : State} (k : Standing b c) (h : Standing a b) : Standing a c := h.trans k

theorem BlockFrame.standing {s t : State} (h : BlockFrame s t) (out : s.start ≠ .loading → t.start ≠ .loading) :
    Standing s t := ⟨h.clock, h.cfg, h.load, h.number, out⟩

theorem PortFrame.standing {s t : State} (h : PortFrame s t) : Standing s t :=
  h.block.standing fun out => h.start ▸ out

theorem OutputFrame.standing {s t : State} (h : OutputFrame s t) : Standing s t :=
  h.block.standing fun out => by rw [h.rest]; exact out

theorem EndFrame.standing {s t : State} (h : EndFrame s t) : Standing s t := by
  unfold EndFrame at h; rw [h]; exact ⟨rfl, rfl, rfl, rfl, id⟩

/-- A step taken under a condition keeps what stands where the step does. -/
theorem Standing.ite {s t u : State} {c : Prop} [Decidable c] (h : Standing s t) (k : Standing s u) :
    Standing s (if c then t else u) := by
  split
  · exact h
  · exact k

/-! ### The pieces of a tick's work -/

theorem lapseOffer_standing (s : State) : Standing s s.lapseOffer := by
  unfold State.lapseOffer
  split
  · exact .trans (changeView_viewFrame _ _ _ s).ends.standing ⟨rfl, rfl, rfl, rfl, id⟩
  · exact .refl s

theorem endOverlap_standing (s : State) : Standing s s.endOverlap := by
  unfold State.endOverlap
  split
  · exact (changeView_viewFrame _ _ _ s).ends.standing
  · exact .refl s

theorem lapseExpiry_standing (s : State) : Standing s s.lapseExpiry := by
  unfold State.lapseExpiry
  split
  · simp only
    split
    · exact (lapseOffer_standing _).after ⟨rfl, rfl, rfl, rfl, id⟩
    · exact ⟨rfl, rfl, rfl, rfl, id⟩
  · exact .refl s

theorem overlapExpiry_standing (s : State) : Standing s s.overlapExpiry := by
  unfold State.overlapExpiry
  split
  · simp only
    split
    · exact (endOverlap_standing _).after ⟨rfl, rfl, rfl, rfl, id⟩
    · exact ⟨rfl, rfl, rfl, rfl, id⟩
  · exact .refl s

theorem blinkExpiry_standing (s : State) : Standing s s.blinkExpiry := by
  unfold State.blinkExpiry; split <;> exact ⟨rfl, rfl, rfl, rfl, id⟩

theorem beatExpiry_standing (s : State) : Standing s s.beatExpiry := by
  unfold State.beatExpiry
  split
  · exact (depositBeat_portFrame _).standing.after ⟨rfl, rfl, rfl, rfl, id⟩
  · exact .refl s

theorem enterRunning_standing (s : State) : Standing s s.enterRunning := by
  unfold State.enterRunning
  split
  · exact (autoClaim_portFrame _).standing.after
      ((depositBeat_portFrame _).standing.after ⟨rfl, rfl, rfl, rfl, fun _ => by simp⟩)
  · exact .refl s

theorem ageOut_standing (x : Station) (s : State) : Standing s (s.ageOut x) := by
  cases h : s.agedOut x with
  | false => rw [ageOut_quiet x s h]; exact .refl s
  | true =>
    rw [ageOut_due x s h]
    exact (changeView_viewFrame _ _ _ _).ends.standing.after (forgetPeer_viewFrame x s).ends.standing

/-- Steps that each keep what stands keep it one after another. -/
theorem foldl_standing {α : Type} (f : State → α → State) (step : ∀ s a, Standing s (f s a)) (as : List α)
    (s : State) : Standing s (as.foldl f s) := by
  induction as generalizing s with
  | nil => exact .refl s
  | cons a as ih => exact (ih _).after (step s a)

theorem perform_standing (s : State) (e : TickEvent) : Standing s (s.perform e) := by
  cases e with
  | tallyOnPartEnd => exact ⟨rfl, rfl, rfl, rfl, id⟩
  | tallyBlink => exact blinkExpiry_standing s
  | pause => exact (pauseExpiry_portFrame s).standing
  | lapse => exact lapseExpiry_standing s
  | overlap => exact overlapExpiry_standing s
  | beat => exact beatExpiry_standing s
  | running => exact enterRunning_standing s
  | peerAgeOut => exact foldl_standing _ (fun s x => ageOut_standing x s) _ s
  | cueExpires | showCue | zone => exact .refl s

theorem tickWork_standing (left : List TickEvent) (s : State) : Standing s (s.tickWork left) :=
  foldl_standing _ perform_standing _ s

theorem settle_standing (s : State) : Standing s s.settle :=
  (screenSettle_outputFrame _).standing.after (tickWork_standing [] s)

/-! ### Contention -/

theorem beginFrame_standing (s : State) : Standing s s.beginFrame := by
  unfold State.beginFrame; split <;> exact ⟨rfl, rfl, rfl, rfl, id⟩

theorem loseArbitration_standing (readback : Bool) (s : State) : Standing s (s.loseArbitration readback) := by
  have counted (u : State) : Standing u (if readback = true then u.countReadback else u) :=
    .ite (countReadback_portFrame u).standing (.refl u)
  have told (q : QueueName) (u : State) : Standing u (if q = .beat then u.countBeatLoss else u) :=
    .ite (countBeatLoss_portFrame u).standing (.refl u)
  unfold State.loseArbitration
  split
  · exact .refl s
  · exact (performAllHeld_portFrame _).standing.after
      ((told _ _).after ((counted _).after ⟨rfl, rfl, rfl, rfl, id⟩))

theorem takeWinner_standing {q : QueueName} {s u : State} {b : FrameBody} (h : s.takeWinner q = some (b, u)) :
    Standing s u := by
  unfold State.takeWinner at h
  cases q <;> simp only at h <;> split at h <;> cases h <;> exact ⟨rfl, rfl, rfl, rfl, id⟩

theorem winArbitration_standing (readback : Bool) (s : State) : Standing s (s.winArbitration readback) := by
  have counted (u : State) : Standing u (if readback = true then u.countReadback else u) :=
    .ite (countReadback_portFrame u).standing (.refl u)
  have told (q : QueueName) (u : State) : Standing u (if q = .beat then u else u.countBeatLoss) :=
    .ite (.refl u) (countBeatLoss_portFrame u).standing
  have flies (u : State) (f : InFlight) : Standing u { u with
      line.arb := none, line.beatReplace := false, floor.lapsed := false, line.inFlight := some f } :=
    ⟨rfl, rfl, rfl, rfl, id⟩
  unfold State.winArbitration
  split
  · exact .refl s
  · simp only
    split
    · exact ⟨rfl, rfl, rfl, rfl, id⟩
    · rename_i won
      exact (performAllHeld_portFrame _).standing.after
        ((told _ _).after ((counted _).after ((flies _ _).after (takeWinner_standing won))))

theorem foreignWin_standing (s : State) : Standing s s.foreignWin := by
  have told : Standing s (if s.line.winCounted then s else s.countBeatLoss) :=
    .ite (.refl s) (countBeatLoss_portFrame s).standing
  unfold State.foreignWin
  exact .ite (told.trans ⟨rfl, rfl, rfl, rfl, id⟩) (.refl s)

theorem gainFooting_standing (s : State) : Standing s s.gainFooting := by
  unfold State.gainFooting; split <;> exact ⟨rfl, rfl, rfl, rfl, id⟩

/-! ### Frame ends -/

theorem report_standing (j : Judgement) (s : State) : Standing s (s.report j) := by
  cases j <;> exact ⟨rfl, rfl, rfl, rfl, id⟩

theorem takeJudged_standing (own : Bool) (j : Judgement) (s : State)
    (hx : own = true → j.source? = none ∨ j.source? = some s.number) : Standing s (s.takeJudged own j) := by
  cases j with
  | accepted x g w b =>
    have counted : Standing s (s.reported x g w b) := by
      rw [reported_rest]; exact ⟨rfl, rfl, rfl, rfl, id⟩
    refine (takeJudged_oneView own x g w b s fun ho => ?_).ends.standing.after counted
    simpa [Judgement.source?] using hx ho
  | malformed x g w => exact report_standing (.malformed x g w) s
  | lost x => exact report_standing (.lost x) s
  | anonymous => exact report_standing .anonymous s
  | refused x => exact report_standing (.refused x) s
  | oversize x => exact report_standing (.oversize x) s

theorem frameEnd_standing (j : Judgement) (readback : Bool) (s : State) : Standing s (s.frameEnd j readback) := by
  unfold State.frameEnd
  split
  · exact .refl s
  · split
    · rename_i f hf
      have pre := readbackInFlight_prelude readback s
      refine (endReport_portFrame f _ _).standing.after ((takeJudged_standing true j _ fun _ => ?_).after
        (readbackInFlight_portFrame readback s).standing)
      unfold State.ownFrame at hf
      rw [pre.number]
      exact by_contra fun h => by simp [h] at hf
    · refine (takeJudged_standing false j _ (by simp)).after ?_
      rw [(foreignEnd_prelude j s).rest]
      exact ⟨rfl, rfl, rfl, rfl, id⟩

/-! ### The supervisory port -/

/-- A write that spells no RESTART (R173). -/
theorem write_standing (bytes : List Byte) (s : State) (h : parseWrite bytes ≠ some .restart) :
    Standing s (s.write bytes) := by
  unfold State.write
  split
  · exact ⟨rfl, rfl, rfl, rfl, id⟩
  · split
    · rename_i w hw
      cases w with
      | restart => exact absurd hw h
      | select | window | clear => exact ⟨rfl, rfl, rfl, rfl, id⟩
    · exact ⟨rfl, rfl, rfl, rfl, id⟩

theorem readWindow_standing (count : Nat) (s : State) : Standing s (s.readWindow count) := by
  unfold State.readWindow; simp only; split <;> exact ⟨rfl, rfl, rfl, rfl, id⟩

theorem read_standing (count : Nat) (s : State) : Standing s (s.read count) := by
  have answered (item : List Byte) : Standing s (s.answerRead count item) := ⟨rfl, rfl, rfl, rfl, id⟩
  have denied : Standing s s.denyRead := ⟨rfl, rfl, rfl, rfl, id⟩
  unfold State.read
  split
  · exact denied
  · split
    · exact .ite (answered _) ⟨rfl, rfl, rfl, rfl, id⟩
    · exact .ite (answered _) denied
    · exact .ite (readWindow_standing count s) denied

end Sys2Proof.Machine

/-! # The clock and the configuration -/

namespace Sys2Proof.Machine

/-! ### What a command between two resets keeps -/

/-- A command that is neither a reset, nor a tick, nor an image load. -/
structure Ordinary (c : Instr) : Prop where
  noReset : resets c = false
  noTick : ticks c = false
  noImage : ∀ image, c ≠ .imageLoaded image

/-- An ordinary command keeps what stands between two resets. -/
theorem exec_standing (c : Instr) (s : State) (hc : Ordinary c) : ∃ t, exec c s = .next t ∧ Standing s t := by
  cases c with
  | powerOn | resetnAssertion | resetnRelease | restart | invalidWrite => exact nomatch hc.noReset
  | frameTick | entryIntoFlywheel | flywheelTick => exact nomatch hc.noTick
  | imageLoaded image => exact absurd rfl (hc.noImage image)
  | startupBlankBegins | orderSent | noticeSent | tallyOnPartEnd => exact ⟨_, rfl, rfl, rfl, rfl, rfl, id⟩
  | entryIntoRunning => exact ⟨_, rfl, enterRunning_standing s⟩
  | peerAgeOut x => exact ⟨_, rfl, ageOut_standing x s⟩
  | pauseTimerExpiry => exact ⟨_, rfl, (pauseExpiry_portFrame s).standing⟩
  | lapseTimerExpiry => exact ⟨_, rfl, lapseExpiry_standing s⟩
  | overlapTimerExpiry => exact ⟨_, rfl, overlapExpiry_standing s⟩
  | beatTimerExpiry => exact ⟨_, rfl, beatExpiry_standing s⟩
  | tallyBlinkExpiry => exact ⟨_, rfl, blinkExpiry_standing s⟩
  | showCue => exact ⟨_, rfl, (screenSettle_outputFrame s).standing⟩
  | cueExpires => exact ⟨_, rfl, (cueExpiry_outputFrame s).standing⟩
  | contentionStart => exact ⟨_, rfl, beginFrame_standing s⟩
  | arbitrationLoss readback => exact ⟨_, rfl, loseArbitration_standing readback s⟩
  | frameWin own readback =>
    exact ⟨_, rfl, .ite (winArbitration_standing readback s) (foreignWin_standing s)⟩
  | frameNotAccepted | beatReceived | claimReceived | offerReceived | takeReceived | releaseReceived
  | yieldReceived | segmentReceived | amendReceived => exact ⟨_, rfl, frameEnd_standing _ _ s⟩
  | drainComplete => exact ⟨_, rfl, (checkDrain_portFrame s).standing⟩
  | word | speakerBreak | flush | delete | replace | repword | ready | unready | floorTake | floorHand
  | floorDone | floorLeave | malformedRecord => exact ⟨_, rfl, (recordIn_portFrame _ _ _ s).standing⟩
  | recordGapTimeout received => exact ⟨_, rfl, (recordGap_portFrame received s).standing⟩
  | selectStatusWord | selectConfigurationBlock | selectWindowReads | clearCounters =>
    exact ⟨_, rfl, write_standing _ s (by decide)⟩
  | windowSelect table index =>
    refine ⟨_, rfl, write_standing _ s ?_⟩
    simp [parseWrite]
  | statusWordRead count | windowRead count => exact ⟨_, rfl, read_standing count s⟩
  | lineIdleForGap => exact ⟨_, rfl, gainFooting_standing s⟩

/-! ### What each other kind of command keeps of the configuration -/

/-- The station number, the configuration and the load result stand. -/
def SameSetting (s t : State) : Prop := t.cfg = s.cfg ∧ t.load = s.load ∧ t.number = s.number

theorem Standing.sameSetting {s t : State} (h : Standing s t) : SameSetting s t := ⟨h.cfg, h.load, h.number⟩

theorem SameSetting.refl (s : State) : SameSetting s s := ⟨rfl, rfl, rfl⟩

theorem SameSetting.ite {s t u : State} {c : Prop} [Decidable c] (h : SameSetting s t) (k : SameSetting s u) :
    SameSetting s (if c then t else u) := by
  split
  · exact h
  · exact k

theorem tick_sameSetting (gzl gzu : Bool) (left : List TickEvent) (s : State) :
    SameSetting s (s.tick gzl gzu left) := by
  obtain ⟨cfg, number, load, -⟩ := tick_keeps gzl gzu left s
  exact ⟨cfg, load, number⟩

/-- A tick of whichever kind (R1, R3, R4). -/
theorem exec_tick_sameSetting (c : Instr) (s : State) (h : ticks c = true) :
    ∃ t, exec c s = .next t ∧ SameSetting s t := by
  cases c with
  | frameTick e gzl gzu left =>
    exact ⟨_, rfl, .ite (tick_sameSetting gzl gzu left (s.withRef .locked)) (.refl s)⟩
  | entryIntoFlywheel gzl gzu left =>
    exact ⟨_, rfl, .ite (tick_sameSetting gzl gzu left ((s.withRef .flywheel).raise .refLoss)) (.refl s)⟩
  | flywheelTick gzl gzu left => exact ⟨_, rfl, .ite (tick_sameSetting gzl gzu left s) (.refl s)⟩
  | _ => exact nomatch h

theorem restartStation_sameSetting (s : State) : SameSetting s s.restartStation := by
  unfold State.restartStation; rw [enterListening_eq]; exact .refl s

/-- A write of whatever bytes (R173). -/
theorem write_sameSetting (bytes : List Byte) (s : State) : SameSetting s (s.write bytes) := by
  by_cases h : parseWrite bytes = some .restart
  · unfold State.write State.performWrite
    rw [h]
    exact .ite (.refl s) (.ite (.refl s) (restartStation_sameSetting s))
  · exact (write_standing bytes s h).sameSetting

theorem loadConfiguration_keeps (image : List Byte) (s : State) :
    (s.loadConfiguration image).number = s.number ∧ (s.loadConfiguration image).clock = s.clock := by
  unfold State.loadConfiguration
  split
  · simp only; rw [enterListening_eq]; exact ⟨rfl, rfl⟩
  · exact ⟨rfl, rfl⟩

theorem releaseReset_keeps (straps : Station) (s : State) :
    (s.releaseReset straps).cfg = s.cfg ∧ (s.releaseReset straps).load = s.load := by
  unfold State.releaseReset; split <;> exact ⟨rfl, rfl⟩

/-- No command but a power-on, a release and an image load changes the setting (R168, R169; log entry 1). -/
theorem exec_sameSetting (c : Instr) (s : State) (power : ∀ n, c ≠ .powerOn n)
    (release : ∀ n, c ≠ .resetnRelease n) (noImage : ∀ image, c ≠ .imageLoaded image) :
    ∃ t, exec c s = .next t ∧ SameSetting s t := by
  by_cases tick : ticks c = true
  · exact exec_tick_sameSetting c s tick
  by_cases reset : resets c = true
  · cases c with
    | powerOn n => exact absurd rfl (power n)
    | resetnRelease n => exact absurd rfl (release n)
    | resetnAssertion => exact ⟨_, rfl, rfl, rfl, rfl⟩
    | restart => exact ⟨_, rfl, write_sameSetting _ s⟩
    | invalidWrite bytes => exact ⟨_, rfl, write_sameSetting bytes s⟩
    | _ => exact nomatch reset
  · obtain ⟨t, run, stands⟩ := exec_standing c s ⟨by simpa using reset, by simpa using tick, noImage⟩
    exact ⟨t, run, stands.sameSetting⟩

theorem exec_clock (c : Instr) (s : State) (tick : ticks c = false) (reset : resets c = false) :
    ∃ t, exec c s = .next t ∧ t.clock = s.clock := by
  by_cases h : ∃ image, c = .imageLoaded image
  · obtain ⟨image, rfl⟩ := h
    exact ⟨_, rfl, (loadConfiguration_keeps image s).2⟩
  · obtain ⟨t, run, stands⟩ := exec_standing c s ⟨reset, tick, fun image e => h ⟨image, e⟩⟩
    exact ⟨t, run, stands.clock⟩

theorem exec_configuration (c : Instr) (s : State) (power : ∀ n, c ≠ .powerOn n)
    (noImage : ∀ image, c ≠ .imageLoaded image) :
    ∃ t, exec c s = .next t ∧ t.cfg = s.cfg ∧ t.load = s.load := by
  by_cases h : ∃ n, c = .resetnRelease n
  · obtain ⟨n, rfl⟩ := h
    exact ⟨_, rfl, releaseReset_keeps n s⟩
  · obtain ⟨t, run, cfg, load, -⟩ := exec_sameSetting c s power (fun n e => h ⟨n, e⟩) noImage
    exact ⟨t, run, cfg, load⟩

theorem exec_number (c : Instr) (s : State) (power : ∀ n, c ≠ .powerOn n)
    (release : ∀ n, c ≠ .resetnRelease n) : ∃ t, exec c s = .next t ∧ t.number = s.number := by
  by_cases h : ∃ image, c = .imageLoaded image
  · obtain ⟨image, rfl⟩ := h
    exact ⟨_, rfl, (loadConfiguration_keeps image s).1⟩
  · obtain ⟨t, run, -, -, number⟩ := exec_sameSetting c s power release fun image e => h ⟨image, e⟩
    exact ⟨t, run, number⟩

/-- A property of some next state is one of the next state. -/
theorem next_of_exists {r : Result} {P : State → Prop} {t : State} (h : ∃ u, r = .next u ∧ P u)
    (run : r = .next t) : P t := by
  obtain ⟨u, same, hu⟩ := h
  cases same.symm.trans run
  exact hu

/-- Settles O9: the clock by `exec_clock`, the configuration by `exec_configuration`, the number by
`exec_number`. -/
theorem clockAndConfigurationMoveOnlyAtTheirEvents :
    Obligations.ClockAndConfigurationMoveOnlyAtTheirEvents := by
  unfold Obligations.ClockAndConfigurationMoveOnlyAtTheirEvents
  intro c s t run
  exact ⟨fun tick reset => next_of_exists (exec_clock c s tick reset) run,
    fun power noImage => next_of_exists (exec_configuration c s power noImage) run,
    fun power release => next_of_exists (exec_number c s power release) run⟩

end Sys2Proof.Machine

/-! # LOADING -/

namespace Sys2Proof.Machine

/-! ### The station in LOADING (R2, R35, R75, R158, R168, R170) -/

/-- The blank station, with a supervisory port and a RESETn level. -/
def asleep (number : Station) (cfg : Configuration) (load : LoadResult) (pending : List Instr)
    (sup : Supervisory) (held : Bool) : State :=
  { State.blank number cfg load pending with sup := sup, resetHeld := held }

section
variable (n : Station) (cfg : Configuration) (l : LoadResult) (q : List Instr) (p : Supervisory) (held : Bool)

theorem asleep_loadingBlank : (asleep n cfg l q p held).loadingBlank := fun _ => rfl

theorem asleep_portTakes : (asleep n cfg l q p held).portTakes = false := by
  unfold State.portTakes; exact congrArg (· && _) (Bool.and_false _)

theorem asleep_agedOut (x : Station) : (asleep n cfg l q p held).agedOut x = false := by
  have initial : (asleep n cfg l q p held).peer x = .initial := Vector.getElem_replicate ..
  unfold State.agedOut; rw [initial]; rfl

theorem asleep_perform (e : TickEvent) : (asleep n cfg l q p held).perform e = asleep n cfg l q p held := by
  cases e with
  | peerAgeOut => exact ageAll_quiet _ fun x => asleep_agedOut n cfg l q p held x
  | _ => rfl

theorem asleep_settle : (asleep n cfg l q p held).settle = asleep n cfg l q p held := by
  have work (es : List TickEvent) :
      es.foldl (fun s e => s.perform e) (asleep n cfg l q p held) = asleep n cfg l q p held := by
    induction es with
    | nil => rfl
    | cons e es ih => rw [List.foldl_cons, asleep_perform]; exact ih
  exact congrArg State.screenSettle (work _)

theorem asleep_recordIn (kind : Byte) (content : List Byte) (framing : Bool) :
    (asleep n cfg l q p held).recordIn kind content framing = asleep n cfg l q p held := by
  unfold State.recordIn; rw [asleep_portTakes]; rfl

theorem asleep_recordGap (received : List Byte) :
    (asleep n cfg l q p held).recordGap received = asleep n cfg l q p held := by
  unfold State.recordGap; rw [asleep_portTakes]; rfl

theorem asleep_clear : (asleep n cfg l q p held).clearAllCounters = asleep n cfg l q p held := by
  have cleared : (⟨Peers.initial.entries.map PeerEntry.clear, .zero⟩ : Peers) = .initial :=
    congrArg (Peers.mk · .zero) Vector.map_replicate
  exact congrArg (fun ps => { asleep n cfg l q p held with peers := ps }) cleared

theorem asleep_write (bytes : List Byte) :
    ∃ p', (asleep n cfg l q p held).write bytes = asleep n cfg l q p' held := by
  unfold State.write
  split
  · exact ⟨_, rfl⟩
  · split
    · rename_i w _
      cases w with
      | clear => exact ⟨_, congrArg (State.acknowledge true) (asleep_clear n cfg l q p held)⟩
      | select | window | restart => exact ⟨_, rfl⟩
    · exact ⟨_, rfl⟩

theorem asleep_read (count : Nat) :
    ∃ p', (asleep n cfg l q p held).read count = asleep n cfg l q p' held := by
  unfold State.read State.readStatus
  split
  · exact ⟨_, rfl⟩
  · split
    · simp only; split <;> exact ⟨_, rfl⟩
    · exact ⟨_, rfl⟩
    · exact ⟨_, rfl⟩

end

/-- A command that neither puts the station into LOADING nor leads it out: all but a power-on, the RESETn levels and an
image load (R168, R170). -/
structure KeepsLoading (c : Instr) : Prop where
  power : ∀ n, c ≠ .powerOn n
  assertion : c ≠ .resetnAssertion
  release : ∀ n, c ≠ .resetnRelease n
  noImage : ∀ image, c ≠ .imageLoaded image

/-- In LOADING such a command changes the supervisory port alone. Where no lemma above is named the blank station
evaluates to itself: it has no tick counted, receives no frame, and has no timer running, order sent or screen stage
left. -/
theorem exec_asleep (n : Station) (cfg : Configuration) (l : LoadResult) (q : List Instr) (p : Supervisory)
    (held : Bool) (c : Instr) (hc : KeepsLoading c) :
    ∃ p', exec c (asleep n cfg l q p held) = .next (asleep n cfg l q p' held) := by
  have next {u : State} (h : ∃ p', u = asleep n cfg l q p' held) :
      ∃ p', (Host.Outcome.next u : Result) = .next (asleep n cfg l q p' held) := by
    obtain ⟨p', h⟩ := h
    exact ⟨p', congrArg _ h⟩
  cases c with
  | powerOn straps => exact absurd rfl (hc.power straps)
  | resetnAssertion => exact absurd rfl hc.assertion
  | resetnRelease straps => exact absurd rfl (hc.release straps)
  | imageLoaded image => exact absurd rfl (hc.noImage image)
  | peerAgeOut x => exact next ⟨p, ageOut_quiet x _ (asleep_agedOut n cfg l q p held x)⟩
  | frameWin own readback => cases own <;> exact ⟨p, rfl⟩
  | word | speakerBreak | flush | delete | replace | repword | ready | unready | floorTake | floorHand
  | floorDone | floorLeave | malformedRecord => exact next ⟨p, asleep_recordIn ..⟩
  | recordGapTimeout received => exact next ⟨p, asleep_recordGap ..⟩
  | selectStatusWord | selectConfigurationBlock | selectWindowReads | windowSelect | clearCounters | restart
  | invalidWrite => exact next (asleep_write ..)
  | statusWordRead | windowRead => exact next (asleep_read ..)
  | _ => exact ⟨p, rfl⟩

/-! ### The station out of LOADING -/

theorem tick_out (gzl gzu : Bool) (left : List TickEvent) (s : State) (h : s.start ≠ .loading) :
    (s.tick gzl gzu left).start ≠ .loading := by
  have settled := (settle_standing s).out h
  unfold State.tick
  generalize s.settle = u at settled
  have work := (tickWork_standing left (u.advance gzl gzu)).out settled
  exact (screenTick_outputFrame left _).standing.out work

theorem enterListening_start (s : State) : s.enterListening.start = .listening := by rw [enterListening_eq]

theorem write_out (bytes : List Byte) (s : State) (h : s.start ≠ .loading) :
    (s.write bytes).start ≠ .loading := by
  by_cases spells : parseWrite bytes = some .restart
  · unfold State.write State.performWrite
    rw [spells]
    have restarted : s.restartStation.start = .listening := enterListening_start _
    simp only [if_neg h]
    split
    · exact h
    · simp [restarted]
  · exact (write_standing bytes s spells).out h

/-- Out of LOADING a station stays so but for a power-on and the RESETn levels (R168, R170). -/
theorem exec_out (c : Instr) (s : State) (hc : KeepsLoading c) (h : s.start ≠ .loading) :
    ∃ t, exec c s = .next t ∧ t.start ≠ .loading := by
  have ite {u v : State} {d : Prop} [Decidable d] (hu : u.start ≠ .loading) (hv : v.start ≠ .loading) :
      (if d then u else v).start ≠ .loading := by
    split
    · exact hu
    · exact hv
  cases c with
  | powerOn straps => exact absurd rfl (hc.power straps)
  | resetnAssertion => exact absurd rfl hc.assertion
  | resetnRelease straps => exact absurd rfl (hc.release straps)
  | frameTick e gzl gzu left => exact ⟨_, rfl, ite (tick_out gzl gzu left (s.withRef .locked) h) h⟩
  | entryIntoFlywheel gzl gzu left =>
    exact ⟨_, rfl, ite (tick_out gzl gzu left ((s.withRef .flywheel).raise .refLoss) h) h⟩
  | flywheelTick gzl gzu left => exact ⟨_, rfl, ite (tick_out gzl gzu left s h) h⟩
  | restart => exact ⟨_, rfl, write_out _ s h⟩
  | invalidWrite bytes => exact ⟨_, rfl, write_out bytes s h⟩
  | _ =>
    obtain ⟨t, run, stands⟩ := exec_standing _ s ⟨rfl, rfl, hc.noImage⟩
    exact ⟨t, run, stands.out h⟩

/-! ### Every command -/

/-- The invariant, case by case: out of LOADING, or the blank station. -/
theorem loadingBlank_cases {s : State} (h : s.loadingBlank) :
    s.start ≠ .loading ∨ ∃ n cfg l q p held, s = asleep n cfg l q p held := by
  by_cases hs : s.start = .loading
  · exact .inr ⟨_, _, _, _, _, _, h hs⟩
  · exact .inl hs

theorem loadConfiguration_loadingBlank (image : List Byte) (s : State) (h : s.loadingBlank) :
    (s.loadConfiguration image).loadingBlank := by
  unfold State.loadConfiguration
  split
  · intro k
    cases (enterListening_start _).symm.trans k
  · exact h

theorem releaseReset_loadingBlank (straps : Station) (s : State) (h : s.loadingBlank) :
    (s.releaseReset straps).loadingBlank := by
  unfold State.releaseReset
  split
  · exact fun _ => rfl
  · exact h

/-- A command keeps the invariant: the resets give the blank station, an image load leads out of LOADING, and any
other command keeps what the station is. -/
theorem exec_loadingBlank (c : Instr) (s : State) (h : s.loadingBlank) :
    ∃ t, exec c s = .next t ∧ t.loadingBlank := by
  by_cases hc : KeepsLoading c
  · obtain out | ⟨n, cfg, l, q, p, held, rfl⟩ := loadingBlank_cases h
    · obtain ⟨t, run, stays⟩ := exec_out c s hc out
      exact ⟨t, run, fun k => absurd k stays⟩
    · obtain ⟨p', run⟩ := exec_asleep n cfg l q p held c hc
      exact ⟨_, run, asleep_loadingBlank n cfg l q p' held⟩
  · cases c with
    | powerOn straps => exact ⟨_, rfl, fun _ => rfl⟩
    | resetnAssertion => exact ⟨_, rfl, fun _ => rfl⟩
    | resetnRelease straps => exact ⟨_, rfl, releaseReset_loadingBlank straps s h⟩
    | imageLoaded image => exact ⟨_, rfl, loadConfiguration_loadingBlank image s h⟩
    | _ => exact absurd ⟨by simp, by simp, by simp, by simp⟩ hc

theorem settle_loadingBlank (s : State) (h : s.loadingBlank) : s.settle.loadingBlank := by
  obtain out | ⟨n, cfg, l, q, p, held, rfl⟩ := loadingBlank_cases h
  · exact fun k => absurd k ((settle_standing s).out out)
  · rw [asleep_settle]; exact h

theorem withPending_loadingBlank (rest : List Instr) (s : State) (h : s.loadingBlank) :
    { s with pending := rest : State }.loadingBlank := fun hs =>
  congrArg (fun u : State => { u with pending := rest }) (h hs)

/-- Settles O4: a step with no command settles the latest tick's work, and one with a command runs it. -/
theorem loadingStaysBlank : Obligations.LoadingStaysBlank := by
  unfold Obligations.LoadingStaysBlank
  intro s t h run
  unfold step at run
  split at run
  · exact next_of_exists ⟨_, rfl, settle_loadingBlank s h⟩ run
  · exact next_of_exists (exec_loadingBlank _ _ (withPending_loadingBlank _ s h)) run

end Sys2Proof.Machine

/-! # The state at a frame's dispatch -/

namespace Sys2Proof.Machine

/-! ### From a frame's end to its dispatch (R25, R27, R37, R38) -/

/-- Nothing but the flags and the entries of the peer table differs. -/
def EntryFrame (s t : State) : Prop :=
  t = { s with flags := t.flags, peers := { s.peers with entries := t.peers.entries } }

theorem EntryFrame.after {a b c : State} (k : EntryFrame b c) (h : EntryFrame a b) : EntryFrame a c := by
  unfold EntryFrame at *; rw [k, h]

theorem updatePeer_entryFrame (x : Station) (f : PeerEntry → PeerEntry) (s : State) :
    EntryFrame s (s.updatePeer x f) := rfl

theorem expect_entryFrame (x : Station) (m : Byte) (s : State) : EntryFrame s (s.expect x m) := rfl

theorem countMissed_entryFrame (x : Station) (n : Nat) (s : State) : EntryFrame s (s.countMissed x n) := rfl

/-- The state at which an accepted frame of station x is dispatched: the report has reached the flags, the line and
the peer table alone. Of x's entry it names what the sequence checks read: the expected segment is UNKNOWN where x
has just been learned (R38). -/
structure AtDispatch (x : Station) (s u : State) : Prop where
  rest : u = { s with flags := u.flags, line := u.line, peers := u.peers }
  present : (u.peer x).present = true
  expected : (u.peer x).expected = if (s.peer x).present = true then (s.peer x).expected else none
  missed : (u.peer x).counters.missed = (s.peer x).counters.missed
  offFloor : (u.peer x).counters.offFloor = (s.peer x).counters.offFloor
  others : ∀ y, y ≠ x → u.peer y = s.peer y

theorem AtDispatch.floor {x : Station} {s u : State} (h : AtDispatch x s u) : u.floor = s.floor := by rw [h.rest]

theorem accept_entry (now : Frame) (g : Grade) (w : Fin 4) (e : PeerEntry) :
    (e.accept now g w).present = true ∧
      (e.accept now g w).expected = (if e.present = true then e.expected else none) ∧
      (e.accept now g w).counters.missed = e.counters.missed ∧
      (e.accept now g w).counters.offFloor = e.counters.offFloor := by
  unfold PeerEntry.accept PeerEntry.hear
  cases e.present <;> simp

theorem Prelude.atDispatch {s u : State} (pre : Prelude s u) (x : Station) (g : Grade) (w : Fin 4)
    (b : FrameBody) : AtDispatch x s (u.report (.accepted x g w b)) := by
  have entry : (u.report (.accepted x g w b)).peer x = (s.peer x).accept u.clock.count g w := by
    rw [← pre.peer]; exact updatePeer_same x _ _
  obtain ⟨present, expected, missed, offFloor⟩ := accept_entry u.clock.count g w (s.peer x)
  rw [← entry] at present expected missed offFloor
  refine ⟨?_, present, expected, missed, offFloor, fun y hy => ?_⟩
  · have reported : u.report (.accepted x g w b) =
        { u with
          flags := (u.report (.accepted x g w b)).flags, peers := (u.report (.accepted x g w b)).peers } := rfl
    rw [reported, pre.rest]
  · rw [← pre.peer]; exact updatePeer_other x y _ _ hy

/-- A heard frame is dispatched at such a state, and what follows its dispatch is the writer port's alone: an own
frame's end report (R34). -/
theorem receive_dispatch {rx : Rx} {b : FrameBody} {s : State} (h : s.hears rx b) :
    ∃ own u, AtDispatch rx.source s u ∧ PortFrame (u.dispatch own rx.source b) (s.receive rx b) := by
  obtain e | ⟨f, -, -, e⟩ := receive_cases h
  · exact ⟨false, _, (foreignEnd_prelude _ s).atDispatch _ _ _ b, by rw [e]; exact .refl _⟩
  · exact ⟨true, _, (readbackInFlight_prelude rx.readback s).atDispatch _ _ _ b, by
      rw [e]; exact endReport_portFrame f _ _⟩

theorem PortFrame.peer {s t : State} (h : PortFrame s t) (x : Station) : t.peer x = s.peer x := by
  unfold State.peer; rw [h.entries]

/-! ### The comparison of a last segment number (R45, R59) -/

/-- What the comparison of a last segment number leaves in its source's entry, by the rows of R45. -/
structure Compared (x : Station) (last : Byte) (start : Bool) (s t : State) : Prop where
  known : start = true ∨ (s.peer x).expected = none →
    (t.peer x).expected = some (last + 1#8) ∧
      (t.peer x).counters.missed = (s.peer x).counters.missed
  steady : ∀ e, start = false → (s.peer x).expected = some e →
    (last + 1#8 - e).toNat = 0 ∨ 128 ≤ (last + 1#8 - e).toNat →
    (t.peer x).expected = some e ∧ (t.peer x).counters.missed = (s.peer x).counters.missed
  gap : ∀ e, start = false → (s.peer x).expected = some e →
    1 ≤ (last + 1#8 - e).toNat → (last + 1#8 - e).toNat ≤ 127 →
    (t.peer x).expected = some (last + 1#8) ∧
      (t.peer x).counters.missed = rise (s.peer x).counters.missed (last + 1#8 - e).toNat ∧
      hasFlag t.flags .seqGap = true

theorem expect_entry (x : Station) (m : Byte) (s : State) :
    ((s.expect x m).peer x).expected = some m ∧ ((s.expect x m).peer x).counters = (s.peer x).counters := by
  unfold State.expect
  rw [updatePeer_same]
  exact ⟨rfl, rfl⟩

theorem countMissed_entry (x : Station) (n : Nat) (s : State) :
    (s.countMissed x n).peer x = { s.peer x with
      counters := { (s.peer x).counters with missed := rise (s.peer x).counters.missed n } } :=
  updatePeer_same x
    (fun e => { e with counters := { e.counters with missed := rise e.counters.missed n } }) s

theorem compareLast_sets (x : Station) (last : Byte) (start : Bool) (s : State)
    (h : start = true ∨ (s.peer x).expected = none) :
    s.compareLast x last start = s.expect x (last + 1#8) := by
  unfold State.compareLast
  simp only
  split
  · rfl
  · rename_i e he
    rw [if_pos (h.resolve_right (by simp [he]))]

theorem compareLast_steady (x : Station) (last e : Byte) (s : State) (he : (s.peer x).expected = some e)
    (hd : (last + 1#8 - e).toNat = 0 ∨ 128 ≤ (last + 1#8 - e).toNat) :
    s.compareLast x last false = s := by
  unfold State.compareLast ahead
  simp only [he, Bool.false_eq_true, if_false]
  split
  · rfl
  · rw [if_neg (by omega)]

theorem compareLast_gap (x : Station) (last e : Byte) (s : State) (he : (s.peer x).expected = some e)
    (hd : 1 ≤ (last + 1#8 - e).toNat) (hd' : (last + 1#8 - e).toNat ≤ 127) :
    s.compareLast x last false =
      (s.countMissed x (last + 1#8 - e).toNat).expect x (last + 1#8) := by
  unfold State.compareLast ahead
  simp only [he, Bool.false_eq_true, if_false]
  rw [if_neg (by omega), if_pos (by omega)]

theorem compareLast_compared (x : Station) (last : Byte) (start : Bool) (s : State) :
    Compared x last start s (s.compareLast x last start) := by
  refine ⟨fun h => ?_, fun e hs he hd => ?_, fun e hs he hd hd' => ?_⟩
  · rw [compareLast_sets x last start s h]
    obtain ⟨expected, counters⟩ := expect_entry x (last + 1#8) s
    exact ⟨expected, by rw [counters]⟩
  · rw [hs, compareLast_steady x last e s he hd]
    exact ⟨he, rfl⟩
  · rw [hs, compareLast_gap x last e s he hd hd']
    obtain ⟨expected, counters⟩ := expect_entry x (last + 1#8) (s.countMissed x (last + 1#8 - e).toNat)
    refine ⟨expected, by rw [counters, countMissed_entry], ?_⟩
    exact hasFlag_or_mask s.flags .seqGap

theorem compareLast_entryFrame (x : Station) (last : Byte) (start : Bool) (s : State) :
    EntryFrame s (s.compareLast x last start) := by
  unfold State.compareLast
  simp only
  split
  · exact expect_entryFrame x _ s
  · split
    · exact expect_entryFrame x _ s
    · split
      · rfl
      · split
        · exact (expect_entryFrame x _ _).after (countMissed_entryFrame x _ s)
        · rfl

/-- The comparison stands through what touches neither the source's entry nor a flag that is set. -/
theorem Compared.stays {x : Station} {last : Byte} {start : Bool} {s t u : State}
    (h : Compared x last start s t) (entry : u.peer x = t.peer x) (flags : FlagsGrow t.flags u.flags) :
    Compared x last start s u := by
  refine ⟨?_, ?_, fun e hs he hd hd' => ?_⟩
  · rw [entry]; exact h.known
  · rw [entry]; exact h.steady
  · obtain ⟨expected, missed, gap⟩ := h.gap e hs he hd hd'
    exact ⟨by rw [entry]; exact expected, by rw [entry]; exact missed, flags _ gap⟩

/-- The comparison at a frame's dispatch in the terms of the state before the frame: a source just learned expects
UNKNOWN (R38). -/
theorem Compared.from_end {x : Station} {last : Byte} {start : Bool} {s u t : State}
    (c : Compared x last start u t) (reached : AtDispatch x s u) :
    (start = true ∨ (s.peer x).present = false ∨ (s.peer x).expected = none →
      (t.peer x).expected = some (last + 1#8) ∧
        (t.peer x).counters.missed = (s.peer x).counters.missed) ∧
    ∀ e, start = false → (s.peer x).present = true → (s.peer x).expected = some e →
      ((last + 1#8 - e).toNat = 0 ∨ 128 ≤ (last + 1#8 - e).toNat →
        (t.peer x).expected = some e ∧ (t.peer x).counters.missed = (s.peer x).counters.missed) ∧
      (1 ≤ (last + 1#8 - e).toNat → (last + 1#8 - e).toNat ≤ 127 →
        (t.peer x).expected = some (last + 1#8) ∧
          (t.peer x).counters.missed = rise (s.peer x).counters.missed (last + 1#8 - e).toNat ∧
          hasFlag t.flags .seqGap = true) := by
  have known := c.known
  have steady := c.steady
  have gap := c.gap
  simp only [reached.missed, reached.expected] at known steady gap
  refine ⟨fun h => known (h.imp_right ?_), fun e hs hp he => ⟨steady e hs ?_, gap e hs ?_⟩⟩
  · rintro (absent | unknown)
    · simp [absent]
    · simp [unknown]
  · simp [hp, he]
  · simp [hp, he]

end Sys2Proof.Machine

/-! # A BEAT at the peer table -/

namespace Sys2Proof.Machine

/-! ### A BEAT at the peer table (R44, R45) -/

theorem changeView_flags (own : Bool) (v : View) (cause : ViewCause) (s : State) :
    FlagsGrow s.flags (s.changeView own v cause).flags := (changeView_blockFrame own v cause s).flags

/-- A beat at the floor unit touches no peer entry. -/
theorem beatAtFloor_peer (x : Station) (b : BeatBody) (s : State) (y : Station) :
    (s.beatAtFloor x b).peer y = s.peer y := by
  have adopts (v : View) (cause : ViewCause) : (s.adopt v cause).peer y = s.peer y := by
    unfold State.adopt
    simp only
    split
    · rfl
    · exact changeView_peer _ _ _ _ y
  unfold State.beatAtFloor
  split
  · rfl
  · split
    · split
      · exact adopts _ _
      · rfl
    · split
      · split
        · exact adopts b.view .split
        · rfl
      · split
        · exact adopts _ _
        · rfl

/-- What a BEAT reports, taken into its source's entry (R44). -/
def State.takeReport (x : Station) (b : BeatBody) (s : State) : State :=
  s.updatePeer x fun e => { e with
    role := some b.role, ready := some b.ready, view := some b.view
    reportedLast := some b.last }

theorem recordBereachedeq (x : Station) (b : BeatBody) (s : State) :
    s.recordBeat x b = (s.takeReport x b).compareLast x b.last b.start := rfl

theorem takeReport_entry (x : Station) (b : BeatBody) (s : State) :
    (s.takeReport x b).peer x = { s.peer x with
      role := some b.role, ready := some b.ready, view := some b.view
      reportedLast := some b.last } := updatePeer_same x _ s

theorem AtDispatch.takeReport {x : Station} {s u : State} (h : AtDispatch x s u) (b : BeatBody) :
    AtDispatch x s (u.takeReport x b) := by
  have entry := takeReport_entry x b u
  refine ⟨?_, by rw [entry]; exact h.present, by rw [entry]; exact h.expected,
    by rw [entry]; exact h.missed, by rw [entry]; exact h.offFloor, fun y hy => ?_⟩
  · have reported : u.takeReport x b = { u with peers := (u.takeReport x b).peers } := rfl
    rw [reported, h.rest]
  · rw [← h.others y hy]; exact updatePeer_other x y _ u hy

/-- What an entry last had reported by a beat: role, ready flag, view and last segment number (R44). -/
def PeerEntry.report (e : PeerEntry) : Option Role × Option Bool × Option View × Option Byte :=
  (e.role, e.ready, e.view, e.reportedLast)

/-- The comparison leaves what a beat reported. -/
theorem compareLast_report (x : Station) (last : Byte) (start : Bool) (s : State) :
    ((s.compareLast x last start).peer x).report = (s.peer x).report := by
  have expects (m : Byte) (u : State) : ((u.expect x m).peer x).report = (u.peer x).report := by
    unfold State.expect; rw [updatePeer_same]; rfl
  have counts (n : Nat) : ((s.countMissed x n).peer x).report = (s.peer x).report := by
    rw [countMissed_entry]; rfl
  unfold State.compareLast
  simp only
  split
  · exact expects _ s
  · split
    · exact expects _ s
    · split
      · rfl
      · split
        · exact (expects _ _).trans (counts _)
        · rfl

/-- Settles O25: the report is taken into the entry and its number compared (`compareLast_compared`), and neither the
floor unit nor an own beat's end report touches the entry after that. -/
theorem beatRecordedAndCompared : Obligations.BeatRecordedAndCompared := by
  unfold Obligations.BeatRecordedAndCompared
  intro rx b s h
  obtain ⟨own, u, reached, port⟩ := receive_dispatch h
  have compared := compareLast_compared rx.source b.last b.start (u.takeReport rx.source b)
  have report := compareLast_report rx.source b.last b.start (u.takeReport rx.source b)
  rw [takeReport_entry] at report
  have entry : (s.receive rx (.beat b)).peer rx.source = (u.recordBeat rx.source b).peer rx.source :=
    (port.peer rx.source).trans (beatAtFloor_peer rx.source b _ rx.source)
  have flags : FlagsGrow (u.recordBeat rx.source b).flags (s.receive rx (.beat b)).flags :=
    (beatAtFloor_blockFrame rx.source b _).flags.trans port.flags
  rw [← recordBereachedeq] at compared report
  rw [← entry] at report
  simp only [PeerEntry.report, Prod.mk.injEq] at report
  obtain ⟨role, ready, view, last⟩ := report
  obtain ⟨sets, counts⟩ := (compared.stays entry flags).from_end (reached.takeReport b)
  exact ⟨_, exec_receptionOf rx (.beat b) s, role, ready, view, last, sets, counts⟩

end Sys2Proof.Machine

/-! # A RELEASE at the floor unit -/

namespace Sys2Proof.Machine

/-! ### A RELEASE (R53, R54, R59, R64, R117) -/

/-- A RELEASE of the outgoing holder is compared, and the overlap passes to the incoming station (R59). -/
theorem takeRelease_outgoing (own : Bool) (x i : Station) (p : Age) (m : Byte) (s : State)
    (hv : s.floor.view = .overlap x i) :
    s.takeRelease own x p m = (s.compareLast x m false).changeView own (.held i) (.release p) := by
  unfold State.takeRelease
  simp only [hv, if_true]

theorem takeRelease_stray (own : Bool) (x : Station) (p : Age) (m : Byte) (s : State)
    (hv : ∀ i, s.floor.view ≠ .overlap x i) : s.takeRelease own x p m = s.strayFrame := by
  unfold State.takeRelease
  split
  · rename_i h i e
    exact if_neg fun k => hv i (by rw [k]; exact e)
  · rfl

/-- An OVERLAP that passes to HELD of its incoming station by a RELEASE is a release merge (R117). -/
theorem changeView_released (own : Bool) (h i : Station) (p : Age) (s : State)
    (hv : s.floor.view = .overlap h i) (ho : s.cfg.role ≠ .writer) :
    s.mergedTo (some (s.clock.count - BitVec.ofNat 32 p.toNat)) i
      (s.changeView own (.held i) (.release p)) := by
  have out : (s.withView (.held i)).hasOutput = true := (hasOutput_iff _).mpr ho
  have told : (s.withView (.held i)).tellIntake s.floor.view (.held i) (.release p) =
      (s.withView (.held i)).takeIntakeEvent (.releaseMerge h i p) := by
    unfold State.tellIntake
    rw [if_pos out, hv]
    simp [intakeEvents]
  obtain ⟨intake, sched⟩ := changeView_output own (.held i) (.release p) s (by simp [hv])
  rw [told] at intake sched
  have merged := mergedTo_mergeAll (some (s.clock.count - BitVec.ofNat 32 p.toNat)) i (s.withView (.held i))
  exact ⟨intake.trans merged.1, sched.trans merged.2⟩

theorem EntryFrame.fromDispatch {x : Station} {s u w : State} (h : AtDispatch x s u) (k : EntryFrame u w) :
    w = { s with flags := w.flags, line := w.line, peers := w.peers } := by
  unfold EntryFrame at k
  rw [k, h.rest]

/-- A frame's end that leaves the screen unit, in the terms of a change of view's frame. -/
theorem EndFrame.view {s t : State} (h : EndFrame s t) (screen : t.screen = s.screen) : ViewFrame s t := by
  unfold EndFrame at h
  unfold ViewFrame
  rw [screen] at h
  exact h

theorem ViewFrame.screen {s t : State} (h : ViewFrame s t) : t.screen = s.screen := by
  unfold ViewFrame at h; rw [h]

theorem mergedTo_port {s t u : State} {P : Option Frame} {i : Station} (port : PortFrame t u)
    (h : s.mergedTo P i t) : s.mergedTo P i u :=
  ⟨port.intake.trans h.1, port.sched.trans h.2⟩

/-- What the RELEASE of the outgoing holder leaves (R45, R53, R59, R117). -/
theorem release_outgoing {x : Station} {s u : State} (reached : AtDispatch x s u) (own : Bool) (i : Station) (p : Age)
    (m : Byte) (hv : s.floor.view = .overlap x i) :
    let t := u.takeRelease own x p m
    t.floor = { s.floor with view := .held i, lapsed := false } ∧ t.overlap = none ∧ t.lapse = s.lapse ∧
      (s.cfg.role ≠ .writer → s.mergedTo (some (s.clock.count - BitVec.ofNat 32 p.toNat)) i t) ∧
      Compared x m false u t ∧ t.screen = s.screen := by
  have hu : u.floor.view = .overlap x i := by rw [reached.floor]; exact hv
  have rest := (compareLast_entryFrame x m false u).fromDispatch reached
  have compared := compareLast_compared x m false u
  rw [takeRelease_outgoing own x i p m u hu]
  generalize u.compareLast x m false = w at rest compared
  have hw : w.floor.view = .overlap x i := by rw [rest]; exact hv
  obtain ⟨floor, lapse, overlap, -⟩ := changeView_floor own (.held i) (.release p) w (by simp [hw])
  have screen := (changeView_viewFrame own (.held i) (.release p) w).screen
  have merged := changeView_released own x i p w hw
  refine ⟨?_, ?_, ?_, fun ho => ?_,
    compared.stays (changeView_peer _ _ _ _ x) (changeView_flags _ _ _ _), ?_⟩
  · rw [floor, rest]
  · rw [overlap, hw]; rfl
  · rw [lapse, hw, rest]; rfl
  · have merges := merged (by rw [rest]; exact ho)
    rw [rest] at merges ⊢
    exact merges
  · rw [screen, rest]

/-- Settles O30: the outgoing holder's RELEASE is compared and passes the overlap on (`release_outgoing`), any other is
stray (`takeRelease_stray`), and an own RELEASE's end report leaves what either leaves. -/
theorem releaseMergesOrStrays : Obligations.ReleaseMergesOrStrays := by
  unfold Obligations.ReleaseMergesOrStrays
  intro rx p m s h
  obtain ⟨own, u, reached, port⟩ := receive_dispatch h
  have ends := receive_ends h
  have run := exec_receptionOf rx (.release p m) s
  change PortFrame (u.takeRelease own rx.source p m) _ at port
  generalize s.receive rx (.release p m) = t at port ends run
  refine ⟨t, run, fun i hv => ?_, fun hv => ?_, ?_⟩
  · obtain ⟨floor, overlap, lapse, merged, compared, -⟩ := release_outgoing reached own i p m hv
    obtain ⟨sets, counts⟩ := (compared.stays (port.peer _) port.flags).from_end reached
    exact ⟨port.floor.trans floor, port.overlap.trans overlap, port.lapse.trans lapse,
      fun ho => mergedTo_port port (merged ho), fun k => sets (.inr k), fun e => counts e rfl⟩
  · have stray := takeRelease_stray own rx.source p m u fun i => by rw [reached.floor]; exact hv i
    rw [stray] at port
    have entry : t.peer rx.source = u.peer rx.source := port.peer rx.source
    have rest := reached.rest
    refine ⟨port.floor.trans ?_, port.overlap.trans ?_, port.lapse.trans ?_,
      port.flags _ (hasFlag_or_mask _ _), port.intake.trans ?_, port.sched.trans ?_, ?_, ?_⟩
    · rw [State.strayFrame_floor, reached.floor]
    · rw [rest]; rfl
    · rw [rest]; rfl
    · rw [rest]; rfl
    · rw [rest]; rfl
    · rw [entry, reached.missed]
    · rw [entry, reached.expected]
  · refine ends.view (port.screen.trans ?_)
    by_cases hv : ∃ i, s.floor.view = .overlap rx.source i
    · obtain ⟨i, hv⟩ := hv
      obtain ⟨-, -, -, -, -, screen⟩ := release_outgoing reached own i p m hv
      exact screen
    · rw [takeRelease_stray own rx.source p m u fun i k => hv ⟨i, by rw [← reached.floor]; exact k⟩]
      rw [reached.rest]
      rfl

end Sys2Proof.Machine

/-! # The floor check of a SEGMENT -/

namespace Sys2Proof.Machine

/-! ### The sequence check (R46) -/

/-- A SEGMENT in sequence passes the check, which touches the flags and its source's entry alone, and there not what
the floor check counts (R46). -/
theorem checkSequence_passes {x : Station} {s u : State} (reached : AtDispatch x s u) (b : SegmentBody)
    (h : s.inSequence x b) :
    ∃ w, u.checkSequence x b = (w, true) ∧ EntryFrame u w ∧
      (w.peer x).counters.offFloor = (u.peer x).counters.offFloor := by
  have expects (m : Byte) (v : State) (hv : EntryFrame u v)
      (hc : (v.peer x).counters.offFloor = (u.peer x).counters.offFloor) :
      EntryFrame u (v.expect x m) ∧
        ((v.expect x m).peer x).counters.offFloor = (u.peer x).counters.offFloor :=
    ⟨(expect_entryFrame x m v).after hv, by rw [(expect_entry x m v).2]; exact hc⟩
  unfold State.checkSequence ahead
  simp only
  split
  · exact ⟨_, rfl, expects _ u rfl rfl⟩
  · rename_i e he
    split
    · exact ⟨_, rfl, expects _ u rfl rfl⟩
    · rename_i hr
      have inStep : (b.number - e).toNat ≤ 127 := by
        rw [reached.expected] at he
        obtain restart | absent | known := h
        · exact absurd restart hr
        · simp [absent] at he
        · exact known e (by split at he <;> simp_all)
      split
      · exact ⟨_, rfl, expects _ u rfl rfl⟩
      · rw [if_pos (by omega)]
        exact ⟨_, rfl, expects _ _ (countMissed_entryFrame x _ u) (by rw [countMissed_entry])⟩

/-! ### The floor check (R56, R72, R73) -/

theorem mark_none_iff (x : Station) (v : View) (hv : v ≠ .vacant) : v.mark x = none ↔ v.right x = false := by
  cases v with
  | vacant => exact absurd rfl hv
  | held h => simp [View.mark, View.right, View.heldBy, View.holder, View.incomingIs]
  | offered h sc => simp [View.mark, View.right, View.heldBy, View.holder, View.incomingIs]
  | overlap h t =>
    by_cases hx : h = x
    · simp [View.mark, View.right, View.heldBy, View.holder, hx]
    · simp [View.mark, View.right, View.heldBy, View.holder, View.incomingIs, hx]

theorem implicitClaim_claimed (own : Bool) (x : Station) (s : State) (hv : s.floor.view ≠ .vacant) :
    s.implicitClaim own x = s := by
  unfold State.implicitClaim
  split
  · exact absurd ‹_› hv
  · rfl

theorem implicitClaim_vacant (own : Bool) (x : Station) (s : State) (hv : s.floor.view = .vacant) :
    s.implicitClaim own x = s.changeView own (.held x) .implicitClaim := by
  unfold State.implicitClaim; rw [hv]

/-- A segment that is on the floor reaches intake, or nothing in a WRITER station (R72). -/
theorem segmentAtFloor_onFloor (own : Bool) (x : Station) (b : SegmentBody) (s : State) (m : Mark)
    (hm : (s.implicitClaim own x).floor.view.mark x = some m) :
    MergeFrame (s.implicitClaim own x) (s.segmentAtFloor own x b) := by
  unfold State.segmentAtFloor
  simp only [hm]
  split
  · exact takeSegment_mergeFrame x b m _
  · exact .refl _

theorem MergeFrame.floor {s t : State} (h : MergeFrame s t) : t.floor = s.floor := by
  unfold MergeFrame at h; rw [h]

theorem MergeFrame.peer {s t : State} (h : MergeFrame s t) (x : Station) : t.peer x = s.peer x := by
  unfold MergeFrame at h; rw [h]; rfl

/-- A SEGMENT into a VACANT view is an implicit claim, and so on the floor (R56). -/
theorem segmentAtFloor_vacant (own : Bool) (x : Station) (b : SegmentBody) (s : State)
    (hv : s.floor.view = .vacant) :
    (s.segmentAtFloor own x b).floor = { s.floor with view := .held x, lapsed := false } ∧
      (s.segmentAtFloor own x b).peer x = s.peer x := by
  have claimed := implicitClaim_vacant own x s hv
  obtain ⟨floor, -⟩ := changeView_floor own (.held x) .implicitClaim s (by simp [hv])
  have onFloor := segmentAtFloor_onFloor own x b s .holder (by rw [claimed, floor]; simp [View.mark])
  rw [claimed] at onFloor
  exact ⟨onFloor.floor.trans floor, (onFloor.peer x).trans (changeView_peer _ _ _ _ x)⟩

theorem segmentAtFloor_off (own : Bool) (x : Station) (b : SegmentBody) (s : State)
    (hv : s.floor.view ≠ .vacant) (hr : s.floor.view.right x = false) :
    s.segmentAtFloor own x b = s.countOffFloor x := by
  unfold State.segmentAtFloor
  simp only [implicitClaim_claimed own x s hv, (mark_none_iff x _ hv).mpr hr]

theorem segmentAtFloor_right (own : Bool) (x : Station) (b : SegmentBody) (s : State)
    (hr : s.floor.view.right x = true) : MergeFrame s (s.segmentAtFloor own x b) := by
  have hv : s.floor.view ≠ .vacant := fun e => by simp [e, View.right, View.heldBy, View.holder, View.incomingIs] at hr
  have claimed := implicitClaim_claimed own x s hv
  obtain ⟨m, hm⟩ := Option.ne_none_iff_exists'.mp fun none =>
    by simpa [hr] using (mark_none_iff x _ hv).mp none
  have onFloor := segmentAtFloor_onFloor own x b s m (by rw [claimed]; exact hm)
  rwa [claimed] at onFloor

/-- A SEGMENT of the incoming station of an OVERLAP is taken into the hold list of an output (R72, R116). -/
theorem segmentAtFloor_incoming (own : Bool) (h x : Station) (b : SegmentBody) (s : State) (hx : h ≠ x)
    (hv : s.floor.view = .overlap h x) (ho : s.cfg.role ≠ .writer) :
    s.segmentAtFloor own x b = s.takeIncoming (b.held x s.clock.count) := by
  have claimed := implicitClaim_claimed own x s (by simp [hv])
  have mark : s.floor.view.mark x = some .incoming := by simp [hv, View.mark, hx]
  unfold State.segmentAtFloor
  simp only [claimed, mark, (hasOutput_iff s).mpr ho, if_true]
  rfl

theorem segmentAtFloor_floor (own : Bool) (x : Station) (b : SegmentBody) (s : State)
    (hv : s.floor.view ≠ .vacant) : (s.segmentAtFloor own x b).floor = s.floor := by
  cases hr : s.floor.view.right x with
  | true => exact (segmentAtFloor_right own x b s hr).floor
  | false => rw [segmentAtFloor_off own x b s hv hr]; rfl

/-! ### The hold list (R116) -/

theorem takeIncoming_room (g : HeldSegment) (s : State) (room : s.intake.hold.length < 6) :
    s.takeIncoming g = { s with intake.hold := s.intake.hold ++ [g] } := by
  unfold State.takeIncoming
  rw [if_pos (show s.intake.hold.length < holdCapacity from room)]

/-- The armed trim after a held segment is merged: a segment that goes on ends one for another station, an emptied one
does not go on (R119, R120). -/
theorem mergeHeld_armed (P : Option Frame) (g : HeldSegment) (s : State) :
    (s.mergeHeld P g).intake.armed =
      if P ≠ none ∧ s.keptWords P g = [] then s.intake.armed
      else s.intake.armed.filter fun a => a.station == g.source := by
  cases P with
  | none => rw [if_neg (by simp)]; rfl
  | some P =>
    have kept : g.words.filter (survives s.cfg.trimMargin P) = s.keptWords (some P) g := rfl
    unfold State.mergeHeld State.trimAndGo
    simp only [kept]
    by_cases emptied : s.keptWords (some P) g = []
    · simp [emptied]
    · rw [if_neg (by simpa using emptied), if_neg (by simpa using emptied)]
      rfl

/-- What a merge of one held segment leaves at intake and in the schedule (R119). -/
theorem mergeHeld_leaves (P : Option Frame) (g : HeldSegment) (s : State) :
    (s.mergeHeld P g).sched = s.placed (s.cuesOf g (s.keptWords P g)) ∧
    (s.mergeHeld P g).intake = { s.intake with
      trimmed := rise s.intake.trimmed (g.words.length - (s.keptWords P g).length)
      emptied := if P ≠ none ∧ s.keptWords P g = [] then rise s.intake.emptied 1 else s.intake.emptied
      armed := if P ≠ none ∧ s.keptWords P g = [] then s.intake.armed
        else s.intake.armed.filter fun a => a.station == g.source } := by
  have merges := mergeHeld_merges P g s
  have sched := merges.sched
  have intake := merges.intake
  rw [mergeHeld_armed] at intake
  rw [List.flatMap_singleton] at sched
  refine ⟨sched, intake.trans ?_⟩
  cases P with
  | none => simp
  | some P => by_cases emptied : s.keptWords (some P) g = [] <;> simp [emptied, rise_zero]

/-- The state in which a hold overflow merges the oldest segment: it has left the list and is counted (R116). -/
def State.overflowed (rest : List HeldSegment) (s : State) : State :=
  { s with intake.hold := rest, intake.overflows := rise s.intake.overflows 1 }

theorem takeIncoming_overflows (g held : HeldSegment) (rest : List HeldSegment) (h i : Station) (s : State)
    (hl : s.intake.hold = g :: rest) (full : 6 ≤ s.intake.hold.length)
    (hv : s.floor.view = .overlap h i) :
    s.takeIncoming held =
      let m := (s.overflowed rest).mergeHeld (s.intake.lastWordOf h) g
      { m with intake.hold := m.intake.hold ++ [held] } := by
  have merged : s.holdOverflow = (s.overflowed rest).mergeHeld (s.intake.lastWordOf h) g := by
    unfold State.holdOverflow
    rw [hl]
    simp only [hv, View.holder]
    rfl
  unfold State.takeIncoming
  rw [if_neg (show ¬ s.intake.hold.length < holdCapacity from Nat.not_lt.mpr full)]
  simp only [merged]

/-- What a SEGMENT in sequence leaves at its dispatch is what the floor check leaves of a state with the same blocks. -/
theorem dispatch_inSequence {x : Station} {s u : State} (reached : AtDispatch x s u) (own : Bool) (b : SegmentBody)
    (h : s.inSequence x b) :
    ∃ w : State, u.dispatch own x (.segment b) = w.segmentAtFloor own x b ∧
      w = { s with flags := w.flags, line := w.line, peers := w.peers } ∧
      (w.peer x).counters.offFloor = (s.peer x).counters.offFloor := by
  obtain ⟨w, passes, entries, counter⟩ := checkSequence_passes reached b h
  refine ⟨w, ?_, entries.fromDispatch reached, counter.trans reached.offFloor⟩
  unfold State.dispatch
  simp only [passes]

/-- Settles O37: a SEGMENT in sequence comes to the floor check (`dispatch_inSequence`), which claims a VACANT view,
counts an off-floor segment or hands an incoming one to the hold list, where room may have to be made
(`takeIncoming_overflows`). -/
theorem segmentFloorCheck : Obligations.SegmentFloorCheck := by
  unfold Obligations.SegmentFloorCheck
  intro rx b s h inSequence held
  obtain ⟨own, u, reached, port⟩ := receive_dispatch h
  obtain ⟨w, dispatched, rest, counter⟩ := dispatch_inSequence reached own b inSequence
  rw [dispatched] at port
  have floor : w.floor = s.floor := by rw [rest]
  have entry := port.peer rx.source
  refine ⟨_, exec_receptionOf rx (.segment b) s, fun hv => ?_, fun hv => ?_, fun hv hr => ?_, fun hr => ?_,
    fun h' hx hv ho => ?_⟩
  · obtain ⟨claims, still⟩ := segmentAtFloor_vacant own rx.source b w (by rw [floor]; exact hv)
    refine ⟨port.floor.trans ?_, ?_⟩
    · rw [claims, floor]
    · rw [entry, still, counter]
  · rw [port.floor, segmentAtFloor_floor own rx.source b w (by rw [floor]; exact hv), floor]
  · have off := segmentAtFloor_off own rx.source b w (by rw [floor]; exact hv) (by rw [floor]; exact hr)
    rw [off] at port entry
    refine ⟨?_, port.intake.trans ?_, port.sched.trans ?_⟩
    · rw [entry, ← counter]
      unfold State.countOffFloor
      rw [updatePeer_same]
    · rw [rest]; rfl
    · rw [rest]; rfl
  · have right := segmentAtFloor_right own rx.source b w (by rw [floor]; exact hr)
    rw [entry, right.peer, counter]
  · rw [port.intake, port.sched, segmentAtFloor_incoming own h' rx.source b w hx (by rw [floor]; exact hv)
      (by rw [rest]; exact ho)]
    refine ⟨fun room => ?_, fun g more hl full => ?_⟩
    · rw [takeIncoming_room _ w (by rw [rest]; exact room), rest]
      exact ⟨rfl, rfl⟩
    · rw [takeIncoming_overflows g _ more h' rx.source w (by rw [rest]; exact hl) (by rw [rest]; exact full)
        (by rw [rest]; exact hv)]
      obtain ⟨sched, intake⟩ := mergeHeld_leaves (w.intake.lastWordOf h') g (w.overflowed more)
      simp only [sched, intake]
      rw [rest]
      exact ⟨rfl, rfl⟩

end Sys2Proof.Machine

/-! # The source drops of a writer that loses the right to send -/

namespace Sys2Proof.Machine

/-! ### Source drops (R49, R102) -/

/-- Some source drops have been counted, in RUNNING, with SRC_DROP set where there were any (R49; log entry 35). -/
structure Drops (n : Nat) (s t : State) : Prop where
  drops : t.peers.counters.drops = s.dropsAfter n
  start : t.start = s.start
  flag : n ≠ 0 → hasFlag t.flags .srcDrop = true
  grow : FlagsGrow s.flags t.flags

theorem dropsAfter_zero (s : State) : s.dropsAfter 0 = s.peers.counters.drops := by
  simp [State.dropsAfter, rise_zero]

theorem Drops.refl (s : State) : Drops 0 s s :=
  ⟨(dropsAfter_zero s).symm, rfl, fun h => absurd rfl h, .refl _⟩

theorem Drops.trans {m n : Nat} {a b c : State} (h : Drops m a b) (k : Drops n b c) : Drops (m + n) a c := by
  refine ⟨?_, k.start.trans h.start, fun some => ?_, h.grow.trans k.grow⟩
  · rw [k.drops]
    unfold State.dropsAfter
    rw [h.start, h.drops]
    unfold State.dropsAfter
    split
    · exact rise_rise _ _ _
    · rfl
  · by_cases hm : m = 0
    · exact k.flag (by omega)
    · exact k.grow _ (h.flag hm)

/-- What touches neither the counters nor the start state beforehand counts nothing. -/
theorem Drops.since {n : Nat} {s t u : State} (k : Drops n t u) (peers : t.peers = s.peers)
    (start : t.start = s.start) (grow : FlagsGrow s.flags t.flags) : Drops n s u := by
  refine ⟨?_, k.start.trans start, k.flag, grow.trans k.grow⟩
  rw [k.drops]
  unfold State.dropsAfter
  rw [peers, start]

theorem countDrops_drops (n : Nat) (s : State) : Drops n s (s.countDrops n) := by
  unfold State.countDrops
  split
  · rename_i h
    rw [h]
    exact .refl s
  · exact ⟨rfl, rfl, fun _ => raise_sets _ _, flagsGrow_or _ _⟩

/-- The open segment discarded is one source drop, unless it holds no words (R102). -/
theorem discardOpen_drops (s : State) :
    Drops (if s.asm.words = [] then 0 else 1) s s.discardOpen ∧ s.discardOpen.asm.words = [] := by
  unfold State.discardOpen
  by_cases h : s.asm.words = []
  · rw [if_pos h, if_pos (by simpa using h)]
    exact ⟨.refl s, h⟩
  · rw [if_neg h, if_neg (by simpa using h)]
    refine ⟨?_, by rw [countDrops_asm]⟩
    exact (countDrops_drops 1 _).since rfl rfl (.refl _)

/-- With none of them under arbitration every queued segment goes, each a source drop (R102). -/
theorem withdrawSegments_drops (byRecord : Bool) (s : State) (h : s.line.segmentUnderArb = none) :
    Drops s.line.segQ.length s (s.withdrawSegments byRecord) ∧
      (s.withdrawSegments byRecord).line.segQ = [] ∧
      (s.withdrawSegments byRecord).asm.words = s.asm.words ∧
      (s.withdrawSegments byRecord).asm.newSpeaker = s.asm.newSpeaker := by
  unfold State.withdrawSegments
  rw [h]
  refine ⟨(countDrops_drops _ _).since rfl rfl (.refl _), ?_, by rw [countDrops_asm], by rw [countDrops_asm]⟩
  obtain ⟨-, segQ, -⟩ := settleRatio_queues { s.line with segQ := [] }
  rw [countDrops_line]
  exact segQ

/-- The writer's text after it has lost the right to send: none of it is left, and each segment of it was a source drop
(R102). -/
structure TextGone (s t : State) : Prop where
  drops : Drops ((if s.asm.words = [] then 0 else 1) + s.line.segQ.length) s t
  segQ : t.line.segQ = []
  words : t.asm.words = []
  newSpeaker : t.asm.newSpeaker = false
  drain : t.asm.drain = .idle

theorem loseRight_textGone (s : State) (h : s.line.segmentUnderArb = none) : TextGone s s.loseRight := by
  obtain ⟨first, empty⟩ := discardOpen_drops s
  have line := discardOpen_line s
  obtain ⟨rest, segQ, words, newSpeaker⟩ := withdrawSegments_drops false
    { s.discardOpen with asm.newSpeaker := false } (by simpa only [line] using h)
  have all := first.trans (rest.since (s := s.discardOpen) rfl rfl (.refl _))
  refine ⟨?_, segQ, words.trans empty, newSpeaker, rfl⟩
  rw [← line]
  exact ⟨all.drops, all.start, all.flag, all.grow⟩

/-- A writer state worked out that leaves the sending states: it is told, and the right to send is lost (R80, R102). -/
theorem workOut_leaves (s : State) (sends : s.port.wstate.sending = true) (ends : s.workState.sending = false) :
    s.workOut = ((State.notify (.state s.workState) { s with port.wstate := s.workState }).requestTally
      s.workState.pattern).loseRight := by
  have other : s.workState ≠ s.port.wstate := fun e => by simp [e, sends] at ends
  unfold State.workOut State.changeWriterState
  rw [if_neg other]
  simp [sends, ends]

theorem workOut_textGone (s : State) (sends : s.port.wstate.sending = true) (ends : s.workState.sending = false)
    (h : s.line.segmentUnderArb = none) : TextGone s s.workOut := by
  rw [workOut_leaves s sends ends]
  have gone := loseRight_textGone ((State.notify (.state s.workState)
    { s with port.wstate := s.workState }).requestTally s.workState.pattern) h
  exact ⟨⟨gone.drops.drops, gone.drops.start, gone.drops.flag, gone.drops.grow⟩, gone.segQ, gone.words,
    gone.newSpeaker, gone.drain⟩

end Sys2Proof.Machine

/-! # What the writer is told of a split -/

namespace Sys2Proof.Machine

/-! ### The notices of a change of view (R86, R88, R90, R93) -/

/-- The notices of a change of view, in their order. -/
def State.viewNotices (old new : View) (cause : ViewCause) (s : State) : List Notice :=
  (match s.viewAnswer old new cause with
    | .withdrawn o => [.outcome o]
    | .stands => []) ++
  (if s.lossOfFloor old new cause = true then [.outcome .lostFloor] else []) ++
  (if cause = .lapse ∧ old.heldBy s.number = true then [.outcome .lapsed] else [])

theorem told_append (os ps : List Notice) (p : WriterPort) : p.told (os ++ ps) = (p.told os).told ps :=
  List.foldl_append

/-- A notice told under a condition. -/
theorem ite_answer_port (c : Prop) [Decidable c] (o : Answer) (s : State) :
    (if c then s.answer o else s).port = s.port.told (if c then [.outcome o] else []) := by
  split <;> rfl

theorem withdrawRequest_port (s : State) : s.withdrawRequest.port = s.port := by
  unfold State.withdrawRequest; split <;> rfl

theorem withdrawRequest_number (s : State) : s.withdrawRequest.number = s.number :=
  (withdrawRequest_portFrame s).number

/-- The port after its answers to a change of view. -/
theorem answerView_port (old new : View) (cause : ViewCause) (s : State) :
    (s.answerView old new cause).port =
      ({ s.port with splitIdle := cause == .split } : WriterPort).told (s.viewNotices old new cause) := by
  have tail (u : State) (os : List Notice) (lost : Bool) (number : u.number = s.number)
      (port : u.port = ({ s.port with splitIdle := cause == .split } : WriterPort).told os) :
      (let v := if lost then u.answer .lostFloor else u
        if cause = .lapse ∧ old.heldBy v.number then v.answer .lapsed else v).port =
      ({ s.port with splitIdle := cause == .split } : WriterPort).told
        (os ++ (if lost = true then [.outcome .lostFloor] else []) ++
          (if cause = .lapse ∧ old.heldBy s.number = true then [.outcome .lapsed] else [])) := by
    have same : (if lost = true then u.answer .lostFloor else u).number = s.number := by
      split <;> exact number
    simp only [told_append, ← port, ← ite_answer_port, same]
  unfold State.answerView State.viewNotices
  cases s.viewAnswer old new cause with
  | stands => exact tail { s with port.splitIdle := cause == .split } [] _ rfl rfl
  | withdrawn o =>
    have number : ({ s with port.splitIdle := cause == .split } : State).withdrawRequest.number = s.number :=
      withdrawRequest_number _
    have port : ({ s with port.splitIdle := cause == .split } : State).withdrawRequest.port =
        { s.port with splitIdle := cause == .split } := withdrawRequest_port _
    cases o with
    | aborted =>
      exact tail (State.answerAborted _) [.outcome .aborted] _ number
        (congrArg (WriterPort.enqueue (.outcome .aborted)) port)
    | _ =>
      exact tail (State.answer _ _) [.outcome _] _ number (congrArg (WriterPort.enqueue (.outcome _)) port)

theorem answerView_aborted (old new : View) (cause : ViewCause) (s : State)
    (h : s.viewAnswer old new cause = .withdrawn .aborted) :
    hasFlag (s.answerView old new cause).flags .wrAborted = true := by
  unfold State.answerView
  simp only [h]
  have told (c : Prop) [Decidable c] (o : Answer) (u : State) : (if c then u.answer o else u).flags = u.flags := by
    split <;> rfl
  simp only [told]
  exact raise_sets _ _

/-- A request that a change of view withdraws leaves the line as its withdrawal does. -/
theorem answerView_withdraws (old new : View) (cause : ViewCause) (o : Answer) (s : State)
    (h : s.viewAnswer old new cause = .withdrawn o) :
    (s.answerView old new cause).line = s.withdrawRequest.line := by
  have told (c : Prop) [Decidable c] (o : Answer) (u : State) : (if c then u.answer o else u).line = u.line := by
    split <;> rfl
  have marked := congrArg State.line (withdrawRequest_splitIdle (cause == .split) s)
  unfold State.answerView
  simp only [h, told]
  cases o <;> exact marked

theorem told_rest (os : List Notice) (p : WriterPort) :
    p.told os = { p with sending := (p.told os).sending, notices := (p.told os).notices } := by
  induction os generalizing p with
  | nil => rfl
  | cons n os ih =>
    have step : p.told (n :: os) = (p.enqueue n).told os := rfl
    rw [step, ih, enqueue_rest n p]

/-! ### The writer of a split (R70, R71, R79, R93; log entries 33 and 40) -/

theorem claimOut_answered {s t : State} (h : Answered s t) (hs : s.claimOut = false) : t.claimOut = false := by
  unfold State.claimOut at hs ⊢
  rw [h.inFlight]
  simp only [Bool.or_eq_false_iff] at hs ⊢
  refine ⟨?_, hs.2⟩
  obtain e | e := h.floorQ
  · rw [e]; exact hs.1
  · rw [e]; rfl

/-- A ready writer with no CLAIM or TAKE of its own out is IDLE after a split (R79). -/
theorem split_workState (old new : View) (s : State) (ready : s.port.ready = true) (claim : s.claimOut = false) :
    (s.answerView old new .split).workState = .idle := by
  have port := answerView_port old new .split s
  rw [told_rest] at port
  have away := claimOut_answered (answerView_answered old new .split s) claim
  simp [State.workState, away, port, ready]

/-- After a split the writer port tells its notices and the state IDLE. -/
theorem split_port (old new : View) (s : State) (ready : s.port.ready = true) (claim : s.claimOut = false) :
    (s.answerView old new .split).workOut.port =
      (({ s.port with splitIdle := true } : WriterPort).told (s.viewNotices old new .split)).settled .idle := by
  rw [(workOut_told _).1, split_workState old new s ready claim, answerView_port]
  rfl

/-- What the port's answers leave of the text: nothing of it is touched. -/
structure TextStands (s t : State) : Prop where
  segQ : t.line.segQ = s.line.segQ
  arb : t.line.arb = s.line.arb
  words : t.asm.words = s.asm.words
  peers : t.peers = s.peers
  start : t.start = s.start

theorem TellFrame.textStands {s t : State} (h : TellFrame s t) : TextStands s t := by
  unfold TellFrame at h; rw [h]; exact ⟨rfl, rfl, rfl, rfl, rfl⟩

theorem TextStands.after {a b c : State} (k : TextStands b c) (h : TextStands a b) : TextStands a c :=
  ⟨k.segQ.trans h.segQ, k.arb.trans h.arb, k.words.trans h.words, k.peers.trans h.peers, k.start.trans h.start⟩

theorem withdrawRequest_textStands (s : State) : TextStands s s.withdrawRequest := by
  unfold State.withdrawRequest; split <;> exact ⟨rfl, rfl, rfl, rfl, rfl⟩

theorem answerView_textStands (old new : View) (cause : ViewCause) (s : State) :
    TextStands s (s.answerView old new cause) := by
  obtain h | ⟨-, h⟩ := answerView_cases old new cause s
  · exact h.textStands
  · exact h.textStands.after (withdrawRequest_textStands s)

theorem segmentUnderArb_none {l : Line} (h : l.arb ≠ some .segment) : l.segmentUnderArb = none := by
  unfold Line.segmentUnderArb; rw [if_neg h]

theorem TextGone.of_stands {s t u : State} (h : TextStands s t) (grow : FlagsGrow s.flags t.flags)
    (k : TextGone t u) : TextGone s u := by
  have all := k.drops.since h.peers h.start grow
  rw [h.segQ, h.words] at all
  exact ⟨all, k.segQ, k.words, k.newSpeaker, k.drain⟩

/-- The text of a writer that was sending is gone after a split, with no segment of it under arbitration (R102). -/
theorem split_textGone (old new : View) (s : State) (ready : s.port.ready = true) (claim : s.claimOut = false)
    (sends : s.port.wstate.sending = true) (arb : s.line.arb ≠ some .segment) :
    TextGone s (s.answerView old new .split).workOut := by
  have stands := answerView_textStands old new .split s
  refine .of_stands stands (answerView_portFrame old new .split s).flags (workOut_textGone _ ?_ ?_ ?_)
  · rw [(answerView_answered old new .split s).wstate]; exact sends
  · rw [split_workState old new s ready claim]; rfl
  · exact segmentUnderArb_none (by rw [stands.arb]; exact arb)

theorem leaveOut_settled {s : State} (landed : s.line.floorInFlight = false) (leaves : s.port.leaves = [])
    (queued : s.line.floorQ = none ∨ s.line.floorQ = some .release) : s.leaveOut = false := by
  have flying : (s.line.inFlight.map (·.body) == some .yield) = false := by
    cases hf : s.line.inFlight with
    | none => rfl
    | some f => simpa using (body_of_not_floorInFlight landed hf).2.2
  unfold State.leaveOut
  rw [leaves, flying]
  obtain e | e := queued <;> rw [e] <;> rfl

theorem claimOut_settled {s : State} (landed : s.line.floorInFlight = false)
    (queued : s.line.floorQ = none ∨ s.line.floorQ = some .release) : s.claimOut = false := by
  have waiting : (s.line.floorQ.map FloorFrame.claims).getD false = false := by
    obtain e | e := queued <;> rw [e] <;> rfl
  unfold State.claimOut
  rw [waiting, Bool.false_or]
  split
  · rename_i f hf
    obtain ⟨noClaim, noTake, -⟩ := body_of_not_floorInFlight landed hf
    split
    · exact absurd ‹_› noClaim
    · exact absurd ‹_› (noTake _)
    · exact Bool.and_false _
  · rfl

/-- The request pending with no floor frame queued but a RELEASE: that frame, or the drain before it (R84). -/
theorem pendingRequest_drains {s : State} (queued : s.line.floorQ = none ∨ s.line.floorQ = some .release)
    (drains : s.asm.drain = .draining ∨ s.line.floorQ = some .release) :
    s.pendingRequest = some (.frame .release) ∨ s.pendingRequest = some .drain := by
  unfold State.pendingRequest
  obtain e | e := queued
  · exact .inr (by simp [e, drains.resolve_right (by simp [e])])
  · exact .inl (by rw [e])

theorem viewAnswer_drains {s : State} (i : Station) (new : View)
    (h : s.pendingRequest = some (.frame .release) ∨ s.pendingRequest = some .drain) :
    s.viewAnswer (.overlap s.number i) new .split = .withdrawn .aborted := by
  unfold State.viewAnswer
  obtain e | e := h <;> rw [e] <;> simp

/-- A split that ends a drain tells ABORTED, and then LOST_FLOOR (log entry 33). -/
theorem viewNotices_drains {s : State} (i : Station) (new : View) (leave : s.leaveOut = false)
    (h : s.pendingRequest = some (.frame .release) ∨ s.pendingRequest = some .drain) :
    s.viewNotices (.overlap s.number i) new .split = [.outcome .aborted, .outcome .lostFloor] := by
  unfold State.viewNotices
  rw [viewAnswer_drains i new h]
  simp [State.lossOfFloor, leave]

/-- A split that finds no request pending tells LOST_FLOOR alone. -/
theorem viewNotices_alone {s : State} (old new : View) (leave : s.leaveOut = false)
    (h : s.pendingRequest = none) : s.viewNotices old new .split = [.outcome .lostFloor] := by
  have stands : s.viewAnswer old new .split = .stands := by unfold State.viewAnswer; rw [h]
  unfold State.viewNotices
  rw [stands]
  simp [State.lossOfFloor, leave]

theorem withdrawRequest_floorQ {s : State} (queued : s.line.floorQ = none ∨ s.line.floorQ = some .release) :
    s.withdrawRequest.line.floorQ = none := by
  unfold State.withdrawRequest State.pendingRequest
  obtain e | e := queued
  · simp only [e]; split <;> simp_all
  · simp [e]

end Sys2Proof.Machine

/-! # The split -/

namespace Sys2Proof.Machine

/-! ### From a beat's end to the floor unit -/

/-- What the writer's affairs turn on at the line, and the source drops, stand. -/
structure QueuesStand (s t : State) : Prop where
  floorQ : t.line.floorQ = s.line.floorQ
  segQ : t.line.segQ = s.line.segQ
  arb : t.line.arb = s.line.arb
  inFlight : t.line.inFlight = s.line.inFlight
  drops : t.peers.counters.drops = s.peers.counters.drops

theorem QueuesStand.after {a b c : State} (k : QueuesStand b c) (h : QueuesStand a b) : QueuesStand a c :=
  ⟨k.floorQ.trans h.floorQ, k.segQ.trans h.segQ, k.arb.trans h.arb, k.inFlight.trans h.inFlight,
    k.drops.trans h.drops⟩

theorem foreignEnd_queuesStand (j : Judgement) (s : State) : QueuesStand s (s.foreignEnd j) := by
  have lost : QueuesStand s s.countBeatLoss := by
    unfold State.countBeatLoss
    split
    · exact ⟨rfl, rfl, rfl, rfl, rfl⟩
    · split
      · exact ⟨rfl, rfl, rfl, rfl, rfl⟩
      · split <;> exact ⟨rfl, rfl, rfl, rfl, rfl⟩
  have left (u : State) : QueuesStand u { u with line.foreign := false, line.winCounted := false } :=
    ⟨rfl, rfl, rfl, rfl, rfl⟩
  refine (left _).after ?_
  split
  · exact ⟨rfl, rfl, rfl, rfl, rfl⟩
  · exact lost

theorem EntryFrame.queuesStand {s t : State} (h : EntryFrame s t) : QueuesStand s t := by
  unfold EntryFrame at h; rw [h]; exact ⟨rfl, rfl, rfl, rfl, rfl⟩

theorem MergeFrame.queuesStand {s t : State} (h : MergeFrame s t) : QueuesStand s t := by
  unfold MergeFrame at h; rw [h]; exact ⟨rfl, rfl, rfl, rfl, rfl⟩

theorem recordBeat_entryFrame (x : Station) (b : BeatBody) (s : State) : EntryFrame s (s.recordBeat x b) :=
  (compareLast_entryFrame x b.last b.start _).after (updatePeer_entryFrame x _ s)

/-- The state at which another station's beat comes to the floor unit, its report recorded: the peer table holds its
source PRESENT, and the writer's affairs stand. -/
structure AtFloor (x : Station) (s w : State) : Prop where
  rest : w = { s with flags := w.flags, line := w.line, peers := w.peers }
  queues : QueuesStand s w
  present : (w.peer x).present = true
  others : ∀ y, y ≠ x → (w.peer y).present = (s.peer y).present

theorem AtDispatch.atFloor {x : Station} {s u : State} (reached : AtDispatch x s u) (queues : QueuesStand s u)
    (b : BeatBody) : AtFloor x s (u.recordBeat x b) := by
  have recorded := recordBeat_entryFrame x b u
  have still := recordBeat_still x b u
  have heard : ((u.recordBeat x b).peer x).present = (u.peer x).present := congrArg Prod.fst still.heard
  refine ⟨recorded.fromDispatch reached, recorded.queuesStand.after queues, heard.trans reached.present,
    fun y hy => ?_⟩
  rw [still.others y hy, reached.others y hy]

/-- Another station's beat is recorded, and then comes to the floor unit (R44, R66, R70). -/
theorem receive_beat {rx : Rx} {b : BeatBody} {s : State} (h : s.hears rx (.beat b)) (hx : rx.source ≠ s.number) :
    ∃ w, AtFloor rx.source s w ∧ s.receive rx (.beat b) = w.beatAtFloor rx.source b := by
  have reports (j : Judgement) (u : State) : QueuesStand u (u.report j) := by
    cases j <;> exact ⟨rfl, rfl, rfl, rfl, rfl⟩
  obtain e | ⟨f, -, mine, -⟩ := receive_cases h
  · exact ⟨_, ((foreignEnd_prelude _ s).atDispatch _ _ _ (.beat b)).atFloor
      ((reports _ _).after (foreignEnd_queuesStand _ s)) b, e⟩
  · exact absurd mine hx

/-- The view adopted for a reported one does not depend on what the beat itself has just changed (R66). -/
theorem AtFloor.adoptable {x : Station} {s w : State} (h : AtFloor x s w) (v : View) :
    w.adoptable v = s.adopted x v := by
  unfold State.adoptable State.adopted
  cases v with
  | overlap a i =>
    by_cases hi : i = x
    · simp [hi, h.present]
    · simp [hi, h.others i hi]
  | vacant | held | offered => rfl

theorem adopted_holder (x : Station) (v : View) (s : State) : (s.adopted x v).holder = v.holder := by
  unfold State.adopted
  cases v with
  | overlap a i => simp only; split <;> rfl
  | vacant | held | offered => rfl

/-- The adoption of another view is counted, and is a change of view (R66, R68). -/
theorem adopt_changes (v : View) (cause : ViewCause) (s : State) (h : s.adoptable v ≠ s.floor.view) :
    s.adopt v cause =
      ({ s with floor.adoptions := rise s.floor.adoptions 1 } : State).changeView false (s.adoptable v) cause := by
  unfold State.adopt
  exact if_neg h

theorem heldBy_iff (x : Station) (v : View) : v.heldBy x = true ↔ v.holder = some x := by
  simp [View.heldBy]

/-- A holder yields to the beat of a lower station that reports itself as holder (R70). -/
theorem beatAtFloor_split (x : Station) (b : BeatBody) (s : State) (hx : x ≠ s.number)
    (holds : s.floor.view.heldBy s.number = true) (reports : b.view.heldBy x = true)
    (lower : x.val < s.number.val) :
    s.beatAtFloor x b = (s.adopt b.view .split).raise .floorSplit := by
  unfold State.beatAtFloor
  rw [if_neg hx, (heldBy_iff _ _).mp holds]
  simp [reports, lower]

theorem beatAtFloor_keeps (x : Station) (b : BeatBody) (s : State) (hx : x ≠ s.number)
    (holds : s.floor.view.heldBy s.number = true)
    (h : b.view.heldBy x = false ∨ s.number.val < x.val) : s.beatAtFloor x b = s := by
  have keeps : (b.view.heldBy x && decide (x.val < s.number.val)) = false := by
    obtain h | h := h
    · simp [h]
    · simp [Nat.lt_asymm h]
  unfold State.beatAtFloor
  rw [if_neg hx, (heldBy_iff _ _).mp holds, keeps]
  simp

/-! ### What the split leaves (R49, R53, R64, R70, R71, R79, R102) -/

/-- The state in which a split is taken: the adoption counted (R68). -/
def State.adopting (s : State) : State := { s with floor.adoptions := rise s.floor.adoptions 1 }

/-- The state in which the writer port hears of a change of view: the other blocks have been told. -/
def State.heardOf (new : View) (cause : ViewCause) (s : State) : State :=
  (s.withView new).tellIntake s.floor.view new cause

theorem heardOf_mergeFrame (new : View) (cause : ViewCause) (s : State) :
    MergeFrame (s.withView new) (s.heardOf new cause) := tellIntake_mergeFrame _ _ _ _

/-- At a WRITER or BOTH station whose floor queue is not under arbitration, the port reacts at once to a split: it
answers and works its state out (R26, R65). -/
theorem changeView_split (new : View) (s : State) (h : new ≠ s.floor.view) (hn : new ≠ .vacant)
    (ho : s.cfg.role ≠ .output) (arb : s.line.floorUnderArb = false) :
    s.changeView false new .split = ((s.heardOf new .split).answerView s.floor.view new .split).workOut := by
  have told := heardOf_mergeFrame new .split s
  have cfg : (s.heardOf new .split).cfg = s.cfg := told.cfg
  have line : (s.heardOf new .split).line = s.line := by unfold MergeFrame at told; rw [told]; rfl
  have dark : (s.heardOf new .split).tellLamp s.floor.view new = s.heardOf new .split :=
    if_neg (by rw [cfg]; exact ho)
  have writer : (s.heardOf new .split).hasWriter = true := (hasWriter_iff _).mpr (by rw [cfg]; exact ho)
  rw [changeView_eq false new .split s h, if_neg (by simp)]
  change ((s.heardOf new .split).tellLamp s.floor.view new).portView s.floor.view new .split = _
  rw [dark]
  unfold State.portView State.reactToView
  rw [writer, line, arb]
  simp [hn]

/-- The station right before its writer port hears of a split, in the terms of the state before the beat. -/
structure SplitHeard (s a : State) : Prop where
  port : a.port = s.port
  asm : a.asm = s.asm
  start : a.start = s.start
  number : a.number = s.number
  queues : QueuesStand s a

theorem AtFloor.splitHeard {x : Station} {s w : State} (h : AtFloor x s w) (new : View) :
    SplitHeard s (w.adopting.heardOf new .split) := by
  have told := heardOf_mergeFrame new .split w.adopting
  have queues : QueuesStand w (w.adopting.withView new) := ⟨rfl, rfl, rfl, rfl, rfl⟩
  have rest := h.rest
  refine ⟨?_, ?_, ?_, ?_, told.queuesStand.after (queues.after h.queues)⟩ <;>
    (unfold MergeFrame at told; rw [told, rest]; rfl)

theorem SplitHeard.claimOut {s a : State} (h : SplitHeard s a) : a.claimOut = s.claimOut := by
  unfold State.claimOut
  rw [h.queues.floorQ, h.queues.inFlight]

theorem SplitHeard.leaveOut {s a : State} (h : SplitHeard s a) : a.leaveOut = s.leaveOut := by
  unfold State.leaveOut
  rw [h.queues.floorQ, h.queues.inFlight, h.port]

theorem SplitHeard.pendingRequest {s a : State} (h : SplitHeard s a) : a.pendingRequest = s.pendingRequest := by
  unfold State.pendingRequest
  rw [h.queues.floorQ, h.asm]

theorem SplitHeard.dropsAfter {s a : State} (h : SplitHeard s a) (n : Nat) : a.dropsAfter n = s.dropsAfter n := by
  unfold State.dropsAfter
  rw [h.start, h.queues.drops]

/-- A writer that was sending, none of whose affairs is on the line but a drain, after a split (R49, R71, R102; log
entries 33, 35 and 40). -/
theorem split_writer {s a : State} (heard : SplitHeard s a) (new : View)
    (ready : s.port.ready = true) (sends : s.port.wstate.sending = true)
    (landed : s.line.floorInFlight = false) (leaves : s.port.leaves = []) (arb : s.line.arb ≠ some .segment)
    (queued : s.line.floorQ = none ∨ s.line.floorQ = some .release) :
    let drains := s.asm.drain = .draining ∨ s.line.floorQ = some .release
    let drops := (if s.asm.words = [] then 0 else 1) + s.line.segQ.length
    let t := (a.answerView s.floor.view new .split).workOut
    t.line.segQ = [] ∧ t.asm.words = [] ∧ t.asm.newSpeaker = false ∧
      t.peers.counters.drops = s.dropsAfter drops ∧ (1 ≤ drops → hasFlag t.flags .srcDrop = true) ∧
      t.asm.drain = .idle ∧
      (¬drains → t.line.floorQ = none ∧
        t.port = ({ s.port with splitIdle := true }.told [.outcome .lostFloor]).settled .idle) ∧
      ((∃ i, s.floor.view = .overlap s.number i) → drains →
        hasFlag t.flags .wrAborted = true ∧ t.line.floorQ = none ∧
        t.port = ({ s.port with splitIdle := true }.told
          [.outcome .aborted, .outcome .lostFloor]).settled .idle) := by
  intro drains drops t
  have ready' : a.port.ready = true := by rw [heard.port]; exact ready
  have claim : a.claimOut = false := heard.claimOut.trans (claimOut_settled landed queued)
  have leave : a.leaveOut = false := heard.leaveOut.trans (leaveOut_settled landed leaves queued)
  have gone : TextGone a t := split_textGone s.floor.view new a ready' claim (by rw [heard.port]; exact sends)
    (by rw [heard.queues.arb]; exact arb)
  have port : t.port = _ := split_port s.floor.view new a ready' claim
  have floorQ : t.line.floorQ = (a.answerView s.floor.view new .split).line.floorQ := (workOut_told _).2.2
  have count : (if a.asm.words = [] then 0 else 1) + a.line.segQ.length = drops := by
    simp only [drops, heard.asm, heard.queues.segQ]
  have counted := gone.drops
  rw [count] at counted
  refine ⟨gone.segQ, gone.words, gone.newSpeaker, counted.drops.trans (heard.dropsAfter drops),
    fun some => counted.flag (by omega), gone.drain, fun quiet => ?_, ?_⟩
  · have empty : s.line.floorQ = none := queued.resolve_right fun e => quiet (.inr e)
    have alone : a.pendingRequest = none := by
      rw [heard.pendingRequest]
      unfold State.pendingRequest
      rw [empty]
      exact if_neg fun e => quiet (.inl e)
    refine ⟨?_, ?_⟩
    · rw [floorQ]
      obtain e | e := (answerView_answered s.floor.view new .split a).floorQ
      · rw [e, heard.queues.floorQ]; exact empty
      · exact e
    · rw [port, viewNotices_alone s.floor.view new leave alone, heard.port]
  · rintro ⟨i, hv⟩ busy
    have pending : a.pendingRequest = some (.frame .release) ∨ a.pendingRequest = some .drain := by
      rw [heard.pendingRequest]; exact pendingRequest_drains queued busy
    have view : s.floor.view = .overlap a.number i := by rw [heard.number]; exact hv
    have aborted := viewAnswer_drains i new pending
    rw [view] at port floorQ
    refine ⟨?_, ?_, ?_⟩
    · exact (workOut_portFrame _).flags _ (by rw [view]; exact answerView_aborted _ _ _ _ aborted)
    · rw [floorQ, answerView_withdraws _ _ _ _ _ aborted]
      exact withdrawRequest_floorQ (by rw [heard.queues.floorQ]; exact queued)
    · rw [port, viewNotices_drains i new leave pending, heard.port]

/-! ### The split settled (R70) -/

/-- The view adopted at a split names the lower station as holder, so it is another than the view given up. -/
theorem adopted_of_split {x : Station} {v : View} {s : State} (hx : x ≠ s.number)
    (holds : s.floor.view.heldBy s.number = true) (reports : v.heldBy x = true) :
    s.adopted x v ≠ s.floor.view ∧ s.adopted x v ≠ .vacant := by
  have holder : (s.adopted x v).holder = some x := (adopted_holder x v s).trans ((heldBy_iff x v).mp reports)
  refine ⟨fun e => ?_, fun e => ?_⟩
  · rw [e, (heldBy_iff _ _).mp holds] at holder
    exact hx (Option.some.inj holder).symm
  · rw [e] at holder
    cases holder

/-- A split at the floor unit is a change of view to the one adopted, with the adoption counted (R68, R70). -/
theorem AtFloor.split {x : Station} {s w : State} (reached : AtFloor x s w) (b : BeatBody) (hx : x ≠ s.number)
    (holds : s.floor.view.heldBy s.number = true) (reports : b.view.heldBy x = true)
    (lower : x.val < s.number.val) :
    w.beatAtFloor x b =
      (w.adopting.changeView false (s.adopted x b.view) .split).raise .floorSplit := by
  have number : w.number = s.number := by rw [reached.rest]
  have floor : w.floor = s.floor := by rw [reached.rest]
  have other : w.adoptable b.view ≠ w.floor.view := by
    rw [reached.adoptable, floor]; exact (adopted_of_split hx holds reports).1
  rw [beatAtFloor_split x b w (by rwa [number]) (by rwa [floor, number]) reports (by rwa [number]),
    adopt_changes b.view .split w other, reached.adoptable]
  rfl

/-- A split leaves the floor unit, its timers and, at an output, intake as any adoption does (R53, R64, R66, R68). -/
theorem AtFloor.split_follows {x : Station} {s w : State} (reached : AtFloor x s w) (v : View)
    (hv : v ≠ s.floor.view) :
    let t := w.adopting.changeView false v .split
    t.floor = { s.floor with view := v, lapsed := false, adoptions := rise s.floor.adoptions 1 } ∧
      s.timersFollow v t ∧ (s.cfg.role ≠ .writer → s.intakeFollows v t) := by
  have rest := reached.rest
  have hw : v ≠ w.adopting.floor.view := by rw [rest]; exact hv
  obtain ⟨floor, -⟩ := changeView_floor false v .split w.adopting hw
  have timers := changeView_timersFollow false v .split w.adopting hw
  have intake := changeView_intakeFollows false v .split w.adopting hw
  intro t
  change t.floor = _ at floor
  change w.adopting.timersFollow v t at timers
  change _ → _ → w.adopting.intakeFollows v t at intake
  clear_value t
  rw [rest] at floor timers intake
  exact ⟨floor, timers, fun ho => intake ho (by simp)⟩

/-- Settles O34: a lower station's beat changes the view once (`AtFloor.split`), which the floor unit and intake follow
(`AtFloor.split_follows`), and the writer port reacts by telling of it and dropping the text (`split_writer`). -/
theorem splitYieldsToLowerStation : Obligations.SplitYieldsToLowerStation := by
  unfold Obligations.SplitYieldsToLowerStation
  intro rx b s h holds hx v
  obtain ⟨w, reached, run⟩ := receive_beat h hx
  have rest := reached.rest
  refine ⟨_, exec_receptionOf rx (.beat b) s, fun reports lower => ?_, fun keeps => ?_⟩
  · obtain ⟨other, named⟩ := adopted_of_split hx holds reports
    obtain ⟨floor, timers, intake⟩ := reached.split_follows v other
    have heard := reached.splitHeard v
    have react (ho : s.cfg.role ≠ .output) (arb : s.line.floorUnderArb = false) :
        w.adopting.changeView false v .split =
          ((w.adopting.heardOf v .split).answerView s.floor.view v .split).workOut := by
      have view : w.adopting.floor.view = s.floor.view := by rw [rest]; rfl
      have same : w.adopting.line.floorUnderArb = s.line.floorUnderArb :=
        congrArg (· == some QueueName.floor) reached.queues.arb
      rw [← view]
      exact changeView_split v w.adopting (by rw [view]; exact other) named (by rw [rest]; exact ho)
        (same.trans arb)
    rw [run, reached.split b hx holds reports lower]
    refine ⟨floor, raise_sets _ _, timers, intake, fun ho arb ready claim => ?_,
      fun ho ready sends landed leaves arb noSegment queued => ?_⟩
    · rw [State.raise_port, react ho arb, workOut_wstate]
      exact split_workState _ _ _ (by rw [heard.port]; exact ready) (heard.claimOut.trans claim)
    · obtain ⟨segQ, words, newSpeaker, dropped, flag, idle, quiet, busy⟩ :=
        split_writer heard v ready sends landed leaves noSegment queued
      have grow := (raise_portFrame .floorSplit (w.adopting.changeView false v .split)).flags
      rw [react ho arb] at grow ⊢
      exact ⟨segQ, words, newSpeaker, dropped, fun some => grow _ (flag some), idle, quiet, fun outgoing drains =>
        (busy outgoing drains).imp_left (grow _)⟩
  · have number : w.number = s.number := by rw [rest]
    have floor : w.floor = s.floor := by rw [rest]
    rw [run, beatAtFloor_keeps rx.source b w (by rwa [number]) (by rwa [floor, number]) (by rwa [number]), rest]
    exact ⟨rfl, rfl, rfl, rfl, rfl, rfl⟩

end Sys2Proof.Machine

/-! # Writes at the supervisory port -/

namespace Sys2Proof.Machine

/-! ### Writes (R170, R172, R173) -/

theorem write_held (bytes : List Byte) (s : State) (h : s.resetHeld = true) :
    s.write bytes = s.acknowledge false := by
  unfold State.write; rw [if_pos h]

theorem write_parsed (bytes : List Byte) (w : PortWrite) (s : State) (h : s.resetHeld = false)
    (hw : parseWrite bytes = some w) : s.write bytes = s.performWrite w := by
  unfold State.write
  rw [h, hw]
  rfl

theorem write_unparsed (bytes : List Byte) (s : State) (hw : parseWrite bytes = none) :
    s.write bytes = s.acknowledge false := by
  unfold State.write
  rw [hw]
  exact ite_self _

theorem byteTable_code (t : Table) : byteTable t.code = some t := by cases t <;> rfl

theorem ne_of_toNat_lt {a b : Byte} (h : a.toNat < b.toNat) : b ≠ a := fun e => by
  rw [e] at h; exact Nat.lt_irrefl _ h

theorem byteTable_unknown (b : Byte) (h : 5 ≤ b.toNat) : byteTable b = none := by
  have other (a : Byte) (ha : a.toNat < 5) : b ≠ a := ne_of_toNat_lt (by omega)
  unfold byteTable
  rw [if_neg (other 0#8 (by decide)), if_neg (other 1#8 (by decide)), if_neg (other 2#8 (by decide)),
    if_neg (other 3#8 (by decide)), if_neg (other 4#8 (by decide))]

theorem parseWrite_single (c : Byte) (h : c = 3#8 ∨ 5 < c.toNat) : parseWrite [c] = none := by
  have other (a : Byte) (ha : a.toNat ≤ 5) (h3 : a ≠ 3#8) : c ≠ a := by
    obtain rfl | h := h
    · exact h3.symm
    · exact ne_of_toNat_lt (by omega)
  unfold parseWrite
  simp only
  rw [if_neg (other 0#8 (by decide) (by decide)), if_neg (other 1#8 (by decide) (by decide)),
    if_neg (other 2#8 (by decide) (by decide)), if_neg (other 4#8 (by decide) (by decide)),
    if_neg (other 5#8 (by decide) (by decide))]

/-- A write whose command byte names no command, or whose length is not its command's, spells nothing (R173). -/
theorem parseWrite_malformed (c : Byte) (rest : List Byte)
    (h : 5 < c.toNat ∨ (c ≠ 3#8 ∧ rest ≠ []) ∨ (c = 3#8 ∧ rest.length ≠ 2)) : parseWrite (c :: rest) = none := by
  match rest with
  | [] => exact parseWrite_single c (by simpa [or_comm] using h)
  | [_] => rfl
  | [t, i] =>
    have other : c ≠ 3#8 := by
      obtain beyond | ⟨other, -⟩ | ⟨-, short⟩ := h
      · exact ne_of_toNat_lt (Nat.lt_trans (by decide : (3#8 : Byte).toNat < 5) beyond)
      · exact other
      · exact absurd rfl short
    exact if_neg other
  | _ :: _ :: _ :: _ => rfl

/-! ### CLEAR_COUNTERS (R50, R74, R126, R157, R167) -/

theorem outputCounters_zero (s : State) (cs : List Counter) (h : ∀ c ∈ cs, c = 0#16) :
    ∀ c ∈ s.outputCounters cs, c = 0#16 := by
  unfold State.outputCounters
  split
  · exact h
  · simp

theorem clearAllCounters_peer (x : Station) (s : State) :
    s.clearAllCounters.peer x = { s.peer x with worst := 0, counters := .zero } := by
  simp [State.peer, State.clearAllCounters, PeerEntry.clear]

theorem peerCounters_zero_list : ∀ c ∈ PeerCounters.zero.list, c = 0#16 := by
  simp [PeerCounters.list, PeerCounters.zero]

theorem stationCounters_zero_list : ∀ c ∈ StationCounters.zero.list, c = 0#16 := by
  simp [StationCounters.list, StationCounters.zero]

/-- Every record of the COUNTERS window shows zeros after CLEAR_COUNTERS (R172, R173). -/
theorem clearAllCounters_records (s : State) :
    ∀ cs ∈ s.clearAllCounters.counterRecords, ∀ c ∈ cs, c = 0#16 := by
  intro cs hcs
  unfold State.counterRecords at hcs
  simp only [List.mem_append, List.mem_map, List.mem_cons, List.not_mem_nil, or_false] at hcs
  obtain (station | ⟨e, he, entry⟩) | floor | intake | sched | screen := hcs
  · rw [station]; exact stationCounters_zero_list
  · have cleared : e.counters = .zero := by
      simp only [State.clearAllCounters, Vector.toList_map, List.mem_map] at he
      obtain ⟨_, -, rfl⟩ := he
      rfl
    rw [← entry, cleared]
    exact peerCounters_zero_list
  · rw [floor]; simp [Floor.counters, State.clearAllCounters]
  · rw [intake]
    exact outputCounters_zero _ _ (by simp [Intake.counters, State.clearAllCounters])
  · rw [sched]
    exact outputCounters_zero _ _ (by simp [Schedule.counters, State.clearAllCounters])
  · rw [screen]
    exact outputCounters_zero _ _ (by simp [State.screenCounters, State.clearAllCounters])

/-- Settles O59: a write is judged by its parse (`write_parsed`, `write_unparsed`), and clearing the counters zeroes
what the window shows of them (`clearAllCounters_records`). -/
theorem supervisoryWrites : Obligations.SupervisoryWrites := by
  unfold Obligations.SupervisoryWrites
  refine ⟨fun table index bytes s => ⟨fun free => ⟨?_, ?_, ?_, fun t ht => ?_, fun beyond => ?_⟩,
    fun malformed => ?_, fun held c hc => ?_⟩, fun s free => ?_⟩
  · exact congrArg Host.Outcome.next (write_parsed [0#8] (.select .status) s free rfl)
  · exact congrArg Host.Outcome.next (write_parsed [1#8] (.select .config) s free rfl)
  · exact congrArg Host.Outcome.next (write_parsed [2#8] (.select .window) s free rfl)
  · exact congrArg Host.Outcome.next (write_parsed [3#8, table, index] (.window t index) s free
      (by simp [parseWrite, ht, byteTable_code]))
  · exact congrArg Host.Outcome.next (write_unparsed [3#8, table, index] s
      (by simp [parseWrite, byteTable_unknown table beyond]))
  · refine congrArg Host.Outcome.next (write_unparsed bytes s ?_)
    obtain rfl | ⟨c, rest, rfl, h⟩ := malformed
    · rfl
    · exact parseWrite_malformed c rest h
  · obtain rfl | rfl | rfl | rfl | rfl | rfl := hc <;>
      exact congrArg Host.Outcome.next (write_held _ s held)
  · exact ⟨_, congrArg Host.Outcome.next (write_parsed [4#8] .clear s free rfl),
      clearAllCounters_records s, fun x => clearAllCounters_peer x s, rfl, rfl⟩

end Sys2Proof.Machine

/-! # Reads at the supervisory port -/

namespace Sys2Proof.Machine

/-! ### The fields in the terms of Formats -/

theorem beBytes32_eq (f : Frame) :
    beBytes32 f = [24, 16, 8, 0].map fun k => BitVec.ofNat 8 (f.toNat / 2 ^ k) := by
  simp [beBytes32, BitVec.extractLsb', Nat.shiftRight_eq_div_pow]

theorem attrsByte_eq (a : Attrs) :
    a.byte = switchByte a.newspk + 2#8 * switchByte a.amended + 4#8 * switchByte a.trimmed := by
  obtain ⟨newspk, amended, trimmed⟩ := a
  cases newspk <;> cases amended <;> cases trimmed <;> rfl

theorem flagPair_eq (a b : Bool) : flagPair a b = BitVec.ofNat 8 (a.toNat + 2 * b.toNat) := by
  cases a <;> cases b <;> rfl

/-- A byte is made of its bits, the highest first. -/
theorem byte_of_bits : ∀ b : Byte,
    b = [7, 6, 5, 4, 3, 2, 1, 0].foldl (fun a i => 2#8 * a + (if b.getLsbD i then 1#8 else 0#8)) 0#8 := by
  decide

/-- The byte of a flag word that begins at a bit, by its flags in the order of Formats. -/
theorem flagByte_eq (w : FlagWord) (k : Nat) (fs : List Flag)
    (h : fs.map Flag.bit = [k + 7, k + 6, k + 5, k + 4, k + 3, k + 2, k + 1, k]) :
    w.extractLsb' k 8 =
      fs.foldl (fun b f => 2#8 * b + (if hasFlag w f then 1#8 else 0#8)) 0#8 := by
  have bits := List.foldl_map (f := Flag.bit)
    (g := fun (b : Byte) i => 2#8 * b + (if w.getLsbD i then 1#8 else 0#8)) (l := fs) (init := 0#8)
  rw [h] at bits
  unfold hasFlag
  rw [byte_of_bits (w.extractLsb' k 8), ← bits]
  simp [BitVec.getLsbD_extractLsb']

theorem flagBytes_eq (w : FlagWord) :
    flagBytes w =
      [[.lineLost, .lineMarginal, .lineReadback, .lineOversize, .lineRefused, .peerGone, .seqGap, .floorSplit],
        [.floorLapse, .floorStray, .wrBadRecord, .wrPartial, .wrAborted, .wrClipped, .wrNotOnAir, .srcDrop],
        [.outCatchup, .outOverflow, .outLateAmend, .outZoneConflict, .outPageReplaced, .refLoss, .cfgDefault,
          .cfgClamped]].map
        fun fs : List Flag => fs.foldl (fun b f => 2#8 * b + (if hasFlag w f then 1#8 else 0#8)) 0#8 :=
  congrArg₂ List.cons (flagByte_eq w 16 _ (by rfl)) <|
    congrArg₂ List.cons (flagByte_eq w 8 _ (by rfl)) <|
      congrArg₂ List.cons (flagByte_eq w 0 _ (by rfl)) rfl

theorem toList_eq {α : Type} (v : Vector α 8) : v.toList = allStations.map fun x => v[x] := by
  obtain ⟨⟨l⟩, hl⟩ := v
  match l, hl with
  | [_, _, _, _, _, _, _, _], _ => rfl

theorem outputCounters_eq (s : State) (cs : List Counter) :
    s.outputCounters cs = cs.map fun c => if s.cfg.role = .writer then 0#16 else c := by
  unfold State.outputCounters
  by_cases h : s.cfg.role = .writer
  · rw [if_neg (by simp [State.hasOutput, h])]
    simp [h]
  · rw [if_pos ((hasOutput_iff s).mpr h)]
    simp [h]

theorem outputRecords_eq (s : State) (rs : List (List Byte)) :
    s.outputRecords rs = if s.cfg.role = .writer then [] else rs := by
  unfold State.outputRecords
  by_cases h : s.cfg.role = .writer
  · rw [if_neg (by simp [State.hasOutput, h]), if_pos h]
  · rw [if_pos ((hasOutput_iff s).mpr h), if_neg h]

/-- The records of the COUNTERS window, the peer entries by their stations (R48, R49, R172). -/
theorem counterRecords_eq (s : State) :
    s.counterRecords = [s.peers.counters.list] ++ (allStations.map fun x => (s.peer x).counters.list) ++
      [s.floor.counters, s.outputCounters s.intake.counters, s.outputCounters s.sched.counters,
        s.outputCounters s.screenCounters] := by
  unfold State.counterRecords
  rw [toList_eq, List.map_map]
  rfl

/-! ### Reads (R171, R172) -/

theorem returned_length (count : Nat) (item : List Byte) : (returned count item).length = count := by
  simp [returned]; omega

theorem viewBytes_length (v : View) : (viewBytes v).length = 3 := by cases v <;> rfl

theorem statusWord_length (s : State) : s.statusWord.length = 10 := by
  simp [State.statusWord, viewBytes_length, flagBytes]

theorem read_status (count : Nat) (s : State) (free : s.resetHeld = false) (sel : s.sup.select = .status) :
    s.read count = s.readStatus count := by
  unfold State.read; rw [free, sel]; rfl

theorem read_window (count : Nat) (s : State) (free : s.resetHeld = false) (sel : s.sup.select = .window)
    (out : s.start ≠ .loading) : s.read count = s.readWindow count := by
  unfold State.read
  rw [free, sel]
  exact if_pos ((live_iff s).mpr ⟨out, free⟩)

theorem read_config (count : Nat) (s : State) (free : s.resetHeld = false) (sel : s.sup.select = .config)
    (out : s.start ≠ .loading) : s.read count = s.answerRead count s.configurationBlock := by
  unfold State.read
  rw [free, sel]
  exact if_pos ((live_iff s).mpr ⟨out, free⟩)

/-- In LOADING the status word alone is answered (R171). -/
theorem read_loading (count : Nat) (s : State) (free : s.resetHeld = false) (sel : s.sup.select ≠ .status)
    (loading : s.start = .loading) : s.read count = s.denyRead := by
  have asleep : s.live = false := by simp [State.live, loading]
  unfold State.read
  rw [free, asleep]
  cases h : s.sup.select with
  | status => exact absurd h sel
  | config => rfl
  | window => rfl

theorem readWindow_record (count : Nat) (s : State) (r : List Byte)
    (hr : (s.tableRecords s.sup.table)[s.sup.index]? = some r) :
    s.readWindow count =
      { s.answerRead count (windowRecord s.sup.table s.sup.index r) with sup.index := s.sup.index + 1 } := by
  unfold State.readWindow
  simp only [hr]

theorem readWindow_end (count : Nat) (s : State) (h : (s.tableRecords s.sup.table).length ≤ s.sup.index) :
    s.readWindow count = s.answerRead count (endRecord s.sup.table) := by
  unfold State.readWindow
  simp only [List.getElem?_eq_none h]

/-- A read of the status word clears the flags it returned when the tenth byte has been transferred, and then ALERT
goes (R171, R174). -/
theorem readStatus_leaves (count : Nat) (s : State) :
    (s.readStatus count).sup = { s.sup with response := returned count s.statusWord, acked := true } ∧
    (10 ≤ count → (s.readStatus count).flags = 0#24 ∧ (s.readStatus count).alert = false) ∧
    (count < 10 → (s.readStatus count).flags = s.flags) ∧
    s.readStatus count = { s with sup := (s.readStatus count).sup, flags := (s.readStatus count).flags } := by
  by_cases short : count < 10
  · have keeps : s.readStatus count = s.answerRead count s.statusWord := if_pos short
    rw [keeps]
    exact ⟨rfl, fun h => absurd short (Nat.not_lt.mpr h), fun _ => rfl, rfl⟩
  · have clears : s.readStatus count = { s.answerRead count s.statusWord with flags := 0#24 } := if_neg short
    rw [clears]
    exact ⟨rfl, fun _ => ⟨rfl, by simp [State.alert]⟩, fun h => absurd h short, rfl⟩

/-- Settles O60: the fields of the statement are those of the model, block by block; a read is then one of the status
word, the window or the configuration block (`readStatus_leaves`, `readWindow_record`, `readWindow_end`). -/
theorem supervisoryReads : Obligations.SupervisoryReads := by
  unfold Obligations.SupervisoryReads
  intro count s free view item one two wide frame bit attrs text segment output shown peer counters cue held
    records code
  have hview : view = viewBytes := by
    funext v
    match v with
    | .vacant | .held _ | .offered _ (.station _) | .offered _ .any | .overlap _ _ => rfl
  have hframe : frame = beBytes32 := funext fun f => (beBytes32_eq f).symm
  have hattrs : attrs = Attrs.byte := funext fun a => (attrsByte_eq a).symm
  have hsegment : segment = optionalByte := by funext m; cases m <;> rfl
  have houtput : output = s.outputRecords := funext fun rs => (outputRecords_eq s rs).symm
  have hpeer : peer = fun x => (s.peer x).fields x := by
    funext x
    simp only [peer, hview, hframe, hsegment, PeerEntry.fields]
    generalize s.peer x = e
    congr 5
    · rcases e.role with _ | _ | _ | _ <;> cases e.ready <;> rfl
    · cases e.view <;> rfl
  have hcounters : counters = s.counterRecords := by
    rw [counterRecords_eq]
    simp only [outputCounters_eq]
    rfl
  have hcue : cue = Cue.fields := by
    funext c
    simp only [cue, hframe, hattrs, Cue.fields, Cue.keyBytes]
    cases c.key <;> cases c.words.head? <;> rfl
  have hheld : held = HeldSegment.fields := by
    funext g
    simp only [held, hframe]
    rfl
  have hrecords : records = s.tableRecords s.sup.table := by
    simp only [records, hpeer, hcounters, hcue, hheld, houtput, hattrs]
    cases s.sup.table <;> rfl
  have hcode : code = s.sup.table.code := by simp only [code]; cases s.sup.table <;> rfl
  clear_value records code
  subst hrecords hcode
  refine ⟨fun sel => ?_, fun sel out => ⟨fun r hr => ?_, fun h => ?_⟩, fun sel out => ?_, fun sel loading => ?_⟩
  · intro status
    have hstatus : status = s.statusWord := by
      simp only [status, hview, ← flagBytes_eq]
      rfl
    obtain ⟨sup, clears, keeps, rest⟩ := readStatus_leaves count s
    refine ⟨_, congrArg Host.Outcome.next (read_status count s free sel), ?_, ?_, ?_, clears, keeps, rest⟩
    · rw [hstatus]; exact sup
    · rw [hstatus]; exact statusWord_length s
    · rw [sup]; exact returned_length count s.statusWord
  · exact congrArg Host.Outcome.next ((read_window count s free sel out).trans (readWindow_record count s r hr))
  · exact congrArg Host.Outcome.next ((read_window count s free sel out).trans (readWindow_end count s h))
  · refine congrArg Host.Outcome.next ((read_config count s free sel out).trans ?_)
    rw [← flagPair_eq]
    rfl
  · exact congrArg Host.Outcome.next (read_loading count s free sel loading)

end Sys2Proof.Machine

/-! # A floor frame at the floor unit -/

namespace Sys2Proof.Machine

/-! ### What a floor frame leaves: a change of view, or a stray (R53, R54, R64) -/

/-- The view has become another one, and not by a RELEASE: the floor unit's timers and, at an output, intake and the
schedule follow it (R53, R64). -/
structure ViewTaken (v : View) (s t : State) : Prop where
  floor : t.floor = { s.floor with view := v, lapsed := false }
  timers : s.timersFollow v t
  output : s.cfg.role ≠ .writer → s.intakeFollows v t
  writer : s.cfg.role = .writer → t.intake = s.intake ∧ t.sched = s.sched
  screen : t.screen = s.screen

/-- A change of view at a state that differs from a given one in the flags, the line and the peer table alone. -/
theorem changeView_viewTaken {s u : State} (own : Bool) (v : View) (cause : ViewCause)
    (rest : u = { s with flags := u.flags, line := u.line, peers := u.peers }) (hv : v ≠ s.floor.view)
    (hc : ∀ p, cause ≠ .release p) : ViewTaken v s (u.changeView own v cause) := by
  have hu : v ≠ u.floor.view := by rw [rest]; exact hv
  obtain ⟨floor, -⟩ := changeView_floor own v cause u hu
  have timers := changeView_timersFollow own v cause u hu
  have output := changeView_intakeFollows own v cause u hu
  have writer := changeView_output_writer own v cause u hu
  have screen := (changeView_viewFrame own v cause u).screen
  generalize u.changeView own v cause = t at floor timers output writer screen
  rw [rest] at floor timers output writer screen
  exact ⟨floor, timers, fun ho => output ho hc, writer, screen⟩

/-- What the writer port does after it leaves what a change of view left. -/
theorem ViewTaken.ends {v : View} {s t u : State} (h : ViewTaken v s t) (port : PortFrame t u) : ViewTaken v s u := by
  refine ⟨port.floor.trans h.floor, ?_, fun ho => ?_, fun hw => ?_, port.screen.trans h.screen⟩
  · have timers := h.timers
    unfold State.timersFollow at timers ⊢
    rwa [port.lapse, port.overlap]
  · have output := h.output ho
    unfold State.intakeFollows State.mergedTo at output ⊢
    rwa [port.intake, port.sched]
  · rw [port.intake, port.sched]; exact h.writer hw

theorem ViewTaken.lapse_from {v old : View} {s t : State} (h : ViewTaken v s t) (hs : s.floor.view = old) :
    t.lapse = if v.isOffered = true then some s.cfg.lapseInterval
      else if old.isOffered = true then none else s.lapse := hs ▸ h.timers.1

theorem ViewTaken.overlap_from {v old : View} {s t : State} (h : ViewTaken v s t) (hs : s.floor.view = old) :
    t.overlap = if v.isOverlap = true then some s.cfg.overlapLimit
      else if old.isOverlap = true then none else s.overlap := hs ▸ h.timers.2

/-- Intake and the schedule after a change of view from one that is no OVERLAP (R64, R115). -/
theorem ViewTaken.from_single {v : View} {s t : State} (h : ViewTaken v s t) (hs : s.floor.view.isOverlap = false) :
    t.sched = s.sched ∧
      t.intake = if s.cfg.role = .writer then s.intake else s.intake.openedBy v := by
  by_cases hw : s.cfg.role = .writer
  · rw [if_pos hw]; exact (h.writer hw).symm
  · have output := h.output hw
    rw [if_neg hw]
    unfold State.intakeFollows at output
    cases hv : s.floor.view with
    | overlap a b => simp [hv, View.isOverlap] at hs
    | vacant | held | offered => simpa only [hv] using output

/-- Neither intake nor the schedule hears of a change between views that are no OVERLAP (R64). -/
theorem ViewTaken.single {v : View} {s t : State} (h : ViewTaken v s t) (hs : s.floor.view.isOverlap = false)
    (hv : v.isOverlap = false) : t.sched = s.sched ∧ t.intake = s.intake := by
  obtain ⟨sched, intake⟩ := h.from_single hs
  refine ⟨sched, intake.trans ?_⟩
  have closed : s.intake.openedBy v = s.intake := by
    cases v with
    | overlap a b => cases hv
    | vacant | held | offered => rfl
  rw [closed, ite_self]

/-- A stray floor frame: counted, with FLOOR_STRAY, and the view, its timers, intake and the screen are left (R54). -/
structure Strayed (s t : State) : Prop where
  floor : t.floor = { s.floor with strays := rise s.floor.strays 1 }
  lapse : t.lapse = s.lapse
  overlap : t.overlap = s.overlap
  intake : t.intake = s.intake
  sched : t.sched = s.sched
  screen : t.screen = s.screen
  flag : hasFlag t.flags .floorStray = true

theorem AtDispatch.strayed {x : Station} {s u t : State} (reached : AtDispatch x s u)
    (port : PortFrame u.strayFrame t) : Strayed s t := by
  have flag := port.flags .floorStray (hasFlag_or_mask _ _)
  have rest := reached.rest
  generalize u.strayFrame = w, hw : u.strayFrame = w at port
  refine ⟨port.floor.trans ?_, port.lapse.trans ?_, port.overlap.trans ?_, port.intake.trans ?_,
    port.sched.trans ?_, port.screen.trans ?_, flag⟩ <;> (rw [← hw, rest]; rfl)

/-! ### A TAKE (R58) -/

/-- Whether a TAKE answers the offer of the view (R58). -/
def View.takenBy (x hx : Station) (v : View) : Prop :=
  x ≠ hx ∧ (v = .offered hx (.station x) ∨ v = .offered hx .any)

theorem takeTake_taken (own : Bool) (x hx : Station) (s : State) (h : s.floor.view.takenBy x hx) :
    s.takeTake own x hx = s.changeView own (.overlap hx x) .take := by
  obtain ⟨other, hv | hv⟩ := h <;> (unfold State.takeTake; simp [hv, other])

theorem takeTake_stray (own : Bool) (x hx : Station) (s : State) (h : ¬ s.floor.view.takenBy x hx) :
    s.takeTake own x hx = s.strayFrame := by
  unfold State.takeTake
  split
  · rename_i h' sc hv
    refine if_neg ?_
    rintro ⟨rfl, other, rfl | rfl⟩
    · exact h ⟨other, .inl hv⟩
    · exact h ⟨other, .inr hv⟩
  · rfl

/-- Settles O29: a TAKE that answers the offer is a change to OVERLAP (`takeTake_taken`), at which intake opens its
hold list; any other is stray (`takeTake_stray`), and an own TAKE's end report leaves what either leaves. -/
theorem takeOpensOverlap : Obligations.TakeOpensOverlap := by
  unfold Obligations.TakeOpensOverlap
  intro rx hx s h taken
  obtain ⟨own, u, reached, port⟩ := receive_dispatch h
  have ends := receive_ends h
  change PortFrame (u.takeTake own rx.source hx) _ at port
  have answered (k : taken) : ViewTaken (.overlap hx rx.source) s (s.receive rx (.take hx)) ∧
      s.floor.view.isOffered = true ∧ s.floor.view.isOverlap = false := by
    have offered : s.floor.view.isOffered = true ∧ s.floor.view.isOverlap = false := by
      obtain ⟨-, hv | hv⟩ := k <;> rw [hv] <;> exact ⟨rfl, rfl⟩
    rw [takeTake_taken own rx.source hx u (by rw [reached.floor]; exact k)] at port
    refine ⟨(changeView_viewTaken own _ .take reached.rest (fun e => ?_) (by simp)).ends port, offered⟩
    simp [← e, View.isOffered] at offered
  have strayed (k : ¬ taken) : Strayed s (s.receive rx (.take hx)) := by
    rw [takeTake_stray own rx.source hx u (by rw [reached.floor]; exact k)] at port
    exact reached.strayed port
  refine ⟨_, exec_receptionOf rx (.take hx) s, fun k => ?_, fun k => ?_, ?_⟩
  · obtain ⟨view, offered, single⟩ := answered k
    obtain ⟨lapse, overlap⟩ := view.timers
    obtain ⟨-, intake⟩ := view.from_single single
    refine ⟨view.floor, lapse.trans (by rw [offered]; rfl), overlap, fun ho => ?_⟩
    rw [intake, if_neg ho]
    exact ⟨rfl, rfl, rfl⟩
  · have stray := strayed k
    exact ⟨stray.floor, stray.lapse, stray.overlap, stray.flag, stray.intake⟩
  · have left : (s.receive rx (.take hx)).sched = s.sched ∧ (s.receive rx (.take hx)).screen = s.screen := by
      by_cases k : taken
      · obtain ⟨view, -, single⟩ := answered k
        exact ⟨(view.from_single single).1, view.screen⟩
      · exact ⟨(strayed k).sched, (strayed k).screen⟩
    unfold EndFrame at ends
    rwa [left.1, left.2] at ends

/-! ### A YIELD (R60) -/

theorem takeYield_taken (own : Bool) (x : Station) (v : View) (s : State) (h : s.floor.view.afterYield x = some v) :
    s.takeYield own x = s.changeView own v (.yield x) := by
  unfold State.takeYield; rw [h]

theorem takeYield_stray (own : Bool) (x : Station) (s : State) (h : s.floor.view.afterYield x = none) :
    s.takeYield own x = s.strayFrame := by
  unfold State.takeYield; rw [h]

/-- A YIELD that the table takes changes the view. -/
theorem afterYield_changes {x : Station} {v w : View} (h : v.afterYield x = some w) : w ≠ v := by
  cases v with
  | vacant => cases h
  | held a | offered a sc =>
    simp only [View.afterYield, Option.ite_none_right_eq_some, Option.some.injEq] at h
    simp [← h.2]
  | overlap a b =>
    simp only [View.afterYield] at h
    split at h
    · simp [← Option.some.inj h]
    · simp only [Option.ite_none_right_eq_some, Option.some.injEq] at h
      simp [← h.2]

theorem afterYield_none (x : Station) (v : View) (holds : v.heldBy x = false) (incoming : v.incomingIs x = false) :
    v.afterYield x = none := by
  cases v with
  | vacant => rfl
  | held a | offered a sc =>
    simp only [View.heldBy, View.holder, beq_eq_false_iff_ne, ne_eq, Option.some.injEq] at holds
    exact if_neg (Ne.symm holds)
  | overlap a b =>
    simp only [View.heldBy, View.holder, View.incomingIs, beq_eq_false_iff_ne, ne_eq, Option.some.injEq]
      at holds incoming
    simp [View.afterYield, Ne.symm holds, Ne.symm incoming]

/-- Settles O31: the table of R60 gives the view (`View.afterYield`), which the floor unit and intake follow as they do
any change of view, or makes the frame stray. -/
theorem yieldByTable : Obligations.YieldByTable := by
  unfold Obligations.YieldByTable
  intro rx s h two
  obtain ⟨own, u, reached, port⟩ := receive_dispatch h
  have ends := receive_ends h
  change PortFrame (u.takeYield own rx.source) _ at port
  have taken (v : View) (hv : s.floor.view.afterYield rx.source = some v) : ViewTaken v s (s.receive rx .yield) := by
    rw [takeYield_taken own rx.source v u (by rw [reached.floor]; exact hv)] at port
    exact (changeView_viewTaken own v _ reached.rest (afterYield_changes hv) (by simp)).ends port
  have strayed (hv : s.floor.view.afterYield rx.source = none) : Strayed s (s.receive rx .yield) := by
    rw [takeYield_stray own rx.source u (by rw [reached.floor]; exact hv)] at port
    exact reached.strayed port
  refine ⟨_, exec_receptionOf rx .yield s, fun hv => ?_, fun sc hv => ?_, fun i hv => ?_, fun a hv => ?_,
    fun holds incoming => ?_, ends.view ?_⟩
  · have view := taken .vacant (by simp [hv, View.afterYield])
    exact ⟨view.floor, view.lapse_from hv, view.overlap_from hv⟩
  · have view := taken .vacant (by simp [hv, View.afterYield])
    exact ⟨view.floor, view.lapse_from hv, view.overlap_from hv⟩
  · have view := taken (.held i) (by simp [hv, View.afterYield])
    refine ⟨view.floor, view.overlap_from hv, view.lapse_from hv, fun ho => ?_⟩
    have output := view.output ho
    unfold State.intakeFollows at output
    simpa only [hv, if_true] using output
  · have other : a ≠ rx.source := by simpa [State.viewNamesTwo, hv, View.doubled] using two
    have view := taken (.held a) (by simp [hv, View.afterYield, Ne.symm other])
    refine ⟨view.floor, view.overlap_from hv, view.lapse_from hv, fun ho => ?_⟩
    have output := view.output ho
    unfold State.intakeFollows at output
    simp only [hv, View.held.injEq, other, if_false] at output
    rw [output.2]
    exact ⟨rfl, rfl, rfl, output.1⟩
  · have stray := strayed (afterYield_none _ _ holds incoming)
    exact ⟨stray.floor, stray.lapse, stray.overlap, stray.intake, stray.sched, stray.flag⟩
  · cases hv : s.floor.view.afterYield rx.source with
    | none => exact (strayed hv).screen
    | some v => exact (taken v hv).screen

end Sys2Proof.Machine

/-! # A CLAIM and an OFFER at the floor unit -/

namespace Sys2Proof.Machine

/-! ### FLOOR_STRAY through an own frame's end report (R34, R54) -/

/-- FLOOR_STRAY keeps its value. -/
def StrayKept (s t : State) : Prop := hasFlag t.flags .floorStray = hasFlag s.flags .floorStray

theorem StrayKept.refl (s : State) : StrayKept s s := rfl

theorem StrayKept.after {a b c : State} (k : StrayKept b c) (h : StrayKept a b) : StrayKept a c := k.trans h

theorem StrayKept.of_flags {s t : State} (h : t.flags = s.flags) : StrayKept s t := by unfold StrayKept; rw [h]

theorem raise_strayKept (f : Flag) (s : State) (h : f ≠ .floorStray) : StrayKept s (s.raise f) := by
  unfold StrayKept
  cases f <;> simp_all [hasFlag, Flag.mask, Flag.bit]

theorem countDrops_strayKept (n : Nat) (s : State) : StrayKept s (s.countDrops n) := by
  unfold State.countDrops
  split
  · exact .refl s
  · exact raise_strayKept .srcDrop { s with peers.counters.drops := s.dropsAfter n } (by simp)

theorem discardOpen_strayKept (s : State) : StrayKept s s.discardOpen := by
  unfold State.discardOpen
  split
  · exact .refl s
  · exact (countDrops_strayKept 1 _).after rfl

theorem withdrawSegments_strayKept (byRecord : Bool) (s : State) : StrayKept s (s.withdrawSegments byRecord) := by
  unfold State.withdrawSegments
  split <;> exact (countDrops_strayKept _ _).after rfl

theorem loseRight_strayKept (s : State) : StrayKept s s.loseRight :=
  (withdrawSegments_strayKept false { s.discardOpen with asm.newSpeaker := false }).after (discardOpen_strayKept s)

theorem workOut_strayKept (s : State) : StrayKept s s.workOut := by
  unfold State.workOut State.changeWriterState
  simp only
  split
  · exact .refl s
  · split
    · exact (loseRight_strayKept _).after rfl
    · rfl

theorem checkDrain_strayKept (s : State) : StrayKept s s.checkDrain := by
  unfold State.checkDrain; split <;> rfl

theorem abortPending_strayKept (s : State) : StrayKept s s.abortPending.1 := by
  have told (u : State) (h : StrayKept s u) : StrayKept s u.answerAborted.workOut :=
    (workOut_strayKept _).after ((raise_strayKept .wrAborted (u.answer .aborted) (by simp)).after h)
  unfold State.abortPending State.abortRequest
  split
  · exact told _ (by split <;> rfl)
  · exact .refl s

theorem decideLeave_strayKept (ab idle : Bool) (s : State) : StrayKept s (s.decideLeave ab idle) := by
  unfold State.decideLeave
  split
  · rfl
  · split
    · exact abortPending_strayKept s
    · split
      · exact .refl s
      · split <;> rfl

theorem decideLeaves_strayKept (s : State) : StrayKept s s.decideLeaves := by
  have fold (ls : List Bool) (u : State) (h : StrayKept s u) :
      StrayKept s (ls.foldl (fun s ab => s.decideLeave ab false) u) := by
    induction ls generalizing u with
    | nil => exact h
    | cons ab ls ih => exact ih _ ((decideLeave_strayKept ab false u).after h)
  exact fold _ _ rfl

theorem answerEnd_flags (b : FrameBody) (s : State) : (s.answerEnd b).flags = s.flags := by
  cases b <;> rfl

/-- The end report of an own frame that has left the view says nothing of a stray frame (R34, R54). -/
theorem endReport_strayKept (f : InFlight) (s : State) : StrayKept s (s.endReport f s.floor.view) := by
  have floor : (State.answerEnd f.body { s with line.inFlight := none }).floor = s.floor :=
    (answerEnd_portFrame f.body _).floor
  unfold State.endReport
  simp only [floor, if_true]
  split
  · rfl
  · exact (checkDrain_strayKept _).after ((workOut_strayKept _).after ((decideLeaves_strayKept _).after
      (.of_flags (answerEnd_flags f.body _))))

/-! ### The flags up to a frame's dispatch (R29, R30) -/

theorem foreignEnd_flags (j : Judgement) (s : State) : (s.foreignEnd j).flags = s.flags := by
  have lost : s.countBeatLoss.flags = s.flags := by
    unfold State.countBeatLoss
    split
    · rfl
    · split
      · rfl
      · split <;> rfl
  unfold State.foreignEnd
  simp only
  split
  · rfl
  · exact lost

theorem readbackInFlight_strayKept (fault : Bool) (s : State) : StrayKept s (s.readbackInFlight fault) := by
  unfold State.readbackInFlight
  split
  · split
    · exact raise_strayKept .lineReadback
        { s with peers.counters.readbacks := rise s.peers.counters.readbacks 1 } (by simp)
    · exact .refl s
  · exact .refl s

theorem report_accepted_strayKept (x : Station) (g : Grade) (w : Fin 4) (b : FrameBody) (s : State) :
    StrayKept s (s.report (.accepted x g w b)) := by
  have raised := raise_strayKept .lineMarginal s (by simp)
  cases g with
  | marginal => exact raised
  | clean | corrected => exact .of_flags (BitVec.or_zero (x := s.flags))

/-! ### A CLAIM (R55) -/

theorem takeClaim_vacant (own : Bool) (c : Station) (s : State) (h : s.floor.view = .vacant) :
    s.takeClaim own c = s.changeView own (.held c) .claim := by
  unfold State.takeClaim; rw [h]

theorem takeClaim_late (own : Bool) (c : Station) (s : State) (h : s.floor.view ≠ .vacant) :
    s.takeClaim own c = { s with floor.lateClaims := rise s.floor.lateClaims 1 } := by
  unfold State.takeClaim
  split
  · exact absurd ‹_› h
  · rfl

theorem report_floor (j : Judgement) (s : State) : (s.report j).floor = s.floor := by cases j <;> rfl

theorem takeJudged_late (own : Bool) (x : Station) (g : Grade) (w : Fin 4) (s : State) (h : s.floor.view ≠ .vacant) :
    s.takeJudged own (.accepted x g w .claim) =
      let r := s.report (.accepted x g w .claim)
      { r with floor.lateClaims := rise r.floor.lateClaims 1 } :=
  takeClaim_late own x (s.report (.accepted x g w .claim)) (by rw [report_floor]; exact h)

/-- A late CLAIM says nothing of a stray frame (R55). -/
theorem lateClaim_strayKept {rx : Rx} {s : State} (h : s.hears rx .claim) (hv : s.floor.view ≠ .vacant) :
    StrayKept s (s.receive rx .claim) := by
  obtain e | ⟨f, -, -, e⟩ := receive_cases h
  · have pre := foreignEnd_prelude (.accepted rx.source (gradeOf s.cfg.quality rx.worst) rx.worst .claim) s
    rw [e, takeJudged_late false _ _ _ _ (by rw [pre.rest]; exact hv)]
    exact (report_accepted_strayKept _ _ _ _ _).after (.of_flags (foreignEnd_flags _ s))
  · have pre := readbackInFlight_prelude rx.readback s
    have view : s.floor.view = (s.readbackInFlight rx.readback).floor.view := by rw [pre.rest]
    rw [e, takeJudged_late true _ _ _ _ (by rw [pre.rest]; exact hv), view]
    exact (endReport_strayKept f _).after
      ((report_accepted_strayKept _ _ _ _ _).after (readbackInFlight_strayKept rx.readback s))

/-- Another station's late CLAIM changes the flags by its grade alone (R29, R55). -/
theorem lateClaim_flags {rx : Rx} {s : State} (h : s.hears rx .claim) (hv : s.floor.view ≠ .vacant)
    (foreign : s.foreignTo rx) :
    (s.receive rx .claim).flags = s.flags |||
      (if 0 < rx.worst.val ∧ s.cfg.quality ≤ rx.worst.val then Flag.mask .lineMarginal else 0#24) := by
  obtain e | ⟨f, flying, mine, -⟩ := receive_cases h
  · have pre := foreignEnd_prelude (.accepted rx.source (gradeOf s.cfg.quality rx.worst) rx.worst .claim) s
    have flags (g : Grade) (u : State) : (u.report (.accepted rx.source g rx.worst .claim)).flags =
        u.flags ||| flagIf (g == .marginal) .lineMarginal := rfl
    rw [e, takeJudged_late false _ _ _ _ (by rw [pre.rest]; exact hv)]
    simp only [flags, foreignEnd_flags, gradeOf_marginal, flagIf, decide_eq_true_eq]
  · exact absurd foreign (by simp [State.foreignTo, flying, mine])

/-! ### An OFFER (R57, R61) -/

/-- Whether an OFFER of station x to a successor is taken (R57; log entry 32). -/
def State.offers (x : Station) (sc : Successor) (s : State) : Prop :=
  (s.floor.view = .held x ∧ s.floor.lapsed = false ∨ ∃ sc', s.floor.view = .offered x sc') ∧ sc ≠ .station x

theorem takeOffer_taken (own : Bool) (x : Station) (sc : Successor) (s : State) (h : s.offers x sc) :
    s.takeOffer own x sc = s.makeOffer own x sc := by
  obtain ⟨⟨hv, fresh⟩ | ⟨sc', hv⟩, other⟩ := h
  · simp [State.takeOffer, hv, other, fresh]
  · simp [State.takeOffer, hv, other]

theorem takeOffer_stray (own : Bool) (x : Station) (sc : Successor) (s : State) (h : ¬ s.offers x sc) :
    s.takeOffer own x sc = s.strayFrame := by
  unfold State.takeOffer
  split
  · rename_i a hv
    refine if_neg ?_
    rintro ⟨rfl, other, fresh⟩
    exact h ⟨.inl ⟨hv, fresh⟩, other⟩
  · rename_i a sc' hv
    refine if_neg ?_
    rintro ⟨rfl, other⟩
    exact h ⟨.inr ⟨sc', hv⟩, other⟩
  · rfl

/-- What an OFFER that is taken leaves: the view OFFERED and the lapse timer loaded, a repeated offer's too (R57). -/
structure OfferMade (x : Station) (sc : Successor) (s t : State) : Prop where
  floor : t.floor = { s.floor with view := .offered x sc, lapsed := false }
  lapse : t.lapse = some s.cfg.lapseInterval
  overlap : t.overlap = s.overlap
  intake : t.intake = s.intake
  sched : t.sched = s.sched
  screen : t.screen = s.screen

theorem AtDispatch.offerMade {x : Station} {s u : State} (reached : AtDispatch x s u) (own : Bool) (sc : Successor)
    (h : s.offers x sc) : OfferMade x sc s (u.makeOffer own x sc) := by
  have rest := reached.rest
  by_cases repeats : .offered x sc = s.floor.view
  · have view : u.floor.view = .offered x sc := by rw [reached.floor, repeats]
    have same := changeView_same own .offer u
    rw [view] at same
    unfold State.makeOffer
    rw [same, rest]
    exact ⟨by simp [repeats], rfl, rfl, rfl, rfl, rfl⟩
  · have single : s.floor.view.isOverlap = false := by
      obtain ⟨⟨hv, -⟩ | ⟨sc', hv⟩, -⟩ := h <;> rw [hv] <;> rfl
    have view := changeView_viewTaken own (.offered x sc) .offer rest repeats (by simp)
    have cfg : (u.changeView own (.offered x sc) .offer).cfg = s.cfg := by
      rw [changeView_viewFrame own (.offered x sc) .offer u, rest]
    obtain ⟨sched, intake⟩ := view.single single rfl
    have overlap := view.timers.2
    rw [single] at overlap
    exact ⟨by simp [State.makeOffer, view.floor], by simp [State.makeOffer, cfg], overlap, intake, sched, view.screen⟩

theorem OfferMade.ends {x : Station} {sc : Successor} {s t u : State} (h : OfferMade x sc s t) (port : PortFrame t u) :
    OfferMade x sc s u :=
  ⟨port.floor.trans h.floor, port.lapse.trans h.lapse, port.overlap.trans h.overlap, port.intake.trans h.intake,
    port.sched.trans h.sched, port.screen.trans h.screen⟩

/-! ### Both settled -/

/-- What a CLAIM leaves: the view HELD, or a late claim counted; no timer, nor intake or the schedule, hears of it
(R53, R55, R64). -/
theorem claim_leaves {rx : Rx} {s : State} (h : s.hears rx .claim) :
    let t := s.receive rx .claim
    t.floor = (if s.floor.view = .vacant then { s.floor with view := .held rx.source, lapsed := false }
      else { s.floor with lateClaims := rise s.floor.lateClaims 1 }) ∧
    t.lapse = s.lapse ∧ t.overlap = s.overlap ∧ t.intake = s.intake ∧ t.sched = s.sched ∧ t.screen = s.screen := by
  intro t
  obtain ⟨own, u, reached, port⟩ := receive_dispatch h
  change PortFrame (u.takeClaim own rx.source) t at port
  by_cases hv : s.floor.view = .vacant
  · rw [takeClaim_vacant own rx.source u (by rw [reached.floor]; exact hv)] at port
    have view := (changeView_viewTaken own (.held rx.source) .claim reached.rest (by simp [hv]) (by simp)).ends port
    obtain ⟨sched, intake⟩ := view.single (by rw [hv]; rfl) rfl
    rw [if_pos hv]
    exact ⟨view.floor, view.lapse_from hv, view.overlap_from hv, intake, sched, view.screen⟩
  · rw [takeClaim_late own rx.source u (by rw [reached.floor]; exact hv), reached.rest] at port
    rw [if_neg hv]
    exact ⟨port.floor, port.lapse, port.overlap, port.intake, port.sched, port.screen⟩

/-- Settles O28: a CLAIM claims or is late (`claim_leaves`), a late one leaving FLOOR_STRAY (`lateClaim_strayKept`); an
OFFER is made (`AtDispatch.offerMade`) or stray, and an own frame's end report leaves what either leaves. -/
theorem claimAndOfferTaken : Obligations.ClaimAndOfferTaken := by
  unfold Obligations.ClaimAndOfferTaken
  refine ⟨fun rx s h => ?_, fun rx sc s h => ?_⟩
  · obtain ⟨floor, lapse, overlap, intake, sched, screen⟩ := claim_leaves h
    have ends := receive_ends h
    refine ⟨_, exec_receptionOf rx .claim s, floor, fun hv => ⟨lateClaim_strayKept h hv, lateClaim_flags h hv⟩, ?_⟩
    unfold EndFrame at ends
    rwa [lapse, overlap, intake, sched, screen] at ends
  · intro taken
    obtain ⟨own, u, reached, port⟩ := receive_dispatch h
    have ends := receive_ends h
    change PortFrame (u.takeOffer own rx.source sc) _ at port
    have same : u.offers rx.source sc ↔ s.offers rx.source sc := by unfold State.offers; rw [reached.floor]
    refine ⟨_, exec_receptionOf rx (.offer sc) s, ?_⟩
    unfold EndFrame at ends
    by_cases k : taken
    · rw [takeOffer_taken own rx.source sc u (same.mpr k)] at port
      have made := (reached.offerMade own sc k).ends port
      refine ⟨fun _ => ⟨made.floor, made.lapse⟩, fun n => absurd k n, ?_⟩
      rwa [made.overlap, made.intake, made.sched, made.screen] at ends
    · rw [takeOffer_stray own rx.source sc u (fun n => k (same.mp n))] at port
      have stray := reached.strayed port
      refine ⟨fun n => absurd n k, fun _ => ⟨stray.floor, stray.lapse, stray.flag⟩, ?_⟩
      rwa [stray.overlap, stray.intake, stray.sched, stray.screen] at ends

end Sys2Proof.Machine

/-! # The adoption of a beat's view -/

namespace Sys2Proof.Machine

/-! ### Which beats are adopted (R66, R67) -/

/-- Whether a beat of station x that reports a view comes from the authority, or claims a VACANT floor (R66, R67). -/
def View.adoptsFrom (x : Station) (reported v : View) : Prop :=
  v.heldBy x = true ∨ v = .vacant ∧ reported.heldBy x = true

theorem beatAtFloor_own (b : BeatBody) (s : State) : s.beatAtFloor s.number b = s := if_pos rfl

theorem beatAtFloor_adopts (x : Station) (b : BeatBody) (s : State) (hx : x ≠ s.number)
    (h : b.view.adoptsFrom x s.floor.view) : s.beatAtFloor x b = s.adopt b.view .adoption := by
  unfold State.beatAtFloor
  rw [if_neg hx]
  obtain holds | ⟨vacant, reports⟩ := h
  · simp [(heldBy_iff _ _).mp holds, hx]
  · simp [vacant, View.holder, reports]

theorem beatAtFloor_left (x : Station) (b : BeatBody) (s : State) (free : s.floor.view.heldBy s.number = false)
    (h : ¬ b.view.adoptsFrom x s.floor.view) : s.beatAtFloor x b = s := by
  unfold State.beatAtFloor
  split
  · rfl
  · split
    · rename_i none
      have vacant : s.floor.view = .vacant := by
        cases hv : s.floor.view with
        | vacant => rfl
        | held | offered | overlap => simp [hv, View.holder] at none
      exact if_neg fun reports => h (.inr ⟨vacant, reports⟩)
    · rename_i a holder
      have other : a ≠ s.number := fun e => by simp [View.heldBy, holder, e] at free
      have third : a ≠ x := fun e => h (.inl (by rw [heldBy_iff, holder, e]))
      rw [if_neg other, if_neg third]

theorem adopt_same (v : View) (cause : ViewCause) (s : State) (h : s.adoptable v = s.floor.view) :
    s.adopt v cause = s := if_pos h

/-! ### What an adoption leaves (R53, R64, R66, R68) -/

/-- A beat of the authority that reports a different view, or one that claims a VACANT floor, is a change of view with
the adoption counted (R66 to R68). -/
theorem AtFloor.adopts {x : Station} {s w : State} (reached : AtFloor x s w) (b : BeatBody) (hx : x ≠ s.number)
    (h : b.view.adoptsFrom x s.floor.view) (hv : s.adopted x b.view ≠ s.floor.view) :
    w.beatAtFloor x b = w.adopting.changeView false (s.adopted x b.view) .adoption := by
  have number : w.number = s.number := by rw [reached.rest]
  have floor : w.floor = s.floor := by rw [reached.rest]
  have other : w.adoptable b.view ≠ w.floor.view := by rwa [reached.adoptable, floor]
  rw [beatAtFloor_adopts x b w (by rwa [number]) (by rwa [floor]),
    adopt_changes b.view .adoption w other, reached.adoptable]
  rfl

theorem AtFloor.adoption {x : Station} {s w : State} (reached : AtFloor x s w) (v : View) (hv : v ≠ s.floor.view) :
    ViewTaken v s.adopting (w.adopting.changeView false v .adoption) :=
  changeView_viewTaken false v .adoption (by rw [reached.rest]; rfl) hv (by simp)

/-- A beat that is not adopted, or reports the view held, reaches the flags, the line and the peer table alone. -/
theorem AtFloor.keeps {x : Station} {s w : State} (reached : AtFloor x s w) (b : BeatBody) (hx : x ≠ s.number)
    (free : s.floor.view.heldBy s.number = false)
    (h : ¬ b.view.adoptsFrom x s.floor.view ∨ s.adopted x b.view = s.floor.view) : w.beatAtFloor x b = w := by
  have number : w.number = s.number := by rw [reached.rest]
  have floor : w.floor = s.floor := by rw [reached.rest]
  by_cases adopts : b.view.adoptsFrom x s.floor.view
  · have same := h.resolve_left (not_not_intro adopts)
    rw [beatAtFloor_adopts x b w (by rwa [number]) (by rwa [floor])]
    exact adopt_same b.view .adoption w (by rw [reached.adoptable, floor, same])
  · exact beatAtFloor_left x b w (by rwa [floor, number]) (by rwa [floor])

/-- An own beat goes no further than the peer table, and its end report than the writer port (R34, R44). -/
theorem ownBeat_leaves {rx : Rx} {b : BeatBody} {s : State} (h : s.hears rx (.beat b)) (hx : rx.source = s.number) :
    let t := s.receive rx (.beat b)
    t.floor = s.floor ∧ t.lapse = s.lapse ∧ t.overlap = s.overlap ∧ t.intake = s.intake ∧ t.sched = s.sched := by
  obtain ⟨own, u, reached, port⟩ := receive_dispatch h
  have rest := (recordBeat_entryFrame rx.source b u).fromDispatch reached
  have mine : u.dispatch own rx.source (.beat b) = u.recordBeat rx.source b := by
    have number : (u.recordBeat rx.source b).number = rx.source := by rw [rest, hx]
    change (u.recordBeat rx.source b).beatAtFloor rx.source b = _
    conv_lhs => arg 1; rw [← number]
    exact beatAtFloor_own b _
  rw [mine, rest] at port
  exact ⟨port.floor, port.lapse, port.overlap, port.intake, port.sched⟩

/-- Settles O33: a beat of another station that is adopted changes the view once (`AtFloor.adopts`), which the floor
unit and intake follow; any other leaves it (`AtFloor.keeps`, `ownBeat_leaves`). -/
theorem beatAdoption : Obligations.BeatAdoption := by
  unfold Obligations.BeatAdoption
  intro rx b s h free adopts v
  refine ⟨_, exec_receptionOf rx (.beat b) s, ?_⟩
  by_cases hx : rx.source = s.number
  · exact ⟨fun _ => ownBeat_leaves h hx, fun k => absurd hx k.1⟩
  · obtain ⟨w, reached, run⟩ := receive_beat h hx
    have rest := reached.rest
    rw [run]
    refine ⟨fun k => ?_, fun k hv => ?_⟩
    · rw [reached.keeps b hx free (k.imp_left fun n m => n ⟨hx, m⟩), rest]
      exact ⟨rfl, rfl, rfl, rfl, rfl⟩
    · rw [reached.adopts b hx k.2 hv]
      have view := reached.adoption v hv
      exact ⟨view.floor, view.timers, view.output⟩

end Sys2Proof.Machine

/-! # What the writer is told of a lost floor -/

namespace Sys2Proof.Machine

/-! ### The port's reaction at once (R26, R65) -/

/-- A state in which a change of view is taken, in the terms of the state before the event: the view and the writer's
affairs stand. -/
structure ChangeDue (s w : State) : Prop where
  rest : w = { s with flags := w.flags, line := w.line, peers := w.peers, floor := w.floor }
  view : w.floor.view = s.floor.view
  queues : QueuesStand s w

theorem forgetPeer_changeDue (x : Station) (s : State) : ChangeDue s (s.forgetPeer x) :=
  ⟨rfl, rfl, ⟨rfl, rfl, rfl, rfl, rfl⟩⟩

theorem AtFloor.changeDue {x : Station} {s w : State} (h : AtFloor x s w) : ChangeDue s w.adopting := by
  have counted : QueuesStand w w.adopting := ⟨rfl, rfl, rfl, rfl, rfl⟩
  refine ⟨?_, ?_, counted.after h.queues⟩ <;> (rw [h.rest]; rfl)

/-- The state in which the writer port hears of a change of view, in the terms of the state before the event. -/
structure ChangeHeard (v : View) (s a : State) : Prop where
  port : a.port = s.port
  asm : a.asm = s.asm
  start : a.start = s.start
  number : a.number = s.number
  cfg : a.cfg = s.cfg
  view : a.floor.view = v
  queues : QueuesStand s a

theorem ChangeDue.heard {s w : State} (h : ChangeDue s w) (v : View) (cause : ViewCause) :
    ChangeHeard v s (w.heardOf v cause) := by
  have told := heardOf_mergeFrame v cause w
  have queues : QueuesStand w (w.withView v) := ⟨rfl, rfl, rfl, rfl, rfl⟩
  have rest := h.rest
  refine ⟨?_, ?_, ?_, ?_, ?_, ?_, told.queuesStand.after (queues.after h.queues)⟩ <;>
    (unfold MergeFrame at told; rw [told, rest]; rfl)

/-- At a WRITER or BOTH station whose floor queue is not under arbitration, the port reacts at once to a change of view
(R26, R65). -/
theorem ChangeDue.reacts {s w : State} (h : ChangeDue s w) (v : View) (cause : ViewCause) (hv : v ≠ s.floor.view)
    (ho : s.cfg.role ≠ .output) (arb : s.line.arb = none) :
    w.changeView false v cause = (w.heardOf v cause).reactToView s.floor.view v cause := by
  have heard := h.heard v cause
  have dark : (w.heardOf v cause).tellLamp w.floor.view v = w.heardOf v cause :=
    if_neg (by rw [heard.cfg]; exact ho)
  have writer : (w.heardOf v cause).hasWriter = true := (hasWriter_iff _).mpr (by rw [heard.cfg]; exact ho)
  have idle : (w.heardOf v cause).line.floorUnderArb = false := by
    unfold Line.floorUnderArb; rw [heard.queues.arb, arb]; rfl
  rw [changeView_eq false v cause w (by rw [h.view]; exact hv), if_neg (by simp)]
  change ((w.heardOf v cause).tellLamp w.floor.view v).portView w.floor.view v cause = _
  rw [dark, h.view]
  unfold State.portView
  rw [writer, idle]
  rfl

/-! ### Losing the right to send (R90, R92, R93) -/

/-- The causes of a change of view that are a loss of the floor where they take the right to send, but for a split
(R71, R93). -/
def ViewCause.takes (cause : ViewCause) : Prop := cause = .adoption ∨ ∃ x, cause = .gone x

theorem takes_freesFloor {cause : ViewCause} (h : cause.takes) (x : Station) : cause.freesFloor x = true := by
  obtain rfl | ⟨y, rfl⟩ := h <;> rfl

theorem takes_mark {cause : ViewCause} (h : cause.takes) :
    (cause == .split) = false ∧ cause ≠ .lapse ∧ cause ≠ .split := by
  obtain rfl | ⟨y, rfl⟩ := h <;> simp

theorem handsOver_iff (x : Station) (old new : View) :
    old.handsOver x new = true ↔ ∃ i, old = .overlap x i ∧ new = .held i := by
  cases old with
  | overlap h t => simp [View.handsOver]
  | vacant | held | offered => simp [View.handsOver]

/-- A view without the right to send gives the state IDLE (R79, line 5). -/
theorem writerState_idle {x : Station} {v : View} (h : v.right x = false) : v.writerState x = .idle := by
  cases v <;> simp_all [View.right, View.heldBy, View.holder, View.incomingIs, View.writerState]

/-- The station of a writer that is about to lose the right to send by a change to a view, with nothing of its own under
arbitration or in flight and no leave waiting. -/
structure Losing (v : View) (s : State) : Prop where
  had : s.floor.view.right s.number = true
  loses : v.right s.number = false
  writer : s.cfg.role ≠ .output
  ready : s.port.ready = true
  leaves : s.port.leaves = []
  arb : s.line.arb = none
  landed : s.line.inFlight = none

theorem Losing.changes {v : View} {s : State} (h : Losing v s) : v ≠ s.floor.view := fun e => by
  have had := h.had
  rw [← e, h.loses] at had
  cases had

/-- The change of view is a loss that the port tells, unless a leave is unanswered or it ends this station's own
handover (R90, R92, R93). -/
theorem lossOfFloor_taken {v : View} {s a : State} {cause : ViewCause} (losing : Losing v s) (heard : ChangeHeard v s a)
    (hc : cause.takes) :
    a.lossOfFloor s.floor.view v cause = (!a.leaveOut && !s.floor.view.handsOver s.number v) := by
  unfold State.lossOfFloor
  simp only [heard.number, losing.had, losing.loses]
  obtain rfl | ⟨y, rfl⟩ := hc <;> rfl

/-- A leave is unanswered only while its YIELD is queued (R79, line 3). -/
theorem Losing.leaveOut {v : View} {s a : State} (losing : Losing v s) (heard : ChangeHeard v s a) :
    a.leaveOut = (s.line.floorQ == some .yield) := by
  unfold State.leaveOut
  rw [heard.port, heard.queues.inFlight, heard.queues.floorQ, losing.leaves, losing.landed]
  simp

/-! ### The request pending at the loss -/

theorem withdrawRequest_clears (s : State) : s.withdrawRequest.line.floorQ = none := by
  unfold State.withdrawRequest State.pendingRequest
  cases hq : s.line.floorQ with
  | some f => cases f <;> rfl
  | none => simp only; split <;> simp_all

theorem withdrawRequest_drain (s : State)
    (h : s.asm.drain = .idle ∨ s.pendingRequest = some (.frame .release) ∨ s.pendingRequest = some .drain) :
    s.withdrawRequest.asm.drain = .idle := by
  unfold State.withdrawRequest
  obtain idle | pending | pending := h
  · split
    · rfl
    · exact idle
    · rfl
    · exact idle
  · rw [pending]
  · rw [pending]

/-- A request that a change of view withdraws leaves the assembler as its withdrawal does. -/
theorem answerView_withdraws_asm (old new : View) (cause : ViewCause) (o : Answer) (s : State)
    (h : s.viewAnswer old new cause = .withdrawn o) : (s.answerView old new cause).asm = s.withdrawRequest.asm := by
  have told (c : Prop) [Decidable c] (o : Answer) (u : State) : (if c then u.answer o else u).asm = u.asm := by
    split <;> rfl
  have marked := congrArg State.asm (withdrawRequest_splitIdle (cause == .split) s)
  unfold State.answerView
  simp only [h, told]
  cases o <;> exact marked

/-- What the port's answers leave where the floor is lost: some notices told, and no request pending. -/
structure LossAnswered (os : List Notice) (s t : State) : Prop where
  port : t.port = ({ s.port with splitIdle := false } : WriterPort).told os
  floorQ : t.line.floorQ = none
  drain : t.asm.drain = .idle

theorem answerView_lossPort {v : View} {s a : State} {cause : ViewCause} (heard : ChangeHeard v s a)
    (hc : cause.takes) :
    (a.answerView s.floor.view v cause).port =
      ({ s.port with splitIdle := false } : WriterPort).told (a.viewNotices s.floor.view v cause) := by
  rw [answerView_port, (takes_mark hc).1, heard.port]

/-- The answers where no request is pending (R90, R93). -/
theorem lossAnswered_alone {v : View} {s a : State} {cause : ViewCause} (losing : Losing v s)
    (heard : ChangeHeard v s a) (hc : cause.takes) (queued : s.line.floorQ = none) (drain : s.asm.drain = .idle) :
    LossAnswered (if s.floor.view.handsOver s.number v = true then [] else [.outcome .lostFloor]) s
      (a.answerView s.floor.view v cause) := by
  have alone : a.pendingRequest = none := by
    unfold State.pendingRequest; rw [heard.queues.floorQ, heard.asm, queued, drain]; rfl
  have stands : a.viewAnswer s.floor.view v cause = .stands := by unfold State.viewAnswer; rw [alone]
  have lost : a.lossOfFloor s.floor.view v cause = !s.floor.view.handsOver s.number v := by
    rw [lossOfFloor_taken losing heard hc, losing.leaveOut heard, queued]; rfl
  obtain told | ⟨withdrawn, -⟩ := answerView_cases s.floor.view v cause a
  · refine ⟨?_, ?_, ?_⟩
    · rw [answerView_lossPort heard hc]
      unfold State.viewNotices
      rw [stands, lost]
      cases s.floor.view.handsOver s.number v <;> simp [(takes_mark hc).2.1]
    · rw [told.deskStands.floorQ, heard.queues.floorQ, queued]
    · unfold TellFrame at told; rw [told]; exact (congrArg Assembler.drain heard.asm).trans drain
  · exact absurd stands withdrawn

/-- The answers where the request pending is withdrawn. -/
theorem lossAnswered_withdrawn {v : View} {s a : State} {cause : ViewCause} (o : Answer) (heard : ChangeHeard v s a)
    (hc : cause.takes) (answer : a.viewAnswer s.floor.view v cause = .withdrawn o)
    (drain : a.asm.drain = .idle ∨ a.pendingRequest = some (.frame .release) ∨ a.pendingRequest = some .drain) :
    LossAnswered (.outcome o :: if a.lossOfFloor s.floor.view v cause = true then [.outcome .lostFloor] else []) s
      (a.answerView s.floor.view v cause) := by
  refine ⟨?_, ?_, ?_⟩
  · rw [answerView_lossPort heard hc]
    unfold State.viewNotices
    rw [answer]
    simp [(takes_mark hc).2.1]
  · rw [answerView_withdraws _ _ _ _ _ answer]; exact withdrawRequest_clears a
  · rw [answerView_withdraws_asm _ _ _ _ _ answer]; exact withdrawRequest_drain a drain

/-- A pending OFFER is withdrawn and answered ABORTED before the loss is told (R93). -/
theorem lossAnswered_offer {v : View} {s a : State} {cause : ViewCause} (losing : Losing v s)
    (heard : ChangeHeard v s a) (hc : cause.takes) (sc : Successor) (queued : s.line.floorQ = some (.offer sc))
    (drain : s.asm.drain = .idle) (keeps : s.floor.view.handsOver s.number v = false) :
    a.viewAnswer s.floor.view v cause = .withdrawn .aborted ∧
      LossAnswered [.outcome .aborted, .outcome .lostFloor] s (a.answerView s.floor.view v cause) := by
  have lost : a.lossOfFloor s.floor.view v cause = true := by
    rw [lossOfFloor_taken losing heard hc, losing.leaveOut heard, queued, keeps]; rfl
  have pending : a.pendingRequest = some (.frame (.offer sc)) := by
    unfold State.pendingRequest; rw [heard.queues.floorQ, queued]
  have answer : a.viewAnswer s.floor.view v cause = .withdrawn .aborted := by
    unfold State.viewAnswer; simp only [pending, lost, if_true]
  have answered := lossAnswered_withdrawn .aborted heard hc answer (.inl (by rw [heard.asm]; exact drain))
  rw [lost] at answered
  exact ⟨answer, answered⟩

/-- A leave whose YIELD is still queued is GRANTED, and told of no loss (R92). -/
theorem lossAnswered_yield {v : View} {s a : State} {cause : ViewCause} (losing : Losing v s)
    (heard : ChangeHeard v s a) (hc : cause.takes) (queued : s.line.floorQ = some .yield)
    (drain : s.asm.drain = .idle) :
    LossAnswered [.outcome .granted] s (a.answerView s.floor.view v cause) := by
  have kept : a.lossOfFloor s.floor.view v cause = false := by
    rw [lossOfFloor_taken losing heard hc, losing.leaveOut heard, queued]; rfl
  have pending : a.pendingRequest = some (.frame .yield) := by
    unfold State.pendingRequest; rw [heard.queues.floorQ, queued]
  have answer : a.viewAnswer s.floor.view v cause = .withdrawn .granted := by
    unfold State.viewAnswer; simp [pending, heard.number, losing.loses]
  have answered := lossAnswered_withdrawn .granted heard hc answer (.inl (by rw [heard.asm]; exact drain))
  rw [kept] at answered
  exact answered

/-- A drain, or its RELEASE, is GRANTED where the OVERLAP passes to HELD of the incoming station (R90). -/
theorem lossAnswered_drain {v : View} {s a : State} {cause : ViewCause} (losing : Losing v s)
    (heard : ChangeHeard v s a) (hc : cause.takes)
    (drains : s.line.floorQ = none ∧ s.asm.drain = .draining ∨ s.line.floorQ = some .release ∧ s.asm.drain = .reported)
    (passes : s.floor.view.handsOver s.number v = true) :
    LossAnswered [.outcome .granted] s (a.answerView s.floor.view v cause) := by
  have kept : a.lossOfFloor s.floor.view v cause = false := by
    rw [lossOfFloor_taken losing heard hc, passes]; simp
  have pending : a.pendingRequest = some (.frame .release) ∨ a.pendingRequest = some .drain := by
    have queued := heard.queues.floorQ
    rw [← heard.asm, ← queued] at drains
    exact pendingRequest_drains (drains.imp And.left And.left) (drains.imp And.right And.left)
  have answer : a.viewAnswer s.floor.view v cause = .withdrawn .granted := by
    obtain ⟨i, old, rfl⟩ := (handsOver_iff _ _ _).mp passes
    unfold State.viewAnswer
    obtain pending | pending := pending <;> rw [pending] <;> simp [old, heard.number, (takes_mark hc).2.2]
  have answered := lossAnswered_withdrawn .granted heard hc answer (.inr pending)
  rw [kept] at answered
  exact answered

/-! ### The writer state and auto-claim after the answers (R79, R80, R94, R102) -/

/-- A writer that was not sending has no text to lose when its state is worked out (R102). -/
theorem workOut_unsent (s : State) (h : s.port.wstate.sending = false) :
    s.workOut.line = s.line ∧ s.workOut.asm = s.asm := by
  unfold State.workOut State.changeWriterState
  simp only [h, Bool.false_and, Bool.false_eq_true, if_false]
  split <;> exact ⟨rfl, rfl⟩

theorem workOut_drain (s : State) (h : s.asm.drain = .idle) : s.workOut.asm.drain = .idle := by
  unfold State.workOut State.changeWriterState
  simp only
  split
  · exact h
  · split
    · rfl
    · exact h

theorem withdrawSegments_inFlight (byRecord : Bool) (s : State) :
    (s.withdrawSegments byRecord).line.inFlight = s.line.inFlight := by
  unfold State.withdrawSegments
  split
  · rw [countDrops_line]; exact (settleRatio_queues _).2.2.2.2.2.2.1
  · rw [countDrops_line]

theorem workOut_inFlight (s : State) : s.workOut.line.inFlight = s.line.inFlight := by
  have lost (u : State) : u.loseRight.line.inFlight = u.line.inFlight :=
    (withdrawSegments_inFlight false _).trans (congrArg Line.inFlight (discardOpen_line u))
  unfold State.workOut State.changeWriterState
  simp only
  split
  · rfl
  · split
    · exact lost _
    · rfl

/-- Whether the loss lets auto-claim deposit a CLAIM (R94). -/
abbrev State.reclaims (v : View) (s : State) : Prop := s.cfg.autoClaim = true ∧ s.start = .running ∧ v = .vacant

/-- What a writer that loses the floor finds: notices told, the state IDLE, its text gone where it was sending, and the
CLAIM of an auto-claim where there is one (R80, R93, R94, R102). -/
def State.lossTold (v : View) (s : State) (os : List Notice) (t : State) : Prop :=
  let port := (({ s.port with splitIdle := false } : WriterPort).told os).settled .idle
  (t.port = if s.reclaims v then port.settled .claiming else port) ∧
    t.line.floorQ = (if s.reclaims v then some .claim else none) ∧ t.asm.drain = .idle ∧
    (s.port.wstate.sending = true → t.asm.words = [] ∧ t.asm.newSpeaker = false ∧ t.line.segQ = [])

/-- The same before auto-claim is considered. -/
structure LossSettled (v : View) (os : List Notice) (s u : State) : Prop where
  port : u.port = (({ s.port with splitIdle := false } : WriterPort).told os).settled .idle
  floorQ : u.line.floorQ = none
  drain : u.asm.drain = .idle
  text : s.port.wstate.sending = true → u.asm.words = [] ∧ u.asm.newSpeaker = false ∧ u.line.segQ = []
  cfg : u.cfg = s.cfg
  start : u.start = s.start
  view : u.floor.view = v
  landed : u.line.inFlight = none

/-- A ready writer with nothing of its own queued or in flight and no drain is IDLE where the view gives it no right to
send (R79). -/
theorem lossAnswered_workState {v : View} {os : List Notice} {s r : State} (losing : Losing v s)
    (answered : LossAnswered os s r) (landed : r.line.inFlight = none) (view : r.floor.view = v)
    (number : r.number = s.number) : r.workState = .idle := by
  have port := answered.port
  rw [told_rest] at port
  simp [State.workState, State.claimOut, State.leaveOut, port, losing.ready, losing.leaves, answered.floorQ, landed,
    answered.drain, view, number, writerState_idle losing.loses]

theorem lossSettled_workOut {v : View} {os : List Notice} {s a : State} {cause : ViewCause} (losing : Losing v s)
    (heard : ChangeHeard v s a) (answered : LossAnswered os s (a.answerView s.floor.view v cause)) :
    LossSettled v os s (a.answerView s.floor.view v cause).workOut := by
  have frame := answerView_portFrame s.floor.view v cause a
  have desk := answerView_answered s.floor.view v cause a
  generalize a.answerView s.floor.view v cause = r at answered frame desk
  have landed : r.line.inFlight = none := desk.inFlight.trans (heard.queues.inFlight.trans losing.landed)
  have view : r.floor.view = v := by rw [frame.floor, heard.view]
  have idle := lossAnswered_workState losing answered landed view (frame.number.trans heard.number)
  have worked := workOut_portFrame r
  obtain ⟨port, -, floorQ⟩ := workOut_told r
  refine ⟨?_, floorQ.trans answered.floorQ, workOut_drain r answered.drain, fun sends => ?_,
    worked.cfg.trans (frame.cfg.trans heard.cfg), worked.start.trans (frame.start.trans heard.start), ?_,
    (workOut_inFlight r).trans landed⟩
  · rw [port, idle, answered.port]
  · have arb : r.line.arb = none := frame.arb.trans (heard.queues.arb.trans losing.arb)
    have gone := workOut_textGone r (by rw [desk.wstate, heard.port]; exact sends) (by rw [idle]; rfl)
      (segmentUnderArb_none (by simp [arb]))
    exact ⟨gone.words, gone.newSpeaker, gone.segQ⟩
  · rw [worked.floor]; exact view

/-- After the loss auto-claim applies exactly where it is on, in RUNNING, and the floor has become VACANT (R94). -/
theorem LossSettled.claims_iff {v : View} {os : List Notice} {s u : State} (h : LossSettled v os s u)
    (ho : s.cfg.role ≠ .output) : u.claims ↔ s.reclaims v := by
  have idle : u.port.wstate = .idle := by rw [h.port, settled_wstate]
  have alone : u.pendingRequest = none := by unfold State.pendingRequest; simp [h.floorQ, h.drain]
  have landed : u.line.floorInFlight = false := by unfold Line.floorInFlight; rw [h.landed]
  unfold State.claims
  rw [h.cfg, h.start, h.view]
  simp [ho, idle, alone, landed]

theorem LossSettled.ready {v : View} {os : List Notice} {s u : State} (h : LossSettled v os s u)
    (ready : s.port.ready = true) : u.port.ready = true := by
  rw [h.port, settled_ready, told_rest]; exact ready

theorem LossSettled.lossTold {v : View} {os : List Notice} {s u : State} (h : LossSettled v os s u)
    (losing : Losing v s) : s.lossTold v os u.autoClaim := by
  unfold State.lossTold
  by_cases reclaims : s.reclaims v
  · have idle : u.port.wstate = .idle := by rw [h.port, settled_wstate]
    have claim := workState_claim u (h.ready losing.ready)
    obtain ⟨port, -, floorQ⟩ := workOut_told (u.depositFloor .claim)
    obtain ⟨line, asm⟩ := workOut_unsent (u.depositFloor .claim)
      (by rw [State.depositFloor_port, idle]; rfl)
    rw [autoClaim_claims u ((h.claims_iff losing.writer).mpr reclaims)]
    simp only [if_pos reclaims, asm, line]
    refine ⟨?_, rfl, h.drain, h.text⟩
    rw [port, claim, State.depositFloor_port, h.port]
  · rw [autoClaim_left u fun k => reclaims ((h.claims_iff losing.writer).mp k)]
    simp only [if_neg reclaims]
    exact ⟨h.port, h.floorQ, h.drain, h.text⟩

/-- The whole reaction of the port to a loss of the floor, from its answers (R79, R80, R94, R102). -/
theorem reactToView_lossTold {v : View} {os : List Notice} {s a : State} {cause : ViewCause} (losing : Losing v s)
    (heard : ChangeHeard v s a) (hc : cause.takes) (answered : LossAnswered os s (a.answerView s.floor.view v cause)) :
    s.lossTold v os (a.reactToView s.floor.view v cause) := by
  have settled := lossSettled_workOut losing heard answered
  have told := settled.lossTold losing
  unfold State.reactToView
  simp only [takes_freesFloor hc, and_true]
  split
  · exact told
  · rename_i held
    have left : ¬ s.reclaims v := fun k => held k.2.2
    rwa [autoClaim_left _ fun k => left ((settled.claims_iff losing.writer).mp k)] at told

/-! ### Both causes (R63, R66) -/

/-- A GONE event of this station, or an adoption that takes its right to send away, is one change of view. -/
structure LossEvent (c : Instr) (v : View) (s w : State) (cause : ViewCause) : Prop where
  run : exec c s = .next (w.changeView false v cause)
  due : ChangeDue s w
  takes : cause.takes
  lamp : s.lampFollows (w.changeView false v cause)

theorem lossEvent_gone {v : View} {s : State} (losing : Losing v s) (aged : s.agedOut s.number = true)
    (hv : v = match s.floor.view with
      | .overlap h i => if s.number = h then .held i else .held h
      | _ => .vacant) :
    ∃ w cause, LossEvent (.peerAgeOut s.number) v s w cause := by
  have had := losing.had
  have gone : v = s.floor.view.afterGone s.number := by
    rw [hv]
    cases view : s.floor.view with
    | vacant => rfl
    | held h | offered h sc =>
      have mine : h = s.number := by
        simpa [view, View.right, View.heldBy, View.holder, View.incomingIs] using had
      simp [View.afterGone, mine]
    | overlap h i =>
      by_cases outgoing : s.number = h
      · simp [View.afterGone, outgoing]
      · have incoming : i = s.number := by
          simpa [view, View.right, View.heldBy, View.holder, View.incomingIs, Ne.symm outgoing] using had
        simp [View.afterGone, outgoing, incoming]
  have run := ageOut_due s.number s aged
  have lamp := ageOut_lamp s.number s
  rw [← gone] at run
  rw [run] at lamp
  exact ⟨s.forgetPeer s.number, .gone s.number, congrArg Host.Outcome.next run, forgetPeer_changeDue _ s,
    .inr ⟨_, rfl⟩, lamp⟩

theorem lossEvent_adoption {rx : Rx} {b : BeatBody} {v : View} {s : State} (losing : Losing v s)
    (h : s.hears rx (.beat b)) (hx : rx.source ≠ s.number) (authority : s.floor.view.heldBy rx.source = true)
    (hv : v = s.adopted rx.source b.view) :
    ∃ w cause, LossEvent (.beatReceived rx b) v s w cause := by
  obtain ⟨w, reached, run⟩ := receive_beat h hx
  have lamp := receive_lamp h (.inl (.inl losing.landed))
  rw [reached.adopts b hx (.inl authority) (by rw [← hv]; exact losing.changes), ← hv] at run
  rw [run] at lamp
  exact ⟨w.adopting, .adoption, congrArg Host.Outcome.next run, reached.changeDue, .inl rfl, lamp⟩

/-- Settles O35: the event is one change of view (`lossEvent_gone`, `lossEvent_adoption`), to which the port reacts at
once (`ChangeDue.reacts`): its answers, by the request pending, and then the state IDLE and auto-claim
(`reactToView_lossTold`). -/
theorem lossOfFloorTold : Obligations.LossOfFloorTold := by
  unfold Obligations.LossOfFloorTold
  intro c v s event had loses writer ready leaves arb landed claims handsOver
  have losing : Losing v s := ⟨had, loses, writer, ready, leaves, arb, landed⟩
  have taken : ∃ w cause, LossEvent c v s w cause := by
    obtain ⟨rfl, present, silent, hv⟩ | ⟨rx, b, rfl, hears, hx, authority, hv⟩ := event
    · exact lossEvent_gone losing ((agedOut_iff _ s).mpr ⟨present, silent⟩) hv
    · exact lossEvent_adoption losing hears hx authority hv
  obtain ⟨w, cause, run, due, takes, lamp⟩ := taken
  have view : (w.changeView false v cause).floor.view = v := by
    rw [(changeView_floor false v cause w (by rw [due.view]; exact losing.changes)).1]
  have passes : s.floor.view.handsOver s.number v = true ↔ handsOver := handsOver_iff _ _ _
  have heard := due.heard v cause
  have reacts := due.reacts v cause losing.changes writer arb
  have told (os : List Notice)
      (answered : LossAnswered os s ((w.heardOf v cause).answerView s.floor.view v cause)) :
      s.lossTold v os (w.changeView false v cause) := by
    rw [reacts]; exact reactToView_lossTold losing heard takes answered
  refine ⟨_, run, view, lamp, fun _ queued drain => ?_, fun sc _ queued drain keeps => ?_,
    fun queued _ drain => told _ (lossAnswered_yield losing heard takes queued drain),
    fun hands _ drains => told _ (lossAnswered_drain losing heard takes drains (passes.mpr hands))⟩
  · have answered := told _ (lossAnswered_alone losing heard takes queued drain)
    simp only [passes] at answered
    exact answered
  · obtain ⟨answer, answered⟩ := lossAnswered_offer losing heard takes sc queued drain
      (by rw [← Bool.not_eq_true, passes]; exact keeps)
    refine ⟨told _ answered, ?_⟩
    have flag := answerView_aborted _ _ _ _ answer
    rw [reacts]
    unfold State.reactToView
    simp only
    split
    · exact (autoClaim_portFrame _).flags _ ((workOut_portFrame _).flags _ flag)
    · exact (workOut_portFrame _).flags _ flag

end Sys2Proof.Machine

/-! # Cue breaking -/

namespace Sys2Proof.Machine

/-! ### The pieces of a word (R124, step 3) -/

/-- The number of pieces of at most w characters that a text of n characters is cut into. -/
def pieceCount (w n : Nat) : Nat := max 1 ((n + w - 1) / w)

theorem pieceCount_short {w n : Nat} (hw : 1 ≤ w) (h : n ≤ w) : pieceCount w n = 1 := by
  have : (n + w - 1) / w ≤ 1 := Nat.le_of_lt_succ ((Nat.div_lt_iff_lt_mul hw).mpr (by omega))
  unfold pieceCount; omega

theorem pieceCount_long {w n : Nat} (hw : 1 ≤ w) (h : w < n) : pieceCount w n = pieceCount w (n - w) + 1 := by
  have step : (n + w - 1) / w = (n - w + w - 1) / w + 1 := by
    rw [← Nat.add_div_right _ hw]; congr 1; omega
  have one : 1 ≤ (n - w + w - 1) / w := (Nat.one_le_div_iff hw).mpr (by omega)
  unfold pieceCount; omega

theorem cutText_pieces (fuel w : Nat) (t : Text) (hw : 1 ≤ w) (h : t.length ≤ fuel) :
    cutText fuel w t = (List.range (pieceCount w t.length)).map fun j => (t.drop (w * j)).take w := by
  have short (t : Text) (ht : t.length ≤ w) :
      [t] = (List.range (pieceCount w t.length)).map fun j => (t.drop (w * j)).take w := by
    simp [pieceCount_short hw ht, List.take_of_length_le ht]
  induction fuel generalizing t with
  | zero => exact short t (by omega)
  | succ fuel ih =>
    unfold cutText
    split
    · exact short t ‹_›
    · have tail := ih (t.drop w) (by rw [List.length_drop]; omega)
      rw [List.length_drop] at tail
      rw [tail, pieceCount_long (n := t.length) hw (by omega), List.range_succ_eq_map]
      simp [Nat.mul_add, Nat.add_comm]

/-- The pieces of a word, numbered on from its own piece, each with its speech time and index (R124, R143). -/
def TimedWord.pieces (w : Nat) (word : TimedWord) : List TimedWord :=
  (List.range (pieceCount w word.text.length)).map fun j =>
    { word with text := (word.text.drop (w * j)).take w, piece := word.piece + j }

theorem cutWord_pieces (w : Nat) (word : TimedWord) (hw : 1 ≤ w) : cutWord w word = word.pieces w := by
  unfold cutWord TimedWord.pieces
  rw [cutText_pieces _ w _ hw (Nat.le_refl _)]
  apply List.ext_getElem
  · simp
  · intros; simp

theorem pieces_short {w : Nat} {word : TimedWord} (hw : 1 ≤ w) (h : word.text.length ≤ w) :
    word.pieces w = [word] := by
  simp [TimedWord.pieces, pieceCount_short hw h, List.take_of_length_le h]

/-! ### The rows hold the words in their order (R124) -/

theorem closeRow_flatten (rows : List (List TimedWord)) (cur : List TimedWord) :
    (closeRow rows cur).flatten = rows.flatten ++ cur := by
  unfold closeRow
  split
  · rename_i h; simp [List.isEmpty_iff.mp h]
  · simp

theorem dropLast_append_getLast_toList {α : Type} (l : List α) : l.dropLast ++ l.getLast?.toList = l := by
  cases h : l.getLast? with
  | none => simp [List.getLast?_eq_none_iff.mp h]
  | some a => exact List.dropLast_append_getLast? a h

theorem buildRows_flatten (w : Nat) (hw : 1 ≤ w) (ws : List TimedWord) (rows : List (List TimedWord))
    (cur : List TimedWord) :
    (buildRows w rows cur ws).flatten = rows.flatten ++ cur ++ ws.flatMap (·.pieces w) := by
  have singles (ps : List TimedWord) : (ps.map fun p => [p]).flatten = ps := by
    rw [← List.flatMap_def, List.flatMap_singleton']
  induction ws generalizing rows cur with
  | nil => simp [buildRows, closeRow_flatten]
  | cons word ws ih =>
    unfold buildRows
    simp only
    split
    · rename_i fits
      rw [List.flatMap_cons, pieces_short hw fits]
      split <;> simp [ih, closeRow_flatten]
    · rw [ih, List.flatten_append, closeRow_flatten, singles, List.flatMap_cons, ← cutWord_pieces w word hw]
      conv_rhs => rw [← dropLast_append_getLast_toList (cutWord w word)]
      simp only [List.append_assoc]

/-! ### No row is broken before it is full (R124, step 2) -/

theorem joinText_append (ts : List Text) (t : Text) (h : ts ≠ []) :
    (joinText (ts ++ [t])).length = (joinText ts).length + 1 + t.length := by
  induction ts with
  | nil => exact absurd rfl h
  | cons a ts ih =>
    cases ts with
    | nil => simp [joinText]; omega
    | cons b ts =>
      have tail := ih (by simp)
      simp only [List.cons_append, joinText, List.length_append, List.length_cons] at tail ⊢
      omega

theorem rowLength_append (row : List TimedWord) (p : TimedWord) (h : row ≠ []) :
    rowLength (row ++ [p]) = rowLength row + 1 + p.text.length := by
  unfold rowLength wordTexts
  rw [List.map_append]
  exact joinText_append _ _ (by simpa using h)

/-- The first word of a row does not fit the row before it. -/
def Overflows (w : Nat) (row next : List TimedWord) : Prop := ∀ p ∈ next.head?, w < rowLength (row ++ [p])

/-- A piece of the full width fits no row that holds a word, and nothing fits behind it. -/
theorem overflows_full {w : Nat} {row : List TimedWord} {p : TimedWord} (h : row ≠ []) (full : w ≤ p.text.length) :
    w < rowLength (row ++ [p]) := by
  rw [rowLength_append row p h]; omega

theorem overflows_behind {w : Nat} {p q : TimedWord} (full : w ≤ p.text.length) : w < rowLength ([p] ++ [q]) := by
  rw [rowLength_append [p] q (by simp), joinText_length_single]; omega

theorem cutText_ne_nil (fuel w : Nat) (t : Text) : cutText fuel w t ≠ [] := by
  cases fuel with
  | zero => simp [cutText]
  | succ fuel => unfold cutText; split <;> simp

theorem cutText_full (fuel w : Nat) (t : Text) : ∀ p ∈ (cutText fuel w t).dropLast, p.length = w := by
  induction fuel generalizing t with
  | zero => simp [cutText]
  | succ fuel ih =>
    unfold cutText
    split
    · simp
    · rename_i long
      rw [List.dropLast_cons_of_ne_nil (cutText_ne_nil _ _ _)]
      intro p hp
      obtain rfl | hp := List.mem_cons.mp hp
      · simp; omega
      · exact ih _ p hp

theorem cutWord_texts (w : Nat) (word : TimedWord) :
    (cutWord w word).map (·.text) = cutText word.text.length w word.text := by
  unfold cutWord
  apply List.ext_getElem
  · simp
  · intros; simp

theorem cutWord_full (w : Nat) (word : TimedWord) : ∀ p ∈ (cutWord w word).dropLast, w ≤ p.text.length := by
  intro p hp
  have text := List.mem_map_of_mem (f := (·.text)) hp
  rw [List.map_dropLast, cutWord_texts] at text
  exact (cutText_full _ w _ _ text).ge

/-- The first piece of a word beyond the width is full. -/
theorem cutWord_head {w : Nat} {word : TimedWord} (h : w < word.text.length) :
    ∀ p ∈ (cutWord w word).head?, w ≤ p.text.length := by
  intro p hp
  have text : p.text ∈ ((cutWord w word).map (·.text)).head? := by
    rw [List.head?_map, Option.mem_def.mp hp]; rfl
  rw [cutWord_texts] at text
  obtain ⟨n, hn⟩ : ∃ n, word.text.length = n + 1 := ⟨_, (Nat.sub_add_cancel (by omega)).symm⟩
  rw [hn] at text
  unfold cutText at text
  rw [if_neg (by omega)] at text
  simp only [List.head?_cons, Option.mem_def, Option.some.injEq] at text
  rw [← text, List.length_take]
  omega

theorem cutWord_ne_nil (w : Nat) (word : TimedWord) : cutWord w word ≠ [] := fun e =>
  cutText_ne_nil _ w word.text (by rw [← cutWord_texts, e]; rfl)

/-- Pieces that are full, the last apart, are a run of rows by themselves. -/
theorem pieces_chain {w : Nat} (ps : List TimedWord) (full : ∀ p ∈ ps.dropLast, w ≤ p.text.length) :
    (ps.map fun p => [p]).IsChain (Overflows w) := by
  induction ps with
  | nil => exact .nil
  | cons p ps ih =>
    cases ps with
    | nil => exact .singleton _
    | cons q ps =>
      rw [List.dropLast_cons_of_ne_nil (by simp)] at full
      refine List.isChain_cons_cons.mpr ⟨?_, ih fun r hr => full r (List.mem_cons_of_mem _ hr)⟩
      intro r hr
      exact overflows_behind (full p List.mem_cons_self)

theorem closeRow_last {rows : List (List TimedWord)} {cur : List TimedWord} (h : cur ≠ []) :
    closeRow rows cur = rows ++ [cur] := by
  unfold closeRow; rw [if_neg (by simpa using h)]

theorem closeRow_first {rows : List (List TimedWord)} {cur : List TimedWord} (h : cur = [] → rows = []) :
    cur = [] ∧ closeRow rows cur = [] ∨ cur ≠ [] ∧ closeRow rows cur = rows ++ [cur] := by
  by_cases hc : cur = []
  · rw [hc, h hc]; exact .inl ⟨rfl, rfl⟩
  · exact .inr ⟨hc, closeRow_last hc⟩

/-- A run of rows goes on with rows whose first word does not fit the row just closed. -/
theorem chain_closeRow {w : Nat} {rows more : List (List TimedWord)} {cur : List TimedWord}
    (first : cur = [] → rows = []) (chain : (closeRow rows cur).IsChain (Overflows w))
    (next : more.IsChain (Overflows w)) (spills : cur ≠ [] → ∀ row ∈ more.head?, Overflows w cur row) :
    (closeRow rows cur ++ more).IsChain (Overflows w) := by
  refine List.isChain_append.mpr ⟨chain, next, ?_⟩
  obtain ⟨-, e⟩ | ⟨hc, e⟩ := closeRow_first first
  · rw [e]; simp
  · rw [e, List.getLast?_concat]
    rintro row ⟨⟩
    exact spills hc

theorem buildRows_chain (w : Nat) (ws : List TimedWord) (rows : List (List TimedWord)) (cur : List TimedWord)
    (first : cur = [] → rows = []) (chain : (closeRow rows cur).IsChain (Overflows w)) :
    (buildRows w rows cur ws).IsChain (Overflows w) := by
  induction ws generalizing rows cur with
  | nil => exact chain
  | cons word ws ih =>
    unfold buildRows
    simp only
    split
    · split
      · refine ih _ _ (by simp) ?_
        rw [closeRow_last (by simp)]
        obtain ⟨hc, -⟩ | ⟨hc, e⟩ := closeRow_first first
        · rw [first hc]; exact .singleton _
        · rw [e, List.isChain_append] at chain
          refine List.isChain_append.mpr ⟨chain.1, .singleton _, fun row hr next hn => ?_⟩
          have spills := chain.2.2 row hr cur rfl
          obtain ⟨⟩ := hn
          unfold Overflows at spills ⊢
          rwa [List.head?_append_of_ne_nil _ hc]
      · rename_i broken
        simp only [Bool.or_eq_true, List.isEmpty_iff, decide_eq_true_eq, not_or, Nat.not_le] at broken
        refine ih _ _ (by simp) ?_
        rw [closeRow_last (by simp)]
        refine chain_closeRow first chain (.singleton _) fun _ row hr p hp => ?_
        obtain ⟨⟩ := hr
        obtain ⟨⟩ := hp
        exact broken.2
    · rename_i long
      have filled := cutWord_ne_nil w word
      have last : (cutWord w word).getLast?.toList ≠ [] := by
        rw [List.getLast?_eq_getLast_of_ne_nil filled]; simp
      have rowsLeft : closeRow (closeRow rows cur ++ (cutWord w word).dropLast.map fun p => [p])
          (cutWord w word).getLast?.toList = closeRow rows cur ++ (cutWord w word).map fun p => [p] := by
        rw [closeRow_last last, List.append_assoc]
        conv_rhs => rw [← List.dropLast_append_getLast filled]
        simp [List.getLast?_eq_getLast_of_ne_nil filled]
      refine ih _ _ (fun e => absurd e last) ?_
      rw [rowsLeft]
      refine chain_closeRow first chain (pieces_chain _ (cutWord_full w word)) fun hc row hr p hp => ?_
      rw [List.head?_map] at hr
      obtain ⟨q, hq, rfl⟩ := Option.map_eq_some_iff.mp hr
      obtain ⟨⟩ := hp
      exact overflows_full hc (cutWord_head (by omega) _ hq)

/-- Cue breaking by its rule (R124): the words in their order and cut to the width, no row empty or beyond it, and none
broken before it is full. -/
theorem breakRows_rule (w : Nat) (ws : List TimedWord) (hw : 1 ≤ w) :
    (breakRows w ws).flatten = ws.flatMap (·.pieces w) ∧
    (∀ row ∈ breakRows w ws, row ≠ [] ∧ rowLength row ≤ w) ∧ (breakRows w ws).IsChain (Overflows w) :=
  ⟨buildRows_flatten w hw ws [] [], breakRows_kept w hw ws, buildRows_chain w ws [] [] (fun _ => rfl) .nil⟩

end Sys2Proof.Machine

/-! # A SEGMENT of the holder or the outgoing station at intake -/

namespace Sys2Proof.Machine

/-! ### What goes on (R114, R119, R120, R125) -/

/-- A held segment's words as they stand are its cues without TRIMMED (R125). -/
theorem cuesOf_whole (g : HeldSegment) (s : State) : s.cuesOf g g.words = g.cues s.cfg.rowWidth false := by
  rw [cuesOf_eq]; simp

/-- A whole segment that goes on after its last word has been stamped (R114, R120). -/
theorem goOn_leaves (g : HeldSegment) (s : State) :
    (s.goOn false g).sched = s.placed (s.cuesOf g g.words) ∧
      (s.goOn false g).intake =
        { s.intake with armed := s.intake.armed.filter fun a => a.station == g.source } := by
  rw [cuesOf_whole]; exact ⟨rfl, rfl⟩

/-- A holder's segment under the trim armed for it: what survives is placed, and the trim stays (R119, R120). -/
theorem trimAndGo_leaves (P : Frame) (g : HeldSegment) (s : State)
    (mine : s.intake.armed.filter (fun a => a.station == g.source) = s.intake.armed) :
    (s.trimAndGo P id g).sched = s.placed (s.cuesOf g (s.keptWords (some P) g)) ∧
      (s.trimAndGo P id g).intake = { s.intake with
        trimmed := rise s.intake.trimmed (g.words.length - (s.keptWords (some P) g).length) } := by
  have kept : g.words.filter (survives s.cfg.trimMargin P) = s.keptWords (some P) g := rfl
  have le := keptWords_length_le (some P) g s
  unfold State.trimAndGo
  simp only [kept]
  by_cases emptied : s.keptWords (some P) g = []
  · simp [emptied, State.cuesOf, breakRows, buildRows, closeRow, State.placed, Schedule.placeAll]
  · have nlt : ¬ g.words.length < (s.keptWords (some P) g).length := Nat.not_lt.mpr le
    rw [if_neg (by simpa using emptied), cuesOf_eq]
    simp only [nlt, or_false]
    refine ⟨rfl, ?_⟩
    simp only [State.goOn, State.placeCues, State.raiseMask_intake]
    rw [mine]

/-! ### Which segments go on whole (R114, R120) -/

/-- No trim is armed for the segment's station. -/
def Intake.untrimmed (x : Station) (k : Intake) : Prop :=
  k.armed = none ∨ ∃ a, k.armed = some a ∧ a.station ≠ x

theorem takeHolder_untrimmed (g : HeldSegment) (s : State) (h : s.intake.untrimmed g.source) :
    s.takeHolder g = s.goOn false g := by
  unfold State.takeHolder
  obtain unarmed | ⟨a, armed, other⟩ := h
  · rw [unarmed]
  · rw [armed]; exact if_pos other

/-- The first word of the segment is later than the trim point by more than the margin (R120). -/
theorem takeHolder_past (g : HeldSegment) (a : Stamp) (w : TimedWord) (s : State) (armed : s.intake.armed = some a)
    (mine : a.station = g.source) (first : g.words.head? = some w)
    (late : 0 < interval w.speech (a.time + BitVec.ofNat 32 s.cfg.trimMargin)) :
    s.takeHolder g = ({ s with intake.armed := none } : State).goOn false g := by
  have past : later (firstSpeech g.words g.rxFrame) (plusFrames a.time s.cfg.trimMargin) = true := by
    simpa [firstSpeech, first, later, plusFrames] using late
  unfold State.takeHolder
  simp only [armed]
  rw [if_neg (not_not_intro mine), if_pos past]

theorem takeHolder_trims (g : HeldSegment) (a : Stamp) (w : TimedWord) (s : State) (armed : s.intake.armed = some a)
    (mine : a.station = g.source) (first : g.words.head? = some w)
    (early : interval w.speech (a.time + BitVec.ofNat 32 s.cfg.trimMargin) ≤ 0) :
    s.takeHolder g = s.trimAndGo a.time id g := by
  have under : ¬ later (firstSpeech g.words g.rxFrame) (plusFrames a.time s.cfg.trimMargin) = true := by
    simpa [firstSpeech, first, later, plusFrames] using early
  unfold State.takeHolder
  simp only [armed]
  rw [if_neg (not_not_intro mine), if_neg under]

/-! ### From the floor check to intake (R56, R72, R114) -/

/-- The view names a station as the outgoing one of an OVERLAP. -/
def View.outgoingIs (x : Station) (v : View) : Prop := ∃ i, v = .overlap x i

/-- The view names a station as its holder outside OVERLAP, or is VACANT and becomes HELD of it (R56). -/
def View.holds (x : Station) (v : View) : Prop := v = .vacant ∨ v = .held x ∨ ∃ sc, v = .offered x sc

/-- A state in which intake takes a segment, in the terms of the state before the frame. -/
def IntakeDue (s u : State) : Prop :=
  u = { s with
    flags := u.flags, pause := u.pause, lapse := u.lapse, overlap := u.overlap, tally := u.tally
    line := u.line, peers := u.peers, floor := u.floor, port := u.port, asm := u.asm }

theorem segmentAtFloor_takes (own : Bool) (x : Station) (b : SegmentBody) (s : State) (m : Mark)
    (ho : (s.implicitClaim own x).hasOutput = true) (hm : (s.implicitClaim own x).floor.view.mark x = some m) :
    s.segmentAtFloor own x b = (s.implicitClaim own x).takeSegment x b m := by
  unfold State.segmentAtFloor
  simp only [hm, ho, if_true]

/-- The claim of a SEGMENT into a VACANT view reaches neither intake nor the schedule (R56, R64). -/
theorem implicitClaim_due {s w : State} (own : Bool) (x : Station)
    (rest : w = { s with flags := w.flags, line := w.line, peers := w.peers }) :
    IntakeDue s (w.implicitClaim own x) := by
  by_cases hv : s.floor.view = .vacant
  · have view := changeView_viewTaken own (.held x) .implicitClaim rest (by simp [hv]) (by simp)
    have frame := changeView_viewFrame own (.held x) .implicitClaim w
    obtain ⟨sched, intake⟩ := view.single (by rw [hv]; rfl) rfl
    rw [implicitClaim_vacant own x w (by rw [rest]; exact hv)]
    generalize w.changeView own (.held x) .implicitClaim = u at view frame sched intake
    unfold ViewFrame at frame
    rw [sched, intake, rest] at frame
    exact frame
  · rw [implicitClaim_claimed own x w (by rw [rest]; exact hv)]
    unfold IntakeDue
    rw [rest]

theorem implicitClaim_mark {s w : State} (own : Bool) (x : Station) (floor : w.floor = s.floor)
    (h : s.floor.view.holds x) : (w.implicitClaim own x).floor.view.mark x = some .holder := by
  obtain hv | hv | ⟨sc, hv⟩ := h
  · obtain ⟨claimed, -⟩ := changeView_floor own (.held x) .implicitClaim w (by simp [floor, hv])
    rw [implicitClaim_vacant own x w (by rw [floor, hv]), claimed]
    exact if_pos rfl
  · rw [implicitClaim_claimed own x w (by simp [floor, hv]), floor, hv]
    exact if_pos rfl
  · rw [implicitClaim_claimed own x w (by simp [floor, hv]), floor, hv]
    exact if_pos rfl

/-- A SEGMENT in sequence of the outgoing station of an OVERLAP or of the holder reaches intake by its mark (R72, R114);
what follows is the writer port's alone. -/
theorem receive_segment {rx : Rx} {b : SegmentBody} {s : State} (h : s.hears rx (.segment b))
    (inSequence : s.inSequence rx.source b) (ho : s.cfg.role ≠ .writer) :
    ∃ u, IntakeDue s u ∧
      (s.floor.view.outgoingIs rx.source →
        PortFrame (u.takeSegment rx.source b .outgoing) (s.receive rx (.segment b))) ∧
      (s.floor.view.holds rx.source →
        PortFrame (u.takeSegment rx.source b .holder) (s.receive rx (.segment b))) := by
  obtain ⟨own, d, reached, port⟩ := receive_dispatch h
  obtain ⟨w, dispatched, rest, -⟩ := dispatch_inSequence reached own b inSequence
  rw [dispatched] at port
  have floor : w.floor = s.floor := by rw [rest]
  have due := implicitClaim_due own rx.source rest
  have out : (w.implicitClaim own rx.source).hasOutput = true :=
    (hasOutput_iff _).mpr (by unfold IntakeDue at due; rw [due]; exact ho)
  refine ⟨_, due, ?_, fun holds => ?_⟩
  · rintro ⟨i, hv⟩
    have mark : (w.implicitClaim own rx.source).floor.view.mark rx.source = some .outgoing := by
      rw [implicitClaim_claimed own rx.source w (by simp [floor, hv]), floor, hv]
      exact if_pos rfl
    rwa [segmentAtFloor_takes own rx.source b w .outgoing out mark] at port
  · rwa [segmentAtFloor_takes own rx.source b w .holder out (implicitClaim_mark own rx.source floor holds)] at port

end Sys2Proof.Machine

/-! # A holder's segment taken and placed -/

namespace Sys2Proof.Machine

/-! ### The first record of a schedule (R125, R131, R142, R145) -/

theorem laterOf_self (t : Frame) : laterOf t t = t := by unfold laterOf; split <;> rfl

/-- A cue placed in an empty schedule is not late in the queue: it is due at its ideal time, or at the frame after this
one (R131 to R133). -/
theorem compute_first (env : TimingEnv) (now : Frame) (c : Cue) :
    (c.compute env now []).tOn = laterOf (c.s + BitVec.ofNat 32 env.cfg.delay) (now + 1#32) ∧
      (c.compute env now []).lamQ = 0 := by
  have onset : (c.compute env now []).tOn = laterOf (c.s + BitVec.ofNat 32 env.cfg.delay) (now + 1#32) := by
    simp [Cue.compute, Cue.durationOnly, stage2, onsetTerms, latest, laterOf_self, stage1, plusFrames]
  have late : (c.compute env now []).lamQ =
      queueLateness (c.compute env now []).tOn (c.s + BitVec.ofNat 32 env.cfg.delay) now := rfl
  refine ⟨onset, late.trans ?_⟩
  rw [onset]
  simp [queueLateness, plusFrames, framesBetween, sat16]

/-- The record a cue becomes in an empty schedule. -/
def NewCue.first (env : TimingEnv) (now : Frame) (n : Counter) (c : NewCue) : Cue :=
  (c.record n now).compute env now []

/-- That record has the speech times of the cue's first and last words, and lasts its duration (R125, R137, R143). -/
theorem first_record (env : TimingEnv) (now : Frame) (n : Counter) (c : NewCue) (filled : c.words ≠ []) :
    let r := c.first env now n
    c.words.head?.map (·.speech) = some r.s ∧ c.words.getLast?.map (·.speech) = some r.e ∧
      r.tOn = laterOf (r.s + BitVec.ofNat 32 env.cfg.delay) (now + 1#32) ∧ r.lamQ = 0 ∧
      r.tOff = r.tOn + BitVec.ofNat 32 r.d := by
  obtain ⟨onset, lateness⟩ := compute_first env now (c.record n now)
  refine ⟨?_, ?_, onset, lateness, rfl⟩
  · have first : (c.first env now n).s = firstSpeech c.words now := rfl
    simp [first, firstSpeech, List.head?_eq_some_head filled]
  · have last : (c.first env now n).e = lastSpeech c.words now := rfl
    simp [last, lastSpeech, List.getLast?_eq_getLast_of_ne_nil filled]

theorem place_first (env : TimingEnv) (now : Frame) (c : NewCue) (h : Schedule) (empty : h.cues = []) :
    (h.place env now c).1 = { h with cues := [c.first env now h.nextCue], nextCue := h.nextCue + 1 } := by
  have lateness : (c.first env now h.nextCue).lamQ = 0 := (compute_first env now _).2
  have free : retireKey c.key c.words [] = [] := by unfold retireKey; split <;> rfl
  have roomy : ({ h with cues := [] } : Schedule).makeRoom env now none = ({ h with cues := [] }, 0#24) := rfl
  have caught (k : Schedule) (hk : k.cues = [c.first env now h.nextCue]) : k.catchUp env now 1 = (k, 0#24) := by
    unfold Schedule.catchUp
    simp [hk, lateness]
  unfold Schedule.place
  simp only [empty, free, roomy, List.reverse_nil, List.nil_append, List.length_singleton]
  rw [caught _ rfl]
  rfl

/-! ### What intake leaves of a segment it takes (R114, R120) -/

/-- The stamp of a segment's last word (R114). -/
def HeldSegment.stamp (g : HeldSegment) : Stamp := ⟨lastSpeech g.words g.rxFrame, g.source⟩

theorem stamp_eq (g : HeldSegment) (h : g.words ≠ []) :
    some g.stamp = g.words.getLast?.map fun w => ⟨w.speech, g.source⟩ := by
  simp [HeldSegment.stamp, lastSpeech, List.getLast?_eq_getLast_of_ne_nil h]

/-- A segment taken at intake: its last word stamped, the armed trim left as given, some words removed, and some cues
placed. -/
structure SegmentTaken (g : HeldSegment) (armed : Option Stamp) (removed : Nat) (cues : List NewCue) (s t : State) :
    Prop where
  intake : t.intake = { s.intake with
    lastWord := some g.stamp, armed := armed, trimmed := rise s.intake.trimmed removed }
  sched : t.sched = s.placed cues

theorem SegmentTaken.ends {g : HeldSegment} {armed : Option Stamp} {removed : Nat} {cues : List NewCue} {s t u : State}
    (h : SegmentTaken g armed removed cues s t) (port : PortFrame t u) : SegmentTaken g armed removed cues s u :=
  ⟨port.intake.trans h.intake, port.sched.trans h.sched⟩

section
variable {s u : State}

theorem goOn_taken (due : IntakeDue s u) (g : HeldSegment) :
    SegmentTaken g (s.intake.armed.filter fun a => a.station == g.source) 0 (s.cuesOf g g.words) s
      ((u.stampLastWord g).goOn false g) := by
  obtain ⟨sched, intake⟩ := goOn_leaves g (u.stampLastWord g)
  unfold IntakeDue at due
  rw [due] at sched intake
  rw [due]
  exact ⟨by rw [intake, rise_zero]; rfl, sched⟩

theorem takeHolder_untrimmed_taken (due : IntakeDue s u) (g : HeldSegment) (free : s.intake.untrimmed g.source) :
    SegmentTaken g (s.intake.armed.filter fun a => a.station == g.source) 0 (s.cuesOf g g.words) s
      ((u.stampLastWord g).takeHolder g) := by
  have intake : u.intake = s.intake := by unfold IntakeDue at due; rw [due]
  rw [takeHolder_untrimmed g (u.stampLastWord g) (by rw [← intake] at free; exact free)]
  exact goOn_taken due g

theorem takeHolder_past_taken (due : IntakeDue s u) (g : HeldSegment) (a : Stamp) (w : TimedWord)
    (armed : s.intake.armed = some a) (mine : a.station = g.source) (first : g.words.head? = some w)
    (late : 0 < interval w.speech (a.time + BitVec.ofNat 32 s.cfg.trimMargin)) :
    SegmentTaken g none 0 (s.cuesOf g g.words) s ((u.stampLastWord g).takeHolder g) := by
  obtain ⟨sched, intake⟩ := goOn_leaves g { u.stampLastWord g with intake.armed := none }
  unfold IntakeDue at due
  rw [takeHolder_past g a w (u.stampLastWord g) (by rw [due]; exact armed) mine first (by rw [due]; exact late)]
  rw [due] at sched intake
  rw [due]
  exact ⟨by rw [intake, rise_zero]; rfl, sched⟩

theorem takeHolder_trims_taken (due : IntakeDue s u) (g : HeldSegment) (a : Stamp) (w : TimedWord)
    (armed : s.intake.armed = some a) (mine : a.station = g.source) (first : g.words.head? = some w)
    (early : interval w.speech (a.time + BitVec.ofNat 32 s.cfg.trimMargin) ≤ 0) :
    SegmentTaken g (some a) (g.words.length - (s.keptWords (some a.time) g).length)
      (s.cuesOf g (s.keptWords (some a.time) g)) s ((u.stampLastWord g).takeHolder g) := by
  unfold IntakeDue at due
  have held : (u.stampLastWord g).intake.armed = some a := by rw [due]; exact armed
  obtain ⟨sched, intake⟩ := trimAndGo_leaves a.time g (u.stampLastWord g) (by rw [held]; simp [mine])
  rw [takeHolder_trims g a w (u.stampLastWord g) held mine first (by rw [due]; exact early)]
  rw [due] at sched intake
  rw [due]
  refine ⟨?_, sched⟩
  rw [intake, ← armed]
  rfl

end

/-- A SEGMENT that parses carries a word (R31). -/
theorem timed_ne_nil {b : SegmentBody} (h : (FrameBody.segment b).parses = true) (now : Frame) :
    b.timed now ≠ [] := by
  simp only [FrameBody.parses, Bool.and_eq_true, decide_eq_true_eq] at h
  obtain ⟨⟨⟨⟨filled, -⟩, -⟩, -⟩, -⟩ := h
  intro e
  have empty := congrArg List.length e
  simp [SegmentBody.timed] at empty
  simp [empty] at filled

/-- A segment of the outgoing station or of the holder at intake, by the trim armed (R114, R120). -/
structure HolderTaken (g : HeldSegment) (s t : State) : Prop where
  whole : s.floor.view.outgoingIs g.source ∨ s.floor.view.holds g.source ∧ s.intake.untrimmed g.source →
    SegmentTaken g (s.intake.armed.filter fun a => a.station == g.source) 0 (s.cuesOf g g.words) s t
  past : ∀ a w, s.floor.view.holds g.source → s.intake.armed = some a → a.station = g.source →
    g.words.head? = some w → 0 < interval w.speech (a.time + BitVec.ofNat 32 s.cfg.trimMargin) →
    SegmentTaken g none 0 (s.cuesOf g g.words) s t
  trims : ∀ a w, s.floor.view.holds g.source → s.intake.armed = some a → a.station = g.source →
    g.words.head? = some w → interval w.speech (a.time + BitVec.ofNat 32 s.cfg.trimMargin) ≤ 0 →
    SegmentTaken g (some a) (g.words.length - (s.keptWords (some a.time) g).length)
      (s.cuesOf g (s.keptWords (some a.time) g)) s t

theorem receive_holderTaken {rx : Rx} {b : SegmentBody} {s : State} (h : s.hears rx (.segment b))
    (inSequence : s.inSequence rx.source b) (ho : s.cfg.role ≠ .writer) :
    HolderTaken (b.held rx.source s.clock.count) s (s.receive rx (.segment b)) := by
  obtain ⟨u, due, outgoing, holder⟩ := receive_segment h inSequence ho
  have now : u.clock.count = s.clock.count := by unfold IntakeDue at due; rw [due]
  unfold State.takeSegment at outgoing holder
  simp only [now] at outgoing holder
  refine ⟨?_, fun a w holds armed mine first late => ?_, fun a w holds armed mine first early => ?_⟩
  · rintro (k | ⟨holds, free⟩)
    · exact (goOn_taken due _).ends (outgoing k)
    · exact (takeHolder_untrimmed_taken due _ free).ends (holder holds)
  · exact (takeHolder_past_taken due _ a w armed mine first late).ends (holder holds)
  · exact (takeHolder_trims_taken due _ a w armed mine first early).ends (holder holds)

/-- One of the three cases holds, so that intake stamps the last word and touches its trim alone (R114). -/
theorem HolderTaken.exists_taken {g : HeldSegment} {s t : State} (h : HolderTaken g s t) (filled : g.words ≠ [])
    (k : s.floor.view.outgoingIs g.source ∨ s.floor.view.holds g.source) :
    ∃ armed removed cues, SegmentTaken g armed removed cues s t := by
  obtain outgoing | holds := k
  · exact ⟨_, _, _, h.whole (.inl outgoing)⟩
  · cases armed : s.intake.armed with
    | none => exact ⟨_, _, _, h.whole (.inr ⟨holds, .inl armed⟩)⟩
    | some a =>
      by_cases mine : a.station = g.source
      · obtain ⟨w, first⟩ := Option.ne_none_iff_exists'.mp fun e => filled (List.head?_eq_none_iff.mp e)
        by_cases late : 0 < interval w.speech (a.time + BitVec.ofNat 32 s.cfg.trimMargin)
        · exact ⟨_, _, _, h.past a w holds armed mine first late⟩
        · exact ⟨_, _, _, h.trims a w holds armed mine first (not_lt.mp late)⟩
      · exact ⟨_, _, _, h.whole (.inr ⟨holds, .inr ⟨a, armed, mine⟩⟩)⟩

/-- The one cue of a segment that is a single row (R125). -/
def HeldSegment.cue (g : HeldSegment) : NewCue := ⟨⟨g.source, g.number⟩, g.words, ⟨g.newSpeaker, false, false⟩⟩

theorem placed_first {g : HeldSegment} {s : State} (empty : s.sched.cues = [])
    (row : breakRows s.cfg.rowWidth g.words = [g.words]) :
    s.placed (s.cuesOf g g.words) = { s.sched with
      cues := [g.cue.first s.timingEnv s.clock.count s.sched.nextCue], nextCue := s.sched.nextCue + 1 } := by
  rw [← place_first _ _ _ _ empty]
  unfold State.placed State.cuesOf
  simp [row, Schedule.placeAll, State.timingEnv, HeldSegment.cue]

/-- Settles O38: rows are built by the rule (`breakRows_rule`); a segment of the outgoing station or the holder reaches
intake by its mark and the trim armed (`receive_holderTaken`), and one row in an empty schedule becomes its first record
(`placed_first`). -/
theorem holderSegmentTaken : Obligations.HolderSegmentTaken := by
  unfold Obligations.HolderSegmentTaken
  refine ⟨fun W ws hW => ?_, ?_⟩
  · obtain ⟨words, kept, chain⟩ := breakRows_rule W ws hW
    refine ⟨words, kept, fun before after row rest w e => ?_⟩
    rw [e] at chain
    exact (List.isChain_cons_cons.mp chain.right_of_append).1 w rfl
  · intro rx b s h inSequence ho outgoing holder k words whole margin
    have filled : words ≠ [] := timed_ne_nil h.2.1 _
    have taken : HolderTaken whole s (s.receive rx (.segment b)) := receive_holderTaken h inSequence ho
    refine ⟨_, exec_receptionOf rx (.segment b) s, ?_, ?_, fun free => ?_,
      fun a w holds armed mine first => ⟨fun late => ?_, fun early => ?_⟩, fun free empty row => ?_⟩
    · obtain ⟨_, _, _, any⟩ := taken.exists_taken filled k
      rw [any.intake]; exact stamp_eq whole filled
    · obtain ⟨_, _, _, any⟩ := taken.exists_taken filled k
      rw [any.intake]
    · have goesOn := taken.whole (by
        obtain out | free := free
        · exact .inl out
        · exact k.imp_right fun holds => ⟨holds, free⟩)
      rw [goesOn.intake]
      exact ⟨rfl, rise_zero _, goesOn.sched⟩
    · have past := taken.past a w holds armed mine first late
      rw [past.intake]
      exact ⟨rfl, rise_zero _, past.sched⟩
    · have trims := taken.trims a w holds armed mine first early
      rw [trims.intake]
      exact ⟨rfl, rfl, trims.sched⟩
    · have goesOn := taken.whole (k.imp_right fun holds => ⟨holds, .inl free⟩)
      obtain ⟨first, last, onset, lateness, ends⟩ :=
        first_record s.timingEnv s.clock.count s.sched.nextCue whole.cue filled
      rw [goesOn.sched, goesOn.intake, placed_first (g := whole) empty row]
      exact ⟨_, rfl, rfl, rfl, rfl, rfl, rfl, rfl, rfl, lateness, first, last, onset, ends, rfl⟩

end Sys2Proof.Machine

/-! # The notice queue, and the image -/

namespace Sys2Proof.Machine

/-! ### Notices (R78) -/

theorem eraseFirst_zero {α : Type} (p : α → Bool) (l : List α) : eraseFirst p 0 l = l := by cases l <;> rfl

theorem eraseFirst_one {α : Type} (p : α → Bool) (l : List α) : eraseFirst p 1 l = l.eraseP p := by
  induction l with
  | nil => rfl
  | cons a l ih =>
    cases ha : p a with
    | true => simp [eraseFirst, ha, eraseFirst_zero]
    | false => simp [eraseFirst, ha, ih]

/-- Room made in a full queue takes the oldest STATE notice (R78). -/
theorem makeNoticeRoom_state (before after : List Notice) (w : WriterState)
    (others : ∀ x ∈ before, x.isState = false) :
    makeNoticeRoom (before ++ .state w :: after) = before ++ after := by
  unfold makeNoticeRoom
  rw [if_pos (by simp [Notice.isState]), eraseFirst_one,
    List.eraseP_append_right _ (fun x hx => by simp [others x hx])]
  rfl

/-- Room made in a queue without STATE notices takes the oldest notice (R78). -/
theorem makeNoticeRoom_oldest (q : List Notice) (none : ∀ x ∈ q, x.isState = false) :
    makeNoticeRoom q = q.tail := by
  unfold makeNoticeRoom
  rw [if_neg (by simpa using none), List.drop_one]

theorem makeNoticeRoom_one (q : List Notice) : (makeNoticeRoom q).length = q.length - 1 := by
  unfold makeNoticeRoom
  split
  · rename_i some
    obtain ⟨x, hx, state⟩ := List.any_eq_true.mp some
    rw [eraseFirst_one, List.length_eraseP_of_mem hx state]
  · rw [List.length_drop]

/-- A notice queued behind one being sent (R78). -/
theorem enqueue_behind (p : WriterPort) (m n : Notice) (h : p.sending = some m) :
    p.enqueue n = { p with notices :=
      (if p.notices.length < 8 then p.notices else makeNoticeRoom p.notices) ++ [n] } := by
  unfold WriterPort.enqueue; rw [h]; rfl

/-- Settles O58: a notice queued behind one being sent is `enqueue_behind`, and the room made for it takes the oldest
STATE notice, or else the oldest. -/
theorem noticeQueueOrder : Obligations.NoticeQueueOrder := by
  unfold Obligations.NoticeQueueOrder
  have sent (s : State) : exec .noticeSent s = .next { s with port := s.port.noticeSent } := rfl
  refine ⟨fun s => ⟨fun n sending => ?_, fun idle => ?_⟩, fun p m n sending => ?_⟩
  · rw [sent, WriterPort.noticeSent, sending]
  · rw [sent, WriterPort.noticeSent, idle]
  · rw [enqueue_behind p m n sending]
    refine ⟨sending, fun room => by simp only [if_pos room], fun full => ?_⟩
    simp only [if_neg (show ¬p.notices.length < 8 by omega)]
    refine ⟨?_, fun before w after queue others => ?_, fun others => ?_⟩
    · rw [List.length_append, makeNoticeRoom_one, full]
      rfl
    · rw [queue, makeNoticeRoom_state before after w others]
    · rw [makeNoticeRoom_oldest p.notices others]

/-! ### The image (R168, R169) -/

/-- Settles O11: the image forms the configuration, and the entry into LISTENING is `enterListening_eq`. -/
theorem imageLeadsIntoListening : Obligations.ImageLeadsIntoListening := by
  unfold Obligations.ImageLeadsIntoListening
  intro image s
  have load : exec (.imageLoaded image) s = .next (s.loadConfiguration image) := rfl
  rw [load]
  unfold State.loadConfiguration
  refine ⟨fun loading free => ?_, fun out => ?_⟩
  · rw [if_pos ⟨loading, free⟩, enterListening_eq]
    exact ⟨_, rfl, rfl, rfl, rfl, (BitVec.or_assoc _ _ _).symm, rfl, rfl, rfl, rfl⟩
  · rw [if_neg fun both => out.elim (· both.1) (by simp [both.2])]

end Sys2Proof.Machine

/-! # A word at the writer port -/

namespace Sys2Proof.Machine

/-! ### Closing the open segment, whatever the queue and the body (R99) -/

/-- Nothing but the segment queue, the history, the flags and the counters differs: what a deposited segment leaves. -/
def DepositFrame (s t : State) : Prop :=
  t = { s with
    flags := t.flags, peers := t.peers
    line := { s.line with segQ := t.line.segQ }, asm := { s.asm with history := t.asm.history } }

theorem DepositFrame.after {a b c : State} (k : DepositFrame b c) (h : DepositFrame a b) : DepositFrame a c := by
  unfold DepositFrame at *; rw [k, h]

theorem countDrops_depositFrame (n : Nat) (s : State) : DepositFrame s (s.countDrops n) := by
  unfold State.countDrops; split <;> rfl

theorem makeSegmentRoom_depositFrame (s : State) : DepositFrame s s.makeSegmentRoom := by
  unfold State.makeSegmentRoom
  split
  · rfl
  · split
    · rfl
    · exact (countDrops_depositFrame 1 _).after rfl

theorem depositSegment_depositFrame (g : QueuedSegment) (s : State) : DepositFrame s (s.depositSegment g) := by
  have queued (u : State) : DepositFrame u { u with line.segQ := u.line.segQ ++ [g] } := rfl
  unfold State.depositSegment
  split
  · exact (countDrops_depositFrame 1 _).after rfl
  · exact (queued _).after (makeSegmentRoom_depositFrame s)

/-- What a close leaves: no open word, and nothing but the open segment, the segment queue, the history, the pause
timer, the flags and the counters touched. -/
structure OpenClosed (s t : State) : Prop where
  words : t.asm.words = []
  rest : t = { s with
    flags := t.flags, pause := t.pause, peers := t.peers
    line := { s.line with segQ := t.line.segQ }
    asm := { s.asm with
      words := t.asm.words, newSpeaker := t.asm.newSpeaker, nextNumber := t.asm.nextNumber
      history := t.asm.history } }

theorem closeOpen_closed (s : State) : OpenClosed s s.closeOpen := by
  by_cases hw : s.asm.words = []
  · rw [closeOpen_empty s hw]
    exact ⟨hw, rfl⟩
  · have deposits : s.closeOpen =
        { ({ s with asm := s.asm.closed } : State).depositSegment s.openSegment with pause := none } := by
      unfold State.closeOpen State.closeFirst
      rw [if_neg (by simpa using hw), List.drop_length, List.take_length]
      rfl
    have frame := depositSegment_depositFrame s.openSegment { s with asm := s.asm.closed }
    unfold DepositFrame at frame
    rw [deposits, frame]
    exact ⟨rfl, rfl⟩

theorem OpenClosed.port {s t : State} (h : OpenClosed s t) : t.port = s.port := by rw [h.rest]
theorem OpenClosed.cfg {s t : State} (h : OpenClosed s t) : t.cfg = s.cfg := by rw [h.rest]
theorem OpenClosed.start {s t : State} (h : OpenClosed s t) : t.start = s.start := by rw [h.rest]
theorem OpenClosed.takesRecords {s t : State} (h : OpenClosed s t) (takes : s.takesRecords) : t.takesRecords := by
  rw [h.rest]; exact takes
theorem OpenClosed.pendingRequest {s t : State} (h : OpenClosed s t) : t.pendingRequest = s.pendingRequest := by
  rw [h.rest]; rfl

/-! ### A WORD (R82, R96, R99, R103) -/

theorem wordText_iff (t : Text) : wordText t = true ↔ plainText t = true ∧ t.length ≤ 32 := by
  simp [wordText]

theorem parseRecord_word (t : Text) (h : wordText t = true) : parseRecord 1#8 t = some (.word t) := by
  obtain ⟨plain, short⟩ := (wordText_iff t).mp h
  simp [parseRecord, plain, List.take_of_length_le short]

theorem clips_short (kind : Byte) (t : Text) (h : t.length ≤ 32) : clips kind t = false := by
  simp [clips, h]

theorem exec_word_takes (t : Text) (s : State) (takes : s.takesRecords) (alone : s.port.replacement = none)
    (h : wordText t = true) : exec (.word t) s = .next (s.takeWord t) := by
  have performs := recordIn_performs 1#8 t s (.word t) takes (parseRecord_word t h)
    (clips_short 1#8 t ((wordText_iff t).mp h).2)
  exact congrArg Host.Outcome.next (performs.trans (congrArg (State.takeWord t) (dropReplacement_none s alone)))

theorem takesWords_present {w : WriterState} (h : w.takesWords = true) : w ≠ .absent := fun e => by
  rw [e] at h; cases h

theorem hasRoom_empty (hard : Nat) (t : Text) (a : Assembler) (h : a.words = []) : a.hasRoom hard t = true := by
  simp [Assembler.hasRoom, h]

/-- A word for which the open segment has room joins it, and may close it (R96, steps 2 and 3). -/
theorem addWord_room (t : Text) (s : State) (room : s.asm.hasRoom s.cfg.hardLimit t = true) :
    s.addWord t =
      if (s.joinWord t).asm.closesAfter s.cfg.softLimit t then (s.joinWord t).closeOpen else s.joinWord t := by
  unfold State.addWord
  rw [if_pos room]
  rfl

/-- A word for which the open segment has no room finds it closed (R96, step 1). -/
theorem addWord_full (t : Text) (s : State) (full : s.asm.hasRoom s.cfg.hardLimit t = false) :
    s.addWord t = s.closeOpen.addWord t := by
  have room := hasRoom_empty s.closeOpen.cfg.hardLimit t s.closeOpen.asm (closeOpen_closed s).words
  unfold State.addWord
  rw [if_neg (Bool.eq_false_iff.mp full), if_pos room]

theorem joinWord_closes_iff (t : Text) (soft : Nat) (s : State) :
    (s.joinWord t).asm.closesAfter soft t = true ↔
      endsSentence t = true ∨ endsClause t = true ∧ soft ≤ charCount (s.asm.texts ++ [t]) := by
  simp [Assembler.closesAfter, Assembler.texts, State.joinWord]

/-- The places of an open segment of n + 1 words as it closes. -/
theorem closeEntries_succ (m : Byte) (n : Nat) (h : List HistoryEntry) :
    closeEntries m (n + 1) h = h.map fun e => match e.place with
      | .opened i => { e with place := if i ≤ n then .queued m i else .opened (i - (n + 1)) }
      | _ => e := by
  refine List.map_congr_left fun e _ => ?_
  obtain ⟨text, speech, place⟩ := e
  cases place with
  | opened i => simp only [Nat.lt_succ_iff]
  | queued | sent => rfl

/-- Settles O48: a WORD is `addWord`, which closes before it where there is no room (`addWord_full`) and may close
after it where there is (`addWord_room`), by the close of a FLUSH. -/
theorem wordTakenIntoSegment : Obligations.WordTakenIntoSegment := by
  unfold Obligations.WordTakenIntoSegment
  intro text s takes alone words plain speech closes joined
  have takeWord (u : State) (h : u.port = s.port) : u.takeWord text = u.addWord text := by
    unfold State.takeWord; rw [h, if_pos words]
  have added : exec (.word text) s = .next (s.addWord text) := by
    rw [exec_word_takes text s takes alone plain, takeWord s rfl]
  have present := takesWords_present words
  refine ⟨fun full => ?_, fun room => ?_⟩
  · have mid := closeOpen_closed s
    refine ⟨s.closeOpen, exec_flush_takes s takes alone present, mid.words, ?_⟩
    rw [added, exec_word_takes text s.closeOpen (mid.takesRecords takes) (by rw [mid.port]; exact alone) plain,
      takeWord _ mid.port, addWord_full text s full]
  · have flushed : closes → exec (.word text) s = .next joined.closeOpen := fun h => by
      rw [added, addWord_room text s room, if_pos ((joinWord_closes_iff text _ s).mpr h)]
      rfl
    refine ⟨fun h => ?_, fun h => ?_, fun h queue fits => ?_⟩
    · rw [added, addWord_room text s room, if_neg (mt (joinWord_closes_iff text _ s).mp h)]
      rfl
    · rw [flushed h, exec_flush_takes joined takes alone present]
    · have open_words : joined.asm.words ≠ [] := by simp [joined]
      rw [flushed h, closeOpen_room joined open_words fits queue]
      unfold Assembler.closed State.openSegment
      have count : joined.asm.words.length = s.asm.words.length + 1 := List.length_append
      rw [count, closeEntries_succ] <;> rfl

end Sys2Proof.Machine

/-! # A DELETE in the open segment -/

namespace Sys2Proof.Machine

/-! ### The history's newest entries (R103, R106) -/

theorem lastN_length {α : Type} {n : Nat} {l : List α} (h : n ≤ l.length) : (lastN n l).length = n := by
  simp [lastN]; omega

theorem take_append_lastN {α : Type} (n : Nat) (l : List α) : l.take (l.length - n) ++ lastN n l = l :=
  List.take_append_drop _ _

/-- Erasing as many elements as a front of them that all meet the condition takes that front. -/
theorem eraseFirst_front {α : Type} (p : α → Bool) (front rest : List α) (h : ∀ a ∈ front, p a = true) :
    eraseFirst p front.length (front ++ rest) = rest := by
  induction front with
  | nil => exact eraseFirst_zero p rest
  | cons a front ih =>
    rw [List.forall_mem_cons] at h
    simpa [eraseFirst, h.1] using ih h.2

/-- The newest entries of a group go from the history's end (R106). -/
theorem eraseNewest_lastN (p : Place) (n : Nat) (h : List HistoryEntry) (hn : n ≤ h.length)
    (same : ∀ e ∈ lastN n h, e.place.sameGroup p = true) : eraseNewest p n h = h.take (h.length - n) := by
  unfold eraseNewest
  have newest := eraseFirst_front (fun e : HistoryEntry => e.place.sameGroup p) (lastN n h).reverse
    (h.take (h.length - n)).reverse (by simpa using same)
  rw [← List.reverse_append, take_append_lastN, List.length_reverse, lastN_length hn] at newest
  rw [newest, List.reverse_reverse]

/-! ### The groups of a DELETE in the open segment (R106) -/

/-- Places that all stand in the open segment make one group, at the first of them. -/
theorem groupPlaces_opened (p : Place) (ps : List Place) (h : ∀ q ∈ p :: ps, ∃ i, q = .opened i) :
    groupPlaces (p :: ps) = [(p, ps.length + 1)] := by
  induction ps generalizing p with
  | nil => rfl
  | cons q ps ih =>
    rw [List.forall_mem_cons] at h
    obtain ⟨⟨i, hp⟩, rest⟩ := h
    obtain ⟨j, hq⟩ := rest q List.mem_cons_self
    rw [groupPlaces, ih q rest, hp, hq]
    rfl

theorem applyDelete_opened (i q : Nat) (s : State) : s.applyDelete [(.opened i, q)] = s.deleteOpen q := by
  simp [State.applyDelete, Place.segment, State.deleteGroups]

/-- A DELETE whose targets all stand in the open segment is one group there (R105, R106). -/
theorem correctDelete_opened (n : Nat) (s : State) (some : 1 ≤ n) (known : n ≤ s.asm.history.length)
    (opened : ∀ e ∈ lastN n s.asm.history, ∃ i, e.place = .opened i) :
    s.correctDelete n = .some (s.deleteOpen n) := by
  have places : ∀ p ∈ ((lastN n s.asm.history).map (·.place)).reverse, ∃ i, p = .opened i := by simpa using opened
  have count : ((lastN n s.asm.history).map (·.place)).reverse.length = n := by simpa using lastN_length known
  unfold State.correctDelete
  simp only
  cases hps : ((lastN n s.asm.history).map (·.place)).reverse with
  | nil => rw [hps] at count; exact absurd count (by simp; omega)
  | cons p ps =>
    rw [hps] at places count
    obtain ⟨i, hp⟩ := places p List.mem_cons_self
    rw [groupPlaces_opened p ps places, show ps.length + 1 = n from count, hp, applyDelete_opened]
    exact if_neg (by simpa [Assembler.deletable] using known)

/-! ### The record (R83) -/

theorem byteWithin_within (lo hi : Nat) (b : Byte) (h : lo ≤ b.toNat) (h' : b.toNat ≤ hi) :
    byteWithin lo hi b = some b.toNat := if_pos ⟨h, h'⟩

theorem parseRecord_delete (n : Byte) (h : 1 ≤ n.toNat) (h' : n.toNat ≤ 8) :
    parseRecord 4#8 [n] = some (.delete n.toNat) := by
  simp [parseRecord, byteWithin_within 1 8 n h h']

theorem exec_delete_takes (n : Byte) (s : State) (takes : s.takesRecords) (alone : s.port.replacement = none)
    (h : 1 ≤ n.toNat) (h' : n.toNat ≤ 8) : exec (.delete n) s = .next (s.takeDelete n.toNat) := by
  have performs := recordIn_performs 4#8 [n] s (.delete n.toNat) takes (parseRecord_delete n h h') rfl
  exact congrArg Host.Outcome.next
    (performs.trans (congrArg (State.takeDelete n.toNat) (dropReplacement_none s alone)))

/-- Settles O50: targets in the open segment alone are one group, which `deleteOpen` takes. -/
theorem deleteInOpenSegment : Obligations.DeleteInOpenSegment := by
  unfold Obligations.DeleteInOpenSegment
  intro n s takes alone present one eight known opened words
  have same : ∀ e ∈ lastN n.toNat s.asm.history, e.place.sameGroup (.opened 0) = true := fun e he => by
    obtain ⟨i, place⟩ := opened e he
    rw [place]
    rfl
  rw [exec_delete_takes n s takes alone one eight, State.takeDelete, if_neg present,
    correctDelete_opened n.toNat s one known opened]
  unfold State.corrected State.deleteOpen
  simp only [eraseNewest_lastN _ _ _ known same, List.isEmpty_iff]
  rfl

end Sys2Proof.Machine

/-! # Records refused -/

namespace Sys2Proof.Machine

/-! ### Records that the port takes, and records that it discards (R75, R76, R77) -/

theorem recordIn_takes (kind : Byte) (content : List Byte) (framing : Bool) (s : State) (takes : s.takesRecords) :
    s.recordIn kind content framing =
      s.performRecord (if framing then none else parseRecord kind content) (clips kind content) := by
  unfold State.recordIn State.takeRecord
  simp only [takes.1, takes.2, Bool.not_true, Bool.false_eq_true, if_false]

theorem recordGap_takes (received : List Byte) (s : State) (takes : s.takesRecords) :
    s.recordGap received = if partialRecord received then s.badRecord else s := by
  unfold State.recordGap State.takeRecord
  simp only [takes.1, takes.2, Bool.true_and, Bool.false_eq_true, if_false]
  rfl

theorem portTakes_closed (s : State) (h : s.cfg.role = .output ∨ s.start = .loading) : s.portTakes = false := by
  unfold State.portTakes State.hasWriter
  obtain e | e := h <;> simp [e]

theorem recordIn_closed (kind : Byte) (content : List Byte) (framing : Bool) (s : State) (h : s.portTakes = false) :
    s.recordIn kind content framing = s := by
  unfold State.recordIn; rw [h]; rfl

theorem recordGap_closed (received : List Byte) (s : State) (h : s.portTakes = false) :
    s.recordGap received = s := by
  unfold State.recordGap; rw [h]; rfl

/-! ### A waiting REPLACE dropped, and a record refused (R76, R83) -/

theorem withoutReplacement_self (p : WriterPort) (h : p.replacement = none) : { p with replacement := none } = p := by
  rw [← h]

theorem dropReplacement_eq (s : State) :
    s.dropReplacement = { s with
      port := { s.port with replacement := none }
      flags := s.flags ||| (if s.port.replacement = none then 0#24 else Flag.mask .wrPartial) } := by
  by_cases h : s.port.replacement = none
  · rw [dropReplacement_none s h, if_pos h, withoutReplacement_self s.port h, BitVec.or_zero]
  · obtain ⟨r, hr⟩ := Option.ne_none_iff_exists'.mp h
    unfold State.dropReplacement
    rw [if_neg h, hr]
    rfl

/-- A malformed record ends a waiting REPLACE and is refused (R76, R83). -/
theorem badRecord_eq (s : State) :
    s.badRecord = { s with
      port := { s.port with replacement := none }.enqueue (.refuse .badRecord)
      flags := s.flags ||| (if s.port.replacement = none then 0#24 else Flag.mask .wrPartial) |||
        Flag.mask .wrBadRecord } := by
  unfold State.badRecord
  rw [dropReplacement_eq]
  rfl

theorem exec_malformedRecord_takes (kind : Byte) (content : List Byte) (framing : Bool) (s : State)
    (takes : s.takesRecords) (malformed : framing = true ∨ parseRecord kind content = none) :
    exec (.malformedRecord kind content framing) s = .next s.badRecord := by
  refine congrArg Host.Outcome.next ((recordIn_takes kind content framing s takes).trans ?_)
  have none : (if framing then none else parseRecord kind content) = none := by
    obtain h | h := malformed
    · rw [if_pos h]
    · rw [h, ite_self]
  rw [none]
  rfl

theorem parseRecord_replace (k m : Byte) (hk : 1 ≤ k.toNat) (hk' : k.toNat ≤ 8) (hm : 1 ≤ m.toNat)
    (hm' : m.toNat ≤ 4) : parseRecord 5#8 [k, m] = some (.replace k.toNat m.toNat) := by
  simp [parseRecord, byteWithin_within 1 8 k hk hk', byteWithin_within 1 4 m hm hm']

theorem exec_replace_takes (k m : Byte) (s : State) (takes : s.takesRecords) (hk : 1 ≤ k.toNat) (hk' : k.toNat ≤ 8)
    (hm : 1 ≤ m.toNat) (hm' : m.toNat ≤ 4) :
    exec (.replace k m) s = .next (s.dropReplacement.takeReplace k.toNat m.toNat) :=
  congrArg Host.Outcome.next (recordIn_performs 5#8 [k, m] s (.replace k.toNat m.toNat) takes
    (parseRecord_replace k m hk hk' hm hm') rfl)

/-- In ABSENT a BREAK, a FLUSH and a correction are refused (R82, R83). -/
theorem exec_absent (c : Instr) (n k m : Byte) (s : State) (takes : s.takesRecords)
    (alone : s.port.replacement = none) (absent : s.port.wstate = .absent) (hn : 1 ≤ n.toNat) (hn' : n.toNat ≤ 8)
    (hk : 1 ≤ k.toNat) (hk' : k.toNat ≤ 8) (hm : 1 ≤ m.toNat) (hm' : m.toNat ≤ 4)
    (hc : c = .speakerBreak ∨ c = .flush ∨ c = .delete n ∨ c = .replace k m) : exec c s = .next s.notOnAir := by
  obtain rfl | rfl | rfl | rfl := hc
  · refine congrArg Host.Outcome.next ((recordIn_performs 2#8 [] s .speakerBreak takes rfl rfl).trans ?_)
    rw [State.performWell, dropReplacement_none s alone, State.takeBreak, if_pos absent]
  · refine congrArg Host.Outcome.next ((recordIn_performs 3#8 [] s .flush takes rfl rfl).trans ?_)
    rw [State.performWell, dropReplacement_none s alone, State.takeFlush, if_pos absent]
  · rw [exec_delete_takes n s takes alone hn hn', State.takeDelete, if_pos absent]
  · rw [exec_replace_takes k m s takes hk hk' hm hm', dropReplacement_none s alone, State.takeReplace, if_pos absent]

/-- A DELETE of more words than the history holds (R105). -/
theorem correctDelete_beyond (n : Nat) (s : State) (h : s.asm.history.length < n) : s.correctDelete n = none := by
  unfold State.correctDelete
  exact if_pos (by simp [h])

theorem plainText_take (n : Nat) (t : Text) (hn : n ≠ 0) (h : plainText t = true) : plainText (t.take n) = true := by
  unfold plainText at *
  simp only [Bool.and_eq_true, Bool.not_eq_true', List.isEmpty_eq_false_iff, List.all_eq_true] at *
  obtain ⟨filled, codes⟩ := h
  exact ⟨by simpa using ⟨hn, filled⟩, fun c hc => codes c (List.mem_of_mem_take hc)⟩

/-- A WORD longer than 32 characters is taken as its first 32 (R77). -/
theorem exec_word_clipped (text : Text) (s : State) (takes : s.takesRecords) (plain : plainText text = true)
    (long : 32 < text.length) : exec (.word text) s = exec (.word (text.take 32)) (s.raise .wrClipped) := by
  have cut : (text.take 32).length ≤ 32 := List.length_take_le 32 text
  have word : wordText (text.take 32) = true := (wordText_iff _).mpr ⟨plainText_take 32 text (by decide) plain, cut⟩
  have taken : exec (.word (text.take 32)) (s.raise .wrClipped) =
      .next ((s.raise .wrClipped).performWell (.word (text.take 32))) :=
    congrArg Host.Outcome.next (recordIn_performs 1#8 (text.take 32) (s.raise .wrClipped) _ takes
      (parseRecord_word _ word) (clips_short 1#8 _ cut))
  have parsed : parseRecord 1#8 text = some (.word (text.take 32)) := by simp [parseRecord, plain]
  have clipped : clips 1#8 text = true := by simp [clips, long]
  rw [taken]
  refine congrArg Host.Outcome.next ((recordIn_takes 1#8 text false s takes).trans ?_)
  rw [clipped, if_neg Bool.false_ne_true, parsed]
  rfl

/-- Settles O52: what a refused record leaves is `State.notOnAir` or `badRecord_eq`, and where the port takes no records
nothing is touched. -/
theorem recordsRefused : Obligations.RecordsRefused := by
  unfold Obligations.RecordsRefused
  refine ⟨?_, fun kind content received framing s => ⟨?_, fun closed => ?_⟩⟩
  · intro text n k m s takes alone plain hn hn' hk hk' hm hm' refused
    refine ⟨fun untaken short => ?_,
      fun absent c hc => exec_absent c n k m s takes alone absent hn hn' hk hk' hm hm' hc,
      fun present beyond => ?_, exec_word_clipped text s takes plain⟩
    · rw [exec_word_takes text s takes alone ((wordText_iff text).mpr ⟨plain, short⟩), State.takeWord,
        if_neg (by simp [untaken])]
      rfl
    · rw [exec_delete_takes n s takes alone hn hn', State.takeDelete, if_neg present,
        correctDelete_beyond n.toNat s beyond]
      rfl
  · intro takes refused
    have gap : exec (.recordGapTimeout received) s = .next (if partialRecord received then s.badRecord else s) :=
      congrArg Host.Outcome.next (recordGap_takes received s takes)
    rw [gap]
    refine ⟨fun malformed => ?_, fun inside => ?_, fun outside => ?_⟩
    · rw [exec_malformedRecord_takes kind content framing s takes malformed, badRecord_eq]
    · rw [if_pos inside, badRecord_eq]
    · rw [if_neg (by simp [outside])]
  · have shut := portTakes_closed s closed
    have discards (kind : Byte) (content : List Byte) (framing : Bool) :
        (.next (s.recordIn kind content framing) : Result) = .next s :=
      congrArg Host.Outcome.next (recordIn_closed kind content framing s shut)
    exact ⟨discards kind content framing, congrArg Host.Outcome.next (recordGap_closed received s shut),
      discards 1#8 content false, discards 9#8 [] false⟩

end Sys2Proof.Machine

/-! # Floor requests -/

namespace Sys2Proof.Machine

/-! ### A floor request that finds none pending (R84) -/

/-- The port takes a floor request at once: in RUNNING, with no REPLACE waiting and no request pending (R75, R84). -/
structure FreeToAsk (s : State) : Prop where
  takes : s.takesRecords
  alone : s.port.replacement = none
  running : s.start = .running
  free : s.pendingRequest = none

theorem pendingRequest_none_iff (s : State) :
    s.pendingRequest = none ↔ s.line.floorQ = none ∧ s.asm.drain ≠ .draining := by
  unfold State.pendingRequest
  cases s.line.floorQ <;> simp

theorem noRequest_free {s : State} (h : s.noRequest) : s.pendingRequest = none := by
  obtain ⟨queued, -, idle, -⟩ := h
  exact (pendingRequest_none_iff s).mpr ⟨queued, by simp [idle]⟩

theorem floorRequest_free {s : State} (h : FreeToAsk s) (r : WriterRecord) (act : Bool → State → State) :
    s.floorRequest r act = act false s := by
  obtain ⟨queued, -⟩ := (pendingRequest_none_iff s).mp h.free
  unfold State.floorRequest State.abortWaits State.abortPending
  simp [h.running, h.free, queued]

/-- A floor request that the port takes at once acts without an abort. -/
theorem recordIn_asks {s : State} (h : FreeToAsk s) (kind : Byte) (content : List Byte) (r : WriterRecord)
    (act : Bool → State → State) (parsed : parseRecord kind content = some r) (short : clips kind content = false)
    (asks : s.performWell r = s.dropReplacement.floorRequest r act) :
    s.recordIn kind content false = act false s := by
  rw [recordIn_performs kind content s r h.takes parsed short, asks, dropReplacement_none s h.alone,
    floorRequest_free h r act]

theorem exec_floorTake_free {s : State} (h : FreeToAsk s) : exec .floorTake s = .next s.takeFloor :=
  congrArg Host.Outcome.next (recordIn_asks h 9#8 [] .floorTake (fun _ s => s.takeFloor) rfl rfl rfl)

theorem exec_floorHand_free {s : State} (h : FreeToAsk s) (b : Byte) (sc : Successor) (hb : byteSuccessor b = some sc) :
    exec (.floorHand b) s = .next (s.handFloor sc) :=
  congrArg Host.Outcome.next (recordIn_asks h 10#8 [b] (.floorHand sc) (fun _ s => s.handFloor sc)
    (by simp [parseRecord, hb]) rfl rfl)

theorem exec_floorDone_free {s : State} (h : FreeToAsk s) : exec .floorDone s = .next (s.doneFloor false) :=
  congrArg Host.Outcome.next (recordIn_asks h 11#8 [] .floorDone (fun ab s => s.doneFloor ab) rfl rfl rfl)

theorem exec_floorLeave_free {s : State} (h : FreeToAsk s) :
    exec .floorLeave s = .next (s.leaveFloor false s.idleForLeave) :=
  congrArg Host.Outcome.next (recordIn_asks h 12#8 [] .floorLeave
    (fun ab s => s.leaveFloor ab (!ab && s.idleForLeave)) rfl rfl rfl)

/-! ### The writer state worked out (R79, R80) -/

theorem settled_other {w : WriterState} {p : WriterPort} (h : w ≠ p.wstate) :
    p.settled w = { p with wstate := w }.enqueue (.state w) := if_neg h

theorem lampTold_other {w : WriterState} {s : State} (h : w ≠ s.port.wstate) :
    s.lampTold w = s.tally.request s.cfg.tallyPeriod w.pattern := if_neg h

theorem workOut_same {s : State} (h : s.workState = s.port.wstate) : s.workOut = s := if_pos h

/-- A writer state worked out that does not leave the sending states touches the port and the lamp alone (R80, R102). -/
theorem workOut_settles (s : State) (keeps : s.port.wstate.sending = true → s.workState.sending = true) :
    s.workOut = { s with port := s.port.settled s.workState, tally := s.lampTold s.workState } := by
  have stays : (s.port.wstate.sending && !s.workState.sending) = false := by
    cases hs : s.port.wstate.sending with
    | false => rfl
    | true => simp [keeps hs]
  unfold State.workOut State.changeWriterState WriterPort.settled State.lampTold
  simp only [stays, Bool.false_eq_true, if_false]
  split <;> rfl

/-- A CLAIM or TAKE queued by a writer that is ready is CLAIMING (R79, line 2). -/
theorem workState_claims (f : FloorFrame) (s : State) (hf : f.claims = true) (ready : s.port.ready = true) :
    (s.depositFloor f).workState = .claiming := by
  simp [State.workState, ready, State.claimOut, hf]

/-- An OFFER deposited into an empty floor queue changes no line of R79. -/
theorem workState_offer (sc : Successor) (s : State) (queued : s.line.floorQ = none) :
    (s.depositFloor (.offer sc)).workState = s.workState := by
  have claim : (s.depositFloor (.offer sc)).claimOut = s.claimOut := by
    unfold State.claimOut
    rw [queued]
    rfl
  have leave : (s.depositFloor (.offer sc)).leaveOut = s.leaveOut := by
    unfold State.leaveOut
    rw [queued]
    rfl
  unfold State.workState
  rw [claim, leave]
  rfl

/-! ### FLOOR_TAKE and FLOOR_HAND (R85, R87) -/

/-- A CLAIM or TAKE that an IDLE writer deposits makes it CLAIMING (R80, R85). -/
theorem depositFloor_claiming (f : FloorFrame) (s : State) (hf : f.claims = true) (ready : s.port.ready = true)
    (idle : s.port.wstate = .idle) :
    (s.depositFloor f).workOut = { s with
      line := { s.line with floorQ := some f }
      port := { s.port with wstate := .claiming }.enqueue (.state .claiming)
      tally := s.tally.request s.cfg.tallyPeriod .fast } := by
  have state := workState_claims f s hf ready
  have other : WriterState.claiming ≠ (s.depositFloor f).port.wstate := by simp [idle]
  have silent : (s.depositFloor f).port.wstate.sending = false := by simp [idle, WriterState.sending]
  rw [workOut_settles _ fun sends => absurd (silent.symm.trans sends) Bool.false_ne_true, state, settled_other other,
    lampTold_other other]
  rfl

theorem takeFloor_vacant (s : State) (idle : s.port.wstate = .idle) (view : s.floor.view = .vacant) :
    s.takeFloor = (s.depositFloor .claim).workOut := by
  simp [State.takeFloor, idle, view]

theorem takeFloor_offered (h : Station) (sc : Successor) (s : State) (idle : s.port.wstate = .idle)
    (view : s.floor.view = .offered h sc) :
    s.takeFloor =
      if sc = .station s.number ∨ sc = .any then (s.depositFloor (.take h)).workOut else s.answer .refusedHeld := by
  simp [State.takeFloor, idle, view]

theorem takeFloor_held (s : State) (idle : s.port.wstate = .idle) (taken : s.floor.view ≠ .vacant)
    (kept : s.floor.view.isOffered = false) : s.takeFloor = s.answer .refusedHeld := by
  unfold State.takeFloor
  rw [if_neg (by simp [idle])]
  cases hv : s.floor.view with
  | vacant => exact absurd hv taken
  | offered => rw [hv] at kept; cases kept
  | held | overlap => rfl

theorem takeFloor_elsewhere (s : State) (h : s.port.wstate ≠ .idle) : s.takeFloor = s.answer .refusedState :=
  if_pos (by simpa using h)

theorem badSuccessor_iff (sc : Successor) (s : State) :
    s.badSuccessor sc = true ↔ sc = .station s.number ∨ ∃ x, sc = .station x ∧ (s.peer x).present = false := by
  cases sc with
  | any => simp [State.badSuccessor]
  | station x => simp [State.badSuccessor, State.peer]

theorem handFloor_elsewhere (sc : Successor) (s : State) (onAir : s.port.wstate ≠ .onAir)
    (offering : s.port.wstate ≠ .offering) : s.handFloor sc = s.answer .refusedState :=
  if_pos (by simp [onAir, offering])

theorem handFloor_holder (sc : Successor) (s : State) (h : s.port.wstate = .onAir ∨ s.port.wstate = .offering) :
    s.handFloor sc =
      if s.badSuccessor sc then s.answer .badSuccessor else (s.depositFloor (.offer sc)).workOut :=
  if_neg (by obtain e | e := h <;> simp [e])

/-- Settles O55: with no request pending each of the two records is decided by the view and the writer state, and a
deposit makes the writer CLAIMING or leaves its state as it was. -/
theorem floorRequestsDecided : Obligations.FloorRequestsDecided := by
  unfold Obligations.FloorRequestsDecided
  intro s takes alone running free answers claims
  have asks : FreeToAsk s := ⟨takes, alone, running, free⟩
  have take := exec_floorTake_free asks
  refine ⟨fun ready idle => ?_, fun elsewhere => ?_, fun b sc hb worked => ?_⟩
  · have claimed (f : FloorFrame) (hf : f.claims = true) (h : s.takeFloor = (s.depositFloor f).workOut) : claims f := by
      simp only [claims]
      rw [take, h, depositFloor_claiming f s hf ready idle]
    refine ⟨fun vacant => claimed .claim rfl (takeFloor_vacant s idle vacant), fun h sc view => ⟨fun named => ?_,
      fun other notAny => ?_⟩, fun taken kept => ?_⟩
    · exact claimed (.take h) rfl ((takeFloor_offered h sc s idle view).trans (if_pos named))
    · exact take.trans (congrArg _ ((takeFloor_offered h sc s idle view).trans (if_neg (by simp [other, notAny]))))
    · exact take.trans (congrArg _ (takeFloor_held s idle taken kept))
  · exact take.trans (congrArg _ (takeFloor_elsewhere s elsewhere))
  · intro bad
    have hand := exec_floorHand_free asks b sc hb
    refine ⟨fun holder => ⟨fun refused => ?_, fun accepted => ?_⟩, fun onAir offering => ?_⟩
    · exact hand.trans (congrArg _ ((handFloor_holder sc s holder).trans 
        (if_pos ((badSuccessor_iff sc s).mpr refused))))
    · have same : (s.depositFloor (.offer sc)).workOut = s.depositFloor (.offer sc) :=
        workOut_same ((workState_offer sc s ((pendingRequest_none_iff s).mp free).1).trans worked)
      rw [hand, handFloor_holder sc s holder, if_neg (mt (badSuccessor_iff sc s).mp accepted), same]
      rfl
    · exact hand.trans (congrArg _ (handFloor_elsewhere sc s onAir offering))

end Sys2Proof.Machine

/-! # Giving the floor up -/

namespace Sys2Proof.Machine

/-! ### The text of a writer that leaves (R91, R102) -/

theorem withdrawSegments_empty (byRecord : Bool) (s : State) (h : s.line.segQ = []) :
    s.withdrawSegments byRecord = { s with line.ratio := 0 } := by
  have free : s.line.segmentUnderArb = none := by simp [Line.segmentUnderArb, h]
  unfold State.withdrawSegments Line.settleRatio
  simp [free, h, State.countDrops, dropAllQueued]

theorem discardOpen_empty (s : State) (h : s.asm.words = []) : s.discardOpen = s := if_pos (by simp [h])

/-- A writer without text that loses the right to send (R102). -/
theorem loseRight_empty (s : State) (words : s.asm.words = []) (segQ : s.line.segQ = []) :
    s.loseRight = { s with asm.newSpeaker := false, asm.drain := .idle, line.ratio := 0 } := by
  unfold State.loseRight
  rw [discardOpen_empty s words]
  exact congrArg (fun u : State => { u with asm.drain := .idle })
    (withdrawSegments_empty false { s with asm.newSpeaker := false } segQ)

/-- Whether working the writer state out leaves the sending states (R102). -/
abbrev State.endsSending (s : State) : Prop := s.port.wstate.sending = true ∧ s.workState.sending = false

/-- The writer state of a writer without text worked out (R80, R102). -/
theorem workOut_empty (s : State) (words : s.asm.words = []) (segQ : s.line.segQ = []) :
    s.workOut = { s with
      port := s.port.settled s.workState
      tally := s.lampTold s.workState
      line := if s.endsSending then { s.line with ratio := 0 } else s.line
      asm := if s.endsSending then { s.asm with newSpeaker := false, drain := .idle } else s.asm } := by
  by_cases h : s.endsSending
  · have other : s.workState ≠ s.port.wstate := fun e => by simpa [e, h.1] using h.2
    have lost := loseRight_empty ((State.notify (.state s.workState)
      { s with port.wstate := s.workState }).requestTally s.workState.pattern) words segQ
    rw [workOut_leaves s h.1 h.2, lost, if_pos h, if_pos h, settled_other other,
      lampTold_other other]
    rfl
  · rw [workOut_settles s fun sends => by simpa [State.endsSending, sends] using h, if_neg h, if_neg h]

/-- What a leave makes of the writer's text and of its frame in flight, before it is decided (R79, R91, R102). -/
structure TextLeft (s u : State) : Prop where
  drops : Drops ((if s.asm.words = [] then 0 else 1) + s.line.segQ.length) s u
  words : u.asm.words = []
  segQ : u.line.segQ = []
  rest : u = { s with
    flags := u.flags, pause := u.pause, peers := u.peers
    line := { s.line with
      segQ := u.line.segQ, ratio := u.line.ratio, inFlight := s.line.inFlight.map fun f => { f with left := true } }
    asm := { s.asm with words := u.asm.words, newSpeaker := u.asm.newSpeaker, history := u.asm.history } }

theorem discardOpen_rest (s : State) :
    s.discardOpen = { s with
      flags := s.discardOpen.flags, pause := s.discardOpen.pause, peers := s.discardOpen.peers
      asm := { s.asm with
        words := s.discardOpen.asm.words, newSpeaker := s.discardOpen.asm.newSpeaker
        history := s.discardOpen.asm.history } } := by
  unfold State.discardOpen
  split
  · rfl
  · rw [countDrops_eq 1 _ (by decide)]

theorem countDrops_rest (n : Nat) (s : State) :
    s.countDrops n = { s with flags := (s.countDrops n).flags, peers := (s.countDrops n).peers } := by
  unfold State.countDrops; split <;> rfl

theorem settleRatio_rest (l : Line) : l.settleRatio = { l with ratio := l.settleRatio.ratio } := by
  unfold Line.settleRatio; split <;> rfl

theorem withdrawSegments_rest (byRecord : Bool) (s : State) (h : s.line.segmentUnderArb = none) :
    s.withdrawSegments byRecord = { s with
      flags := (s.withdrawSegments byRecord).flags, peers := (s.withdrawSegments byRecord).peers
      line := { s.line with
        segQ := (s.withdrawSegments byRecord).line.segQ, ratio := (s.withdrawSegments byRecord).line.ratio }
      asm := { s.asm with history := (s.withdrawSegments byRecord).asm.history } } := by
  unfold State.withdrawSegments
  rw [h]
  simp only
  rw [countDrops_rest, settleRatio_rest]

/-- The state in which a leave is decided. -/
def State.leaving (s : State) : State :=
  { s.discardOpen.withdrawSegments true with line := (s.discardOpen.withdrawSegments true).line.markLeft }

theorem leaveFloor_eq (aborted wasIdle : Bool) (s : State) :
    s.leaveFloor aborted wasIdle = (s.leaving.decideLeave aborted wasIdle).workOut := rfl

theorem leaving_textLeft (s : State) (h : s.line.segmentUnderArb = none) : TextLeft s s.leaving := by
  obtain ⟨first, empty⟩ := discardOpen_drops s
  have line := discardOpen_line s
  have free : s.discardOpen.line.segmentUnderArb = none := by rw [line]; exact h
  obtain ⟨rest, segQ, words, -⟩ := withdrawSegments_drops true s.discardOpen free
  have all := first.trans rest
  rw [line] at all
  refine ⟨⟨all.drops, all.start, all.flag, all.grow⟩, words.trans empty, segQ, ?_⟩
  unfold State.leaving Line.markLeft
  rw [withdrawSegments_rest true s.discardOpen free, discardOpen_rest s]

theorem floorInFlight_markLeft (l : Line) : l.markLeft.floorInFlight = l.floorInFlight := by
  unfold Line.floorInFlight Line.markLeft
  cases l.inFlight <;> rfl

/-! ### How a leave is decided (R79, R91) -/

theorem decideLeave_waits (aborted wasIdle : Bool) (s : State) (h : s.line.floorInFlight = true) :
    s.decideLeave aborted wasIdle = { s with port.leaves := s.port.leaves ++ [aborted] } := if_pos h

theorem decideLeave_yields (aborted wasIdle : Bool) (s : State) (landed : s.line.floorInFlight = false)
    (right : s.floor.view.right s.number = true) (running : s.start = .running) (free : s.pendingRequest = none) :
    s.decideLeave aborted wasIdle = s.depositFloor .yield := by
  unfold State.decideLeave State.abortPending
  simp [landed, right, running, free]

theorem decideLeave_nothing (s : State) (landed : s.line.floorInFlight = false)
    (right : s.floor.view.right s.number = false) : s.decideLeave false true = s.answer .refusedState := by
  unfold State.decideLeave
  simp [landed, right]

/-- A writer that has left, with its leave not yet answered, is IDLE (R79, lines 2 and 3). -/
theorem workState_left (s : State) (ready : s.port.ready = true)
    (queued : (s.line.floorQ.map FloorFrame.claims).getD false = false)
    (flying : ∀ f, s.line.inFlight = some f → f.left = true) (leave : s.leaveOut = true) : s.workState = .idle := by
  have claim : s.claimOut = false := by
    unfold State.claimOut
    rw [queued, Bool.false_or]
    split
    · rename_i f hf
      simp [flying f hf]
    · rfl
  simp [State.workState, ready, claim, leave]

/-- What a leave that is not yet answered leaves: the text is gone, the writer is IDLE, and the floor queue and the
leaves that wait are as its decision put them (R79, R80, R91, R102). -/
structure Departed (queued : Option FloorFrame) (leaves : List Bool) (s t : State) : Prop where
  drops : Drops ((if s.asm.words = [] then 0 else 1) + s.line.segQ.length) s t
  words : t.asm.words = []
  segQ : t.line.segQ = []
  newSpeaker : s.port.wstate.sending = true → t.asm.newSpeaker = false
  tally : t.tally = s.lampTold .idle
  amendQ : t.line.amendQ = s.line.amendQ
  window : t.asm.window = s.asm.window
  floorQ : t.line.floorQ = queued
  inFlight : t.line.inFlight = s.line.inFlight.map fun f => { f with left := true }
  port : t.port = { s.port with leaves := leaves }.settled .idle

theorem TextLeft.departed {s u : State} (left : TextLeft s u) (queued : Option FloorFrame) (leaves : List Bool)
    (idle : ({ u with line.floorQ := queued, port.leaves := leaves } : State).workState = .idle) :
    Departed queued leaves s ({ u with line.floorQ := queued, port.leaves := leaves } : State).workOut := by
  obtain ⟨drops, words, segQ, rest⟩ := left
  rw [workOut_empty { u with line.floorQ := queued, port.leaves := leaves } words segQ]
  have ends : ({ u with line.floorQ := queued, port.leaves := leaves } : State).endsSending ↔
      s.port.wstate.sending = true := by
    unfold State.endsSending
    rw [idle, rest]
    exact and_iff_left rfl
  simp only [idle, ends]
  refine ⟨⟨drops.drops, drops.start, drops.flag, drops.grow⟩, ?_, ?_, fun sends => ?_, ?_, ?_, ?_, ?_, ?_, ?_⟩
  · split <;> exact words
  · split <;> exact segQ
  · rw [if_pos sends, if_pos sends]
  · rw [rest]; rfl
  · rw [rest]; split <;> rfl
  · rw [rest]; split <;> rfl
  · split <;> rfl
  · rw [rest]; split <;> rfl
  · rw [rest]

theorem TextLeft.floorInFlight {s u : State} (h : TextLeft s u) : u.line.floorInFlight = s.line.floorInFlight := by
  rw [h.rest]
  exact floorInFlight_markLeft s.line

theorem TextLeft.pendingRequest {s u : State} (h : TextLeft s u) : u.pendingRequest = s.pendingRequest := by
  rw [h.rest]; rfl

theorem TextLeft.flying {s u : State} (h : TextLeft s u) : ∀ f, u.line.inFlight = some f → f.left = true := by
  rw [h.rest]
  intro f hf
  obtain ⟨g, -, rfl⟩ := Option.map_eq_some_iff.mp hf
  rfl

/-- A leave where the view gives the right to send deposits a YIELD (R91). -/
theorem leaveFloor_yields {s : State} (aborted wasIdle : Bool) (arb : s.line.arb ≠ some .segment)
    (landed : s.line.floorInFlight = false) (right : s.floor.view.right s.number = true) (running : s.start = .running)
    (free : s.pendingRequest = none) (ready : s.port.ready = true) :
    Departed (some .yield) s.port.leaves s (s.leaveFloor aborted wasIdle) := by
  have left := leaving_textLeft s (segmentUnderArb_none arb)
  have floor : s.leaving.floor = s.floor ∧ s.leaving.number = s.number ∧ s.leaving.start = s.start ∧
      s.leaving.port = s.port := by rw [left.rest]; exact ⟨rfl, rfl, rfl, rfl⟩
  obtain ⟨floor, number, start, port⟩ := floor
  have yields := decideLeave_yields aborted wasIdle s.leaving (left.floorInFlight.trans landed)
    (by rw [floor, number]; exact right) (start.trans running) (left.pendingRequest.trans free)
  have idle := workState_left (s.leaving.depositFloor .yield) (by rw [State.depositFloor_port, port]; exact ready) rfl
    left.flying (by simp [State.leaveOut])
  have same : s.leaving.depositFloor .yield =
      { s.leaving with line.floorQ := some .yield, port.leaves := s.port.leaves } := by rw [← port]; rfl
  rw [leaveFloor_eq, yields, same]
  exact left.departed _ _ (same ▸ idle)

/-- A leave that finds an own floor frame in flight waits for its end (R91). -/
theorem leaveFloor_waits {s : State} (aborted wasIdle : Bool) (arb : s.line.arb ≠ some .segment)
    (flies : s.line.floorInFlight = true) (free : s.pendingRequest = none) (ready : s.port.ready = true) :
    Departed none (s.port.leaves ++ [aborted]) s (s.leaveFloor aborted wasIdle) := by
  have left := leaving_textLeft s (segmentUnderArb_none arb)
  have queued : s.leaving.line.floorQ = none :=
    ((pendingRequest_none_iff _).mp (left.pendingRequest.trans free)).1
  have port : s.leaving.port = s.port := by rw [left.rest]
  have waits := decideLeave_waits aborted wasIdle s.leaving (left.floorInFlight.trans flies)
  have same : ({ s.leaving with port.leaves := s.leaving.port.leaves ++ [aborted] } : State) =
      { s.leaving with line.floorQ := none, port.leaves := s.port.leaves ++ [aborted] } := by
    rw [← port, ← queued]
  rw [leaveFloor_eq, waits, same]
  refine left.departed _ _ (workState_left _ ?_ rfl left.flying ?_)
  · exact (congrArg WriterPort.ready port).trans ready
  · simp [State.leaveOut]

/-- A leave in IDLE with nothing outstanding is refused (R91, step 4; log entry 18). -/
theorem leaveFloor_refused {s : State} (right : s.floor.view.right s.number = false)
    (landed : s.line.floorInFlight = false) (idle : s.port.wstate = .idle) (free : s.pendingRequest = none)
    (ready : s.port.ready = true) (leaves : s.port.leaves = []) (drain : s.asm.drain = .idle)
    (words : s.asm.words = []) (segQ : s.line.segQ = []) :
    s.leaveFloor false true = { s with
      line := { s.line with ratio := 0, inFlight := s.line.inFlight.map fun f => { f with left := true } }
      port := s.port.enqueue (.outcome .refusedState) } := by
  have queued := ((pendingRequest_none_iff s).mp free).1
  have left : s.leaving = { s with line := { s.line with
      ratio := 0, inFlight := s.line.inFlight.map fun f => { f with left := true } } } := by
    unfold State.leaving
    rw [discardOpen_empty s words, withdrawSegments_empty true s segQ]
    rfl
  have flies : s.leaving.line.floorInFlight = false := by
    rw [left]
    exact (floorInFlight_markLeft s.line).trans landed
  rw [leaveFloor_eq, decideLeave_nothing s.leaving flies (by rw [left]; exact right)]
  have told : (s.leaving.answer .refusedState).port = s.port.enqueue (.outcome .refusedState) := by rw [left]; rfl
  have port := enqueue_rest (.outcome .refusedState) s.port
  have line : (s.leaving.answer .refusedState).line.floorQ = none := by rw [left]; exact queued
  have away := claimOut_settled (s := s.leaving.answer .refusedState) flies (.inl line)
  have answered : (s.leaving.answer .refusedState).leaveOut = false :=
    leaveOut_settled flies (by rw [told, port]; exact leaves) (.inl line)
  have state : (s.leaving.answer .refusedState).workState =
      if s.port.splitIdle then .idle else s.floor.view.writerState s.number := by
    unfold State.workState
    rw [away, answered, told, port, left]
    simp [ready, drain]
  rw [workOut_same]
  · rw [left]; rfl
  · rw [state, writerState_idle right, ite_self, told, port, idle]

/-! ### FLOOR_DONE (R89, R110) -/

theorem checkDrain_done (s : State) (drain : s.asm.drain = .draining) (segQ : s.line.segQ = [])
    (landed : s.line.segmentInFlight = false) :
    s.checkDrain =
      { s with asm := { s.asm with drain := .reported }, line := { s.line with floorQ := some .release } } :=
  if_pos (by simp [State.drainDone, drain, segQ, landed])

theorem checkDrain_left (s : State)
    (h : s.asm.drain ≠ .draining ∨ s.line.segQ ≠ [] ∨ s.line.segmentInFlight = true) : s.checkDrain = s :=
  if_neg (by obtain h | h | h := h <;> simp [State.drainDone, h])

/-- The drain begun (R89, R110). -/
def State.beginDrain (s : State) : State := { s with asm.drain := .draining }

/-- A ready writer with no floor frame and no leave of its own out is DRAINING in its drain (R79, line 4). -/
theorem workState_draining {s : State} (alone : s.noRequest) (ready : s.port.ready = true)
    (split : s.port.splitIdle = false) : s.beginDrain.workState = .draining := by
  obtain ⟨queued, landed, -, leaves⟩ := alone
  have away : s.beginDrain.claimOut = false := claimOut_settled (s := s) landed (.inl queued)
  have answered : s.beginDrain.leaveOut = false := leaveOut_settled (s := s) landed leaves (.inl queued)
  unfold State.workState
  rw [away, answered]
  simp [State.beginDrain, ready, split]

/-- With no request pending a FLOOR_DONE of an outgoing writer with no open word begins the drain (R80, R89). -/
theorem doneFloor_drains {s : State} (aborted : Bool) (alone : s.noRequest) (ready : s.port.ready = true)
    (split : s.port.splitIdle = false) (outgoing : s.port.wstate = .outgoing) (words : s.asm.words = []) :
    s.doneFloor aborted = State.checkDrain { s with
      asm := { s.asm with drain := .draining }
      port := { s.port with wstate := .draining }.enqueue (.state .draining)
      tally := s.tally.request s.cfg.tallyPeriod .slow } := by
  have state := workState_draining alone ready split
  have other : WriterState.draining ≠ s.beginDrain.port.wstate := by simp [State.beginDrain, outgoing]
  have told := workOut_settles s.beginDrain fun _ => by rw [state]; rfl
  rw [state, settled_other other, lampTold_other other] at told
  unfold State.doneFloor
  rw [outgoing, closeOpen_empty s words]
  exact congrArg State.checkDrain told

/-- A FLOOR_DONE of an outgoing writer closes the open segment as a FLUSH does (R89). -/
theorem doneFloor_closes (aborted : Bool) (s : State) (outgoing : s.port.wstate = .outgoing) :
    s.doneFloor aborted = s.closeOpen.doneFloor aborted := by
  have mid := closeOpen_closed s
  unfold State.doneFloor
  rw [mid.port, outgoing, closeOpen_empty s.closeOpen mid.words]

/-- A FLOOR_DONE of a holder is a leave (R89). -/
theorem doneFloor_leaves {s : State} (h : s.port.wstate = .onAir ∨ s.port.wstate = .offering) :
    s.doneFloor false = s.leaveFloor false s.idleForLeave := by
  unfold State.doneFloor State.idleForLeave
  obtain e | e := h <;> rw [e] <;> rfl

theorem doneFloor_elsewhere (aborted : Bool) (s : State) (outgoing : s.port.wstate ≠ .outgoing)
    (onAir : s.port.wstate ≠ .onAir) (offering : s.port.wstate ≠ .offering) :
    s.doneFloor aborted = s.answer .refusedState := by
  unfold State.doneFloor
  cases hw : s.port.wstate with
  | outgoing => exact absurd hw outgoing
  | onAir => exact absurd hw onAir
  | offering => exact absurd hw offering
  | absent | idle | claiming | incoming | draining => rfl

theorem leaveFloor_deskFrame (aborted wasIdle : Bool) (s : State) : DeskFrame s (s.leaveFloor aborted wasIdle) := by
  have left (u : State) : DeskFrame u { u with line := u.line.markLeft } := rfl
  exact (workOut_deskFrame _).after ((decideLeave_deskFrame aborted wasIdle _).after
    ((left _).after ((withdrawSegments_textFrame true _).after (discardOpen_textFrame s)).desk))

/-- Settles O57: a FLOOR_DONE is `doneFloor`, the drain's check `checkDrain`, and a FLOOR_LEAVE a leave that yields,
waits or is refused. -/
theorem drainAndLeave : Obligations.DrainAndLeave := by
  unfold Obligations.DrainAndLeave
  intro s
  have check : exec .drainComplete s = .next s.checkDrain := rfl
  refine ⟨?_, fun takes alone running free => ?_, fun drain segQ landed => ?_, fun h => ?_, ?_⟩
  · intro takes alone running request ready split outgoing words drains
    have done := (exec_floorDone_free ⟨takes, alone, running, noRequest_free request⟩).trans
      (congrArg _ (doneFloor_drains false request ready split outgoing words))
    refine ⟨fun waits => ?_, fun segQ landed => ?_⟩
    · exact done.trans (congrArg _ (checkDrain_left drains (.inr waits)))
    · exact done.trans (congrArg _ (checkDrain_done drains rfl segQ landed))
  · have asks : FreeToAsk s := ⟨takes, alone, running, free⟩
    have done := exec_floorDone_free asks
    refine ⟨fun outgoing => ?_, fun holder => ?_, fun outgoing onAir offering => ?_⟩
    · have mid := closeOpen_closed s
      have asksMid : FreeToAsk s.closeOpen := ⟨mid.takesRecords takes, by rw [mid.port]; exact alone,
        mid.start.trans running, mid.pendingRequest.trans free⟩
      refine ⟨s.closeOpen, exec_flush_takes s takes alone (by simp [outgoing]), mid.words, ?_⟩
      rw [done, exec_floorDone_free asksMid, doneFloor_closes false s outgoing]
    · rw [done, exec_floorLeave_free asks, doneFloor_leaves holder]
    · rw [done, doneFloor_elsewhere false s outgoing onAir offering]
      rfl
  · rw [check, checkDrain_done s drain segQ landed]
  · rw [check, checkDrain_left s h]
  · intro takes alone running free ready arb drops gone
    have leave := exec_floorLeave_free ⟨takes, alone, running, free⟩
    have goes {queued : Option FloorFrame} {leaves : List Bool}
        (h : Departed queued leaves s (s.leaveFloor false s.idleForLeave)) :
        gone (s.leaveFloor false s.idleForLeave) := by
      refine ⟨h.segQ, h.words, h.newSpeaker, h.tally, h.drops.drops.trans (if_pos running),
        fun some => h.drops.flag (Nat.one_le_iff_ne_zero.mp some), h.amendQ, h.window,
        (leaveFloor_portFrame _ _ s).entries, leaveFloor_deskFrame _ _ s⟩
    refine ⟨fun right landed => ?_, fun flies => ?_, fun right landed idle leaves drain words segQ => ?_⟩
    · have yields := leaveFloor_yields false s.idleForLeave arb landed right running free ready
      exact ⟨_, leave, goes yields, yields.floorQ, yields.port⟩
    · have waits := leaveFloor_waits false s.idleForLeave arb flies free ready
      exact ⟨_, leave, goes waits, waits.floorQ, waits.inFlight, waits.port⟩
    · have wasIdle : s.idleForLeave = true := by simp [State.idleForLeave, idle, free, landed]
      rw [leave, wasIdle, leaveFloor_refused right landed idle free ready leaves drain words segQ]

end Sys2Proof.Machine

/-! # READY and UNREADY -/

namespace Sys2Proof.Machine

/-! ### READY (R79 to R81, R94) -/

theorem exec_ready_takes {s : State} (takes : s.takesRecords) (alone : s.port.replacement = none) :
    exec .ready s = .next s.takeReady :=
  congrArg Host.Outcome.next ((recordIn_performs 7#8 [] s .ready takes rfl rfl).trans
    (congrArg State.takeReady (dropReplacement_none s alone)))

theorem exec_unready_takes {s : State} (takes : s.takesRecords) (alone : s.port.replacement = none) :
    exec .unready s = .next s.takeUnready :=
  congrArg Host.Outcome.next ((recordIn_performs 8#8 [] s .unready takes rfl rfl).trans
    (congrArg State.takeUnready (dropReplacement_none s alone)))

theorem writerState_present (x : Station) (v : View) : v.writerState x ≠ .absent := by
  cases v with
  | vacant => simp [View.writerState]
  | held h | offered h => by_cases e : h = x <;> simp [View.writerState, e]
  | overlap h t => by_cases e : h = x <;> by_cases f : t = x <;> simp [View.writerState, e, f]

/-- The writer made ready (R81). -/
def State.readied (s : State) : State := { s with port.ready := true }

/-- A writer made ready with no request, no leave and no split behind it is in the state the view gives (R79,
line 5). -/
theorem workState_readied {s : State} (request : s.noRequest) (split : s.port.splitIdle = false) :
    s.readied.workState = s.floor.view.writerState s.number := by
  obtain ⟨queued, landed, drain, leaves⟩ := request
  have away : s.readied.claimOut = false := claimOut_settled (s := s) landed (.inl queued)
  have answered : s.readied.leaveOut = false := leaveOut_settled (s := s) landed leaves (.inl queued)
  unfold State.workState
  rw [away, answered]
  simp [State.readied, split, drain]

/-- A writer that was ABSENT, worked out once it is ready (R80, R81). -/
theorem workOut_readied {s : State} (absent : s.port.wstate = .absent) (request : s.noRequest)
    (split : s.port.splitIdle = false) :
    s.readied.workOut = { s with
      port := { s.port with ready := true }.settled (s.floor.view.writerState s.number)
      tally := s.tally.request s.cfg.tallyPeriod (s.floor.view.writerState s.number).pattern } := by
  have other : s.floor.view.writerState s.number ≠ s.readied.port.wstate := by
    rw [State.readied, absent]
    exact writerState_present _ _
  have silent : s.readied.port.wstate.sending = false := by simp [State.readied, absent, WriterState.sending]
  rw [workOut_settles s.readied fun sends => absurd (silent.symm.trans sends) Bool.false_ne_true,
    workState_readied request split, lampTold_other other]
  rfl

theorem takeReady_absent {s : State} (ready : s.port.ready = false) : s.takeReady = s.readied.workOut.autoClaim := by
  unfold State.takeReady
  rw [if_neg (by simp [ready])]
  rfl

/-- Auto-claim at a READY: the writer is IDLE, and then CLAIMING (R85, R94). -/
theorem takeReady_claims {s : State} (takes : s.portTakes = true) (ready : s.port.ready = false)
    (absent : s.port.wstate = .absent) (request : s.noRequest) (split : s.port.splitIdle = false)
    (auto : s.cfg.autoClaim = true) (running : s.start = .running) (vacant : s.floor.view = .vacant) :
    s.takeReady = { s with
      line := { s.line with floorQ := some .claim }
      port := ({ s.port with ready := true }.settled .idle).settled .claiming
      tally := (s.tally.request s.cfg.tallyPeriod .off).request s.cfg.tallyPeriod .fast } := by
  have state : s.floor.view.writerState s.number = .idle := by rw [vacant]; rfl
  have worked := workOut_readied absent request split
  rw [state] at worked
  have writer : s.cfg.role ≠ .output := fun e => by simp [portTakes_closed s (.inl e)] at takes
  have idle : s.readied.workOut.port.wstate = .idle := by rw [worked]; exact settled_wstate _ _
  have isReady : s.readied.workOut.port.ready = true := by rw [worked]; exact settled_ready _ _
  have free := noRequest_free request
  obtain ⟨-, landed, -⟩ := request
  have claims : s.readied.workOut.claims := by
    refine ⟨?_, ?_, ?_, ?_, idle, ?_, ?_⟩ <;> rw [worked]
    · exact auto
    · exact writer
    · exact running
    · exact vacant
    · exact free
    · exact landed
  have other : WriterState.claiming ≠ s.readied.workOut.port.wstate := by simp [idle]
  rw [takeReady_absent ready, autoClaim_claims _ claims, depositFloor_claiming .claim _ rfl isReady idle,
    ← settled_other other, worked]
  rfl

/-! ### UNREADY (R91) -/

/-- The writer no longer ready (R91). -/
def State.unreadied (s : State) : State := { s with port.ready := false }

/-- An UNREADY with no request pending is a leave of a writer no longer ready (R91). -/
theorem takeUnready_leaves {s : State} (ready : s.port.ready = true) (request : s.noRequest) :
    s.takeUnready = s.unreadied.leaveFloor false s.idleForLeave := by
  have free : s.unreadied.pendingRequest = none := noRequest_free (s := s) request
  have queued := ((pendingRequest_none_iff s.unreadied).mp free).1
  have waits : s.unreadied.abortWaits = false := by simp [State.abortWaits, queued]
  have aborts : s.unreadied.abortPending = (s.unreadied, false) := by unfold State.abortPending; rw [free]
  have leaves : s.takeUnready = if s.unreadied.abortWaits then
      State.workOut { s.unreadied with line.held := s.unreadied.line.held ++ [.leave s.idleForLeave] }
    else s.unreadied.unreadyLeave s.idleForLeave := by
    unfold State.takeUnready
    rw [if_neg (by simp [ready])]
    rfl
  rw [leaves, waits, if_neg Bool.false_ne_true, State.unreadyLeave, aborts]

/-- The decision of a leave with no request pending and no own floor frame in flight: a YIELD where the view gives the
right to send, in RUNNING, and an answer otherwise (R91). -/
theorem decideLeave_unwaited (wasIdle : Bool) (s : State) (landed : s.line.floorInFlight = false)
    (free : s.pendingRequest = none) :
    ∃ p : WriterPort, p.ready = s.port.ready ∧ s.decideLeave false wasIdle = { s with
      line := { s.line with floorQ := if s.floor.view.right s.number = true ∧ s.start = .running then some .yield
        else none }
      port := p } := by
  have queued := ((pendingRequest_none_iff s).mp free).1
  have line : ({ s.line with floorQ := none } : Line) = s.line := by rw [← queued]
  have answered (o : Answer) : (s.port.enqueue (.outcome o)).ready = s.port.ready := by rw [enqueue_rest]
  by_cases yields : s.floor.view.right s.number = true ∧ s.start = .running
  · refine ⟨s.port, rfl, ?_⟩
    rw [decideLeave_yields false wasIdle s landed yields.1 yields.2 free, if_pos yields]
    rfl
  · have stays : (s.floor.view.right s.number && s.start == .running) = false := by simpa using yields
    unfold State.decideLeave
    rw [if_neg (by simp [landed]), if_neg (by simp [stays]), if_neg Bool.false_ne_true, if_neg yields, line]
    cases wasIdle with
    | true => exact ⟨_, answered .refusedState, rfl⟩
    | false => exact ⟨_, answered .granted, rfl⟩

/-- A writer no longer ready, without text, worked out (R79, line 1). -/
theorem workOut_unready {s : State} (unready : s.port.ready = false) (words : s.asm.words = [])
    (segQ : s.line.segQ = []) :
    s.workOut.port.ready = false ∧ s.workOut.port.wstate = .absent ∧ s.workOut.asm.words = [] ∧
      s.workOut.line.segQ = [] := by
  refine ⟨(workOut_ready s).trans unready, (workOut_wstate s).trans (by simp [State.workState, unready]), ?_, ?_⟩
  · rw [workOut_empty s words segQ]
    split
    all_goals exact words
  · rw [workOut_empty s words segQ]
    split
    all_goals exact segQ

/-- What an UNREADY leaves with no request pending and nothing under arbitration or in flight (R79, R91, R102). -/
theorem leaveFloor_unreadied {s t : State} (wasIdle : Bool) (request : s.noRequest) (arb : s.line.arb = none)
    (left : t = s.unreadied.leaveFloor false wasIdle) :
    t.port.ready = false ∧ t.port.wstate = .absent ∧ t.asm.words = [] ∧ t.line.segQ = [] ∧
      t.line.floorQ = if s.floor.view.right s.number = true ∧ s.start = .running then some .yield else none := by
  have text := leaving_textLeft s.unreadied (segmentUnderArb_none (by simp [State.unreadied, arb]))
  have free : s.unreadied.leaving.pendingRequest = none := text.pendingRequest.trans (noRequest_free (s := s) request)
  obtain ⟨-, landed, -⟩ := request
  obtain ⟨p, ready, decided⟩ := decideLeave_unwaited wasIdle s.unreadied.leaving (text.floorInFlight.trans landed) free
  have unready : p.ready = false := by rw [ready, text.rest]; rfl
  rw [left, leaveFloor_eq, decided]
  obtain ⟨notReady, absent, words, segQ⟩ := workOut_unready (s := { s.unreadied.leaving with
    line := { s.unreadied.leaving.line with
      floorQ := if s.unreadied.leaving.floor.view.right s.unreadied.leaving.number = true ∧
        s.unreadied.leaving.start = .running then some .yield else none }
    port := p }) unready text.words text.segQ
  refine ⟨notReady, absent, words, segQ, (workOut_told _).2.2.trans ?_⟩
  rw [text.rest]
  rfl

/-- Settles O54: READY works the writer state out and lets auto-claim take the floor, and UNREADY is a leave of a writer
no longer ready. -/
theorem readyAndUnready : Obligations.ReadyAndUnready := by
  unfold Obligations.ReadyAndUnready
  intro s takes alone
  have readies := exec_ready_takes takes alone
  have unreadies := exec_unready_takes takes alone
  refine ⟨fun ready => ?_, ?_, fun ready absent request split auto running vacant => ?_, fun ready => ?_,
    fun ready request arb _ => ?_⟩
  · rw [readies, State.takeReady, if_pos ready]
  · intro ready absent request split unclaimed w
    have other : w ≠ s.port.wstate := by rw [absent]; exact writerState_present _ _
    have worked := workOut_readied absent request split
    rw [settled_other (show w ≠ ({ s.port with ready := true } : WriterPort).wstate from other)] at worked
    have left : s.readied.workOut.autoClaim = s.readied.workOut := autoClaim_left _ fun claims => by
      rw [worked] at claims
      obtain ⟨auto, -, running, vacant, -⟩ := claims
      obtain h | h | h := unclaimed
      · exact absurd (h.symm.trans auto) Bool.false_ne_true
      · exact h running
      · exact h vacant
    rw [readies, takeReady_absent ready, left, worked]
  · rw [readies, takeReady_claims takes.1 ready absent request split auto running vacant]
  · rw [unreadies, State.takeUnready, if_pos (by simp [ready])]
  · obtain ⟨unready, absent, words, segQ, floorQ⟩ := leaveFloor_unreadied s.idleForLeave request arb rfl
    have frame : DeskFrame s s.unreadied := rfl
    rw [unreadies, takeUnready_leaves ready request]
    exact ⟨_, rfl, unready, absent, words, segQ, floorQ, (leaveFloor_portFrame _ _ s.unreadied).entries,
      (leaveFloor_deskFrame _ _ s.unreadied).after frame⟩

end Sys2Proof.Machine

/-! # A REPLACE collects its words -/

namespace Sys2Proof.Machine

/-! ### A waiting REPLACE that another record meets (R76, R83) -/

theorem dropReplacement_clears (s : State) : s.dropReplacement.port.replacement = none := by rw [dropReplacement_eq]

theorem dropReplacement_takesRecords {s : State} (takes : s.takesRecords) : s.dropReplacement.takesRecords := by
  rw [dropReplacement_eq]; exact takes

theorem dropReplacement_raise (f : Flag) (s : State) : (s.raise f).dropReplacement = s.dropReplacement.raise f := by
  unfold State.dropReplacement
  rw [State.raise_port]
  cases s.port.replacement with
  | none => rfl
  | some r => simp [State.raise, State.raiseMask, BitVec.or_assoc, BitVec.or_comm (Flag.mask .wrPartial)]

/-- A record other than a REPWORD ends a waiting REPLACE before it is taken (R83). -/
theorem performWell_drops (r : WriterRecord) (s : State) (h : ∀ t, r ≠ .repword t) :
    s.performWell r = s.dropReplacement.performWell r := by
  have once := dropReplacement_none s.dropReplacement (dropReplacement_clears s)
  cases r with
  | repword t => exact absurd rfl (h t)
  | word | speakerBreak | flush | delete | replace | ready | unready | floorTake | floorHand | floorDone | floorLeave =>
    simp only [State.performWell, once]

theorem performRecord_drops (r : Option WriterRecord) (clipped : Bool) (s : State) (h : ∀ t, r ≠ some (.repword t)) :
    s.performRecord r clipped = s.dropReplacement.performRecord r clipped := by
  cases r with
  | none =>
    unfold State.performRecord State.badRecord
    rw [dropReplacement_none s.dropReplacement (dropReplacement_clears s)]
  | some r =>
    have other : ∀ t, r ≠ .repword t := fun t e => h t (congrArg some e)
    have text : s.dropReplacement.usesText r = s.usesText r := by
      cases r with
      | repword t => exact absurd rfl (other t)
      | _ => rfl
    unfold State.performRecord
    simp only [text]
    split
    · rw [performWell_drops r _ other, dropReplacement_raise,
        performWell_drops r (s.dropReplacement.raise .wrClipped) other, dropReplacement_raise, dropReplacement_none s.dropReplacement (dropReplacement_clears s)]
    · exact performWell_drops r s other

theorem ite_ne {α : Type} {c : Prop} [Decidable c] {a b x : α} (ha : a ≠ x) (hb : b ≠ x) :
    (if c then a else b) ≠ x := by
  split <;> assumption

theorem parseRecord_numbers (content : List Byte) (t : Text) :
    (match content with
      | [k, m] =>
        match byteWithin 1 8 k, byteWithin 1 4 m with
        | some k, some m => some (.replace k m)
        | _, _ => none
      | _ => none) ≠ some (WriterRecord.repword t) := by
  split
  · split <;> nofun
  · nofun

theorem parseRecord_byte (f : Byte → Option WriterRecord) (content : List Byte) (t : Text)
    (h : ∀ b, f b ≠ some (.repword t)) :
    (match content with
      | [b] => f b
      | _ => none) ≠ some (WriterRecord.repword t) := by
  split
  · exact h _
  · nofun

/-- Only the record of kind 6 is a REPWORD (R176). -/
theorem parseRecord_repword (kind : Byte) (content : List Byte) (t : Text) (h : kind ≠ 6#8) :
    parseRecord kind content ≠ some (.repword t) := by
  have plain (c : Prop) [Decidable c] (r : WriterRecord) (hr : r ≠ .repword t) :
      (if c then some r else none) ≠ some (.repword t) := ite_ne (by simpa using hr) nofun
  unfold parseRecord
  rw [if_neg h]
  refine ite_ne (plain _ _ nofun) (ite_ne (plain _ _ nofun) (ite_ne (plain _ _ nofun) (ite_ne ?_ (ite_ne ?_
    (ite_ne (plain _ _ nofun) (ite_ne (plain _ _ nofun) (ite_ne (plain _ _ nofun) (ite_ne ?_
      (ite_ne (plain _ _ nofun) (ite_ne (plain _ _ nofun) nofun))))))))))
  · exact parseRecord_byte (fun n => (byteWithin 1 8 n).map .delete) content t (by simp)
  · exact parseRecord_numbers content t
  · exact parseRecord_byte (fun c => (byteSuccessor c).map .floorHand) content t (by simp)

theorem recordIn_drops (kind : Byte) (content : List Byte) (s : State) (takes : s.takesRecords) (h : kind ≠ 6#8) :
    s.recordIn kind content false = s.dropReplacement.recordIn kind content false := by
  rw [recordIn_takes kind content false s takes,
    recordIn_takes kind content false s.dropReplacement (dropReplacement_takesRecords takes)]
  exact performRecord_drops _ _ s fun t => parseRecord_repword kind content t h

/-- The records that a workstation sends, REPWORD apart. -/
def portRecord (c : Instr) : Prop :=
  (∃ x, c = .word x) ∨ c = .speakerBreak ∨ c = .flush ∨ (∃ n, c = .delete n) ∨ (∃ k' m', c = .replace k' m') ∨
    c = .ready ∨ c = .unready ∨ c = .floorTake ∨ (∃ x, c = .floorHand x) ∨ c = .floorDone ∨ c = .floorLeave

theorem exec_drops (c : Instr) (s : State) (takes : s.takesRecords) (hc : portRecord c) :
    exec c s = exec c s.dropReplacement := by
  have drops (kind : Byte) (content : List Byte) (h : kind ≠ 6#8) :
      (.next (s.recordIn kind content false) : Result) = .next (s.dropReplacement.recordIn kind content false) :=
    congrArg Host.Outcome.next (recordIn_drops kind content s takes h)
  obtain ⟨x, rfl⟩ | rfl | rfl | ⟨n, rfl⟩ | ⟨k, m, rfl⟩ | rfl | rfl | rfl | ⟨x, rfl⟩ | rfl | rfl := hc
  · exact drops 1#8 x (by decide)
  · exact drops 2#8 [] (by decide)
  · exact drops 3#8 [] (by decide)
  · exact drops 4#8 [n] (by decide)
  · exact drops 5#8 [k, m] (by decide)
  · exact drops 7#8 [] (by decide)
  · exact drops 8#8 [] (by decide)
  · exact drops 9#8 [] (by decide)
  · exact drops 10#8 [x] (by decide)
  · exact drops 11#8 [] (by decide)
  · exact drops 12#8 [] (by decide)

/-! ### REPWORD (R83, R107) -/

theorem exec_repword_takes (t : Text) (s : State) (takes : s.takesRecords) (h : wordText t = true) :
    exec (.repword t) s = .next (s.takeRepword t) := by
  obtain ⟨plain, short⟩ := (wordText_iff t).mp h
  have parsed : parseRecord 6#8 t = some (.repword t) := by simp [parseRecord, plain, List.take_of_length_le short]
  exact congrArg Host.Outcome.next (recordIn_performs 6#8 t s (.repword t) takes parsed (clips_short 6#8 t short))

theorem takeRepword_joins (t : Text) (s : State) (r : Replacement) (waits : s.port.replacement = some r)
    (early : r.words.length + 1 < r.m) :
    s.takeRepword t = { s with port := { s.port with replacement := some { r with words := r.words ++ [t] } } } := by
  unfold State.takeRepword
  simp [waits, early]

/-- The history after the word at place i of the open segment has become the words of a REPLACE (R103, R107). -/
theorem replaceEntries_opened (i : Nat) (ws : List Text) (t : Text) (h : List HistoryEntry) :
    replaceEntries (.opened i) (ws ++ [t]) h = lastN 32 (h.flatMap fun e => match e.place with
      | .opened j =>
        if j < i then [e]
        else if j = i then (ws ++ [t]).mapIdx fun q x => ⟨x, e.speech, .opened (i + q)⟩
        else [{ e with place := .opened (j + ws.length) }]
      | _ => [e]) := by
  have each (e : HistoryEntry) :
      (if e.place.sameGroup (.opened i) then
        if e.place.index = i then
          (ws ++ [t]).mapIdx fun j x => (⟨x, e.speech, .opened (i + j)⟩ : HistoryEntry)
        else if i < e.place.index then
          [{ e with place := e.place.withIndex (e.place.index + (ws ++ [t]).length - 1) }]
        else [e]
      else [e]) =
      match e.place with
      | .opened j =>
        if j < i then [e]
        else if j = i then (ws ++ [t]).mapIdx fun q x => ⟨x, e.speech, .opened (i + q)⟩
        else [{ e with place := .opened (j + ws.length) }]
      | _ => [e] := by
    obtain ⟨text, speech, place⟩ := e
    cases place with
    | queued | sent => rfl
    | opened j =>
      obtain before | rfl | behind := lt_trichotomy j i
      · simp [Place.sameGroup, Place.index, before, before.ne, before.asymm]
      · simp [Place.sameGroup, Place.index]
      · simp [Place.sameGroup, Place.index, Place.withIndex, behind, behind.ne', behind.asymm, ← Nat.add_assoc]
  exact congrArg (lastN 32) (congrArg (h.flatMap ·) (funext each))

/-- A segment's words after a REPLACE of its word w at index i (R107). -/
def replacedWords (ws : List OpenWord) (i : Nat) (w : OpenWord) (texts : List Text) : List OpenWord :=
  ws.take i ++ texts.map (fun t => { w with text := t }) ++ ws.drop (i + 1)

/-- The state in which a REPLACE has put its words in the place of open word i, before any split (R107). -/
def State.withReplaced (i : Nat) (w : OpenWord) (texts : List Text) (s : State) : State :=
  { s with
    port := { s.port with replacement := none }
    asm := { s.asm with
      words := replacedWords s.asm.words i w texts
      history := replaceEntries (.opened i) texts s.asm.history } }

/-- The last REPWORD of a REPLACE whose target stands in the open segment (R83, R105, R107). -/
theorem takeRepword_replaces {s : State} {r : Replacement} {older newer : List HistoryEntry} {e : HistoryEntry}
    {i : Nat} {w : OpenWord} (t : Text) (waits : s.port.replacement = some r) (last : r.words.length + 1 = r.m)
    (history : s.asm.history = older ++ e :: newer) (place : newer.length + 1 = r.k) (opened : e.place = .opened i)
    (word : s.asm.words[i]? = some w) :
    s.takeRepword t = (s.withReplaced i w (r.words ++ [t])).splitOpen
      (replacedWords s.asm.words i w (r.words ++ [t])).length := by
  have known : ¬s.asm.history.length < r.k := by rw [history, List.length_append, List.length_cons]; omega
  have target : s.asm.history[s.asm.history.length - r.k]? = some e := by
    have index : (older ++ e :: newer).length - r.k = older.length := by
      rw [List.length_append, List.length_cons]; omega
    rw [history, index, List.getElem?_append_right (Nat.le_refl _), Nat.sub_self]
    rfl
  unfold State.takeRepword
  simp only [waits]
  rw [if_neg (by rw [List.length_append]; exact Nat.not_lt.mpr last.ge)]
  unfold State.correctReplace
  simp only [if_neg known, target, opened, State.replaceable, Bool.not_true, Bool.false_eq_true, if_false,
    State.corrected, State.replaceOpen, word]
  rfl

end Sys2Proof.Machine

/-! # The split of a segment that a REPLACE took beyond its limits -/

namespace Sys2Proof.Machine

/-! ### How many words close at a time (R107) -/

/-- A segment within both of its limits (R96, R107). -/
abbrev withinLimits (hard : Nat) (ws : List OpenWord) : Prop :=
  ws.length ≤ 20 ∧ charCount (ws.map (·.text)) ≤ hard

theorem withinLimits_nil (hard : Nat) : withinLimits hard [] := ⟨Nat.zero_le _, Nat.zero_le _⟩

/-- The counts of oldest words that stay within both limits. -/
def fittingCounts (hard : Nat) (ws : List OpenWord) : List Nat :=
  (List.range (min ws.length 20 + 1)).filter fun n => decide (charCount ((ws.map (·.text)).take n) ≤ hard)

theorem mem_fittingCounts {hard n : Nat} {ws : List OpenWord} :
    n ∈ fittingCounts hard ws ↔ n ≤ ws.length ∧ withinLimits hard (ws.take n) := by
  unfold fittingCounts withinLimits
  rw [List.mem_filter, List.mem_range, ← List.map_take, decide_eq_true_eq, List.length_take]
  omega

theorem fitPrefix_eq (hard : Nat) (ws : List OpenWord) :
    fitPrefix hard (ws.map (·.text)) = max 1 ((fittingCounts hard ws).max?.getD 0) := by
  unfold fitPrefix
  rw [List.length_map, List.foldl_max, Nat.zero_max]
  rfl

theorem fitPrefix_pos (hard : Nat) (ts : List Text) : 1 ≤ fitPrefix hard ts := le_max_left _ _

/-- The words that close are within the limits, or the oldest alone (R107). -/
theorem fitPrefix_fits (hard : Nat) (ws : List OpenWord) :
    fitPrefix hard (ws.map (·.text)) = 1 ∨
      fitPrefix hard (ws.map (·.text)) ≤ ws.length ∧
        withinLimits hard (ws.take (fitPrefix hard (ws.map (·.text)))) := by
  rw [fitPrefix_eq]
  obtain one | most := max_choice 1 ((fittingCounts hard ws).max?.getD 0)
  · exact .inl one
  · cases largest : (fittingCounts hard ws).max? with
    | none => exact .inl rfl
    | some n =>
      rw [largest] at most
      rw [most]
      exact .inr (mem_fittingCounts.mp (List.max?_mem largest))

theorem fitPrefix_le (hard : Nat) (ws : List OpenWord) (filled : ws ≠ []) :
    fitPrefix hard (ws.map (·.text)) ≤ ws.length := by
  obtain h | ⟨h, -⟩ := fitPrefix_fits hard ws
  · rw [h]
    exact List.length_pos_of_ne_nil filled
  · exact h

/-- One word more than those that close is beyond a limit (R107). -/
theorem fitPrefix_most (hard n : Nat) (ws : List OpenWord) (more : fitPrefix hard (ws.map (·.text)) < n)
    (hn : n ≤ ws.length) : ¬withinLimits hard (ws.take n) := fun h => by
  have most : n ≤ (fittingCounts hard ws).max?.getD 0 := List.le_max?_getD_of_mem (mem_fittingCounts.mpr ⟨hn, h⟩)
  rw [fitPrefix_eq] at more
  exact absurd more (Nat.not_lt.mpr (most.trans (le_max_right _ _)))

/-! ### The runs of a split (R107; log entry 14) -/

/-- The runs of oldest words that close one after another, and the words that stay open. -/
def splitRuns (hard : Nat) : Nat → List OpenWord → List (List OpenWord) × List OpenWord
  | 0, ws => ([], ws)
  | fuel + 1, ws =>
    if withinLimits hard ws then ([], ws)
    else
      let n := fitPrefix hard (ws.map (·.text))
      let rest := splitRuns hard fuel (ws.drop n)
      (ws.take n :: rest.1, rest.2)

/-- A run that closes ahead of some words: with them the segment was beyond a limit; the run is within the limits, or
one word; and it takes as many words as stay within them. -/
def ClosesAhead (hard : Nat) (run rest : List OpenWord) : Prop :=
  ¬withinLimits hard (run ++ rest) ∧ run ≠ [] ∧ (withinLimits hard run ∨ run.length = 1) ∧
    ∀ v ∈ rest.head?, ¬withinLimits hard (run ++ [v])

theorem fitPrefix_closesAhead (hard : Nat) (ws : List OpenWord) (beyond : ¬withinLimits hard ws) :
    ClosesAhead hard (ws.take (fitPrefix hard (ws.map (·.text)))) (ws.drop (fitPrefix hard (ws.map (·.text)))) := by
  have filled : ws ≠ [] := fun e => beyond (e ▸ withinLimits_nil hard)
  have le := fitPrefix_le hard ws filled
  have pos := fitPrefix_pos hard (ws.map (·.text))
  have length : (ws.take (fitPrefix hard (ws.map (·.text)))).length = fitPrefix hard (ws.map (·.text)) := by
    rw [List.length_take, Nat.min_eq_left le]
  refine ⟨by rw [List.take_append_drop]; exact beyond, List.ne_nil_of_length_pos (by omega), ?_, fun v hv => ?_⟩
  · obtain one | ⟨-, fits⟩ := fitPrefix_fits hard ws
    · exact .inr (length.trans one)
    · exact .inl fits
  · rw [List.head?_drop, Option.mem_def] at hv
    obtain ⟨more, hv⟩ := List.getElem?_eq_some_iff.mp hv
    rw [← hv, List.take_append_getElem more]
    exact fitPrefix_most hard _ ws (Nat.lt_succ_self _) more

theorem splitRuns_flatten (hard fuel : Nat) (ws : List OpenWord) :
    (splitRuns hard fuel ws).1.flatten ++ (splitRuns hard fuel ws).2 = ws := by
  induction fuel generalizing ws with
  | zero => rfl
  | succ fuel ih =>
    unfold splitRuns
    split
    · rfl
    · rw [List.flatten_cons, List.append_assoc, ih, List.take_append_drop]

theorem splitRuns_left (hard fuel : Nat) (ws : List OpenWord) (enough : ws.length ≤ fuel) :
    withinLimits hard (splitRuns hard fuel ws).2 := by
  induction fuel generalizing ws with
  | zero =>
    rw [List.length_eq_zero_iff.mp (Nat.le_zero.mp enough)]
    exact withinLimits_nil hard
  | succ fuel ih =>
    have pos := fitPrefix_pos hard (ws.map (·.text))
    unfold splitRuns
    split
    · assumption
    · exact ih _ (by rw [List.length_drop]; omega)

theorem splitRuns_closesAhead (hard fuel : Nat) (ws : List OpenWord) (before after : List (List OpenWord))
    (run : List OpenWord) (h : (splitRuns hard fuel ws).1 = before ++ run :: after) :
    ClosesAhead hard run (after.flatten ++ (splitRuns hard fuel ws).2) := by
  induction fuel generalizing ws before with
  | zero => simp [splitRuns] at h
  | succ fuel ih =>
    unfold splitRuns at h ⊢
    split at h
    · simp at h
    · rename_i beyond
      rw [if_neg beyond]
      cases before with
      | nil =>
        obtain ⟨rfl, rfl⟩ := List.cons.inj h
        rw [splitRuns_flatten]
        exact fitPrefix_closesAhead hard ws beyond
      | cons first before => exact ih _ before (List.cons.inj h).2

theorem splitRuns_ne_nil (hard fuel : Nat) (ws : List OpenWord) (beyond : ¬withinLimits hard ws)
    (enough : ws.length ≤ fuel) : (splitRuns hard fuel ws).1 ≠ [] := fun none => by
  have whole := splitRuns_flatten hard fuel ws
  rw [none] at whole
  exact beyond (whole ▸ splitRuns_left hard fuel ws enough)

/-! ### The closes of a split (R99, R107) -/

/-- Runs of the open segment's oldest words closed one after another. -/
def State.closeRuns (runs : List (List OpenWord)) (s : State) : State :=
  runs.foldl (fun s run => s.closeFirst run.length) s

theorem closeFirst_words (n : Nat) (s : State) : (s.closeFirst n).asm.words = s.asm.words.drop n := by
  unfold State.closeFirst
  rw [depositSegment_depositFrame]

theorem splitOpen_closeRuns (fuel : Nat) (s : State) :
    State.splitOpen fuel s = s.closeRuns (splitRuns s.cfg.hardLimit fuel s.asm.words).1 := by
  induction fuel generalizing s with
  | zero => rfl
  | succ fuel ih =>
    have limits : (decide (s.asm.words.length ≤ maxWords) && decide (charCount s.asm.texts ≤ s.cfg.hardLimit)) =
        decide (withinLimits s.cfg.hardLimit s.asm.words) := (Bool.decide_and _ _).symm
    unfold State.splitOpen splitRuns
    rw [limits]
    by_cases h : withinLimits s.cfg.hardLimit s.asm.words
    · rw [if_pos h, if_pos (decide_eq_true h)]
      rfl
    · have filled : s.asm.words ≠ [] := fun e => h (e ▸ withinLimits_nil _)
      have length := fitPrefix_le s.cfg.hardLimit s.asm.words filled
      rw [if_neg h, if_neg (by simpa using h), ih, (closeFirst_portFrame _ s).cfg, closeFirst_words]
      unfold State.closeRuns
      rw [List.foldl_cons, List.length_take, Nat.min_eq_left length]
      rfl

theorem depositSegment_room (g : QueuedSegment) (s : State) (room : s.line.segQ.length < 8)
    (fits : g.bodyLength ≤ s.cfg.maxBody) : s.depositSegment g = { s with line.segQ := s.line.segQ ++ [g] } := by
  unfold State.depositSegment
  rw [if_neg (Nat.not_lt.mpr fits), makeSegmentRoom_roomy s room]

/-- A close of the oldest words where the segment queue has room and the body fits (R99, R107). -/
theorem closeFirst_room (s : State) (run left : List OpenWord) (words : s.asm.words = run ++ left)
    (room : s.line.segQ.length < 8) (fits : 6 + (run.map fun v => v.text.length + 2).sum ≤ s.cfg.maxBody) :
    s.closeFirst run.length = { s with
      line := { s.line with segQ := s.line.segQ ++
        [⟨s.asm.nextNumber, s.asm.newSpeaker, run.map fun v => ⟨v.text, v.speech⟩⟩] }
      asm := { s.asm with
        words := left
        newSpeaker := false
        nextNumber := s.asm.nextNumber + 1#8
        history := closeEntries s.asm.nextNumber run.length s.asm.history } } := by
  have length : QueuedSegment.bodyLength
      ⟨s.asm.nextNumber, s.asm.newSpeaker, run.map fun v => ⟨v.text, v.speech⟩⟩ ≤ s.cfg.maxBody := by
    simpa [QueuedSegment.bodyLength, Function.comp_def] using fits
  unfold State.closeFirst
  rw [words, List.take_left, List.drop_left]
  exact depositSegment_room _ _ room length

/-- The history after runs of the open segment's oldest words have closed, the first under a given number. -/
def closeRunEntries (number : Byte) (runs : List (List OpenWord)) (h : List HistoryEntry) : List HistoryEntry :=
  runs.zipIdx.foldl (fun h run => closeEntries (number + BitVec.ofNat 8 run.2) run.1.length h) h

/-- Runs closed one after another where the segment queue has room for all of them and each body fits. -/
theorem closeRuns_room (s : State) (runs : List (List OpenWord)) (left : List OpenWord)
    (words : s.asm.words = runs.flatten ++ left) (room : s.line.segQ.length + runs.length ≤ 8)
    (fits : ∀ run ∈ runs, 6 + (run.map fun v => v.text.length + 2).sum ≤ s.cfg.maxBody) :
    s.closeRuns runs = { s with
      line := { s.line with segQ := s.line.segQ ++ runs.mapIdx fun j run =>
        ⟨s.asm.nextNumber + BitVec.ofNat 8 j, s.asm.newSpeaker && j == 0, run.map fun v => ⟨v.text, v.speech⟩⟩ }
      asm := { s.asm with
        words := left
        newSpeaker := s.asm.newSpeaker && runs.length == 0
        nextNumber := s.asm.nextNumber + BitVec.ofNat 8 runs.length
        history := closeRunEntries s.asm.nextNumber runs s.asm.history } } := by
  induction runs using List.reverseRecOn generalizing left with
  | nil =>
    have none : s.asm.words = left := words
    simp [State.closeRuns, closeRunEntries, ← none]
  | append_singleton runs run ih =>
    rw [List.length_append] at room
    have before := ih (run ++ left) (by simpa using words) (by omega) fun r hr => fits r (List.mem_append_left _ hr)
    have last : s.closeRuns (runs ++ [run]) = (s.closeRuns runs).closeFirst run.length := by
      unfold State.closeRuns
      rw [List.foldl_append]
      rfl
    have queue : (s.closeRuns runs).line.segQ.length < 8 := by
      rw [before]
      simpa using Nat.lt_of_succ_le room
    have number : s.asm.nextNumber + BitVec.ofNat 8 runs.length + 1#8 =
        s.asm.nextNumber + BitVec.ofNat 8 (runs.length + 1) := by
      rw [BitVec.add_assoc, BitVec.ofNat_add]
    rw [last, closeFirst_room (s.closeRuns runs) run left (by rw [before]) queue
      (by rw [before]; exact fits run (by simp)), before]
    simp [closeRunEntries, List.mapIdx_append, List.zipIdx_append, number]

/-! ### A REPLACE in the open segment (R107) -/

/-- A REPLACE that takes the open segment beyond a limit splits it, the segment queue having room and each body
fitting. -/
theorem splitOpen_room (fuel : Nat) (s : State) (beyond : ¬withinLimits s.cfg.hardLimit s.asm.words)
    (enough : s.asm.words.length ≤ fuel)
    (room : s.line.segQ.length + (splitRuns s.cfg.hardLimit fuel s.asm.words).1.length ≤ 8)
    (fits : ∀ run ∈ (splitRuns s.cfg.hardLimit fuel s.asm.words).1,
      6 + (run.map fun v => v.text.length + 2).sum ≤ s.cfg.maxBody) :
    let runs := (splitRuns s.cfg.hardLimit fuel s.asm.words).1
    State.splitOpen fuel s = { s with
      line := { s.line with segQ := s.line.segQ ++ runs.mapIdx fun j run =>
        ⟨s.asm.nextNumber + BitVec.ofNat 8 j, s.asm.newSpeaker && j == 0, run.map fun v => ⟨v.text, v.speech⟩⟩ }
      asm := { s.asm with
        words := (splitRuns s.cfg.hardLimit fuel s.asm.words).2
        newSpeaker := false
        nextNumber := s.asm.nextNumber + BitVec.ofNat 8 runs.length
        history := closeRunEntries s.asm.nextNumber runs s.asm.history } } := by
  have filled := splitRuns_ne_nil s.cfg.hardLimit fuel s.asm.words beyond enough
  have mark : (s.asm.newSpeaker && (splitRuns s.cfg.hardLimit fuel s.asm.words).1.length == 0) = false := by
    simp [filled]
  rw [splitOpen_closeRuns, closeRuns_room s _ _ (splitRuns_flatten _ _ _).symm room fits, mark]

theorem splitOpen_within (fuel : Nat) (s : State) (h : withinLimits s.cfg.hardLimit s.asm.words) :
    State.splitOpen fuel s = s := by
  cases fuel with
  | zero => rfl
  | succ fuel =>
    rw [splitOpen_closeRuns, splitRuns, if_pos h]
    rfl

/-- Settles O53: a REPLACE waits for its words and is dropped by any other record (`exec_drops`), and in the open
segment its words take the target's place (`takeRepword_replaces`), where a split closes the runs of `splitRuns`. -/
theorem replaceCollectsAndApplies : Obligations.ReplaceCollectsAndApplies := by
  unfold Obligations.ReplaceCollectsAndApplies
  intro k m text s takes present word
  have repword := exec_repword_takes text s takes word
  refine ⟨fun hk hk' hm hm' => ?_, fun waits c hc => ?_, fun r waits early => ?_, fun alone => ?_, ?_⟩
  · rw [exec_replace_takes k m s takes hk hk' hm hm', dropReplacement_eq, State.takeReplace, if_neg present]
  · rw [exec_drops c s takes hc, dropReplacement_eq, if_neg waits]
  · rw [repword, takeRepword_joins text s r waits early]
  · rw [repword, State.takeRepword, alone]
    simp only
    rw [badRecord_eq, if_pos alone, BitVec.or_zero, withoutReplacement_self s.port alone]
  · intro r older newer e i w waits last history place opened target words entries within
    have replaced : exec (.repword text) s =
        .next ((s.withReplaced i w (r.words ++ [text])).splitOpen words.length) :=
      repword.trans (congrArg _ (takeRepword_replaces text waits last history place opened target))
    have moved : replaceEntries (.opened i) (r.words ++ [text]) s.asm.history = entries :=
      replaceEntries_opened i r.words text s.asm.history
    refine ⟨fun fits => ?_, fun beyond => ?_⟩
    · rw [replaced, splitOpen_within _ _ fits, State.withReplaced, moved]
      rfl
    · have enough : words.length ≤ words.length := Nat.le_refl _
      refine ⟨(splitRuns s.cfg.hardLimit words.length words).1, (splitRuns s.cfg.hardLimit words.length words).2,
        (splitRuns_flatten _ _ _).symm, splitRuns_left _ _ _ enough, fun before after run split => ?_,
        fun room fits => ?_⟩
      · rw [List.append_assoc]
        exact splitRuns_closesAhead _ _ _ before after run split
      · rw [replaced]
        refine congrArg _ ((splitOpen_room words.length (s.withReplaced i w (r.words ++ [text])) beyond enough room
          fits).trans ?_)
        rw [State.withReplaced, moved]
        rfl

end Sys2Proof.Machine

/-! # The records of the schedule -/

namespace Sys2Proof.Machine

/-! ### What keeps the records between two resets (R124, R136, R137, R144, R154 to R156) -/

/-- The configuration stands, and records that keep their form under it still do. -/
structure CuesStand (s t : State) : Prop where
  cfg : t.cfg = s.cfg
  records : 1 ≤ s.cfg.rowWidth → RecordsKept s.cfg s.sched.cues → RecordsKept s.cfg t.sched.cues

theorem BlockFrame.cuesStand {s t : State} (h : BlockFrame s t) : CuesStand s t := ⟨h.cfg, h.records⟩

theorem PortFrame.cuesStand {s t : State} (h : PortFrame s t) : CuesStand s t := h.block.cuesStand

theorem OutputFrame.cuesStand {s t : State} (h : OutputFrame s t) : CuesStand s t := h.block.cuesStand

theorem cuesStand_of_cues {s t : State} (cfg : t.cfg = s.cfg) (cues : t.sched.cues = s.sched.cues) :
    CuesStand s t := ⟨cfg, by rw [cues]; exact fun _ h => h⟩

theorem CuesStand.refl (s : State) : CuesStand s s := cuesStand_of_cues rfl rfl

theorem CuesStand.after {a b c : State} (k : CuesStand b c) (h : CuesStand a b) : CuesStand a c := by
  refine ⟨k.cfg.trans h.cfg, fun width kept => ?_⟩
  have step := k.records
  rw [h.cfg] at step
  exact step width (h.records width kept)

/-- A step taken under a condition keeps the records where the step does. -/
theorem CuesStand.ite {s t u : State} {c : Prop} [Decidable c] (h : CuesStand s t) (k : CuesStand s u) :
    CuesStand s (if c then t else u) := by
  split
  · exact h
  · exact k

/-! ### The commands whose frames do not say so -/

theorem tick_cuesStand (gzl gzu : Bool) (left : List TickEvent) (s : State) : CuesStand s (s.tick gzl gzu left) := by
  have advanced (u : State) : CuesStand u (u.advance gzl gzu) := cuesStand_of_cues rfl rfl
  exact (screenTick_outputFrame left _).cuesStand.after ((tickWork_blockFrame left _).cuesStand.after
    ((advanced _).after (settle_blockFrame s).cuesStand))

theorem withRef_cuesStand (r : RefState) (s : State) : CuesStand s (s.withRef r) := cuesStand_of_cues rfl rfl

theorem countReadback_cuesStand (readback : Bool) (s : State) :
    CuesStand s (if readback = true then s.countReadback else s) :=
  .ite (countReadback_portFrame s).cuesStand (.refl s)

theorem loseArbitration_cuesStand (readback : Bool) (s : State) : CuesStand s (s.loseArbitration readback) := by
  have told (q : QueueName) (u : State) : CuesStand u (if q = .beat then u.countBeatLoss else u) :=
    .ite (countBeatLoss_portFrame u).cuesStand (.refl u)
  unfold State.loseArbitration
  split
  · exact .refl s
  · exact (performAllHeld_portFrame _).cuesStand.after
      ((told _ _).after ((countReadback_cuesStand _ _).after (cuesStand_of_cues rfl rfl)))

theorem takeWinner_cuesStand {q : QueueName} {s u : State} {b : FrameBody} (h : s.takeWinner q = some (b, u)) :
    CuesStand s u := by
  unfold State.takeWinner at h
  cases q <;> simp only at h <;> split at h <;> cases h <;> exact cuesStand_of_cues rfl rfl

theorem winArbitration_cuesStand (readback : Bool) (s : State) : CuesStand s (s.winArbitration readback) := by
  have told (q : QueueName) (u : State) : CuesStand u (if q = .beat then u else u.countBeatLoss) :=
    .ite (.refl u) (countBeatLoss_portFrame u).cuesStand
  have flies (u : State) (f : InFlight) : CuesStand u { u with
      line.arb := none, line.beatReplace := false, floor.lapsed := false, line.inFlight := some f } :=
    cuesStand_of_cues rfl rfl
  unfold State.winArbitration
  split
  · exact .refl s
  · simp only
    split
    · exact cuesStand_of_cues rfl rfl
    · rename_i won
      exact (performAllHeld_portFrame _).cuesStand.after
        ((told _ _).after ((countReadback_cuesStand _ _).after ((flies _ _).after (takeWinner_cuesStand won))))

theorem foreignWin_cuesStand (s : State) : CuesStand s s.foreignWin := by
  have marked (u : State) : CuesStand u { u with
      line.foreign := true, line.winCounted := true, floor.lapsed := false } := cuesStand_of_cues rfl rfl
  have told : CuesStand s (if s.line.winCounted then s else s.countBeatLoss) :=
    .ite (.refl s) (countBeatLoss_portFrame s).cuesStand
  unfold State.foreignWin
  exact .ite ((marked _).after told) (.refl s)

theorem read_cuesStand (count : Nat) (s : State) : CuesStand s (s.read count) := by
  have window : CuesStand s (s.readWindow count) := by
    unfold State.readWindow; simp only; split <;> exact cuesStand_of_cues rfl rfl
  have denied : CuesStand s s.denyRead := cuesStand_of_cues rfl rfl
  unfold State.read
  split
  · exact denied
  · split
    · exact .ite (cuesStand_of_cues rfl rfl) (cuesStand_of_cues rfl rfl)
    · exact .ite (cuesStand_of_cues rfl rfl) denied
    · exact .ite window denied

/-- A restart empties the schedule and keeps the configuration; every other write touches no record (R170, R173). -/
theorem write_cuesStand (bytes : List Byte) (s : State) : CuesStand s (s.write bytes) := by
  have restarts : CuesStand s (s.restartStation.acknowledge true) := by
    unfold State.restartStation
    rw [enterListening_eq]
    exact ⟨rfl, fun _ _ c hc => nomatch hc⟩
  unfold State.write
  split
  · exact cuesStand_of_cues rfl rfl
  · split
    · rename_i w _
      cases w with
      | restart => exact .ite (cuesStand_of_cues rfl rfl) restarts
      | select | window | clear => exact cuesStand_of_cues rfl rfl
    · exact cuesStand_of_cues rfl rfl

/-! ### Every command -/

/-- No command but a power-on, the RESETn levels and an image load changes the row width or the form of a record. -/
theorem exec_cuesStand (c : Instr) (s : State) (hc : KeepsLoading c) : ∃ t, exec c s = .next t ∧ CuesStand s t := by
  cases c with
  | powerOn straps => exact absurd rfl (hc.power straps)
  | resetnAssertion => exact absurd rfl hc.assertion
  | resetnRelease straps => exact absurd rfl (hc.release straps)
  | imageLoaded image => exact absurd rfl (hc.noImage image)
  | startupBlankBegins | orderSent | noticeSent | tallyOnPartEnd => exact ⟨_, rfl, cuesStand_of_cues rfl rfl⟩
  | frameTick e gzl gzu left =>
    exact ⟨_, rfl, .ite ((tick_cuesStand gzl gzu left _).after (withRef_cuesStand .locked s)) (.refl s)⟩
  | entryIntoFlywheel gzl gzu left =>
    exact ⟨_, rfl, .ite ((tick_cuesStand gzl gzu left _).after
      ((raise_outputFrame .refLoss _).cuesStand.after (withRef_cuesStand .flywheel s))) (.refl s)⟩
  | flywheelTick gzl gzu left => exact ⟨_, rfl, .ite (tick_cuesStand gzl gzu left s) (.refl s)⟩
  | entryIntoRunning => exact ⟨_, rfl, (enterRunning_blockFrame s).cuesStand⟩
  | peerAgeOut x => exact ⟨_, rfl, (ageOut_blockFrame x s).cuesStand⟩
  | pauseTimerExpiry => exact ⟨_, rfl, (pauseExpiry_portFrame s).cuesStand⟩
  | lapseTimerExpiry => exact ⟨_, rfl, (lapseExpiry_blockFrame s).cuesStand⟩
  | overlapTimerExpiry => exact ⟨_, rfl, (overlapExpiry_blockFrame s).cuesStand⟩
  | beatTimerExpiry => exact ⟨_, rfl, (beatExpiry_blockFrame s).cuesStand⟩
  | tallyBlinkExpiry => exact ⟨_, rfl, .ite (cuesStand_of_cues rfl rfl) (.refl s)⟩
  | showCue => exact ⟨_, rfl, (screenSettle_outputFrame s).cuesStand⟩
  | cueExpires => exact ⟨_, rfl, (cueExpiry_outputFrame s).cuesStand⟩
  | contentionStart => exact ⟨_, rfl, .ite (cuesStand_of_cues rfl rfl) (.refl s)⟩
  | arbitrationLoss readback => exact ⟨_, rfl, loseArbitration_cuesStand readback s⟩
  | frameWin own readback => exact ⟨_, rfl, .ite (winArbitration_cuesStand readback s) (foreignWin_cuesStand s)⟩
  | frameNotAccepted | beatReceived | claimReceived | offerReceived | takeReceived | releaseReceived
  | yieldReceived | segmentReceived | amendReceived => exact ⟨_, rfl, (frameEnd_blockFrame _ _ s).cuesStand⟩
  | drainComplete => exact ⟨_, rfl, (checkDrain_portFrame s).cuesStand⟩
  | word | speakerBreak | flush | delete | replace | repword | ready | unready | floorTake | floorHand
  | floorDone | floorLeave | malformedRecord => exact ⟨_, rfl, (recordIn_portFrame _ _ _ s).cuesStand⟩
  | recordGapTimeout received => exact ⟨_, rfl, (recordGap_portFrame received s).cuesStand⟩
  | selectStatusWord | selectConfigurationBlock | selectWindowReads | windowSelect | clearCounters | restart
  | invalidWrite => exact ⟨_, rfl, write_cuesStand _ s⟩
  | statusWordRead count | windowRead count => exact ⟨_, rfl, read_cuesStand count s⟩
  | lineIdleForGap => exact ⟨_, rfl, .ite (cuesStand_of_cues rfl rfl) (.refl s)⟩

/-! ### The invariant -/

theorem CuesStand.cuesKept {s t : State} (h : CuesStand s t) (kept : s.cuesKept) (blank : t.loadingBlank) :
    t.cuesKept := by
  obtain ⟨-, width, records⟩ := kept
  refine ⟨blank, ?_, ?_⟩ <;> rw [h.cfg]
  · exact width
  · exact h.records width records

/-- A station with no record keeps the invariant under whatever row width (R143). -/
theorem cuesKept_of_empty {t : State} (blank : t.loadingBlank) (width : 1 ≤ t.cfg.rowWidth)
    (empty : t.sched.cues = []) : t.cuesKept := ⟨blank, width, by simp [empty]⟩

theorem loadImage_rowWidth (image : List Byte) : 1 ≤ (loadImage image).1.rowWidth := by
  have clamped (n : Nat) : 1 ≤ clamp 30 42 n := by unfold clamp; split_ifs <;> omega
  unfold loadImage
  simp only
  split
  · exact clamped _
  · decide

/-- An image is read in LOADING alone, where the schedule is empty (R143, R168). -/
theorem loadConfiguration_cuesKept (image : List Byte) (s : State) (kept : s.cuesKept) :
    (s.loadConfiguration image).cuesKept := by
  have ⟨asleep, _, _⟩ := kept
  have blank := loadConfiguration_loadingBlank image s asleep
  by_cases reads : s.start = .loading ∧ s.resetHeld = false
  · have empty : s.sched.cues = [] := by rw [asleep reads.1]; rfl
    unfold State.loadConfiguration at blank ⊢
    rw [if_pos reads] at blank ⊢
    refine cuesKept_of_empty blank ?_ ?_ <;> rw [enterListening_eq]
    · exact loadImage_rowWidth image
    · exact empty
  · unfold State.loadConfiguration
    rw [if_neg reads]
    exact kept

theorem releaseReset_cuesKept (straps : Station) (s : State) (kept : s.cuesKept) :
    (s.releaseReset straps).cuesKept := by
  have ⟨_, width, _⟩ := kept
  unfold State.releaseReset
  split
  · exact cuesKept_of_empty (fun _ => rfl) width rfl
  · exact kept

theorem withPending_cuesKept (rest : List Instr) (s : State) (kept : s.cuesKept) :
    { s with pending := rest : State }.cuesKept := by
  obtain ⟨blank, width, records⟩ := kept
  exact ⟨withPending_loadingBlank rest s blank, width, records⟩

theorem exec_cuesKept (c : Instr) (s : State) (kept : s.cuesKept) : ∃ t, exec c s = .next t ∧ t.cuesKept := by
  have ⟨blank, width, _⟩ := kept
  by_cases hc : KeepsLoading c
  · obtain ⟨t, run, stands⟩ := exec_cuesStand c s hc
    exact ⟨t, run, stands.cuesKept kept (next_of_exists (exec_loadingBlank c s blank) run)⟩
  · cases c with
    | powerOn straps =>
      have width : 1 ≤ Configuration.default.rowWidth := by decide
      exact ⟨_, rfl, cuesKept_of_empty (fun _ => rfl) width rfl⟩
    | resetnAssertion => exact ⟨_, rfl, cuesKept_of_empty (fun _ => rfl) width rfl⟩
    | resetnRelease straps => exact ⟨_, rfl, releaseReset_cuesKept straps s kept⟩
    | imageLoaded image => exact ⟨_, rfl, loadConfiguration_cuesKept image s kept⟩
    | _ => exact absurd ⟨by simp, by simp, by simp, by simp⟩ hc

/-- Settles O7: the settling of a tick's work and every command but the resets and an image load keep the form of every
record (`exec_cuesStand`); those that remain leave the schedule empty or as it is. -/
theorem cuesStayWithinTheRow : Obligations.CuesStayWithinTheRow := by
  unfold Obligations.CuesStayWithinTheRow
  intro s t kept run
  have ⟨blank, _, _⟩ := kept
  unfold step at run
  split at run
  · exact next_of_exists ⟨_, rfl, (settle_blockFrame s).cuesStand.cuesKept kept (settle_loadingBlank s blank)⟩ run
  · exact next_of_exists (exec_cuesKept _ _ (withPending_cuesKept _ s kept)) run

end Sys2Proof.Machine

/-! # An AMEND of a held segment -/

namespace Sys2Proof.Machine

/-! ### From a frame's end to an amend at intake (R122) -/

/-- A state in which intake takes an AMEND, in the terms of the state before the frame. -/
def AmendDue (s u : State) : Prop := u = { s with flags := u.flags, line := u.line, peers := u.peers }

theorem AmendDue.intake {s u : State} (h : AmendDue s u) : u.intake = s.intake := by unfold AmendDue at h; rw [h]

theorem AmendDue.sched {s u : State} (h : AmendDue s u) : u.sched = s.sched := by unfold AmendDue at h; rw [h]

/-- Another station's AMEND comes to intake at an output, and nothing follows it (R33, R122). -/
theorem receive_amend {rx : Rx} {b : AmendBody} {s : State} (h : s.hears rx (.amend b)) (foreign : s.foreignTo rx)
    (ho : s.cfg.role ≠ .writer) :
    ∃ u, AmendDue s u ∧ s.receive rx (.amend b) = u.intakeAmend rx.source b := by
  obtain e | ⟨f, flies, mine, -⟩ := receive_cases h
  · have pre := foreignEnd_prelude (.accepted rx.source (gradeOf s.cfg.quality rx.worst) rx.worst (.amend b)) s
    have counted := reported_rest rx.source (gradeOf s.cfg.quality rx.worst) rx.worst (.amend b)
      (s.foreignEnd (.accepted rx.source (gradeOf s.cfg.quality rx.worst) rx.worst (.amend b)))
    rw [e]
    generalize s.foreignEnd _ = v at pre counted
    have due : AmendDue s (v.reported rx.source (gradeOf s.cfg.quality rx.worst) rx.worst (.amend b)) := by
      unfold AmendDue
      rw [counted, pre.rest]
    have output : (v.reported rx.source (gradeOf s.cfg.quality rx.worst) rx.worst (.amend b)).hasOutput = true := by
      rw [hasOutput_iff, counted, pre.rest]
      exact ho
    exact ⟨_, due, if_pos output⟩
  · exact absurd mine (foreign.resolve_left (by simp [flies]))

/-! ### The newest held segment of a number (R122; equal numbers: log entry 20) -/

section
variable {x : Station} {m : Byte} {older newer : List HeldSegment} {g : HeldSegment}

theorem heldSegment_newest {k : Intake} (hold : k.hold = older ++ g :: newer) (source : g.source = x)
    (number : g.number = m) (behind : ∀ k ∈ newer, k.source ≠ x ∨ k.number ≠ m) : k.heldSegment x m = some g := by
  have passed : newer.reverse.find? (fun g => g.source == x && g.number == m) = none := by
    simpa [List.find?_eq_none, ← not_and_or] using behind
  simp [Intake.heldSegment, hold, passed, source, number]

theorem changeNewest_newest (f : HeldSegment → List HeldSegment) (source : g.source = x)
    (number : g.number = m) (behind : ∀ k ∈ newer, k.source ≠ x ∨ k.number ≠ m) :
    changeNewest x m f (older ++ g :: newer) = older ++ f g ++ newer := by
  have passed : ∀ k ∈ newer.reverse, (!(k.source == x && k.number == m)) = true := by
    simpa [← not_and_or] using behind
  have found : ¬ (fun k : HeldSegment => !(k.source == x && k.number == m)) g = true := by simp [source, number]
  unfold changeNewest
  rw [List.reverse_append, List.reverse_cons, List.append_assoc, List.singleton_append,
    List.span_eq_takeWhile_dropWhile, List.takeWhile_append_of_pos passed, List.dropWhile_append_of_pos passed,
    List.takeWhile_cons_of_neg (p := fun k : HeldSegment => !(k.source == x && k.number == m)) found,
    List.dropWhile_cons_of_neg (p := fun k : HeldSegment => !(k.source == x && k.number == m)) found]
  simp

theorem heldSegment_none {k : Intake} (free : ∀ g ∈ k.hold, g.source ≠ x ∨ g.number ≠ m) :
    k.heldSegment x m = none := by
  simpa [Intake.heldSegment, List.find?_eq_none, ← not_and_or] using free

theorem intakeAmend_late {b : AmendBody} {u : State} (hold : u.intake.hold = older ++ g :: newer)
    (source : g.source = x) (number : g.number = b.segment)
    (behind : ∀ k ∈ newer, k.source ≠ x ∨ k.number ≠ b.segment) (late : amendHeldWords b g.words = none) :
    u.intakeAmend x b = u.countLateAmend := by
  unfold State.intakeAmend
  rw [heldSegment_newest hold source number behind]
  simp only [late]

theorem intakeAmend_held {b : AmendBody} {u : State} {ws : List TimedWord}
    (hold : u.intake.hold = older ++ g :: newer) (source : g.source = x) (number : g.number = b.segment)
    (behind : ∀ k ∈ newer, k.source ≠ x ∨ k.number ≠ b.segment) (words : amendHeldWords b g.words = some ws) :
    u.intakeAmend x b = { u with intake.hold := older ++ g.withWords ws ++ newer } := by
  unfold State.intakeAmend
  rw [heldSegment_newest hold source number behind]
  simp only [words, hold, changeNewest_newest _ source number behind]

end

/-! ### The words of a held segment (R123) -/

theorem targets_iff (i : Nat) (op : AmendOp) (w : TimedWord) :
    op.targets i w = true ↔ i ≤ w.index ∧ w.index ≤ op.lastTarget i := by simp [AmendOp.targets]

theorem amendHeldWords_missed {b : AmendBody} {ws : List TimedWord} (h : ∀ w ∈ ws, w.index ≠ b.index.toNat) :
    amendHeldWords b ws = none := by
  unfold amendHeldWords
  rw [if_pos (by simpa using h)]

theorem amendHeldWords_delete {b : AmendBody} {ws : List TimedWord} {q : Byte} (op : b.op = .delete q)
    (some_word : 1 ≤ q.toNat) (held : ∃ w ∈ ws, w.index = b.index.toNat) :
    let kept := ws.filter fun w => w.index < b.index.toNat || b.index.toNat + q.toNat ≤ w.index
    amendHeldWords b ws = some (kept.map fun w =>
      if b.index.toNat < w.index then { w with index := w.index - (ws.length - kept.length) } else w) := by
  intro kept
  have kept_eq : (ws.filter fun w => !b.op.targets b.index.toNat w) = kept := by
    refine List.filter_congr fun w _ => ?_
    have target := targets_iff b.index.toNat b.op w
    rw [op, AmendOp.lastTarget] at target
    rw [op, Bool.eq_iff_iff, Bool.not_eq_true', ← Bool.not_eq_true, target]
    simp only [Bool.or_eq_true, decide_eq_true_eq]
    omega
  unfold amendHeldWords
  rw [if_neg (by simpa using held), kept_eq]
  simp only [op]

theorem amendHeldWords_full {b : AmendBody} {ws : List TimedWord} {ts : List Text} (op : b.op = .replace ts)
    (full : 32 < ws.length - 1 + ts.length) : amendHeldWords b ws = none := by
  unfold amendHeldWords
  simp only [op]
  rw [if_pos (show heldWordCapacity < ws.length - 1 + ts.length from full), ite_self]

theorem amendHeldWords_replace {b : AmendBody} {ts : List Text} {before after : List TimedWord} {w : TimedWord}
    (op : b.op = .replace ts) (target : w.index = b.index.toNat) (ahead : ∀ v ∈ before, v.index < w.index)
    (behind : ∀ v ∈ after, w.index < v.index) (room : before.length + ts.length + after.length ≤ 32) :
    amendHeldWords b (before ++ w :: after) =
      some (before ++ ts.mapIdx (fun j x => ⟨x, w.speech, w.index + j, 0⟩) ++
        after.map fun v => { v with index := v.index + ts.length - 1 }) := by
  have fits : ¬ heldWordCapacity < (before ++ w :: after).length - 1 + ts.length := by
    unfold heldWordCapacity
    simp only [List.length_append, List.length_cons]
    omega
  rw [target] at ahead behind
  have first : (before.flatMap fun v => if v.index = b.index.toNat then replacementWords b.index.toNat ts v
      else if b.index.toNat < v.index then [{ v with index := v.index + ts.length - 1 }] else [v]) = before := by
    refine (List.flatMap_congr fun v hv => ?_).trans (List.flatMap_singleton' before)
    have := ahead v hv
    rw [if_neg (by omega), if_neg (by omega)]
  have last : (after.flatMap fun v => if v.index = b.index.toNat then replacementWords b.index.toNat ts v
      else if b.index.toNat < v.index then [{ v with index := v.index + ts.length - 1 }] else [v]) =
      after.map fun v => { v with index := v.index + ts.length - 1 } := by
    rw [List.map_eq_flatMap]
    refine List.flatMap_congr fun v hv => ?_
    have := behind v hv
    rw [if_neg (by omega), if_pos (by omega)]
  unfold amendHeldWords
  simp only [op]
  rw [if_neg (by simp [target]), if_neg fits, List.flatMap_append, List.flatMap_cons, if_pos target, first, last,
    List.append_assoc, target]
  rfl

/-! ### What the frame leaves -/

theorem AmendDue.merged {s u t : State} (due : AmendDue s u) (frame : MergeFrame u t) :
    t = { s with flags := t.flags, line := t.line, peers := t.peers, intake := t.intake, sched := t.sched } := by
  unfold AmendDue at due
  unfold MergeFrame at frame
  rw [frame, due]

/-- An AMEND counted as late, and nothing else of the output's (R123, R152). -/
structure LateAmended (s t : State) : Prop where
  intake : t.intake = s.intake
  flag : hasFlag t.flags .outLateAmend = true
  sched : t.sched = { s.sched with lateAmends := rise s.sched.lateAmends 1 }

theorem AmendDue.late {s u : State} (due : AmendDue s u) : LateAmended s u.countLateAmend :=
  ⟨due.intake, raise_sets _ _, by rw [← due.sched]; rfl⟩

/-- An AMEND that names a held segment: it is late, or the words it leaves are the segment's (R122, R123). -/
structure HeldAmended (b : AmendBody) (older newer : List HeldSegment) (g : HeldSegment) (s t : State) : Prop where
  rest : t = { s with flags := t.flags, line := t.line, peers := t.peers, intake := t.intake, sched := t.sched }
  late : amendHeldWords b g.words = none → LateAmended s t
  held : ∀ ws, amendHeldWords b g.words = some ws →
    t.intake = { s.intake with hold := older ++ g.withWords ws ++ newer } ∧ t.sched = s.sched

theorem receive_heldAmended {rx : Rx} {b : AmendBody} {older newer : List HeldSegment} {g : HeldSegment} {s : State}
    (h : s.hears rx (.amend b)) (foreign : s.foreignTo rx) (ho : s.cfg.role ≠ .writer)
    (hold : s.intake.hold = older ++ g :: newer) (source : g.source = rx.source) (number : g.number = b.segment)
    (behind : ∀ k ∈ newer, k.source ≠ rx.source ∨ k.number ≠ b.segment) :
    HeldAmended b older newer g s (s.receive rx (.amend b)) := by
  obtain ⟨u, due, run⟩ := receive_amend h foreign ho
  rw [← due.intake] at hold
  rw [run]
  cases words : amendHeldWords b g.words with
  | none =>
    rw [intakeAmend_late hold source number behind words]
    exact ⟨due.merged rfl, fun _ => due.late, fun _ e => nomatch words.symm.trans e⟩
  | some ws =>
    rw [intakeAmend_held hold source number behind words]
    refine ⟨due.merged rfl, fun e => (nomatch words.symm.trans e), fun vs e => ?_⟩
    cases words.symm.trans e
    exact ⟨by rw [← due.intake], due.sched⟩

/-- A DELETE that parses removes a word (R31). -/
theorem delete_count_pos {b : AmendBody} {q : Byte} (parses : (FrameBody.amend b).parses = true)
    (op : b.op = .delete q) : 1 ≤ q.toNat := by
  simp only [FrameBody.parses, op, Bool.and_eq_true, decide_eq_true_eq] at parses
  exact parses.2.1

/-- A REPLACE that parses brings a word (R31). -/
theorem replace_count_pos {b : AmendBody} {ts : List Text} (parses : (FrameBody.amend b).parses = true)
    (op : b.op = .replace ts) : 1 ≤ ts.length := by
  simp only [FrameBody.parses, op, Bool.and_eq_true, decide_eq_true_eq] at parses
  exact parses.2.1.1

/-- Settles O40: the AMEND comes to intake, where it leaves the words of `amendHeldWords`, or is late where they are
none (`receive_heldAmended`). -/
theorem heldSegmentAmended : Obligations.HeldSegmentAmended := by
  unfold Obligations.HeldSegmentAmended
  intro rx b older newer g s h foreign ho hold source number behind
  have ⟨_, parses, _, _⟩ := h
  have amended := receive_heldAmended h foreign ho hold source number behind
  have late (none : amendHeldWords b g.words = none) :=
    have l := amended.late none
    And.intro l.intake (And.intro l.flag l.sched)
  refine ⟨_, exec_receptionOf rx (.amend b) s, amended.rest, fun missed => late (amendHeldWords_missed missed),
    ?_, ?_⟩
  · intro q op target kept closed
    have emptied : closed = [] ↔ kept = [] := List.map_eq_nil_iff
    have segment : g.withWords closed = if kept = [] then [] else [{ g with words := closed }] := by
      unfold HeldSegment.withWords
      simp only [List.isEmpty_iff, emptied]
    rw [← segment]
    exact amended.held _ (amendHeldWords_delete op (delete_count_pos parses op) target)
  · intro ts before after w op words target ahead behind'
    refine ⟨fun room => ?_, fun full => late (amendHeldWords_full op ?_)⟩
    · have replaced := amendHeldWords_replace op target ahead behind' room
      rw [← words] at replaced
      have brought := replace_count_pos parses op
      have filled : ts ≠ [] := List.length_pos_iff.mp brought
      have segment := amended.held _ replaced
      unfold HeldSegment.withWords at segment
      rwa [if_neg (by simp [filled])] at segment
    · rw [words, List.length_append, List.length_cons]
      omega

end Sys2Proof.Machine

/-! # The recompute and the drops of a placement -/

namespace Sys2Proof.Machine

/-! ### The recompute (R148) -/

theorem recomputeFrom_append (env : TimingEnv) (k : Frame) (cs ds ahead : List Cue) :
    recomputeFrom env k ahead (cs ++ ds) = recomputeFrom env k ahead cs ++
      recomputeFrom env k ((recomputeFrom env k ahead cs).reverse ++ ahead) ds := by
  induction cs generalizing ahead with
  | nil => rfl
  | cons c cs ih => simp [recomputeFrom, ih]

/-- A recompute goes on with the results just left. -/
theorem recompute_concat (env : TimingEnv) (k : Frame) (cs : List Cue) (c : Cue) :
    recompute env k (cs ++ [c]) = recompute env k cs ++
      [if c.shown then c else c.compute env k (recompute env k cs).reverse] := by
  unfold recompute
  rw [recomputeFrom_append, List.append_nil]
  rfl

theorem compute_compute (env : TimingEnv) (k : Frame) (ahead ahead' : List Cue) (c : Cue) :
    (c.compute env k ahead).compute env k ahead' = c.compute env k ahead' := rfl

/-- A record without what its computation gives it; a SHOWN one is not computed again (R131 to R138, R148). -/
def Cue.untimed (c : Cue) : Cue :=
  if c.shown then c
  else { c with k := 0, tIdeal := 0, tOn := 0, d := 0, tOff := 0, rung := 0, lamQ := 0, lam := 0 }

theorem untimed_shown {c : Cue} (h : c.shown = true) : c.untimed = c := if_pos h

@[simp] theorem shown_untimed (c : Cue) : c.untimed.shown = c.shown := by unfold Cue.untimed; split <;> rfl

theorem compute_untimed (env : TimingEnv) (k : Frame) (ahead : List Cue) (c : Cue) :
    c.untimed.compute env k ahead = c.compute env k ahead := by unfold Cue.untimed; split <;> rfl

theorem untimed_compute (env : TimingEnv) (k : Frame) (ahead : List Cue) {c : Cue} (h : c.shown = false) :
    (c.compute env k ahead).untimed = c.untimed := by
  have pending : (c.compute env k ahead).shown = false := h
  unfold Cue.untimed
  rw [h, pending]
  rfl

theorem recomputeFrom_untimed (env : TimingEnv) (k : Frame) (ahead cs : List Cue) :
    recomputeFrom env k ahead (cs.map Cue.untimed) = recomputeFrom env k ahead cs := by
  induction cs generalizing ahead with
  | nil => rfl
  | cons c cs ih =>
    have first : (if c.untimed.shown then c.untimed else c.untimed.compute env k ahead) =
        if c.shown then c else c.compute env k ahead := by
      rw [shown_untimed, compute_untimed]
      split
      · rename_i h; rw [untimed_shown h]
      · rfl
    simp only [List.map_cons, recomputeFrom, first, ih]

theorem untimed_recomputeFrom (env : TimingEnv) (k : Frame) (ahead cs : List Cue) :
    (recomputeFrom env k ahead cs).map Cue.untimed = cs.map Cue.untimed := by
  induction cs generalizing ahead with
  | nil => rfl
  | cons c cs ih =>
    simp only [recomputeFrom, List.map_cons, ih]
    congr 1
    split
    · rfl
    · rename_i h; exact untimed_compute env k ahead (by simpa using h)

theorem untimed_recompute (env : TimingEnv) (k : Frame) (cs : List Cue) :
    (recompute env k cs).map Cue.untimed = cs.map Cue.untimed := untimed_recomputeFrom env k [] cs

/-- A recompute reads nothing of the times it replaces. -/
theorem recompute_congr {env : TimingEnv} {k : Frame} {cs ds : List Cue}
    (h : cs.map Cue.untimed = ds.map Cue.untimed) : recompute env k cs = recompute env k ds := by
  unfold recompute
  rw [← recomputeFrom_untimed env k [] cs, h, recomputeFrom_untimed]

/-- What a record keeps through every recompute (R143, R148). -/
def Cue.kept (c : Cue) : Counter × Option SegKey × List TimedWord × Bool × Attrs :=
  (c.number, c.key, c.words, c.shown, c.attrs)

theorem kept_untimed (c : Cue) : c.untimed.kept = c.kept := by unfold Cue.untimed; split <;> rfl

theorem kept_of_untimed {cs ds : List Cue} (h : cs.map Cue.untimed = ds.map Cue.untimed) :
    cs.map Cue.kept = ds.map Cue.kept := by
  have through (l : List Cue) : l.map Cue.kept = (l.map Cue.untimed).map Cue.kept := by
    simp [List.map_map, Function.comp_def, kept_untimed]
  rw [through cs, h, ← through ds]

theorem shown_of_untimed {cs ds : List Cue} (h : cs.map Cue.untimed = ds.map Cue.untimed) :
    ∀ r ∈ cs, r.shown = true → r ∈ ds := by
  intro r hr shown
  have mem : r.untimed ∈ ds.map Cue.untimed := h ▸ List.mem_map_of_mem hr
  obtain ⟨q, hq, same⟩ := List.mem_map.mp mem
  have shown' : q.shown = true := by rw [← shown_untimed, same, shown_untimed, shown]
  rw [untimed_shown shown, untimed_shown shown'] at same
  exact same ▸ hq

/-! ### The oldest PENDING records (R146, R147) -/

section
variable {α β : Type} (p : α → Bool)

theorem eraseFirst_succ (n : Nat) (l : List α) : eraseFirst p (n + 1) l = eraseFirst p 1 (eraseFirst p n l) := by
  induction l generalizing n with
  | nil => cases n <;> rfl
  | cons a l ih =>
    cases n with
    | zero => rw [eraseFirst_zero]
    | succ n => cases ha : p a <;> simp [eraseFirst, ha, ih (n := n), ih (n := n + 1)]

theorem eraseFirst_map (q : β → Bool) (f : α → β) (h : ∀ a, q (f a) = p a) (n : Nat) (l : List α) :
    eraseFirst q n (l.map f) = (eraseFirst p n l).map f := by
  induction l generalizing n with
  | nil => cases n <;> rfl
  | cons a l ih =>
    cases n with
    | zero => simp [eraseFirst_zero]
    | succ n => cases ha : p a <;> simp [eraseFirst, h, ha, ih]

theorem eraseFirst_subset (n : Nat) (l : List α) : eraseFirst p n l ⊆ l := by
  induction l generalizing n with
  | nil => cases n <;> simp [eraseFirst]
  | cons a l ih =>
    cases n with
    | zero => rw [eraseFirst_zero]; exact List.Subset.refl _
    | succ n =>
      unfold eraseFirst
      split
      · exact List.subset_cons_of_subset a (ih n)
      · exact List.cons_subset_cons a (ih (n + 1))

end

/-- Whether a record is PENDING. -/
def isPending (c : Cue) : Bool := !c.shown

/-- The oldest PENDING record, past one at the end that is to be kept. -/
theorem removeOldestPending_append (keep : Option Counter) (cs tail : List Cue)
    (others : ∀ r ∈ cs, some r.number ≠ keep) :
    removeOldestPending keep (cs ++ tail) =
      if cs.any isPending then some (eraseFirst isPending 1 cs ++ tail)
      else (removeOldestPending keep tail).map (cs ++ ·) := by
  induction cs with
  | nil => simp
  | cons c cs ih =>
    have other : (some c.number != keep) = true := by simpa using others c List.mem_cons_self
    have first : removeOldestPending keep (c :: (cs ++ tail)) =
        if isPending c then some (cs ++ tail) else (removeOldestPending keep (cs ++ tail)).map (c :: ·) := by
      rw [removeOldestPending, other, Bool.and_true]; rfl
    rw [List.cons_append, first, List.any_cons, ih fun r hr => others r (List.mem_cons_of_mem _ hr)]
    cases hc : isPending c with
    | true => simp [eraseFirst, hc, eraseFirst_zero]
    | false =>
      simp only [Bool.false_or, Bool.false_eq_true, if_false]
      split <;> simp [eraseFirst, hc, Function.comp_def]

theorem removeOldestPending_none (cs : List Cue) :
    removeOldestPending none cs =
      if cs.any isPending then some (eraseFirst isPending 1 cs) else none := by
  have whole := removeOldestPending_append none cs [] (by simp)
  rwa [List.append_nil, List.append_nil] at whole

theorem removeOldestPending_last (cs : List Cue) (c : Cue) (others : ∀ r ∈ cs, r.number ≠ c.number) :
    removeOldestPending (some c.number) (cs ++ [c]) =
      if cs.any isPending then some (eraseFirst isPending 1 cs ++ [c]) else none := by
  have last : removeOldestPending (some c.number) [c] = none := by simp [removeOldestPending]
  rw [removeOldestPending_append _ _ _ (by simpa using others), last]
  rfl

theorem eraseFirst_one_length {cs : List Cue} (h : cs.any isPending = true) :
    (eraseFirst isPending 1 cs).length + 1 = cs.length := by
  obtain ⟨c, hc, pending⟩ := List.any_eq_true.mp h
  have := List.length_pos_of_mem hc
  rw [eraseFirst_one, List.length_eraseP_of_mem hc pending]
  omega

/-! ### The records after some drops -/

/-- The records left when the oldest PENDING ones have been dropped one after another, recomputed after each drop
(R146 to R148). -/
def afterDrops (env : TimingEnv) (now : Frame) (base : List Cue) (j : Nat) : List Cue :=
  if j = 0 then base else recompute env now (eraseFirst isPending j base)

section
variable (env : TimingEnv) (now : Frame) (base : List Cue) (j : Nat)

theorem afterDrops_untimed :
    (afterDrops env now base j).map Cue.untimed = (eraseFirst isPending j base).map Cue.untimed := by
  unfold afterDrops
  split
  · rename_i h; rw [h, eraseFirst_zero]
  · exact untimed_recompute env now _

/-- One more drop. -/
theorem afterDrops_succ :
    recompute env now (eraseFirst isPending 1 (afterDrops env now base j)) = afterDrops env now base (j + 1) := by
  have agree (c : Cue) : isPending c.untimed = isPending c := congrArg (! ·) (shown_untimed c)
  refine recompute_congr ?_
  rw [← eraseFirst_map isPending isPending Cue.untimed agree, afterDrops_untimed,
    ← eraseFirst_map isPending isPending Cue.untimed agree, ← eraseFirst_succ,
    eraseFirst_map isPending isPending Cue.untimed agree]

theorem recompute_length (k : Frame) (cs : List Cue) : (recompute env k cs).length = cs.length := by
  have := congrArg List.length (untimed_recompute env k cs)
  simpa using this

variable {env now base j}

theorem afterDrops_succ_length (h : (afterDrops env now base j).any isPending = true) :
    (afterDrops env now base (j + 1)).length + 1 = (afterDrops env now base j).length := by
  rw [← afterDrops_succ, recompute_length]
  exact eraseFirst_one_length h

theorem afterDrops_number {r : Cue} (h : r ∈ afterDrops env now base j) : ∃ q ∈ base, q.number = r.number := by
  have same := kept_of_untimed (afterDrops_untimed env now base j)
  obtain ⟨q, hq, e⟩ := List.mem_map.mp (same ▸ List.mem_map_of_mem (f := Cue.kept) h)
  exact ⟨q, eraseFirst_subset isPending j base hq, congrArg Prod.fst e⟩

end

/-! ### The catch-up (R147) -/

section
variable (env : TimingEnv) (now : Frame) (base : List Cue) (r : Cue)

/-- A new record as computed behind the records left after some drops (R145). -/
def joining (j : Nat) : Cue := r.compute env now (afterDrops env now base j).reverse

/-- The whole schedule with the new record at its tail. -/
def joined (j : Nat) : List Cue := afterDrops env now base j ++ [joining env now base r j]

/-- A catch-up with some drops made and some more to come: where the drops stop, and what is left (R147). -/
structure CatchesUp (fuel j : Nat) (h : Schedule) (caught : Nat) : Prop where
  length : (afterDrops env now base (j + caught)).length + caught = (afterDrops env now base j).length
  ends : (joining env now base r (j + caught)).lamQ ≤ env.cfg.lamDrop ∨
    ∀ q ∈ afterDrops env now base (j + caught), q.shown = true
  late : ∀ i, j ≤ i → i < j + caught → env.cfg.lamDrop < (joining env now base r i).lamQ
  run : h.catchUp env now fuel =
    ({ h with cues := joined env now base r (j + caught), catchUps := rise h.catchUps caught },
      if caught = 0 then 0#24 else Flag.mask .outCatchup)

variable (pending : r.shown = false)
include pending

theorem joined_succ (j : Nat) :
    recompute env now (eraseFirst isPending 1 (afterDrops env now base j) ++ [joining env now base r j]) =
      joined env now base r (j + 1) := by
  have stays : (joining env now base r j).shown = false := pending
  rw [recompute_concat, afterDrops_succ, stays]
  rfl

variable {env now base r}

/-- The catch-up drops the oldest PENDING records while the new one is too late and another is PENDING (R147). -/
theorem catchUp_drops (others : ∀ q ∈ base, q.number ≠ r.number) (fuel : Nat) {j : Nat} {h : Schedule}
    (cues : h.cues = joined env now base r j) (enough : (afterDrops env now base j).length < fuel) :
    ∃ caught, CatchesUp env now base r fuel j h caught := by
  induction fuel generalizing j h with
  | zero => omega
  | succ fuel ih =>
    have last : h.cues.getLast? = some (joining env now base r j) := by rw [cues]; exact List.getLast?_concat ..
    have stop (ends : (joining env now base r j).lamQ ≤ env.cfg.lamDrop ∨
          ∀ q ∈ afterDrops env now base j, q.shown = true) (run : h.catchUp env now (fuel + 1) = (h, 0#24)) :
        ∃ caught, CatchesUp env now base r (fuel + 1) j h caught :=
      ⟨0, rfl, ends, fun i _ _ => by omega, by rw [run, rise_zero, Nat.add_zero, ← cues]; rfl⟩
    by_cases punctual : (joining env now base r j).lamQ ≤ env.cfg.lamDrop
    · refine stop (.inl punctual) ?_
      unfold Schedule.catchUp
      simp only [last, if_pos punctual]
    have oldest := removeOldestPending_last (afterDrops env now base j) (joining env now base r j) fun q hq => by
      obtain ⟨q', hq', e⟩ := afterDrops_number hq
      exact e ▸ others q' hq'
    rw [show afterDrops env now base j ++ [joining env now base r j] = h.cues from cues.symm] at oldest
    by_cases more : (afterDrops env now base j).any isPending = true
    · rw [if_pos more] at oldest
      have shorter := afterDrops_succ_length more
      obtain ⟨caught, length, ends, late, run⟩ := ih (j := j + 1)
        (h := { h with cues := joined env now base r (j + 1), catchUps := rise h.catchUps 1 }) rfl (by omega)
      have ahead : j + 1 + caught = j + (caught + 1) := by omega
      rw [ahead] at length ends run
      refine ⟨caught + 1, by omega, ends, fun i hi hlt => ?_, ?_⟩
      · obtain rfl | hi := Nat.eq_or_lt_of_le hi
        · omega
        · exact late i hi (by omega)
      · unfold Schedule.catchUp
        simp only [last, if_neg punctual, oldest, joined_succ env now base r pending, run]
        rw [rise_rise, Nat.add_comm 1 caught, if_neg (Nat.succ_ne_zero caught)]
        split <;> simp
    · rw [if_neg more] at oldest
      refine stop (.inr fun q hq => ?_) ?_
      · by_contra unshown
        exact more (List.any_eq_true.mpr ⟨q, hq, by simpa [isPending] using unshown⟩)
      · unfold Schedule.catchUp
        simp only [last, if_neg punctual, oldest]

end

/-! ### The placement (R145, R146) -/

/-- A record after a placement of a cue with its key (R144, R145 step 1). -/
def Cue.retiredFor (key : SegKey) (words : List TimedWord) (r : Cue) : Cue :=
  if r.key = some key ∧ r.words ≠ [] ∧
      (r.words.head?.map fun w => (w.index, w.piece)) = words.head?.map fun w => (w.index, w.piece)
    then { r with key := none } else r

theorem retiredFor_shown (key : SegKey) (words : List TimedWord) (r : Cue) :
    (r.retiredFor key words).shown = r.shown := by unfold Cue.retiredFor; split <;> rfl

theorem retiredFor_number (key : SegKey) (words : List TimedWord) (r : Cue) :
    (r.retiredFor key words).number = r.number := by unfold Cue.retiredFor; split <;> rfl

theorem retiredFor_kept (key : SegKey) (words : List TimedWord) (r : Cue) :
    (r.retiredFor key words).kept = (r.number, (r.retiredFor key words).key, r.words, r.shown, r.attrs) := by
  unfold Cue.retiredFor; split <;> rfl

theorem fullKey_iff (key : SegKey) (w : TimedWord) (r : Cue) :
    r.fullKey = some (key, w.index, w.piece) ↔
      r.key = some key ∧ r.words.head?.map (fun w => (w.index, w.piece)) = some (w.index, w.piece) := by
  unfold Cue.fullKey
  cases r.key <;> cases r.words.head? <;> simp

theorem retireKey_eq (key : SegKey) (words : List TimedWord) (cs : List Cue) :
    retireKey key words cs = cs.map (Cue.retiredFor key words) := by
  unfold retireKey
  split
  · rename_i none
    have same (r : Cue) : r.retiredFor key words = r := by
      refine if_neg fun ⟨_, filled, first⟩ => ?_
      rw [none] at first
      simp [filled] at first
    exact ((List.map_congr_left fun r _ => same r).trans (List.map_id' cs)).symm
  · rename_i w first
    refine List.map_congr_left fun r _ => ?_
    unfold Cue.retiredFor
    rw [first, Option.map_some]
    refine if_congr ?_ rfl rfl
    rw [fullKey_iff]
    refine and_congr_right fun _ => ⟨fun e => ⟨?_, e⟩, fun e => e.2⟩
    rintro none
    rw [none] at e
    cases e

/-- The records that are dropped for room for one more (R146). -/
def Schedule.roomDrops (h : Schedule) : Nat := if h.cues.length < 64 then 0 else 1

/-- A full schedule has a PENDING record to drop. -/
def Schedule.canDrop (h : Schedule) : Prop := ¬ h.cues.length < 64 → h.cues.any isPending = true

/-- Room for a record: in a full schedule one drop, and otherwise none (R146). -/
theorem makeRoom_drops (env : TimingEnv) (now : Frame) (h : Schedule) (drop : h.canDrop) :
    h.makeRoom env now none =
        ({ h with
            cues := afterDrops env now h.cues h.roomDrops
            overflows := rise h.overflows h.roomDrops },
          if h.roomDrops = 0 then 0#24 else Flag.mask .outOverflow) ∧
      (afterDrops env now h.cues h.roomDrops).length + h.roomDrops = h.cues.length := by
  unfold Schedule.makeRoom Schedule.roomDrops
  by_cases room : h.cues.length < 64
  · have free : h.cues.length < scheduleCapacity := room
    simp only [if_pos room, if_pos free, rise_zero]
    exact ⟨rfl, rfl⟩
  · have full : ¬ h.cues.length < scheduleCapacity := room
    have oldest := removeOldestPending_none h.cues
    rw [if_pos (drop room)] at oldest
    simp only [if_neg room, if_neg full, oldest]
    exact ⟨rfl, afterDrops_succ_length (env := env) (now := now) (j := 0) (drop room)⟩

/-- The records of a schedule once a placement has retired its key (R145 step 1). -/
def Schedule.retiredFor (c : NewCue) (h : Schedule) : List Cue := h.cues.map (Cue.retiredFor c.key c.words)

/-- A placement with some catch-up drops: what it leaves, and where the drops stop (R145 to R147). -/
structure Placed (env : TimingEnv) (now : Frame) (c : NewCue) (h : Schedule) (caught : Nat) : Prop where
  run : h.place env now c =
    ({ h with
        cues := joined env now (h.retiredFor c) (c.record h.nextCue now) (h.roomDrops + caught)
        nextCue := h.nextCue + 1
        overflows := rise h.overflows h.roomDrops
        catchUps := rise h.catchUps caught },
      (if h.roomDrops = 0 then 0#24 else Flag.mask .outOverflow) |||
        if caught = 0 then 0#24 else Flag.mask .outCatchup)
  length : (afterDrops env now (h.retiredFor c) (h.roomDrops + caught)).length + h.roomDrops + caught = h.cues.length
  ends : (joining env now (h.retiredFor c) (c.record h.nextCue now) (h.roomDrops + caught)).lamQ ≤ env.cfg.lamDrop ∨
    ∀ q ∈ afterDrops env now (h.retiredFor c) (h.roomDrops + caught), q.shown = true
  late : ∀ i, h.roomDrops ≤ i → i < h.roomDrops + caught →
    env.cfg.lamDrop < (joining env now (h.retiredFor c) (c.record h.nextCue now) i).lamQ

theorem place_drops (env : TimingEnv) (now : Frame) (c : NewCue) (h : Schedule) (drop : h.canDrop)
    (others : ∀ r ∈ h.cues, r.number ≠ h.nextCue) : ∃ caught, Placed env now c h caught := by
  have numbers : ∀ q ∈ h.retiredFor c, q.number ≠ h.nextCue := by
    intro q hq
    obtain ⟨q', hq', rfl⟩ := List.mem_map.mp hq
    rw [retiredFor_number]
    exact others q' hq'
  have same : (h.retiredFor c).length = h.cues.length := List.length_map ..
  have drops : ({ h with cues := h.retiredFor c } : Schedule).roomDrops = h.roomDrops := by
    unfold Schedule.roomDrops; rw [same]
  have pending : (h.retiredFor c).any isPending = h.cues.any isPending := by
    unfold Schedule.retiredFor
    rw [List.any_map]
    exact congrArg h.cues.any (funext fun q => congrArg (! ·) (retiredFor_shown _ _ q))
  obtain ⟨room, roomLength⟩ := makeRoom_drops env now { h with cues := h.retiredFor c } (by
    unfold Schedule.canDrop; simp only [same, pending]; exact drop)
  simp only [drops, same] at room roomLength
  obtain ⟨caught, length, ends, late, run⟩ := catchUp_drops (env := env) (now := now)
    (r := c.record h.nextCue now) rfl numbers
    (joined env now (h.retiredFor c) (c.record h.nextCue now) h.roomDrops).length
    (h := { h with
      cues := joined env now (h.retiredFor c) (c.record h.nextCue now) h.roomDrops, nextCue := h.nextCue + 1
      overflows := rise h.overflows h.roomDrops }) rfl (by simp [joined])
  refine ⟨caught, ?_, by omega, ends, late⟩
  have retired : retireKey c.key c.words h.cues = h.retiredFor c := retireKey_eq ..
  unfold joined joining at run
  unfold Schedule.place
  simp only [retired, room, run]
  rfl

/-- Settles O39: a placement leaves the records that its drops leave and the new one computed behind them
(`place_drops`); drops and recomputes change nothing else of a record (`afterDrops_untimed`). -/
theorem placementDropsOldest : Obligations.PlacementDropsOldest := by
  unfold Obligations.PlacementDropsOldest
  refine ⟨fun env now => ⟨rfl, recompute_concat env now⟩, ?_⟩
  intro env now c h within full others first retired after
  have drop : h.canDrop := fun k => by
    obtain ⟨r, hr, pending⟩ := full (by omega)
    exact List.any_eq_true.mpr ⟨r, hr, by simp [isPending, pending]⟩
  obtain ⟨caught, placed⟩ := place_drops env now c h drop others
  have untimed := afterDrops_untimed env now (h.retiredFor c) (h.roomDrops + caught)
  have agree (r : Cue) : isPending (r.retiredFor c.key c.words) = isPending r := congrArg (! ·) (retiredFor_shown ..)
  refine ⟨afterDrops env now (h.retiredFor c) (h.roomDrops + caught),
    joining env now (h.retiredFor c) (c.record h.nextCue now) (h.roomDrops + caught), _, h.roomDrops, caught,
    placed.run, rfl, rfl, rfl, rfl, rfl, rfl, ?_, ?_, rfl, rfl, rfl, placed.length, ?_, ?_, placed.ends, placed.late,
    rfl⟩
  · intro w hw
    exact congrArg (fun o : Option TimedWord => (o.map (·.speech)).getD now) hw
  · intro w hw
    exact congrArg (fun o : Option TimedWord => (o.map (·.speech)).getD now) hw
  · have kept := kept_of_untimed untimed
    unfold Schedule.retiredFor at kept
    rw [eraseFirst_map isPending isPending _ agree, List.map_map] at kept
    exact kept.trans (List.map_congr_left fun r _ => retiredFor_kept c.key c.words r)
  · intro r hr shown
    exact eraseFirst_subset isPending _ _ (shown_of_untimed untimed r hr shown)

end Sys2Proof.Machine

/-! # Amends at the schedule: one record among others, and re-breaking -/

namespace Sys2Proof.Machine

/-! ### One record among others (R144) -/

/-- A schedule's records around one that no other shares its number with. -/
structure Amid (before after : List Cue) (c : Cue) (h : Schedule) : Prop where
  cues : h.cues = before ++ c :: after
  apart : ∀ r ∈ before ++ after, r.number ≠ c.number

section
variable {before after : List Cue} {c : Cue} {h : Schedule}

theorem Amid.ahead (amid : Amid before after c h) : ∀ r ∈ before, r.number ≠ c.number := fun r hr =>
  amid.apart r (List.mem_append_left _ hr)

theorem Amid.behind (amid : Amid before after c h) : ∀ r ∈ after, r.number ≠ c.number := fun r hr =>
  amid.apart r (List.mem_append_right _ hr)

theorem Amid.map (amid : Amid before after c h) (f : Cue → Cue) (number : ∀ r, (f r).number = r.number) :
    Amid (before.map f) (after.map f) (f c) { h with cues := h.cues.map f } := by
  obtain ⟨cues, apart⟩ := amid
  refine ⟨by simp [cues], fun r hr => ?_⟩
  rw [← List.map_append] at hr
  obtain ⟨q, hq, rfl⟩ := List.mem_map.mp hr
  rw [number, number]
  exact apart q hq

theorem Amid.find (amid : Amid before after c h) : h.find c.number = some c := by
  have passed : before.find? (·.number == c.number) = none := by simpa using amid.ahead
  simp [Schedule.find, amid.cues, passed]

theorem Amid.update (amid : Amid before after c h) (f : Cue → Cue) :
    h.update c.number f = { h with cues := before ++ f c :: after } := by
  have left (l : List Cue) (others : ∀ r ∈ l, r.number ≠ c.number) :
      (l.map fun r => if r.number = c.number then f r else r) = l :=
    (List.map_congr_left fun r hr => if_neg (others r hr)).trans (List.map_id' l)
  unfold Schedule.update
  rw [amid.cues, List.map_append, List.map_cons, left _ amid.ahead, left _ amid.behind, if_pos rfl]

theorem Amid.remove (amid : Amid before after c h) :
    h.remove c.number = { h with cues := before ++ after } := by
  have left (l : List Cue) (others : ∀ r ∈ l, r.number ≠ c.number) : l.filter (·.number != c.number) = l :=
    List.filter_eq_self.mpr fun r hr => by simpa using others r hr
  unfold Schedule.remove
  rw [amid.cues, List.filter_append, List.filter_cons_of_neg (by simp), left _ amid.ahead, left _ amid.behind]

end

theorem joinAfter_amid {before after : List Cue} {c : Cue} (r : Cue) (ahead : ∀ q ∈ before, q.number ≠ c.number) :
    joinAfter c.number r (before ++ c :: after) = before ++ c :: r :: after := by
  induction before with
  | nil => exact if_pos rfl
  | cons q before ih =>
    rw [List.cons_append, joinAfter, if_neg (ahead q List.mem_cons_self),
      ih fun q hq => ahead q (List.mem_cons_of_mem _ hq), List.cons_append]

/-! ### Keys retired by the further rows of a re-break (R144, R154) -/

/-- A record behind which some rows have joined: its key is retired where one of them begins with its first word. -/
def Cue.behindRows (key : SegKey) (rows : List (List TimedWord)) (r : Cue) : Cue :=
  if r.key = some key ∧ ∃ row ∈ rows, (row.head?.map fun w => (w.index, w.piece)) =
      r.words.head?.map fun w => (w.index, w.piece)
    then { r with key := none } else r

theorem behindRows_nil (key : SegKey) (r : Cue) : r.behindRows key [] = r := if_neg (by simp)

theorem behindRows_cons (key : SegKey) (row : List TimedWord) (rows : List (List TimedWord)) (filled : row ≠ [])
    (r : Cue) : r.behindRows key (row :: rows) = (r.retiredFor key row).behindRows key rows := by
  by_cases hit : r.key = some key ∧
      (row.head?.map fun w => (w.index, w.piece)) = r.words.head?.map fun w => (w.index, w.piece)
  · obtain ⟨mine, first⟩ := hit
    have words : r.words ≠ [] := by
      rintro none
      rw [none] at first
      simp [filled] at first
    have retired : r.retiredFor key row = { r with key := none } := if_pos ⟨mine, words, first.symm⟩
    rw [retired]
    unfold Cue.behindRows
    rw [if_pos ⟨mine, row, List.mem_cons_self, first⟩, if_neg (by simp)]
  · have left : r.retiredFor key row = r := if_neg fun ⟨mine, _, first⟩ => hit ⟨mine, first.symm⟩
    have rest : (r.key = some key ∧ ∃ q ∈ row :: rows, (q.head?.map fun w => (w.index, w.piece)) =
          r.words.head?.map fun w => (w.index, w.piece)) ↔
        r.key = some key ∧ ∃ q ∈ rows, (q.head?.map fun w => (w.index, w.piece)) =
          r.words.head?.map fun w => (w.index, w.piece) := by
      refine and_congr_right fun mine => ?_
      rw [List.exists_mem_cons_iff]
      exact or_iff_right fun first => hit ⟨mine, first⟩
    rw [left]
    unfold Cue.behindRows
    exact if_congr rest rfl rfl

/-! ### Further rows where there is room (R154) -/

/-- A further row of a re-broken record, as it joins (R154). -/
def Cue.furtherRow (now : Frame) (n : Counter) (row : List TimedWord) (c : Cue) : Cue :=
  { c with
    number := n, words := row, s := firstSpeech row now, e := lastSpeech row now, attrs := ⟨false, true, false⟩ }

/-- The further rows of a re-broken record as they stand when all have joined: a later one retires the key of an
earlier one that begins as it does. -/
def Cue.furtherRows (key : SegKey) (now : Frame) (n : Counter) (rows : List (List TimedWord)) (c : Cue) : List Cue :=
  rows.mapIdx fun j row => (c.furtherRow now (n + BitVec.ofNat 16 j) row).behindRows key (rows.drop (j + 1))

theorem nextNumber (n : Counter) (j : Nat) : n + BitVec.ofNat 16 (j + 1) = n + 1 + BitVec.ofNat 16 j := by
  rw [Nat.add_comm j 1, BitVec.ofNat_add, ← BitVec.add_assoc]; rfl

theorem furtherRows_cons (key : SegKey) (now : Frame) (n : Counter) (row : List TimedWord)
    (rows : List (List TimedWord)) (c : Cue) :
    c.furtherRows key now n (row :: rows) =
      (c.furtherRow now n row).behindRows key rows :: c.furtherRows key now (n + 1) rows := by
  unfold Cue.furtherRows
  rw [List.mapIdx_cons]
  congr 1
  · simp
  · refine congrArg (List.mapIdx · rows) (funext₂ fun j q => ?_)
    rw [nextNumber, List.drop_succ_cons]

/-- The numbers the further rows will take are free. -/
def Schedule.numbersFree (h : Schedule) (m : Nat) : Prop :=
  ∀ r ∈ h.cues, ∀ j, j < m → r.number ≠ h.nextCue + BitVec.ofNat 16 j

theorem rowBefore_last {h : Schedule} {broken n : Counter} {joined : List Counter}
    (last : joined.head?.getD broken = n) (held : ∃ r ∈ h.cues, r.number = n) : h.rowBefore broken joined = n := by
  unfold Schedule.rowBefore
  cases joined with
  | nil => exact last
  | cons m joined =>
    obtain rfl : m = n := last
    simp [held]

theorem makeRoom_free (env : TimingEnv) (now : Frame) (keep : Option Counter) (h : Schedule)
    (room : h.cues.length < 64) : h.makeRoom env now keep = (h, 0#24) := if_pos room

/-- A schedule in which some further rows of a re-broken record are about to join behind a row, with room and numbers
for all of them. -/
structure RowsDue (broken : Cue) (m : Nat) (joined : List Counter) (front : List Cue) (p : Cue) (back : List Cue)
    (h : Schedule) : Prop where
  cues : h.cues = front ++ p :: back
  ahead : ∀ r ∈ front, r.number ≠ p.number
  last : joined.head?.getD broken.number = p.number
  room : h.cues.length + m ≤ 64
  free : h.numbersFree m

/-- The schedule once one further row has joined (R144, R154). -/
def Schedule.withRow (key : SegKey) (now : Frame) (broken : Cue) (front : List Cue) (p : Cue) (back : List Cue)
    (row : List TimedWord) (h : Schedule) : Schedule :=
  { h with
    cues := front.map (·.retiredFor key row) ++ p.retiredFor key row :: broken.furtherRow now h.nextCue row ::
      back.map (·.retiredFor key row)
    nextCue := h.nextCue + 1 }

section
variable {key : SegKey} {broken : Cue} {m : Nat} {joined : List Counter} {front back : List Cue} {p : Cue}
  {h : Schedule}

theorem RowsDue.joins (due : RowsDue broken (m + 1) joined front p back h) (mine : broken.key = some key)
    (env : TimingEnv) (now : Frame) (row : List TimedWord) (rows : List (List TimedWord)) :
    h.joinRows env now broken joined (row :: rows) =
      (h.withRow key now broken front p back row).joinRows env now broken (h.nextCue :: joined) rows := by
  obtain ⟨cues, ahead, last, room, -⟩ := due
  have retired : retireKey key row h.cues =
      front.map (·.retiredFor key row) ++ p.retiredFor key row :: back.map (·.retiredFor key row) := by
    rw [retireKey_eq, cues, List.map_append, List.map_cons]
  have before : ({ h with cues := retireKey key row h.cues } : Schedule).rowBefore broken.number joined =
      (p.retiredFor key row).number := by
    rw [retiredFor_number]
    exact rowBefore_last last ⟨p.retiredFor key row, by simp [retired], retiredFor_number key row p⟩
  have roomy : ({ h with cues := retireKey key row h.cues } : Schedule).makeRoom env now (some broken.number) =
      ({ h with cues := retireKey key row h.cues }, 0#24) := by
    refine makeRoom_free _ _ _ _ ?_
    simp only [retireKey_eq, List.length_map]
    omega
  have joins := joinAfter_amid (before := front.map (·.retiredFor key row)) (c := p.retiredFor key row)
    (after := back.map (·.retiredFor key row)) (broken.furtherRow now h.nextCue row) (by
      simpa [retiredFor_number] using ahead)
  rw [← retired] at joins
  unfold Schedule.withRow Cue.furtherRow at *
  rw [Schedule.joinRows]
  simp only [mine] at joins
  simp only [mine, roomy, before, joins, BitVec.zero_or]

theorem RowsDue.next (due : RowsDue broken (m + 1) joined front p back h) (now : Frame) (row : List TimedWord) :
    RowsDue broken m (h.nextCue :: joined) (front.map (·.retiredFor key row) ++ [p.retiredFor key row])
      (broken.furtherRow now h.nextCue row) (back.map (·.retiredFor key row))
      (h.withRow key now broken front p back row) := by
  obtain ⟨cues, ahead, last, room, free⟩ := due
  have old (r : Cue) (hr : r ∈ (front ++ p :: back).map (·.retiredFor key row)) :
        ∃ q ∈ h.cues, q.number = r.number := by
    obtain ⟨q, hq, rfl⟩ := List.mem_map.mp hr
    exact ⟨q, cues ▸ hq, (retiredFor_number key row q).symm⟩
  refine ⟨by simp [Schedule.withRow], fun r hr => ?_, rfl, ?_, fun r hr j hj => ?_⟩
  · obtain ⟨q, hq, e⟩ := old r (by
      rw [List.map_append, List.map_cons, List.append_cons]
      exact List.mem_append_left _ hr)
    rw [← e]
    simpa [Cue.furtherRow] using free q hq 0 (Nat.succ_pos m)
  · rw [cues] at room
    simp only [Schedule.withRow, List.length_append, List.length_cons, List.length_map] at room ⊢
    omega
  · have known : r = broken.furtherRow now h.nextCue row ∨ r ∈ (front ++ p :: back).map (·.retiredFor key row) := by
      simp only [Schedule.withRow, List.mem_append, List.mem_cons, List.map_append, List.map_cons] at hr ⊢
      tauto
    have next : (h.withRow key now broken front p back row).nextCue + BitVec.ofNat 16 j =
        h.nextCue + BitVec.ofNat 16 (j + 1) := (nextNumber h.nextCue j).symm
    rw [next]
    obtain rfl | hr := known
    · have apart : BitVec.ofNat 16 (j + 1) ≠ 0#16 := fun e => by
        have := congrArg BitVec.toNat e
        simp only [BitVec.toNat_ofNat] at this
        omega
      exact fun e => apart (by simpa [Cue.furtherRow] using e.symm)
    · obtain ⟨q, hq, e⟩ := old r hr
      rw [← e]
      exact free q hq (j + 1) (by omega)

end

/-- Further rows joining one after another behind the row before them, in a schedule with room for all (R154). -/
theorem joinRows_room (env : TimingEnv) (now : Frame) {key : SegKey} {broken : Cue} (mine : broken.key = some key)
    (rows : List (List TimedWord)) (filled : ∀ row ∈ rows, row ≠ []) {joined : List Counter} {front back : List Cue}
    {p : Cue} {h : Schedule} (due : RowsDue broken rows.length joined front p back h) :
    h.joinRows env now broken joined rows =
      ({ h with
          cues := front.map (·.behindRows key rows) ++ p.behindRows key rows ::
            (broken.furtherRows key now h.nextCue rows ++ back.map (·.behindRows key rows))
          nextCue := h.nextCue + BitVec.ofNat 16 rows.length }, 0#24) := by
  induction rows generalizing joined front p back h with
  | nil =>
    unfold Schedule.joinRows
    simp [behindRows_nil, Cue.furtherRows, ← due.cues]
  | cons row rows ih =>
    have retired (r : Cue) : (r.retiredFor key row).behindRows key rows = r.behindRows key (row :: rows) :=
      (behindRows_cons key row rows (filled row List.mem_cons_self) r).symm
    rw [due.joins mine, ih (fun q hq => filled q (List.mem_cons_of_mem _ hq)) (due.next now row)]
    simp only [Schedule.withRow, List.map_append, List.map_map, Function.comp_def, retired, furtherRows_cons,
      List.length_cons, nextNumber]
    simp [retired]

/-! ### Re-breaking (R154) -/

theorem closeRow_filled {rows : List (List TimedWord)} {cur : List TimedWord} (h : ∀ r ∈ rows, r ≠ []) :
    ∀ r ∈ closeRow rows cur, r ≠ [] := by
  intro r hr
  unfold closeRow at hr
  split at hr
  · exact h r hr
  · rename_i open_row
    obtain hr | hr := List.mem_append.mp hr
    · exact h r hr
    · obtain rfl := List.mem_singleton.mp hr
      simpa using open_row

/-- Whatever the row width, no row is empty (R124). -/
theorem breakRows_filled (w : Nat) (ws : List TimedWord) : ∀ r ∈ breakRows w ws, r ≠ [] := by
  have build (ws : List TimedWord) (rows : List (List TimedWord)) (cur : List TimedWord) (h : ∀ r ∈ rows, r ≠ []) :
      ∀ r ∈ buildRows w rows cur ws, r ≠ [] := by
    induction ws generalizing rows cur with
    | nil => exact closeRow_filled h
    | cons word ws ih =>
      unfold buildRows
      simp only
      split
      · split
        · exact ih _ _ h
        · exact ih _ _ (closeRow_filled h)
      · refine ih _ _ fun r hr => ?_
        obtain hr | hr := List.mem_append.mp hr
        · exact closeRow_filled h r hr
        · obtain ⟨p, -, rfl⟩ := List.mem_map.mp hr
          simp
  exact build ws [] [] (by simp)

/-- A re-broken record with its first row: its s stands, and its e is the speech time of the row's last word. -/
def Cue.firstRow (row : List TimedWord) (c : Cue) : Cue := { c.amendWords row with e := lastSpeech row c.e }

theorem rebreak_room (env : TimingEnv) (now : Frame) {key : SegKey} {before after : List Cue} {c : Cue}
    {h : Schedule} {ws row : List TimedWord} {rows : List (List TimedWord)} (amid : Amid before after c h)
    (mine : c.key = some key) (broken : breakRows env.cfg.rowWidth ws = row :: rows)
    (room : h.cues.length + rows.length ≤ 64) (free : h.numbersFree rows.length) :
    h.rebreak env now c ws =
      ({ h with
          cues := before.map (·.behindRows key rows) ++ (c.firstRow row).behindRows key rows ::
            ((c.firstRow row).furtherRows key now h.nextCue rows ++ after.map (·.behindRows key rows))
          nextCue := h.nextCue + BitVec.ofNat 16 rows.length }, 0#24) := by
  have filled := breakRows_filled env.cfg.rowWidth ws
  rw [broken] at filled
  have due : RowsDue (c.firstRow row) rows.length [] before (c.firstRow row) after
      { h with cues := before ++ c.firstRow row :: after } := by
    refine ⟨rfl, amid.ahead, rfl, ?_, fun r hr j hj => ?_⟩
    · rw [amid.cues] at room
      simpa using room
    · have known : ∃ q ∈ h.cues, q.number = r.number := by
        rw [amid.cues]
        obtain hr | hr := List.mem_append.mp hr
        · exact ⟨r, List.mem_append_left _ hr, rfl⟩
        · obtain rfl | hr := List.mem_cons.mp hr
          · exact ⟨c, by simp, rfl⟩
          · exact ⟨r, by simp [hr], rfl⟩
      obtain ⟨q, hq, e⟩ := known
      rw [← e]
      exact free q hq j hj
  unfold Schedule.rebreak
  rw [broken]
  simp only [amid.update]
  exact joinRows_room env now (broken := c.firstRow row) mine rows
    (fun q hq => filled q (List.mem_cons_of_mem _ hq)) due

end Sys2Proof.Machine

/-! # An AMEND at the cue schedule -/

namespace Sys2Proof.Machine

/-! ### What an amend leaves of SHOWN records (R148) -/

/-- What the screen unit has of a record (R149, R160). -/
def Cue.screenTimes (c : Cue) : Counter × Bool × Frame × Nat × Frame := (c.number, c.shown, c.tOn, c.d, c.tOff)

/-- Every SHOWN record but those of one number is still there with its times. -/
def ShownStand (n : Counter) (cs ds : List Cue) : Prop :=
  ∀ r ∈ cs, r.shown = true → r.number ≠ n → ∃ q ∈ ds, q.screenTimes = r.screenTimes

section
variable {n : Counter}

theorem shownStand_of_mem {cs ds : List Cue} (h : ∀ r ∈ cs, r.shown = true → r.number ≠ n → r ∈ ds) :
    ShownStand n cs ds := fun r hr shown other => ⟨r, h r hr shown other, rfl⟩

theorem ShownStand.refl (cs : List Cue) : ShownStand n cs cs := shownStand_of_mem fun _ hr _ _ => hr

theorem ShownStand.after {as bs cs : List Cue} (k : ShownStand n bs cs) (h : ShownStand n as bs) :
    ShownStand n as cs := by
  intro r hr shown other
  obtain ⟨q, hq, e⟩ := h r hr shown other
  simp only [Cue.screenTimes, Prod.mk.injEq] at e
  obtain ⟨number, shows, tOn, d, tOff⟩ := e
  obtain ⟨q', hq', e'⟩ := k q hq (shows.trans shown) (number ▸ other)
  exact ⟨q', hq', e'.trans (by simp [Cue.screenTimes, number, shows, tOn, d, tOff])⟩

theorem shownStand_map (cs : List Cue) (f : Cue → Cue)
    (h : ∀ r ∈ cs, r.number ≠ n → (f r).screenTimes = r.screenTimes) :
    ShownStand n cs (cs.map f) := fun r hr _ other => ⟨f r, List.mem_map_of_mem hr, h r hr other⟩

theorem shownStand_recompute (env : TimingEnv) (now : Frame) (cs : List Cue) : ShownStand n cs (recompute env now cs) :=
  shownStand_of_mem fun r hr shown _ => shown_of_untimed (untimed_recompute env now cs).symm r hr shown

theorem shownStand_removeOldest {keep : Option Counter} {cs ds : List Cue} (h : removeOldestPending keep cs = some ds) :
    ShownStand n cs ds := by
  refine shownStand_of_mem ?_
  induction cs generalizing ds with
  | nil => cases h
  | cons c cs ih =>
    intro r hr shown other
    unfold removeOldestPending at h
    split at h
    · rename_i pending
      cases h
      obtain rfl | hr := List.mem_cons.mp hr
      · simp [shown] at pending
      · exact hr
    · obtain ⟨es, he, rfl⟩ := Option.map_eq_some_iff.mp h
      obtain rfl | hr := List.mem_cons.mp hr
      · exact List.mem_cons_self
      · exact List.mem_cons_of_mem _ (ih he r hr shown other)

theorem shownStand_makeRoom (env : TimingEnv) (now : Frame) (keep : Option Counter) (h : Schedule) :
    ShownStand n h.cues (h.makeRoom env now keep).1.cues := by
  unfold Schedule.makeRoom
  split
  · exact .refl _
  · split
    · exact .refl _
    · exact (shownStand_recompute env now _).after (shownStand_removeOldest ‹_›)

theorem shownStand_joinAfter (m : Counter) (r : Cue) (cs : List Cue) : ShownStand n cs (joinAfter m r cs) := by
  refine shownStand_of_mem fun q hq _ _ => ?_
  induction cs with
  | nil => cases hq
  | cons c cs ih =>
    unfold joinAfter
    obtain rfl | hq := List.mem_cons.mp hq
    · split <;> exact List.mem_cons_self
    · split
      · simp [hq]
      · exact List.mem_cons_of_mem _ (ih hq)

theorem shownStand_retireKey (key : SegKey) (ws : List TimedWord) (cs : List Cue) :
    ShownStand n cs (retireKey key ws cs) := by
  rw [retireKey_eq]
  refine shownStand_map _ _ fun r _ _ => ?_
  unfold Cue.retiredFor
  split <;> rfl

theorem shownStand_joinRows (env : TimingEnv) (now : Frame) (broken : Cue) (rows : List (List TimedWord))
    (joined : List Counter) (h : Schedule) :
    ShownStand n h.cues (h.joinRows env now broken joined rows).1.cues := by
  induction rows generalizing joined h with
  | nil => exact .refl _
  | cons row rows ih =>
    have retired : ShownStand n h.cues (match broken.key with
        | some k => { h with cues := retireKey k row h.cues }
        | none => h : Schedule).cues := by
      split
      · exact shownStand_retireKey _ row h.cues
      · exact .refl _
    unfold Schedule.joinRows
    exact (ih _ _).after ((shownStand_joinAfter _ _ _).after ((shownStand_makeRoom env now _ _).after retired))

theorem shownStand_update (f : Cue → Cue) (h : Schedule) : ShownStand n h.cues (h.update n f).cues :=
  shownStand_map _ _ fun r _ other => by rw [if_neg other]

theorem shownStand_remove (h : Schedule) : ShownStand n h.cues (h.remove n).cues :=
  shownStand_of_mem fun r hr _ other => List.mem_filter.mpr ⟨hr, by simpa using other⟩

theorem shownStand_amendPending (c : Cue) (ws : List TimedWord) (s : State) :
    ShownStand c.number s.sched.cues (s.amendPending c ws).1.sched.cues := by
  unfold State.amendPending
  split
  · exact shownStand_remove s.sched
  · split
    · exact shownStand_update _ s.sched
    · unfold Schedule.rebreak
      simp only
      split
      · exact .refl _
      · exact (shownStand_joinRows _ _ _ _ _ _).after (shownStand_update _ s.sched)

end

/-! ### The words of an amend (R152, R153) -/

theorem renumberAll_eq (i : Nat) (op : AmendOp) (ws : List TimedWord) :
    op.renumberAll i ws = ws.map (op.renumber i) := by
  refine List.map_congr_left fun w _ => ?_
  split
  · rename_i target
    obtain ⟨-, within⟩ := (targets_iff i op w).mp target
    exact (if_pos within).symm
  · rfl

/-- A record with the words behind an amend's last target renumbered, where it is of the segment (R152, step 5). -/
def Cue.renumbered (key : SegKey) (i : Nat) (op : AmendOp) (r : Cue) : Cue :=
  if r.key = some key then { r with words := r.words.map (op.renumber i) } else r

theorem ofSegment_iff (x : Station) (m : Byte) (c : Cue) : c.ofSegment x m = true ↔ c.key = some ⟨x, m⟩ := beq_iff_eq

theorem renumber_eq (x : Station) (m : Byte) (i : Nat) (op : AmendOp) (h : Schedule) :
    h.renumber x m i op = { h with cues := h.cues.map (Cue.renumbered ⟨x, m⟩ i op) } := by
  unfold Schedule.renumber Cue.renumbered
  simp only [ofSegment_iff, renumberAll_eq]

theorem renumbered_number (key : SegKey) (i : Nat) (op : AmendOp) (r : Cue) :
    (r.renumbered key i op).number = r.number := by unfold Cue.renumbered; split <;> rfl

theorem renumbered_screenTimes (key : SegKey) (i : Nat) (op : AmendOp) (r : Cue) :
    (r.renumbered key i op).screenTimes = r.screenTimes := by unfold Cue.renumbered; split <;> rfl

theorem renumbered_mine {key : SegKey} {c : Cue} (mine : c.key = some key) (i : Nat) (op : AmendOp) :
    c.renumbered key i op = { c with words := c.words.map (op.renumber i) } := if_pos mine

/-! ### The records an amend reaches (R152, steps 1 to 4) -/

theorem amendTargets_missed {x : Station} {m : Byte} {i : Nat} {op : AmendOp} {h : Schedule}
    (missed : ∀ r ∈ h.cues, r.key = some ⟨x, m⟩ → ∀ w ∈ r.words, op.targets i w = false) :
    h.amendTargets x m i op = [] := by
  unfold Schedule.amendTargets
  rw [List.map_eq_nil_iff, List.filter_eq_nil_iff]
  intro r hr held
  rw [Bool.and_eq_true, ofSegment_iff, List.any_eq_true] at held
  obtain ⟨mine, w, hw, target⟩ := held
  exact absurd target (by simp [missed r hr mine w hw])

/-- A schedule in which one record alone holds an amend's target words, piece 0 of a cut one among them. -/
structure OneTarget (key : SegKey) (i : Nat) (op : AmendOp) (before after : List Cue) (c : Cue) (h : Schedule) :
    Prop where
  amid : Amid before after c h
  mine : c.key = some key
  hit : ∃ w ∈ c.words, op.targets i w = true ∧ (w.piece = 0 ∨ ∃ q, op = .delete q)
  missed : ∀ r ∈ before ++ after, r.key = some key → ∀ w ∈ r.words, op.targets i w = false

section
variable {x : Station} {m : Byte} {i : Nat} {op : AmendOp} {before after : List Cue} {c : Cue} {h : Schedule}

theorem amendTargets_append (cs ds : List Cue) :
    ({ h with cues := cs ++ ds } : Schedule).amendTargets x m i op =
      ({ h with cues := cs } : Schedule).amendTargets x m i op ++
        ({ h with cues := ds } : Schedule).amendTargets x m i op := by simp [Schedule.amendTargets]

theorem holdsFirst_of {ws : List TimedWord} {w : TimedWord} (hw : w ∈ ws) (target : op.targets i w = true)
    (whole : w.piece = 0 ∨ ∃ q, op = .delete q) : op.holdsFirst i ws = true := by
  refine List.any_eq_true.mpr ⟨w, hw, ?_⟩
  rw [target, Bool.true_and]
  obtain piece | ⟨q, rfl⟩ := whole
  · cases op <;> simp [piece]
  · rfl

theorem OneTarget.targets (one : OneTarget ⟨x, m⟩ i op before after c h) :
    h.amendTargets x m i op = [⟨c.number, op.apply i c.words, true⟩] := by
  obtain ⟨⟨cues, -⟩, mine, ⟨w, hw, target, whole⟩, missed⟩ := one
  have first : op.holdsFirst i c.words = true := holdsFirst_of hw target whole
  have held : (c.ofSegment x m && c.words.any (op.targets i)) = true := by
    rw [Bool.and_eq_true, ofSegment_iff]
    exact ⟨mine, List.any_eq_true.mpr ⟨w, hw, target⟩⟩
  have sides (l : List Cue) (hl : ∀ r ∈ l, r ∈ before ++ after) :
      ({ h with cues := l } : Schedule).amendTargets x m i op = [] :=
    amendTargets_missed fun r hr => missed r (hl r hr)
  have alone : ({ h with cues := [c] } : Schedule).amendTargets x m i op =
      [⟨c.number, op.apply i c.words, true⟩] := by
    simp [Schedule.amendTargets, held, first]
  have split : h = { h with cues := before ++ ([c] ++ after) } := by rw [List.singleton_append, ← cues]
  rw [split, amendTargets_append, amendTargets_append, sides before (fun r => List.mem_append_left _), alone,
    sides after (fun r => List.mem_append_right _)]
  rfl

end

/-! ### The course of an amend (R152) -/

/-- The state once an amend has renumbered the words it does not target (R152, step 5; log entry 16). -/
def State.renumbered (x : Station) (b : AmendBody) (s : State) : State :=
  { s with sched.cues := s.sched.cues.map (Cue.renumbered ⟨x, b.segment⟩ b.index.toNat b.op) }

theorem renumbered_eq (x : Station) (b : AmendBody) (s : State) :
    { s with sched := s.sched.renumber x b.segment b.index.toNat b.op } = s.renumbered x b := by
  rw [renumber_eq]; rfl

/-- An amend with no target word in the schedule is late (R152, step 3). -/
theorem scheduleAmend_missed {x : Station} {b : AmendBody} {s : State}
    (missed : ∀ r ∈ s.sched.cues, r.key = some ⟨x, b.segment⟩ → ∀ w ∈ r.words, b.op.targets b.index.toNat w = false) :
    s.scheduleAmend x b = (s.renumbered x b).countLateAmend := by
  unfold State.scheduleAmend
  simp only [amendTargets_missed missed, renumbered_eq]
  rfl

section
variable {x : Station} {b : AmendBody} {before after : List Cue} {c : Cue} {s : State}

/-- The record the amend reaches, renumbered, among the others. -/
theorem OneTarget.renumbered (one : OneTarget ⟨x, b.segment⟩ b.index.toNat b.op before after c s.sched) :
    Amid (before.map (Cue.renumbered ⟨x, b.segment⟩ b.index.toNat b.op))
      (after.map (Cue.renumbered ⟨x, b.segment⟩ b.index.toNat b.op))
      (c.renumbered ⟨x, b.segment⟩ b.index.toNat b.op) (s.renumbered x b).sched :=
  one.amid.map _ fun r => renumbered_number _ _ _ r

theorem scheduleAmend_shown (one : OneTarget ⟨x, b.segment⟩ b.index.toNat b.op before after c s.sched)
    (shown : c.shown = true) :
    s.scheduleAmend x b = ((s.renumbered x b).amendShown (c.renumbered ⟨x, b.segment⟩ b.index.toNat b.op)
      (b.op.apply b.index.toNat c.words) true).1 := by
  have found := one.renumbered.find
  have shown' : (c.renumbered ⟨x, b.segment⟩ b.index.toNat b.op).shown = true := by
    rw [renumbered_mine one.mine]; exact shown
  rw [renumbered_number] at found
  unfold State.scheduleAmend
  simp only [one.targets, renumbered_eq, List.foldl_cons, List.foldl_nil, AmendCourse.step, found, shown']
  simp

theorem scheduleAmend_pending (one : OneTarget ⟨x, b.segment⟩ b.index.toNat b.op before after c s.sched)
    (pending : c.shown = false) :
    let r := (s.renumbered x b).amendPending (c.renumbered ⟨x, b.segment⟩ b.index.toNat b.op)
      (b.op.apply b.index.toNat c.words)
    s.scheduleAmend x b = if r.2 then r.1.recomputeNow else r.1 := by
  have found := one.renumbered.find
  have pending' : (c.renumbered ⟨x, b.segment⟩ b.index.toNat b.op).shown = false := by
    rw [renumbered_mine one.mine]; exact pending
  rw [renumbered_number] at found
  unfold State.scheduleAmend
  simp only [one.targets, renumbered_eq, List.foldl_cons, List.foldl_nil, AmendCourse.step, found, pending']
  simp

end

end Sys2Proof.Machine

/-! # What an AMEND leaves of a schedule in which one record holds its words -/

namespace Sys2Proof.Machine

/-! ### What no amend touches -/

theorem amendShown_intake (c : Cue) (ws : List TimedWord) (counted : Bool) (s : State) :
    (s.amendShown c ws counted).1.intake = s.intake := by
  unfold State.amendShown
  split
  · split <;> rfl
  · split
    · rfl
    · split <;> rfl

/-- An amend of a PENDING record is the schedule's and the flags' (R153 to R155). -/
theorem amendPending_rest (c : Cue) (ws : List TimedWord) (s : State) :
    (s.amendPending c ws).1 =
      { s with flags := (s.amendPending c ws).1.flags, sched := (s.amendPending c ws).1.sched } := by
  unfold State.amendPending
  split
  · rfl
  · split <;> rfl

theorem amendPending_intake (c : Cue) (ws : List TimedWord) (s : State) :
    (s.amendPending c ws).1.intake = s.intake := by rw [amendPending_rest]

theorem amendCourse_intake (anyFirst : Bool) (a : AmendCourse) (t : AmendTarget) :
    (a.step anyFirst t).state.intake = a.state.intake := by
  unfold AmendCourse.step
  split
  · rfl
  · split
    · rfl
    · simp only
      split
      · exact amendShown_intake _ _ _ _
      · exact amendPending_intake _ _ _

theorem scheduleAmend_intake (x : Station) (b : AmendBody) (s : State) : (s.scheduleAmend x b).intake = s.intake := by
  have fold (anyFirst : Bool) (ts : List AmendTarget) (a : AmendCourse) :
      (ts.foldl (AmendCourse.step anyFirst) a).state.intake = a.state.intake := by
    induction ts generalizing a with
    | nil => rfl
    | cons t ts ih => exact (ih _).trans (amendCourse_intake anyFirst a t)
  unfold State.scheduleAmend
  simp only
  split
  · rfl
  · split
    · exact fold _ _ _
    · exact fold _ _ _

/-- An AMEND that came to the schedule, with all it may have changed (R152). -/
theorem AmendDue.scheduled {s u t : State} (due : AmendDue s u) (frame : AmendFrame u t) (held : t.intake = u.intake) :
    t = { s with flags := t.flags, line := t.line, peers := t.peers, sched := t.sched, screen := t.screen } := by
  unfold AmendDue at due
  unfold AmendFrame at frame
  rw [frame, held, due]

/-! ### The one record that holds the words -/

section
variable {key : SegKey} {c : Cue} (mine : c.key = some key) (i : Nat) (op : AmendOp)
include mine

theorem renumbered_amendWords (ws : List TimedWord) : (c.renumbered key i op).amendWords ws = c.amendWords ws := by
  rw [renumbered_mine mine]; rfl

theorem renumbered_firstRow {row : List TimedWord} : (c.renumbered key i op).firstRow row = c.firstRow row := by
  rw [renumbered_mine mine]; rfl

end

theorem lastSpeech_filled {ws : List TimedWord} (filled : ws ≠ []) (d e : Frame) :
    lastSpeech ws d = lastSpeech ws e := by
  simp [lastSpeech, List.getLast?_eq_some_getLast filled]

section
variable {x : Station} {b : AmendBody} {before after : List Cue} {c : Cue} {s : State}

/-- The schedule with some records in the place of the one the amend reaches, the others renumbered. -/
def State.around (x : Station) (b : AmendBody) (before after cs : List Cue) (s : State) : Schedule :=
  { s.sched with
    cues := before.map (Cue.renumbered ⟨x, b.segment⟩ b.index.toNat b.op) ++ cs ++
      after.map (Cue.renumbered ⟨x, b.segment⟩ b.index.toNat b.op) }

section
variable (one : OneTarget ⟨x, b.segment⟩ b.index.toNat b.op before after c s.sched)
include one

theorem OneTarget.around : (s.renumbered x b).sched =
    s.around x b before after [c.renumbered ⟨x, b.segment⟩ b.index.toNat b.op] := by
  unfold State.renumbered State.around
  simp [one.amid.cues]

theorem OneTarget.removed : (s.renumbered x b).sched.remove c.number = s.around x b before after [] := by
  have removed := one.renumbered.remove
  rw [renumbered_number] at removed
  rw [removed]
  simp [State.around, State.renumbered]

theorem OneTarget.updated (f : Cue → Cue) : (s.renumbered x b).sched.update c.number f =
    s.around x b before after [f (c.renumbered ⟨x, b.segment⟩ b.index.toNat b.op)] := by
  have updated := one.renumbered.update f
  rw [renumbered_number] at updated
  rw [updated]
  simp [State.around, State.renumbered]

/-! ### A PENDING record (R153 to R155) -/

section
variable (pending : c.shown = false)
include pending

theorem scheduleAmend_emptied (emptied : b.op.apply b.index.toNat c.words = []) :
    s.scheduleAmend x b = ({ s with sched := s.around x b before after [] }).recomputeNow := by
  rw [scheduleAmend_pending one pending, emptied]
  unfold State.amendPending
  simp only [List.isEmpty_nil, if_true, renumbered_number, one.removed]
  rfl

theorem scheduleAmend_rewritten (filled : b.op.apply b.index.toNat c.words ≠ [])
    (fits : rowLength (b.op.apply b.index.toNat c.words) ≤ s.cfg.rowWidth) :
    s.scheduleAmend x b = { s with
      sched := s.around x b before after
        [(c.amendWords (b.op.apply b.index.toNat c.words)).durationOnly s.cfg] } := by
  rw [scheduleAmend_pending one pending]
  unfold State.amendPending
  have fits' : rowLength (b.op.apply b.index.toNat c.words) ≤ (s.renumbered x b).cfg.rowWidth := fits
  simp only [List.isEmpty_iff, filled, if_false, if_pos fits', renumbered_number, one.updated,
    renumbered_amendWords one.mine]
  rfl

theorem scheduleAmend_broken {row : List TimedWord} {rows : List (List TimedWord)}
    (long : s.cfg.rowWidth < rowLength (b.op.apply b.index.toNat c.words))
    (broken : breakRows s.cfg.rowWidth (b.op.apply b.index.toNat c.words) = row :: rows)
    (room : s.sched.cues.length + rows.length ≤ 64) (free : s.sched.numbersFree rows.length) :
    (s.scheduleAmend x b).sched = { s.sched with
      cues := recompute s.timingEnv s.clock.count
        (before.map (fun r => (r.renumbered ⟨x, b.segment⟩ b.index.toNat b.op).behindRows ⟨x, b.segment⟩ rows) ++
          [(c.firstRow row).behindRows ⟨x, b.segment⟩ rows] ++
          c.furtherRows ⟨x, b.segment⟩ s.clock.count s.sched.nextCue rows ++
          after.map fun r => (r.renumbered ⟨x, b.segment⟩ b.index.toNat b.op).behindRows ⟨x, b.segment⟩ rows)
      nextCue := s.sched.nextCue + BitVec.ofNat 16 rows.length } := by
  have mine : (c.renumbered ⟨x, b.segment⟩ b.index.toNat b.op).key = some ⟨x, b.segment⟩ := by
    rw [renumbered_mine one.mine]; exact one.mine
  have free' : (s.renumbered x b).sched.numbersFree rows.length := by
    intro r hr
    obtain ⟨q, hq, rfl⟩ := List.mem_map.mp hr
    rw [renumbered_number]
    exact free q hq
  have filled : b.op.apply b.index.toNat c.words ≠ [] := by
    intro none
    rw [none] at broken
    cases broken
  have long' : ¬rowLength (b.op.apply b.index.toNat c.words) ≤ (s.renumbered x b).cfg.rowWidth := Nat.not_le.mpr long
  have rebroken := rebreak_room (s.renumbered x b).timingEnv (s.renumbered x b).clock.count one.renumbered mine broken
    (by simpa [State.renumbered] using room) free'
  rw [renumbered_firstRow one.mine] at rebroken
  rw [scheduleAmend_pending one pending]
  unfold State.amendPending
  simp only [List.isEmpty_iff, filled, if_false, long']
  rw [rebroken]
  simp only [List.map_map, List.append_assoc, List.cons_append, List.nil_append]
  rfl

theorem scheduleAmend_screen : (s.scheduleAmend x b).screen = s.screen := by
  have screen (ws : List TimedWord) (r : Cue) : ((s.renumbered x b).amendPending r ws).1.screen = s.screen := by
    rw [amendPending_rest]; rfl
  rw [scheduleAmend_pending one pending]
  split
  · exact screen _ _
  · exact screen _ _

theorem scheduleAmend_shownStand : ShownStand c.number s.sched.cues (s.scheduleAmend x b).sched.cues := by
  have first : ShownStand c.number s.sched.cues (s.renumbered x b).sched.cues :=
    shownStand_map _ _ fun r _ _ => renumbered_screenTimes _ _ _ r
  have amended := shownStand_amendPending (c.renumbered ⟨x, b.segment⟩ b.index.toNat b.op)
    (b.op.apply b.index.toNat c.words) (s.renumbered x b)
  rw [renumbered_number] at amended
  rw [scheduleAmend_pending one pending]
  split
  · exact (shownStand_recompute _ _ _).after (amended.after first)
  · exact amended.after first

end

/-! ### A SHOWN record (R156, R161) -/

section
variable (shown : c.shown = true)
include shown

theorem scheduleAmend_discarded (hidden : s.cfg.visibleAmends = false) :
    s.scheduleAmend x b = { s with
      sched := { s.around x b before after [c.renumbered ⟨x, b.segment⟩ b.index.toNat b.op] with
        amendsDiscarded := rise s.sched.amendsDiscarded 1 } } := by
  have hidden' : (s.renumbered x b).cfg.visibleAmends = false := hidden
  rw [scheduleAmend_shown one shown, ← one.around]
  unfold State.amendShown
  simp only [hidden', Bool.not_false, if_true]
  rfl

section
variable (visible : s.cfg.visibleAmends = true)
include visible

theorem scheduleAmend_takenOff (emptied : b.op.apply b.index.toNat c.words = []) :
    s.scheduleAmend x b = { s with
      sched := s.around x b before after []
      screen := { s.screen with
        visible := s.screen.visible.filter fun v => v.number != c.number, mark := true } } := by
  have visible' : (s.renumbered x b).cfg.visibleAmends = true := visible
  rw [scheduleAmend_shown one shown, emptied]
  unfold State.amendShown State.takeOff
  simp only [visible', Bool.not_true, List.isEmpty_nil, if_true, renumbered_number, one.removed]
  rfl

theorem scheduleAmend_refused (filled : b.op.apply b.index.toNat c.words ≠ [])
    (long : s.cfg.rowWidth < rowLength (b.op.apply b.index.toNat c.words)) :
    s.scheduleAmend x b = { s with
      sched := { s.around x b before after [c.renumbered ⟨x, b.segment⟩ b.index.toNat b.op] with
        amendsRefused := rise s.sched.amendsRefused 1 } } := by
  have visible' : (s.renumbered x b).cfg.visibleAmends = true := visible
  have long' : (s.renumbered x b).cfg.rowWidth < rowLength (b.op.apply b.index.toNat c.words) := long
  rw [scheduleAmend_shown one shown, ← one.around]
  unfold State.amendShown
  simp only [visible', Bool.not_true, List.isEmpty_iff, filled, if_false, if_pos long']
  rfl

theorem scheduleAmend_rewrites (filled : b.op.apply b.index.toNat c.words ≠ [])
    (fits : rowLength (b.op.apply b.index.toNat c.words) ≤ s.cfg.rowWidth) :
    s.scheduleAmend x b = State.rewriteVisible c.number (joinText (wordTexts (b.op.apply b.index.toNat c.words)))
      { s with sched := s.around x b before after [c.amendWords (b.op.apply b.index.toNat c.words)] } := by
  have visible' : (s.renumbered x b).cfg.visibleAmends = true := visible
  have fits' : ¬(s.renumbered x b).cfg.rowWidth < rowLength (b.op.apply b.index.toNat c.words) := Nat.not_lt.mpr fits
  rw [scheduleAmend_shown one shown]
  unfold State.amendShown
  simp only [visible', Bool.not_true, List.isEmpty_iff, filled, if_false, fits', renumbered_number, one.updated,
    renumbered_amendWords one.mine]
  rfl

end

end

end

end

end Sys2Proof.Machine

/-! # The AMEND at the cue schedule settled -/

namespace Sys2Proof.Machine

theorem AmendDue.screen {s u : State} (h : AmendDue s u) : u.screen = s.screen := by unfold AmendDue at h; rw [h]

theorem AmendDue.cfg {s u : State} (h : AmendDue s u) : u.cfg = s.cfg := by unfold AmendDue at h; rw [h]

theorem AmendDue.clock {s u : State} (h : AmendDue s u) : u.clock = s.clock := by unfold AmendDue at h; rw [h]

/-- Another station's AMEND that no held segment is the segment of comes to the schedule (R122, R152). -/
theorem receive_scheduled {rx : Rx} {b : AmendBody} {s : State} (h : s.hears rx (.amend b)) (foreign : s.foreignTo rx)
    (ho : s.cfg.role ≠ .writer) (free : ∀ g ∈ s.intake.hold, g.source ≠ rx.source ∨ g.number ≠ b.segment) :
    ∃ u, AmendDue s u ∧ s.receive rx (.amend b) = u.scheduleAmend rx.source b := by
  obtain ⟨u, due, run⟩ := receive_amend h foreign ho
  refine ⟨u, due, run.trans ?_⟩
  rw [← due.intake] at free
  unfold State.intakeAmend
  rw [heldSegment_none free]

theorem targets_false {i : Nat} {op : AmendOp} {w : TimedWord} (miss : ¬(i ≤ w.index ∧ w.index ≤ op.lastTarget i)) :
    op.targets i w = false := Bool.eq_false_iff.mpr fun hit => miss ((targets_iff i op w).mp hit)

/-- The words an amend leaves, its targets told by their indices (R152, R153). -/
theorem apply_words (i : Nat) (op : AmendOp) (ws : List TimedWord) :
    op.apply i ws = ws.flatMap fun w : TimedWord =>
      if i ≤ w.index ∧ w.index ≤ op.lastTarget i then
        match op with
        | .delete _ => []
        | .replace ts => if w.piece = 0 then replacementWords i ts w else []
      else [op.renumber i w] := by
  refine List.flatMap_congr fun w _ => ?_
  by_cases target : i ≤ w.index ∧ w.index ≤ op.lastTarget i
  · exact (if_pos ((targets_iff i op w).mpr target)).trans (if_pos target).symm
  · exact (if_neg (mt (targets_iff i op w).mp target)).trans (if_neg target).symm

/-- A renumbered record keeps its target words as they were (R152, step 5). -/
theorem renumbered_words {key : SegKey} {c : Cue} (mine : c.key = some key) (i : Nat) (op : AmendOp) :
    c.renumbered key i op = { c with words := c.words.map fun w =>
      if i ≤ w.index ∧ w.index ≤ op.lastTarget i then w else op.renumber i w } := by
  rw [renumbered_mine mine]
  refine congrArg (fun ws => { c with words := ws }) (List.map_congr_left fun w _ => ?_)
  by_cases target : i ≤ w.index ∧ w.index ≤ op.lastTarget i
  · rw [if_pos target]; exact if_pos target.2
  · rw [if_neg target]

/-- Settles O41: the AMEND comes to the schedule (`receive_scheduled`), where it is late (`scheduleAmend_missed`) or
changes the one record that holds its words, by what the record is and what its new text is. -/
theorem scheduleAmended : Obligations.ScheduleAmended := by
  unfold Obligations.ScheduleAmended
  intro rx b s h foreign ho free key first last target moved kept env
  obtain ⟨u, due, run⟩ := receive_scheduled h foreign ho free
  have rest := due.scheduled (scheduleAmend_amendFrame rx.source b u) (scheduleAmend_intake rx.source b u)
  refine ⟨_, exec_receptionOf rx (.amend b) s, run ▸ rest, ?_⟩
  rw [run]
  refine ⟨fun clear => ?_, ?_⟩
  · rw [← due.sched] at clear ⊢
    rw [scheduleAmend_missed fun r hr mine w hw => targets_false (clear r hr mine w hw)]
    exact ⟨raise_sets _ _, due.screen, rfl⟩
  intro before after c cues mine hit others ws around amended
  obtain ⟨w, hw, hits, whole⟩ := hit
  have one : OneTarget key first b.op before after c u.sched :=
    { amid := ⟨due.sched ▸ cues, fun r hr => (others r hr).1⟩
      mine := mine
      hit := ⟨w, hw, (targets_iff first b.op w).mpr hits, whole⟩
      missed := fun r hr mine w hw => targets_false ((others r hr).2 mine w hw) }
  have words : b.op.apply first c.words = ws := apply_words first b.op c.words
  have left : c.renumbered key first b.op = { c with words := c.words.map fun w =>
      if first ≤ w.index ∧ w.index ≤ last then w else moved w } := renumbered_words mine first b.op
  simp only [← due.sched, ← due.screen, ← due.cfg, ← due.clock, ← words, ← left]
  refine ⟨fun pending => ⟨scheduleAmend_screen one pending, ?_, ?_, ?_, ?_⟩, fun shown =>
    ⟨fun hidden => ?_, fun visible => ⟨?_, ?_, ?_⟩⟩⟩
  · intro emptied
    rw [scheduleAmend_emptied one pending emptied, due.cfg, due.screen]
    rfl
  · intro filled fits
    rw [scheduleAmend_rewritten one pending filled fits]
    rfl
  · intro row rows long broken room free
    have filled : row ≠ [] := breakRows_filled _ _ row (broken ▸ List.mem_cons_self)
    have firstRow : c.firstRow row = { amended row with e := lastSpeech row u.clock.count } := by
      unfold Cue.firstRow
      rw [lastSpeech_filled filled c.e u.clock.count]
      rfl
    rw [scheduleAmend_broken one pending long broken room free, firstRow, State.timingEnv, due.cfg, due.screen]
    rfl
  · intro r hr shown
    have stands := scheduleAmend_shownStand one pending r (by
      rw [one.amid.cues]; simp only [List.mem_append, List.mem_cons] at hr ⊢; tauto) shown (others r hr).1
    simpa [Cue.screenTimes, shown] using stands
  · rw [scheduleAmend_discarded one shown hidden]
    exact ⟨rfl, rfl⟩
  · intro emptied
    rw [scheduleAmend_takenOff one shown visible emptied]
    exact ⟨rfl, rfl⟩
  · intro filled long
    rw [scheduleAmend_refused one shown visible filled long]
    exact ⟨rfl, rfl⟩
  · intro filled fits
    rw [scheduleAmend_rewrites one shown visible filled fits]
    exact ⟨rfl, rfl⟩

end Sys2Proof.Machine

/-! # The configuration and its image -/

namespace Sys2Proof.Machine

/-! ### Values brought into their ranges (R169, step 1) -/

theorem within_clamp {lo hi : Nat} (h : lo ≤ hi) (n : Nat) : within lo (clamp lo hi n) hi := by
  unfold clamp within; split_ifs <;> omega

theorem clamp_of_within {lo n hi : Nat} (h : within lo n hi) : clamp lo hi n = n := by
  unfold clamp within at *; split_ifs <;> omega

theorem oneOf_mem {set : List Nat} {dflt : Nat} (h : dflt ∈ set) (n : Nat) : oneOf set dflt n ∈ set := by
  unfold oneOf
  split
  · next hn => exact List.contains_iff_mem.mp hn
  · exact h

theorem oneOf_of_mem {set : List Nat} {n : Nat} (h : n ∈ set) (dflt : Nat) : oneOf set dflt n = n :=
  if_pos (List.contains_iff_mem.mpr h)

theorem weightOf_inForce (b : Byte) :
    weightOf b = .ratio 1 ∨ weightOf b = .ratio 2 ∨ weightOf b = .ratio 4 ∨ weightOf b = .strict := by
  unfold weightOf; split_ifs <;> simp

/-! ### The ladder (R129) -/

/-- A rung does not stand below another in its threshold or its rate. -/
abbrev Rung.le (a b : Rung) : Prop := a.threshold ≤ b.threshold ∧ a.rate ≤ b.rate

/-- A rung within the ranges of R129. -/
abbrev Rung.inRange (r : Rung) : Prop := r.threshold ≤ 1500 ∧ 80 ≤ r.rate ∧ r.rate ≤ 400

/-- A rung at or above the one before it (R129, steps 3 and 4). -/
def Rung.raisedTo (p r : Rung) : Rung := ⟨max p.threshold r.threshold, max p.rate r.rate⟩

theorem raiseLadder_cons (p r : Rung) (rest : List Rung) :
    raiseLadder p (r :: rest) = p.raisedTo r :: raiseLadder (p.raisedTo r) rest := rfl

theorem raisedTo_le (p r : Rung) : p.le (p.raisedTo r) := ⟨le_max_left _ _, le_max_left _ _⟩

theorem raisedTo_inRange {p r : Rung} (hp : p.inRange) (hr : r.inRange) : (p.raisedTo r).inRange :=
  ⟨max_le hp.1 hr.1, le_max_of_le_left hp.2.1, max_le hp.2.2 hr.2.2⟩

theorem raisedTo_of_le {p r : Rung} (h : p.le r) : p.raisedTo r = r := by
  unfold Rung.raisedTo; rw [max_eq_right h.1, max_eq_right h.2]

theorem raiseLadder_length (p : Rung) (l : List Rung) : (raiseLadder p l).length = l.length := by
  induction l generalizing p with
  | nil => rfl
  | cons r rest ih => rw [raiseLadder_cons, List.length_cons, List.length_cons, ih]

theorem raiseLadder_pairwise (p : Rung) (l : List Rung) : (p :: raiseLadder p l).Pairwise Rung.le := by
  induction l generalizing p with
  | nil => exact List.pairwise_singleton _ _
  | cons r rest ih =>
    have tail := ih (p.raisedTo r)
    have step := raisedTo_le p r
    refine List.pairwise_cons.mpr ⟨fun q hq => ?_, tail⟩
    obtain rfl | hq := List.mem_cons.mp hq
    · exact step
    · have above := List.rel_of_pairwise_cons tail hq
      exact ⟨step.1.trans above.1, step.2.trans above.2⟩

theorem raiseLadder_inRange {p : Rung} {l : List Rung} (hp : p.inRange) (hl : ∀ r ∈ l, r.inRange) :
    ∀ r ∈ raiseLadder p l, r.inRange := by
  induction l generalizing p with
  | nil => simp [raiseLadder]
  | cons r rest ih =>
    have raised := raisedTo_inRange hp (hl r (by simp))
    intro q hq
    obtain rfl | hq := List.mem_cons.mp hq
    · exact raised
    · exact ih raised (fun x hx => hl x (by simp [hx])) q hq

theorem raiseLadder_of_pairwise {p : Rung} {l : List Rung} (h : (p :: l).Pairwise Rung.le) : raiseLadder p l = l := by
  induction l generalizing p with
  | nil => rfl
  | cons r rest ih =>
    rw [raiseLadder_cons, raisedTo_of_le (List.rel_of_pairwise_cons h (by simp)), ih h.of_cons]

/-- A configured rung in its ranges (R129, step 1). -/
def Rung.clamped (r : Rung) : Rung := ⟨clamp 0 1500 r.threshold, clamp 80 400 r.rate⟩

theorem clamped_inRange (r : Rung) : r.clamped.inRange :=
  ⟨(within_clamp (Nat.zero_le _) _).2, within_clamp (by decide) _⟩

theorem clamped_of_inRange {r : Rung} (h : r.inRange) : r.clamped = r := by
  obtain ⟨threshold, rate⟩ := h
  unfold Rung.clamped
  rw [clamp_of_within ⟨Nat.zero_le _, threshold⟩, clamp_of_within rate]

theorem normaliseLadder_cons (r : Rung) (rest : List Rung) :
    normaliseLadder (r :: rest) =
      ⟨0, r.clamped.rate⟩ :: raiseLadder ⟨0, r.clamped.rate⟩ (rest.map Rung.clamped) := rfl

/-- Eight configured rungs of whatever values normalise to a ladder in force (R129). -/
theorem normaliseLadder_inForce {l : List Rung} (h : l.length = 8) : ladderInForce (normaliseLadder l) := by
  cases l with
  | nil => simp at h
  | cons r rest =>
    have first : (⟨0, r.clamped.rate⟩ : Rung).inRange := ⟨Nat.zero_le _, (clamped_inRange r).2⟩
    have others : ∀ q ∈ rest.map Rung.clamped, q.inRange := by
      simp only [List.forall_mem_map]
      exact fun q _ => clamped_inRange q
    rw [normaliseLadder_cons]
    refine ⟨?_, by simp, fun q hq => ?_, raiseLadder_pairwise _ _⟩
    · simpa [raiseLadder_length] using h
    · obtain rfl | hq := List.mem_cons.mp hq
      · exact first
      · exact raiseLadder_inRange first others q hq

/-- A ladder in force is normalised already (R129). -/
theorem normaliseLadder_of_inForce {l : List Rung} (h : ladderInForce l) : normaliseLadder l = l := by
  obtain ⟨-, zero, ranges, rises⟩ := h
  cases l with
  | nil => rfl
  | cons r rest =>
    have first : (⟨0, r.clamped.rate⟩ : Rung) = r := by
      rw [clamped_of_inRange (ranges r (by simp)), ← zero r rfl]
    have others : rest.map Rung.clamped = rest :=
      (List.map_congr_left fun q hq => clamped_of_inRange (ranges q (List.mem_cons_of_mem _ hq))).trans
        (List.map_id' rest)
    rw [normaliseLadder_cons, first, others, raiseLadder_of_pairwise rises]

/-! ### The limits, the durations and the ladder of a configuration in force -/

theorem Configuration.inForce.limits {c : Configuration} (h : c.inForce) :
    c.maxBody = 192 ∧ within 40 c.softLimit 120 ∧ within 60 c.hardLimit 140 ∧ c.softLimit ≤ c.hardLimit ∨
      c.maxBody = 96 ∧ within 40 c.softLimit 50 ∧ c.hardLimit = 50 := by
  obtain ⟨-, -, -, -, -, -, -, -, -, -, limits, -⟩ := h
  exact limits

theorem Configuration.inForce.durations {c : Configuration} (h : c.inForce) : c.dMin ≤ c.dMax := by
  obtain ⟨-, -, -, -, -, -, -, -, -, -, -, -, -, -, -, -, -, order, -⟩ := h
  exact order

theorem Configuration.inForce.ladder {c : Configuration} (h : c.inForce) : ladderInForce c.ladder := by
  obtain ⟨-, -, -, -, -, -, -, -, -, -, -, -, -, -, -, -, -, -, ladder, -⟩ := h
  exact ladder

/-! ### Every image forms a configuration in force (R169) -/

theorem configuredLadder_length (vs : List Byte) : (configuredLadder vs).length = 8 := by simp [configuredLadder]

/-- Steps 3 and 4 of R169 put the limits in their order and within the body. -/
theorem limits_inForce {body soft hard : Nat} (hb : body = 96 ∨ body = 192) (hs : within 40 soft 120)
    (hh : within 60 hard 140) :
    let hard' := min (max soft hard) (body - 46)
    body = 192 ∧ within 40 (min soft hard') 120 ∧ within 60 hard' 140 ∧ min soft hard' ≤ hard' ∨
      body = 96 ∧ within 40 (min soft hard') 50 ∧ hard' = 50 := by
  unfold within at *; omega

theorem formConfiguration_inForce (vs : List Byte) : (formConfiguration vs).1.inForce := by
  have dMin : within 10 (rangeStep vs).dMin 100 := within_clamp (by decide) _
  have dMax : within 50 (rangeStep vs).dMax 250 := within_clamp (by decide) _
  have rates : (rangeStep vs).frameRate ∈ [25, 30] := oneOf_mem (by decide) _
  have body : (rangeStep vs).maxBody ∈ [96, 192] := oneOf_mem (by decide) _
  have rows : (rangeStep vs).rows ∈ [2, 3] := oneOf_mem (by decide) _
  have raised : within 50 (max (rangeStep vs).dMin (rangeStep vs).dMax) 250 := by unfold within at *; omega
  simp only [List.mem_cons, List.not_mem_nil, or_false] at rates body rows
  exact ⟨rates, within_clamp (by decide) _, within_clamp (by decide) _, weightOf_inForce _,
    within_clamp (by decide) _, within_clamp (by decide) _, within_clamp (by decide) _, within_clamp (by decide) _,
    within_clamp (by decide) _, within_clamp (by decide) _,
    limits_inForce body (within_clamp (by decide) _) (within_clamp (by decide) _),
    within_clamp (by decide) _, within_clamp (by decide) _, within_clamp (by decide) _, within_clamp (by decide) _,
    dMin, raised, le_max_left _ _, normaliseLadder_inForce (configuredLadder_length vs), rows,
    within_clamp (by decide) _, within_clamp (by decide) _⟩

theorem default_inForce : Configuration.default.inForce := by decide

theorem loadImage_inForce (image : List Byte) : (loadImage image).1.inForce := by
  unfold loadImage
  simp only
  split
  · exact formConfiguration_inForce _
  · exact default_inForce

/-! ### Values read back from their bytes (Formats) -/

theorem roleOf_roleByte (r : Role) : roleOf (roleByte r) = r := by cases r <;> rfl

theorem edgeOf_byte (e : FpEdge) : edgeOf e.byte = e := by cases e <;> rfl

theorem lineRateOf_byte (r : LineRate) : lineRateOf r.byte = r := by cases r <;> rfl

theorem linkRateOf_byte (r : LinkRate) : linkRateOf r.byte = r := by cases r <;> rfl

theorem switchOf_switchByte (dflt b : Bool) : switchOf dflt (switchByte b) = b := by cases b <;> rfl

theorem weightOf_byte {w : AmendWeight} (h : w = .ratio 1 ∨ w = .ratio 2 ∨ w = .ratio 4 ∨ w = .strict) :
    weightOf w.byte = w := by
  obtain rfl | rfl | rfl | rfl := h <;> rfl

theorem byteOf_toNat {n : Nat} (h : n < 256) : (byteOf n).toNat = n :=
  (BitVec.toNat_ofNat ..).trans (Nat.mod_eq_of_lt h)

theorem ofBytes16_split {n : Nat} (h : n < 65536) : ofBytes16 (BitVec.ofNat 8 (n / 256)) (BitVec.ofNat 8 n) = n := by
  unfold ofBytes16
  rw [BitVec.toNat_ofNat, BitVec.toNat_ofNat]
  omega

theorem clamp_byte {lo n hi : Nat} (h : within lo n hi) (small : hi < 256) : clamp lo hi (byteOf n).toNat = n := by
  rw [byteOf_toNat (lt_of_le_of_lt h.2 small), clamp_of_within h]

theorem clamp_word {lo n hi : Nat} (h : within lo n hi) (small : hi < 65536) :
    clamp lo hi (ofBytes16 (BitVec.ofNat 8 (n / 256)) (BitVec.ofNat 8 n)) = n := by
  rw [ofBytes16_split (lt_of_le_of_lt h.2 small), clamp_of_within h]

theorem oneOf_byte {a b n : Nat} (h : n = a ∨ n = b) (ha : a < 256) (hb : b < 256) (dflt : Nat) :
    oneOf [a, b] dflt (byteOf n).toNat = n := by
  rw [byteOf_toNat (by omega), oneOf_of_mem (by simpa using h)]

theorem flagBytes_append (f : FlagWord) :
    f.extractLsb' 16 8 ++ f.extractLsb' 8 8 ++ f.extractLsb' 0 8 = f := by
  rw [BitVec.extractLsb'_append_extractLsb'_eq_extractLsb' (start₂ := 16) (start₁ := 8) rfl,
    BitVec.extractLsb'_append_extractLsb'_eq_extractLsb' (start₂ := 8) (start₁ := 0) rfl]
  exact BitVec.extractLsb'_eq_self

/-! ### The layout of the values (Formats): 28 bytes, the ladder's 32, and 9 more -/

theorem valueAt_drop (vs : List Byte) (k i : Nat) : valueAt (vs.drop k) i = valueAt vs (k + i) := by
  simp [valueAt, List.getD_eq_getElem?_getD, List.getElem?_drop]

theorem wordAt_drop (vs : List Byte) (k i : Nat) : wordAt (vs.drop k) i = wordAt vs (k + i) := by
  unfold wordAt; rw [valueAt_drop, valueAt_drop, Nat.add_assoc]

/-- The four bytes of a rung. -/
def Rung.bytes (r : Rung) : List Byte := beBytes16 r.threshold ++ beBytes16 r.rate

/-- The nine value bytes behind the ladder. -/
def Configuration.lastValues (c : Configuration) : List Byte :=
  [byteOf c.rows] ++ beBytes16 c.lamDrop ++
    [switchByte c.visibleAmends, byteOf c.zoneHold, c.inserterRate.byte,
      c.alertMask.extractLsb' 16 8, c.alertMask.extractLsb' 8 8, c.alertMask.extractLsb' 0 8]

theorem values_ladder (c : Configuration) : c.values.drop 28 = c.ladder.flatMap Rung.bytes ++ c.lastValues := by
  have bytes : Rung.bytes = fun r => beBytes16 r.threshold ++ beBytes16 r.rate := rfl
  simp [Configuration.values, Configuration.lastValues, beBytes16, bytes]

theorem rungBytes_length (l : List Rung) : (l.flatMap Rung.bytes).length = 4 * l.length := by
  induction l with
  | nil => rfl
  | cons r rest ih =>
    have four : r.bytes.length = 4 := rfl
    rw [List.flatMap_cons, List.length_append, ih, four, List.length_cons]
    omega

theorem values_last {c : Configuration} (h : c.ladder.length = 8) : c.values.drop 60 = c.lastValues := by
  have split : (c.values.drop 28).drop 32 = c.values.drop 60 := List.drop_drop
  rw [← split, values_ladder]
  exact List.drop_left' (by rw [rungBytes_length, h])

theorem values_length {c : Configuration} (h : c.ladder.length = 8) : c.values.length = 69 := by
  have front : (c.values.take 28).length = 28 := rfl
  rw [← List.take_append_drop 28 c.values, List.length_append, front, values_ladder, List.length_append,
    rungBytes_length, h]
  rfl

/-- A rung's two numbers read back from their bytes. -/
theorem wordAt_rungBytes {l : List Rung} (h : ∀ r ∈ l, r.inRange) (rest : List Byte) {j : Nat} {r : Rung}
    (hj : l[j]? = some r) :
    wordAt (l.flatMap Rung.bytes ++ rest) (4 * j) = r.threshold ∧
      wordAt (l.flatMap Rung.bytes ++ rest) (4 * j + 2) = r.rate := by
  induction l generalizing j with
  | nil => simp at hj
  | cons q l ih =>
    obtain ⟨threshold, -, rate⟩ := h q (by simp)
    cases j with
    | zero =>
      obtain rfl : q = r := by simpa using hj
      exact ⟨ofBytes16_split (by omega), ofBytes16_split (by omega)⟩
    | succ j =>
      have behind (i : Nat) : wordAt ((q :: l).flatMap Rung.bytes ++ rest) (4 + i) =
          wordAt (l.flatMap Rung.bytes ++ rest) i := (wordAt_drop _ 4 i).symm
      have tail := ih (fun x hx => h x (by simp [hx])) (by simpa using hj)
      rw [Nat.mul_succ, Nat.add_comm, Nat.add_assoc, behind, behind]
      exact tail

/-- A ladder in force is read back from its bytes. -/
theorem configuredLadder_values {c : Configuration} (h : ladderInForce c.ladder) :
    configuredLadder c.values = c.ladder := by
  obtain ⟨eight, -, ranges, -⟩ := h
  have shifted (i : Nat) : wordAt c.values (28 + i) = wordAt (c.ladder.flatMap Rung.bytes ++ c.lastValues) i := by
    rw [← values_ladder, wordAt_drop]
  refine List.ext_getElem (by simp [configuredLadder, eight]) fun j _ hj => ?_
  obtain ⟨threshold, rate⟩ := wordAt_rungBytes ranges c.lastValues (List.getElem?_eq_getElem hj)
  have second : 30 + 4 * j = 28 + (4 * j + 2) := by omega
  simp only [configuredLadder, List.getElem_map, List.getElem_range, second, shifted, threshold, rate]

theorem valueAt_cons_zero (b : Byte) (vs : List Byte) : valueAt (b :: vs) 0 = b := rfl

theorem valueAt_cons_succ (b : Byte) (vs : List Byte) (i : Nat) : valueAt (b :: vs) (i + 1) = valueAt vs i := rfl

/-- A configuration as step 1 of R169 reads it: the range it has for the hard limit does not hold the 50 that step 4
leaves with the shorter body. -/
def Configuration.ranged (c : Configuration) : Configuration := { c with hardLimit := clamp 60 140 c.hardLimit }

/-- Step 1 of R169 reads a configuration in force back from its values, but for a hard limit that the body lowered. -/
theorem rangeStep_values {c : Configuration} (h : c.inForce) : rangeStep c.values = c.ranged := by
  obtain ⟨rate, tally, quality, weight, beat, timeout, lapse, overlap, lag, pause, limits, trim, row, delay, gap,
    dMin, dMax, -, ladder, rows, drop, hold⟩ := h
  have body : c.maxBody = 96 ∨ c.maxBody = 192 := limits.symm.imp And.left And.left
  have soft : within 40 c.softLimit 120 := by unfold within at *; omega
  have hard : c.hardLimit < 256 := by unfold within at *; omega
  have rungs : normaliseLadder (configuredLadder c.values) = c.ladder :=
    (congrArg normaliseLadder (configuredLadder_values ladder)).trans (normaliseLadder_of_inForce ladder)
  have last (i : Nat) : valueAt c.values (60 + i) = valueAt c.lastValues i := by
    rw [← values_last ladder.1, valueAt_drop]
  simp only [rangeStep, rungs, natAt, wordAt, last 0, last 1, last 2, last 3, last 4, last 5, last 6, last 7, last 8]
  simp only [Configuration.values, Configuration.lastValues, beBytes16, List.cons_append, List.nil_append,
    List.append_assoc, valueAt_cons_zero, valueAt_cons_succ, Configuration.ranged, Configuration.mk.injEq]
  exact ⟨roleOf_roleByte _, oneOf_byte rate (by decide) (by decide) _, edgeOf_byte _, clamp_byte tally (by decide),
    lineRateOf_byte _, oneOf_byte body (by decide) (by decide) _, trivial, clamp_byte quality (by decide),
    weightOf_byte weight, clamp_byte beat (by decide), clamp_byte timeout (by decide), clamp_word lapse (by decide),
    clamp_word overlap (by decide), switchOf_switchByte _ _, linkRateOf_byte _, clamp_byte lag (by decide),
    clamp_byte pause (by decide), clamp_byte soft (by decide), congrArg _ (byteOf_toNat hard),
    clamp_byte trim (by decide), clamp_byte row (by decide), clamp_word delay (by decide), clamp_byte gap (by decide),
    clamp_byte dMin (by decide), clamp_byte dMax (by decide), trivial, oneOf_byte rows (by decide) (by decide) _,
    clamp_word drop (by decide), switchOf_switchByte _ _, clamp_byte hold (by decide), linkRateOf_byte _,
    flagBytes_append _⟩

/-! ### A configuration in force survives its image (R169) -/

/-- Steps 2 to 4 of R169 bring a configuration in force back from step 1's. -/
theorem laterSteps_ranged {c : Configuration} (h : c.inForce) :
    durationStep c.ranged = c.ranged ∧ limitStep c.ranged = c.ranged ∧ bodyStep c.ranged = c := by
  have order := h.durations
  have limits := h.limits
  have ordered : c.softLimit ≤ clamp 60 140 c.hardLimit := by
    unfold within clamp at *; split_ifs <;> omega
  have lowered : min (clamp 60 140 c.hardLimit) (c.maxBody - 46) = c.hardLimit := by
    unfold within clamp at *; split_ifs <;> omega
  have kept : min c.softLimit c.hardLimit = c.softLimit := by
    unfold within at *; omega
  unfold Configuration.ranged
  refine ⟨?_, ?_, ?_⟩
  · unfold durationStep; rw [max_eq_right order]
  · unfold limitStep; rw [max_eq_right ordered]
  · unfold bodyStep; simp only [lowered, kept]

/-- Step 1 changes a configuration in force with the shorter body alone. -/
theorem ranged_eq_iff {c : Configuration} (h : c.inForce) : c = c.ranged ↔ c.maxBody = 192 := by
  obtain ⟨body, -, hard, -⟩ | ⟨body, -, hard⟩ := h.limits
  · have same : c.ranged = c := by unfold Configuration.ranged; rw [clamp_of_within hard]
    simp [same, body]
  · have changed : c ≠ c.ranged := fun e => by
      have := congrArg Configuration.hardLimit e
      simp [Configuration.ranged, clamp, hard] at this
    simp [changed, body]

/-- The values of a configuration in force form it again, and a step changes one of them with the shorter body alone
(R169). -/
theorem formConfiguration_values {c : Configuration} (h : c.inForce) :
    formConfiguration c.values = (c, decide (c.maxBody = 96)) := by
  obtain ⟨duration, limit, lowered⟩ := laterSteps_ranged h
  have same := ranged_eq_iff h
  have bodies : c.maxBody = 192 ∨ c.maxBody = 96 := h.limits.imp And.left And.left
  unfold formConfiguration
  simp only [rangeStep_values h, duration, limit, lowered, bne_self_eq_false, Bool.or_false]
  obtain body | body := bodies
  · simp [← same.mpr body, body]
  · have changed : (c != c.ranged) = true := bne_iff_ne.mpr fun e => absurd (same.mp e) (by simp [body])
    simp [changed, body]

/-- The bytes of an image before its sum: the identifier, the length and the values (Formats). -/
def Configuration.summed (c : Configuration) : List Byte := [166#8, 22#8, 69#8] ++ c.values

theorem image_eq (c : Configuration) : c.image = c.summed ++ [sumBytes c.summed] := rfl

theorem summed_length {c : Configuration} (h : c.ladder.length = 8) : c.summed.length = 72 := by
  rw [Configuration.summed, List.length_append, values_length h]; rfl

theorem readImage_image {c : Configuration} (h : c.ladder.length = 8) : readImage c.image = c.image := by
  unfold readImage
  refine List.take_left' ?_
  rw [image_eq, List.length_append, summed_length h]; rfl

theorem imageValues_image {c : Configuration} (h : c.ladder.length = 8) : imageValues c.image = c.values := by
  unfold imageValues Configuration.image
  exact List.take_left' (values_length h)

/-- The image of a configuration has its identifier, its length and its sum (Formats). -/
theorem imageAccepted_image {c : Configuration} (h : c.ladder.length = 8) : imageAccepted c.image = true := by
  have front : c.image.take 72 = c.summed := List.take_left' (summed_length h)
  have behind : c.image.drop 72 = [sumBytes c.summed] := List.drop_left' (summed_length h)
  have sum : valueAt c.image 72 = sumBytes c.summed := by
    rw [← Nat.add_zero 72, ← valueAt_drop, behind, valueAt_cons_zero]
  unfold imageAccepted
  rw [front, sum, beq_self_eq_true]
  rfl

theorem loadImage_image {c : Configuration} (h : c.inForce) :
    loadImage c.image = (c, ⟨false, decide (c.maxBody = 96)⟩) := by
  obtain ⟨eight, -⟩ := h.ladder
  unfold loadImage
  simp only [readImage_image eight, imageAccepted_image eight, imageValues_image eight,
    formConfiguration_values h, if_true]

/-- Settles O12: the four steps leave every value in its range or set (`formConfiguration_inForce`), and step 1 reads a
configuration in force back from its bytes (`rangeStep_values`). -/
theorem configurationSurvivesItsImage : Obligations.ConfigurationSurvivesItsImage := by
  unfold Obligations.ConfigurationSurvivesItsImage
  exact ⟨loadImage_inForce, fun _ h => loadImage_image h⟩

end Sys2Proof.Machine

/-! # The timing arithmetic -/

namespace Sys2Proof.Machine

/-! ### Times near one frame (R130)

The order of R5 is no order of all the frame times, but it is one of the times within 2^30 frames of a frame K, where
each stands at its interval from K. -/

/-- A time within 2^30 frames of k (R130). -/
abbrev Near (k x : Frame) : Prop := -1073741824 < interval x k ∧ interval x k < 1073741824

theorem interval_of_near {k a b : Frame} (ha : Near k a) (hb : Near k b) :
    interval a b = interval a k - interval b k := by
  have split : a - b = (a - k) - (b - k) := (sub_sub_sub_cancel_right a b k).symm
  unfold Near interval at *
  rw [split, BitVec.toInt_sub, Int.bmod_eq_of_le] <;> omega

theorem laterOf_cases (a b : Frame) : laterOf a b = a ∨ laterOf a b = b := by
  unfold laterOf; split
  · exact .inr rfl
  · exact .inl rfl

theorem near_laterOf {k a b : Frame} (ha : Near k a) (hb : Near k b) : Near k (laterOf a b) := by
  obtain h | h := laterOf_cases a b <;> rw [h] <;> assumption

/-- The later of two times near k stands at the larger interval from it. -/
theorem interval_laterOf {k a b : Frame} (ha : Near k a) (hb : Near k b) :
    interval (laterOf a b) k = max (interval a k) (interval b k) := by
  have order : later b a = true ↔ interval a k < interval b k := by
    rw [later, decide_eq_true_iff, interval_of_near hb ha, sub_pos]
  unfold laterOf
  split
  · next h => exact (max_eq_right (order.mp h).le).symm
  · next h => exact (max_eq_left (not_lt.mp (mt order.mpr h))).symm

theorem latest_cons (t x : Frame) (ts : List Frame) : latest t (x :: ts) = latest (laterOf t x) ts := rfl

theorem latest_mem (t : Frame) (ts : List Frame) : latest t ts ∈ t :: ts := by
  induction ts generalizing t with
  | nil => exact List.mem_cons_self
  | cons x xs ih =>
    have tail := ih (laterOf t x)
    rw [latest_cons]
    obtain h | h := laterOf_cases t x <;> rw [h] at tail ⊢ <;> simp only [List.mem_cons] at tail ⊢ <;> tauto

/-- The largest of some times near k stands at or after each of them. -/
theorem interval_le_latest {k t : Frame} {ts : List Frame} (near : ∀ x ∈ t :: ts, Near k x) :
    ∀ x ∈ t :: ts, interval x k ≤ interval (latest t ts) k := by
  induction ts generalizing t with
  | nil => simp [latest]
  | cons y ys ih =>
    have ht := near t (by simp)
    have hy := near y (by simp)
    have both := interval_laterOf ht hy
    have rest : ∀ x ∈ laterOf t y :: ys, interval x k ≤ interval (latest (laterOf t y) ys) k :=
      ih fun x hx => by
        obtain rfl | hx := List.mem_cons.mp hx
        · exact near_laterOf ht hy
        · exact near x (by simp [hx])
    have first := rest (laterOf t y) List.mem_cons_self
    rw [latest_cons]
    intro x hx
    obtain rfl | rfl | hx := by simpa using hx
    · omega
    · omega
    · exact rest x (by simp [hx])

/-- The number of frames to a time from one it stands at or after (R133). -/
theorem framesBetween_of_near {k a b : Frame} (ha : Near k a) (hb : Near k b) (h : interval b k ≤ interval a k) :
    ((a - b).toNat : Int) = interval a k - interval b k := by
  have between := interval_of_near ha hb
  unfold interval at between h ⊢
  rw [BitVec.toInt_eq_toNat_cond] at between
  split at between <;> omega

/-! ### The onset and the latenesses (R131 to R133) -/

/-- The onset is one of its terms, and stands at or after each of them (R132). -/
theorem stage2_largest {g dMin : Nat} {tIdeal k : Frame} {before rBefore : Option Frame}
    (near : ∀ x ∈ onsetTerms g dMin tIdeal k before rBefore, Near k x) :
    stage2 g dMin tIdeal k before rBefore ∈ onsetTerms g dMin tIdeal k before rBefore ∧
      ∀ x ∈ onsetTerms g dMin tIdeal k before rBefore,
        interval x k ≤ interval (stage2 g dMin tIdeal k before rBefore) k := by
  have ideal : tIdeal ∈ onsetTerms g dMin tIdeal k before rBefore := by simp [onsetTerms]
  unfold stage2
  refine ⟨?_, fun x hx => interval_le_latest ?_ x (List.mem_cons_of_mem _ hx)⟩
  · obtain h | h := List.mem_cons.mp (latest_mem tIdeal (onsetTerms g dMin tIdeal k before rBefore))
    · rw [h]; exact ideal
    · exact h
  · intro y hy
    obtain rfl | hy := List.mem_cons.mp hy
    · exact near _ ideal
    · exact near y hy

/-- The queue lateness is the smaller of the two spans that end at the onset (R133). -/
theorem queueLateness_eq {tOn tIdeal k : Frame} (hOn : Near k tOn) (hIdeal : Near k tIdeal)
    (hNext : Near k (k + 1#32)) (ideal : interval tIdeal k ≤ interval tOn k)
    (next : interval (k + 1#32) k ≤ interval tOn k) :
    queueLateness tOn tIdeal k = min (min (tOn - tIdeal).toNat (tOn - (k + 1#32)).toNat) 65535 := by
  have larger := interval_laterOf hIdeal hNext
  have fromLarger := framesBetween_of_near hOn (near_laterOf hIdeal hNext) (by omega)
  have fromIdeal := framesBetween_of_near hOn hIdeal ideal
  have fromNext := framesBetween_of_near hOn hNext next
  have smaller : framesBetween tOn (laterOf tIdeal (k + 1#32)) =
      min (tOn - tIdeal).toNat (tOn - (k + 1#32)).toNat := by
    unfold framesBetween; omega
  exact congrArg sat16 smaller

/-- Settles O42: among times near K the order of R5 is that of their intervals from K (`interval_of_near`), so the
onset is the largest of its terms (`stage2_largest`) and the latenesses are its intervals from the first two. -/
theorem onsetAndLateness : Obligations.OnsetAndLateness := by
  unfold Obligations.OnsetAndLateness
  intro env k ahead c _ t terms near
  have same : onsetTerms env.cfg.onsetGap env.cfg.dMin t.tIdeal k (ahead[0]?.map (·.tOn))
      (ahead[env.reff - 1]?.map (·.tOn)) = terms := by
    simp only [onsetTerms, Option.map_map]; rfl
  obtain ⟨one, largest⟩ : t.tOn ∈ terms ∧ ∀ x ∈ terms, interval x k ≤ interval t.tOn k :=
    same ▸ stage2_largest (same ▸ near)
  have ideal : t.tIdeal ∈ terms := by simp [terms]
  have next : k + 1#32 ∈ terms := by simp [terms]
  refine ⟨rfl, one, fun x hx => ?_, rfl, ?_⟩
  · rw [interval_of_near (near _ one) (near x hx)]
    exact sub_nonneg.mpr (largest x hx)
  · exact queueLateness_eq (near _ one) (near _ ideal) (near _ next) (largest _ ideal) (largest _ next)

end Sys2Proof.Machine

/-! # The rung and the duration -/

namespace Sys2Proof.Machine

/-! ### The rung (R134) -/

/-- The places of the rungs whose threshold a queue lateness reaches. -/
def rungsReached (ladder : List Rung) (lamQ : Nat) : List Nat :=
  (List.range ladder.length).filter fun i =>
    match ladder[i]? with
    | some r => decide (r.threshold ≤ lamQ)
    | none => false

theorem mem_rungsReached {ladder : List Rung} {lamQ i : Nat} :
    i ∈ rungsReached ladder lamQ ↔ ∃ r, ladder[i]? = some r ∧ r.threshold ≤ lamQ := by
  unfold rungsReached
  rw [List.mem_filter, List.mem_range]
  cases h : ladder[i]? with
  | none => simp
  | some r => simp [(List.getElem?_eq_some_iff.mp h).1]

/-- The rung is the largest of 0 and the places reached. -/
theorem rungOf_max (ladder : List Rung) (lamQ : Nat) :
    rungOf ladder lamQ ∈ 0 :: rungsReached ladder lamQ ∧
      ∀ i ∈ 0 :: rungsReached ladder lamQ, i ≤ rungOf ladder lamQ :=
  List.max?_eq_some_iff.mp (List.max?_cons' (x := 0) (xs := rungsReached ladder lamQ))

/-- Under a ladder in force the rung is the highest that the queue lateness reaches; it reaches rung 0 always (R129,
R134). -/
theorem rungOf_highest {ladder : List Rung} (h : ladderInForce ladder) (lamQ : Nat) :
    ∃ r, ladder[rungOf ladder lamQ]? = some r ∧ r.threshold ≤ lamQ ∧
      ∀ j r', ladder[j]? = some r' → rungOf ladder lamQ < j → lamQ < r'.threshold := by
  obtain ⟨eight, zero, -, -⟩ := h
  obtain ⟨mem, largest⟩ := rungOf_max ladder lamQ
  have lowest : 0 ∈ rungsReached ladder lamQ := by
    cases ladder with
    | nil => simp at eight
    | cons r rest => exact mem_rungsReached.mpr ⟨r, rfl, by simp [zero r rfl]⟩
  have reached : rungOf ladder lamQ ∈ rungsReached ladder lamQ := by
    obtain e | e := List.mem_cons.mp mem
    · rwa [e]
    · exact e
  obtain ⟨r, place, low⟩ := mem_rungsReached.mp reached
  refine ⟨r, place, low, fun j r' place' above => ?_⟩
  by_contra within
  have := largest j (List.mem_cons_of_mem _ (mem_rungsReached.mpr ⟨r', place', not_lt.mp within⟩))
  omega

/-! ### The duration (R135 to R138) -/

/-- What stages 5 to 7 leave of a cue at a rung whose rate is not 0 (R135 to R137). -/
theorem durationOnly_lasts (cfg : Configuration) {c : Cue} {r : Rung} (rung : cfg.ladder[c.rung]? = some r)
    (rate : 0 < r.rate) :
    (∃ dRead : Nat, c.n * cfg.frameRate * 10 ≤ dRead * r.rate ∧
      (∀ m, c.n * cfg.frameRate * 10 ≤ m * r.rate → dRead ≤ m) ∧
      (c.durationOnly cfg).d = min cfg.dMax (max cfg.dMin (max dRead (c.e - c.s).toNat))) ∧
    (cfg.dMin ≤ cfg.dMax → cfg.dMin ≤ (c.durationOnly cfg).d ∧ (c.durationOnly cfg).d ≤ cfg.dMax) ∧
    (c.durationOnly cfg).tOff = (c.durationOnly cfg).tOn + BitVec.ofNat 32 (c.durationOnly cfg).d := by
  obtain ⟨off, most, -⟩ := durationOnly_kept cfg c
  obtain ⟨enough, least⟩ := stage5_least cfg.frameRate c.n r.rate rate
  have reads : rateOf cfg.ladder c.rung = r.rate := by rw [rateOf, rung]; rfl
  exact ⟨⟨_, enough, least, reads ▸ rfl⟩, fun h => ⟨dMin_le_stage6 _ _ _ _ h, most⟩, off⟩

/-- Settles O43: the rung is the highest that the queue lateness reaches (`rungOf_highest`), its rate is at least 80 in
a ladder in force, and both forms end in stages 5 to 7 (`durationOnly_lasts`). -/
theorem rungAndDuration : Obligations.RungAndDuration := by
  unfold Obligations.RungAndDuration
  intro env c inForce lasts
  have rate {i : Nat} {r : Rung} (h : env.cfg.ladder[i]? = some r) : 0 < r.rate := by
    obtain ⟨-, -, ranges, -⟩ := inForce
    have := ranges r (List.mem_of_getElem? h)
    omega
  constructor
  · intro k ahead t
    obtain ⟨r, rung, reached, above⟩ := rungOf_highest inForce t.lamQ
    have last : t.rung < env.cfg.ladder.length := (List.getElem?_eq_some_iff.mp rung).1
    rw [inForce.1] at last
    exact ⟨r, rung, Nat.le_of_lt_succ last, reached, above, durationOnly_lasts env.cfg (c := t) rung (rate rung)⟩
  · exact fun r rung => ⟨durationOnly_lasts env.cfg rung (rate rung), rfl⟩

end Sys2Proof.Machine

/-! # The zone at a tick -/

namespace Sys2Proof.Machine

/-! ### A tick that leaves the second stage of the screen (R159; log entry 6) -/

/-- The work of a quiet tick outside the screen, with no timer left. -/
theorem tickWork_quiet (gzl gzu : Bool) (s : State) (h : s.quiet) :
    (s.settle.advance gzl gzu).tickWork [] = s.ticked gzl gzu [] := by
  have unhurried := unhurried_advance gzl gzu h
  have settled := settle_quiet s h
  obtain ⟨-, -, -, -, pause, lapse, overlap, -⟩ := h
  rw [settled, tickWork_unhurried [] (s.advance gzl gzu) unhurried (by simp) rfl (oneShot_running pause)
    (oneShot_running lapse) (oneShot_running overlap)]
  rfl

/-- At a quiet tick that leaves CUE_EXPIRES to a step of its own, an output takes the first stage of the screen
alone. -/
theorem tick_zoneStage (gzl gzu : Bool) (s : State) (h : s.quiet) (out : s.hasOutput = true) :
    s.tick gzl gzu [.cueExpires] = { (s.ticked gzl gzu []).zoneStage with screenDue := .expiry } := by
  have work : (s.settle.advance gzl gzu).tickWork [.cueExpires] = s.ticked gzl gzu [] := tickWork_quiet gzl gzu s h
  unfold State.tick State.screenTick
  rw [work, show (s.ticked gzl gzu []).hasOutput = true from out]
  rfl

/-! ### The zone (R162, R163) -/

/-- Some cues leave the screen: the records that are none of theirs stay (R150, R160). -/
theorem reportLeft_eq (gone : List VisibleCue) (s : State) :
    s.reportLeft gone = { s with
      sched.cues := s.sched.cues.filter fun c => gone.all fun v => v.number != c.number } := by
  have removed (h : Schedule) : gone.foldl (fun h v => h.remove v.number) h =
      { h with cues := h.cues.filter fun c => gone.all fun v => v.number != c.number } := by
    induction gone generalizing h with
    | nil => simp
    | cons v gone ih =>
      rw [List.foldl_cons, ih]
      simp only [Schedule.remove, List.filter_filter, List.all_cons, Bool.and_comm, bne_comm]
  exact congrArg (fun h => { s with sched := h }) (removed s.sched)

theorem holdPassed_iff (now : Frame) (hold : Nat) (c : Screen) :
    c.holdPassed now hold = true ↔ ∀ f ∈ c.lastChange, (hold : Int) ≤ interval now f := by
  unfold Screen.holdPassed
  cases c.lastChange <;> simp

theorem zoneStage_stands {s : State} (h : zoneAsked s.clock.gzl s.clock.gzu = s.screen.zone ∨
    s.screen.holdPassed s.clock.count s.cfg.zoneHold = false) : s.zoneStage = s := by
  unfold State.zoneStage
  exact if_pos (by obtain h | h := h <;> simp [h])

section
variable {s : State} {z : Zone} (asked : zoneAsked s.clock.gzl s.clock.gzu = z) (new : z ≠ s.screen.zone)
  (passed : s.screen.holdPassed s.clock.count s.cfg.zoneHold = true)
include asked new passed

/-- A change to BOTTOM or TOP, out of CONFLICT with a recompute for the configured rows (R128, R162, R163). -/
theorem zoneStage_moves (calm : z ≠ .conflict) :
    s.zoneStage = { s with
      screen := s.screen.takeZone z s.clock.count
      sched := if s.screen.zone = .conflict then
        { s.sched with cues := recompute ⟨s.cfg, s.cfg.rows⟩ s.clock.count s.sched.cues } else s.sched } := by
  have rows : rowsInEffect s.cfg z = s.cfg.rows := if_neg calm
  unfold State.zoneStage
  simp only [asked, new, passed, calm, decide_false, Bool.not_true, Bool.or_self, Bool.false_eq_true, if_false]
  split
  · rw [← rows]; rfl
  · rfl

/-- The entry into CONFLICT (R162, R163). -/
theorem zoneStage_conflict (conflict : z = .conflict) :
    s.zoneStage = { s with
      screen := { s.screen.takeZone .conflict s.clock.count with
        visible := s.screen.visible.drop (s.screen.visible.length - 1)
        conflicts := rise s.screen.conflicts 1 }
      flags := s.flags ||| Flag.mask .outZoneConflict
      sched := { s.sched with
        cues := recompute ⟨s.cfg, 1⟩ s.clock.count
          (s.sched.cues.filter fun c =>
            (s.screen.visible.take (s.screen.visible.length - 1)).all fun v => v.number != c.number) } } := by
  subst conflict
  unfold State.zoneStage
  simp only [asked, new, passed, decide_false, Bool.not_true, Bool.or_self, Bool.false_eq_true, if_false, if_true]
  exact congrArg State.recomputeNow (reportLeft_eq _ _)

end

/-- The zone's stage touches the screen, the schedule and the flags alone. -/
theorem zoneStage_frame (s : State) :
    s.zoneStage = { s with
      screen := s.zoneStage.screen, sched := s.zoneStage.sched, flags := s.zoneStage.flags } := by
  unfold State.zoneStage
  simp only
  split
  · rfl
  · split
    · rfl
    · split <;> rfl

/-- Settles O44: the tick takes the first stage of the screen alone (`tick_zoneStage`), which the levels and the zone
hold decide. -/
theorem zoneFollowsTallyInputs : Obligations.ZoneFollowsTallyInputs := by
  unfold Obligations.ZoneFollowsTallyInputs
  intro gzl gzu s h role now asked may
  have ⟨running, released, _⟩ := h
  let u := (s.withRef .locked).ticked gzl gzu []
  have tick : s.fpEdge s.cfg.fpEdge gzl gzu [.cueExpires] = { u.zoneStage with screenDue := .expiry } :=
    (fpEdge_active _ gzl gzu _ s running released rfl).trans
      (tick_zoneStage gzl gzu (s.withRef .locked) h ((hasOutput_iff _).mpr role))
  have passed : u.screen.holdPassed u.clock.count u.cfg.zoneHold = true ↔ may := holdPassed_iff now _ s.screen
  refine ⟨_, congrArg Host.Outcome.next tick, rfl, ?_, ?_, ?_, fun stands => ?_, fun new free =>
    ⟨fun calm => ?_, fun conflict => ?_⟩⟩
  · rw [zoneStage_frame]; rfl
  · rw [zoneStage_frame]; rfl
  · rw [zoneStage_frame]; rfl
  · rw [zoneStage_stands (s := u) (stands.imp_right fun no => by rwa [← Bool.not_eq_true, passed])]
    exact ⟨rfl, rfl, rfl⟩
  · rw [zoneStage_moves (s := u) (z := asked) rfl new (passed.mpr free) calm]
    exact ⟨rfl, rfl, rfl⟩
  · rw [zoneStage_conflict (s := u) (z := asked) rfl new (passed.mpr free) conflict]
    exact ⟨rfl, rfl, rfl⟩

end Sys2Proof.Machine
